-- ==== Sys2Proof/Word.lean ====
section
/-! DEFINITION. The words of the two interfaces that carry bits, and the levels of a line.
A quantity of the manual that has a unit and a range (a target, a flow, a count) is a `Nat` or an `Int`; only what the
record port carries as bits, or what the manual treats as a set of members, is a bit vector. -/

namespace Sys2Proof

/-- One byte of a frame. -/
abbrev Byte := BitVec 8

/-- A 16-bit field of a frame: TAG, VALUE, ARG, CHECK (R179). -/
abbrev Half := BitVec 16

/-- The 48-bit VALUE of an answer frame (R179). -/
abbrev Wide := BitVec 48

/-- A frame of the record port, 12 bytes, byte 0 first, the most significant bit of each byte first (R179). -/
abbrev Frame := BitVec 96

/-- The level of a discrete line or of a wellhead input. -/
inductive Level where
  | low
  | high
  deriving DecidableEq, Repr

/-- The order in which a group's four positions are visited, as the ORDER strap says (R177). -/
inductive VisitOrder where
  | linear
  | interleaved
  deriving DecidableEq, Repr

/-- The two straps, read at power-on and at each device reset (R165, R167). -/
structure Straps where
  unit  : BitVec 4
  order : VisitOrder
  deriving DecidableEq, Repr

end Sys2Proof
end

