-- ==== Sys2Proof/Syntax.lean ====
section
/-! DEFINITION. The commands: one constructor of `Instr` for each row of the table of operations and events, with its
operands. A command is taken whole (R13, and the file on what each step holds). -/

namespace Sys2Proof

/-- The fields of a request frame after UNIT and CODE have been judged (R179). Every request carries all of them; each
entry of the Request Reference says which it reads. -/
structure Request where
  seq   : BitVec 4
  tag   : Half
  field : Byte
  mask  : Byte
  value : Half
  arg   : Half
  deriving DecidableEq, Repr

/-- One value for each of the four contact inputs of a channel (chapter 4). -/
structure PerInput (α : Type) where
  button   : α
  cap      : α
  actuator : α
  liquid   : α
  deriving DecidableEq, Repr

/-- What a READINGS frame carries for one channel (R50); `none` is a reading marked not measured. -/
structure ChannelReading where
  channel  : Nat
  raw      : PerInput Level
  feedback : Nat
  vacuum   : Option Half
  flow     : Option Half
  temp     : Option Int
  deriving DecidableEq, Repr

/-- A frame of the field scan link as it arrives: every byte before the check, and the 16-bit check it closes with (R50,
log 9). -/
structure LinkFrame where
  bytes : List Byte
  check : Half
  deriving DecidableEq, Repr

/-- A reply of the field scan link: the address it carries, and the frame it arrived as (R50). -/
structure StationReply where
  address : Nat
  frame   : LinkFrame
  deriving DecidableEq, Repr

/-- One flag for each block that does something of its own at a change of the device state (R160): the move scheduler,
the sequencer, the blend unit and the scan engine. -/
structure Handover where
  moves     : Bool
  sequencer : Bool
  blend     : Bool
  scan      : Bool
  deriving DecidableEq, Repr

/-- Two sets of blocks combined block by block. -/
def Handover.map₂ (f : Bool → Bool → Bool) (h k : Handover) : Handover :=
  { moves := f h.moves k.moves, sequencer := f h.sequencer k.sequencer, blend := f h.blend k.blend,
    scan := f h.scan k.scan }

/-- No block. -/
def Handover.none : Handover := { moves := false, sequencer := false, blend := false, scan := false }

/-- Why an exchange is a deselect (R169). -/
inductive DeselectCause where
  /-- the frame names another unit -/
  | otherUnit
  /-- the frame fails its check -/
  | badCheck
  deriving DecidableEq, Repr

/-- The contents of a reply that shows the analyser alive (R103). -/
inductive LiveReply where
  | values (ch4 co2 o2 : Half)
  | busy
  deriving DecidableEq, Repr

/-- The commands of the part, one for each row of the table. -/
inductive Instr where
  /-- POWER_ON: power is applied, with the straps and the SUCTION line as they then stand (R167). -/
  | powerOn (straps : Straps) (suction : Level)
  /-- RESET_LINE: the RESET line is asserted, with the straps as they then stand (R165). -/
  | resetLine (straps : Straps)
  /-- SECOND_TICK (R1). `late` names the blocks that will take a change of the device state late in the second that
  begins: R160 hands each block the change as an event of its own, and does not say when the block takes it (log 15).
  Where nothing is said of them, there are none. -/
  | secondTick (late : Handover := Handover.none)
  /-- MINUTE_TICK (R1). -/
  | minuteTick
  /-- PURGE_PULSE_END of the well with this tag (R121). -/
  | purgePulseEnd (tag : Nat)
  /-- MOVE_TIMER_EXPIRY of the holder with this tag (R117). -/
  | moveTimerExpiry (tag : Nat)
  /-- PURGE_TIMER_EXPIRY (R96). -/
  | purgeTimerExpiry
  /-- ANALYSER_TIMER_EXPIRY (R100). -/
  | analyserTimerExpiry
  /-- BUSY_WAIT_EXPIRY (R101). -/
  | busyWaitExpiry
  /-- PROBE_TIMER_EXPIRY (R103). -/
  | probeTimerExpiry
  /-- HOLD_TIMER_EXPIRY (R142). -/
  | holdTimerExpiry
  /-- SUCTION_CHANGE to this level (R145). -/
  | suctionChange (level : Level)
  /-- HOLD_EXCHANGE: an exchange under HOLD (R174). -/
  | holdExchange
  /-- DESELECT (R171). -/
  | deselect (cause : DeselectCause)
  /-- NOP (R180). -/
  | nop (r : Request)
  /-- ENROL (R6, R181). -/
  | enrol (r : Request)
  /-- RETIRE (R39, R42, R182). -/
  | retire (r : Request)
  /-- LOOKUP (R183). -/
  | lookup (r : Request)
  /-- AMEND (R11, R16, R184). -/
  | amend (r : Request)
  /-- SET (R12, R185). -/
  | setMembers (r : Request)
  /-- CLEAR (R12, R185). -/
  | clearMembers (r : Request)
  /-- ACK (R79, R186). -/
  | ack (r : Request)
  /-- CLAIM (R22, R187). -/
  | claim (r : Request)
  /-- RELEASE (R23, R187). -/
  | release (r : Request)
  /-- MODE (R33 to R35, R188). -/
  | modeRequest (r : Request)
  /-- SAMPLE (R91, R188). -/
  | sample (r : Request)
  /-- PURGE (R121, R188). -/
  | purge (r : Request)
  /-- FIND (R7, R189). -/
  | find (r : Request)
  /-- GROUPLOOK (R177, R190). -/
  | groupLook (r : Request)
  /-- GROUPAMEND (R177, R190). -/
  | groupAmend (r : Request)
  /-- CONTINUE (R178, R190). -/
  | continueGroup (r : Request)
  /-- EXTEND (R176, R191). -/
  | extend (r : Request)
  /-- STANDBY (R161, R192). -/
  | standby (r : Request)
  /-- RESUME (R158, R164, R192). -/
  | resume (r : Request)
  /-- CLEARFAULTS (R153, R192). -/
  | clearFaults (r : Request)
  /-- RESET, with the straps as they stand when it is taken (R165, R175, R192). -/
  | reset (r : Request) (straps : Straps)
  /-- ACCEPT: the first frame of the reply window is this ACCEPT (R51, R55). -/
  | accept (reply : StationReply)
  /-- READINGS: the first frame of the reply window is this READINGS, with what it carries for each channel (R51, R60).
  `orders` is the order in which the events that each channel's arrival hands to different blocks reach them, which R73
  leaves open: one list of picks for each channel (log 5). -/
  | readings (reply : StationReply) (channels : List ChannelReading) (orders : List (List Nat))
  /-- REFUSED: the first frame of the reply window is this REFUSED (R51, R63). -/
  | refused (reply : StationReply)
  /-- TRANSACTION_FAILURE: the reply window closes with no valid reply, or a frame of no kind of R50 is its first (R51,
  R56). -/
  | transactionFailure
  /-- VALUES with this transaction number (R97, R99). -/
  | values (number : Byte) (ch4 co2 o2 : Half)
  /-- ANALYSER_FAULT_REPLY: a FAULT frame with this number (R97, R100). -/
  | analyserFaultReply (number : Byte)
  /-- BUSY with this number (R97, R101). -/
  | busy (number : Byte)
  /-- PROBE_REPLY: a VALUES or BUSY frame with this number that answers a probe (R103). -/
  | probeReply (number : Byte) (reply : LiveReply)
  /-- ANALYSER_FRAME_DISCARD: a frame of the analyser link that R98 discards. -/
  | analyserFrameDiscard
  /-- UNKNOWN_REQUEST: an addressed exchange whose CODE names no request (R172). -/
  | unknownRequest (r : Request) (code : Byte)
  /-- SCAN_FRAME_DISCARD: a frame of the field scan link that R49, R48 or R54 discards. -/
  | scanFrameDiscard
  /-- PROBE_FAULT_REPLY: a FAULT frame with this number that answers a probe (R103). -/
  | probeFaultReply (number : Byte)
  deriving DecidableEq, Repr

end Sys2Proof
end

