-- ==== Sys2Proof/Config.lean ====
section
/-! DEFINITION. The constants the manual fixes for the part, and the one value it leaves open: the bytes of the frames
the part sends on its two links, whose contents R50 and R97 give and whose layout they do not (log 22). What else is open
is a choice of the outside world, and it is an operand of a command (log 3, log 5, log 15). -/

namespace Sys2Proof.Config

/-- Number of record slots (R2). -/
def slotCount : Nat := 160

/-- Most entries the sample queue holds (R86). -/
def queueCapacity : Nat := 16

/-- Highest station address (R46). -/
def maxAddress : Nat := 62

/-- Highest channel of a station (R46). -/
def maxChannel : Nat := 3

/-- Where a station's failure count stops (R56). -/
def maxFailures : Nat := 8

/-- The failure count at which the sequencer enters OFFLINE (R102). -/
def offlineCount : Nat := 3

/-- The BUSY count at which a sample ends NOT_READY (R101). -/
def busyLimit : Nat := 3

/-- Length of a BUSY wait in seconds (R101). -/
def busyWaitSeconds : Nat := 10

/-- Length of the probe timer in seconds (R103). -/
def probeSeconds : Nat := 60

/-- Most extension words the port holds (R176). -/
def maxWords : Nat := 2

/-- Where SAMPLE_AGE stops (R90). -/
def maxSampleAge : Nat := 65535

/-- Largest gas reading in hundredths of a percent (00_scope.md, Conventions). -/
def fullScale : Nat := 10000

/-- Full valve travel in per mille (00_scope.md, Conventions). -/
def fullTravel : Nat := 1000

/-- The methane margin above CH4_FLOOR that room to open asks for (R131). -/
def openMargin : Nat := 500

/-- Draw units in one cubic metre: tenths of a cubic metre per hour, summed over minutes (R146). -/
def drawUnit : Nat := 600

/-! ### The frames the part sends on its links -/

/-- What a POLL carries for one channel (R50). -/
structure PollLine where
  channel     : Nat
  lampCode    : Nat
  valvePower  : Bool
  sampleValve : Bool
  purge       : Bool
  position    : Nat
  deriving DecidableEq, Repr

/-- The contents of a frame the part sends: SETUP and POLL on the field scan link (R50), MEASURE on the analyser link
(R97). -/
inductive LinkContents where
  | setup (address : Nat) (channels : List Nat)
  | poll (address : Nat) (channels : List PollLine)
  | measure (number : BitVec 8)
  deriving DecidableEq, Repr

/-- The bytes of a frame before its check. The manual gives no layout of them, so this is a free value: nothing
constrains it (DESIGN CHOICE, log 22). -/
opaque linkBytes : LinkContents → List (BitVec 8)

end Sys2Proof.Config
end

