-- ==== Sys2Proof/WellFormed.lean ====
section
/-! DEFINITION. Which commands can reach the part: an operand lies where its line, link or frame can carry it. The
meanings are total and do not read this check; statements use it where a value outside these bounds could not arrive. -/

namespace Sys2Proof

/-- Number of request codes: CODE 0 to 21 name a request (R179). -/
def requestCodes : Nat := 22

/-- A tag that can name a well record (R4). -/
def isWellTag (tag : Nat) : Bool := decide (1 ≤ tag) && decide (tag ≤ 65534)

/-- An address a station can be strapped to (R46). -/
def isStationAddress (a : Nat) : Bool := decide (1 ≤ a) && decide (a ≤ Config.maxAddress)

/-- The channel numbers of a READINGS frame ascend (R50). -/
def channelsAscend : List ChannelReading → Bool
  | a :: b :: rest => decide (a.channel < b.channel) && channelsAscend (b :: rest)
  | _ => true

/-- What one channel of a READINGS frame can carry: a channel of a station, a feedback of at most 16 bits and a
temperature of 16 bits in two's complement. Values outside the ranges of R51 can be carried, and fail the transaction. -/
def ChannelReading.wellFormed (c : ChannelReading) : Bool :=
  decide (c.channel ≤ Config.maxChannel) && decide (c.feedback ≤ 65535) &&
  (match c.temp with
   | none => true
   | some t => decide (-32768 ≤ t) && decide (t ≤ 32767))

/-- A frame of the field scan link begins with an address, so it has a byte before its check (R50). -/
def LinkFrame.wellFormed (f : LinkFrame) : Bool := !f.bytes.isEmpty

/-- A reply carries an address a station can be strapped to. -/
def StationReply.wellFormed (r : StationReply) : Bool := isStationAddress r.address && r.frame.wellFormed

/-- The commands whose operands lie where the interface can carry them. -/
def Instr.wellFormed : Instr → Bool
  | .purgePulseEnd tag => isWellTag tag
  | .moveTimerExpiry tag => isWellTag tag
  | .accept reply => reply.wellFormed
  | .readings reply channels _ =>
    reply.wellFormed && channelsAscend channels && channels.all ChannelReading.wellFormed
  | .refused reply => reply.wellFormed
  | .unknownRequest _ code => decide (requestCodes ≤ code.toNat)
  | .powerOn _ _ | .resetLine _ | .secondTick _ | .minuteTick | .purgeTimerExpiry | .analyserTimerExpiry
  | .busyWaitExpiry | .probeTimerExpiry | .holdTimerExpiry | .suctionChange _ | .holdExchange | .deselect _
  | .nop _ | .enrol _ | .retire _ | .lookup _ | .amend _ | .setMembers _ | .clearMembers _ | .ack _ | .claim _
  | .release _ | .modeRequest _ | .sample _ | .purge _ | .find _ | .groupLook _ | .groupAmend _ | .continueGroup _
  | .extend _ | .standby _ | .resume _ | .clearFaults _ | .reset _ _ | .transactionFailure | .values _ _ _ _
  | .analyserFaultReply _ | .busy _ | .probeReply _ _ | .analyserFrameDiscard | .scanFrameDiscard
  | .probeFaultReply _ => true

end Sys2Proof
end

