-- ==== Sys2Proof/Decode.lean ====
section
/-! DEFINITION. The frames as bits: the CHECK of R170 over a record port frame and over a link frame (R50, R97), the
classing of an exchange into the command it is for this part (R169, R172), and the encoder of request frames. The table
of commands gives no row any bits, so `decodeTableWord` spells no command. -/

namespace Sys2Proof

/-- The command that a word spells by the bits of the table: the table gives no row bits, so no word spells one. -/
def decodeTableWord (_nbits _w : Nat) : Option Instr := none

/-- One bit of the division of R170: the remainder takes the bit `b`, the generator being x¹⁶ + x¹⁵ + x² + 1. -/
def checkBit (rem : Half) (b : Bool) : Half :=
  if rem.getLsbD 15 ^^ b then (rem <<< 1) ^^^ 0x8005#16 else rem <<< 1

/-- The remainder after the bits `n - 1` down to 0 of `body`, most significant first. -/
def checkBits {w : Nat} (body : BitVec w) : Nat → Half → Half
  | 0, rem => rem
  | n + 1, rem => checkBits body n (checkBit rem (body.getLsbD n))

/-- CHECK over `body` (R170): the remainder from a start value of 0, with its lowest bit inverted. -/
def frameCheck {w : Nat} (body : BitVec w) : Half := checkBits body w 0 ^^^ 1#16

/-- The check of a link frame: formed as R170 forms CHECK, over every byte before it (R50, R97). -/
def linkCheck (bytes : List Byte) : Half := bytes.foldl (fun rem b => checkBits b 8 rem) 0 ^^^ 1#16

/-- Whether a frame of the field scan link passes its check (R50, R51). -/
def LinkFrame.passes (f : LinkFrame) : Bool := linkCheck f.bytes == f.check

/-- A link frame from its bytes, with its check after them (R50, R97). -/
def LinkFrame.close (bytes : List Byte) : LinkFrame := { bytes := bytes, check := linkCheck bytes }

/-- The ten bytes before CHECK. -/
def Frame.body (f : Frame) : BitVec 80 := f.extractLsb' 16 80

/-- Whether a frame passes its check (R170). -/
def Frame.passes (f : Frame) : Bool := frameCheck f.body == f.extractLsb' 0 16

/-- A frame from its ten bytes, with CHECK after them. -/
def Frame.close (body : BitVec 80) : Frame := body ++ frameCheck body

def Frame.unit (f : Frame) : BitVec 4 := f.extractLsb' 92 4
def Frame.code (f : Frame) : Byte := f.extractLsb' 80 8

/-- The fields of a request frame after UNIT and CODE (R179). -/
def Frame.request (f : Frame) : Request :=
  { seq := f.extractLsb' 88 4, tag := f.extractLsb' 64 16, field := f.extractLsb' 56 8, mask := f.extractLsb' 48 8,
    value := f.extractLsb' 32 16, arg := f.extractLsb' 16 16 }

/-- The request a CODE names, counted from 0 in the order of R179; a CODE past the last names none and is an
UNKNOWN_REQUEST (R172). `straps` is what a RESET reads when it is taken (R165). -/
def requestOfCode (straps : Straps) (code : Byte) (r : Request) : Instr :=
  match code.toNat with
  | 0 => .nop r
  | 1 => .enrol r
  | 2 => .retire r
  | 3 => .lookup r
  | 4 => .amend r
  | 5 => .setMembers r
  | 6 => .clearMembers r
  | 7 => .ack r
  | 8 => .claim r
  | 9 => .release r
  | 10 => .modeRequest r
  | 11 => .sample r
  | 12 => .purge r
  | 13 => .find r
  | 14 => .groupLook r
  | 15 => .groupAmend r
  | 16 => .continueGroup r
  | 17 => .extend r
  | 18 => .standby r
  | 19 => .resume r
  | 20 => .clearFaults r
  | 21 => .reset r straps
  | _ => .unknownRequest r code

/-- The command an exchange is for the part strapped `unit`, by the first test of R169 that holds: a hold exchange, a
deselect by a failed check, a deselect for another unit, or an addressed exchange. -/
def decodeExchange (unit : BitVec 4) (straps : Straps) (hold : Bool) (f : Frame) : Instr :=
  if hold then .holdExchange
  else if !f.passes then .deselect .badCheck
  else if f.unit != unit then .deselect .otherUnit
  else requestOfCode straps f.code f.request

/-- The CODE and the fields of a request; `none` for a command that is no addressed exchange. -/
def Instr.codeAndRequest : Instr → Option (Byte × Request)
  | .nop r => some (0, r)
  | .enrol r => some (1, r)
  | .retire r => some (2, r)
  | .lookup r => some (3, r)
  | .amend r => some (4, r)
  | .setMembers r => some (5, r)
  | .clearMembers r => some (6, r)
  | .ack r => some (7, r)
  | .claim r => some (8, r)
  | .release r => some (9, r)
  | .modeRequest r => some (10, r)
  | .sample r => some (11, r)
  | .purge r => some (12, r)
  | .find r => some (13, r)
  | .groupLook r => some (14, r)
  | .groupAmend r => some (15, r)
  | .continueGroup r => some (16, r)
  | .extend r => some (17, r)
  | .standby r => some (18, r)
  | .resume r => some (19, r)
  | .clearFaults r => some (20, r)
  | .reset r _ => some (21, r)
  | .unknownRequest r code => some (code, r)
  | .powerOn _ _ | .resetLine _ | .secondTick _ | .minuteTick | .purgePulseEnd _ | .moveTimerExpiry _
  | .purgeTimerExpiry | .analyserTimerExpiry | .busyWaitExpiry | .probeTimerExpiry | .holdTimerExpiry
  | .suctionChange _ | .holdExchange | .deselect _ | .accept _ | .readings _ _ _ | .refused _ | .transactionFailure
  | .values _ _ _ _ | .analyserFaultReply _ | .busy _ | .probeReply _ _ | .analyserFrameDiscard | .scanFrameDiscard
  | .probeFaultReply _ => none

/-- The straps a RESET reads, or `other` for every command that is no RESET. -/
def Instr.strapsOr (other : Straps) : Instr → Straps
  | .reset _ straps => straps
  | _ => other

/-- A request's ten bytes, byte 0 first (R179). -/
def requestBody (unit : BitVec 4) (code : Byte) (r : Request) : BitVec 80 :=
  unit ++ r.seq ++ code ++ r.tag ++ r.field ++ r.mask ++ r.value ++ r.arg

/-- The frame that carries a request to the part strapped `unit` (R170, R179). -/
def encodeRequest (unit : BitVec 4) (i : Instr) : Option Frame :=
  i.codeAndRequest.map fun p => Frame.close (requestBody unit p.1 p.2)

end Sys2Proof
end

