-- ==== Sys2Proof/Machine/Types.lean ====
section
/-! DEFINITION. The kinds, records and units the State is made of. A set of named members is a bit vector with the bit
of each member as R179 places it, so that a member is held at most once and in no order (R12). -/

namespace Sys2Proof.Machine

/-! ### Names the manual gives -/

/-- MODE (R24). -/
inductive Mode where
  | staging | auto | manual | isolated | suspect | unreachable | retiring
  deriving DecidableEq, Repr

/-- RETURN_MODE names an active mode (R26). -/
inductive ActiveMode where
  | auto | manual | isolated | suspect | retiring
  deriving DecidableEq, Repr

inductive Lamp where
  | off | on | blink
  deriving DecidableEq, Repr

/-- SAMPLE_OUTCOME (section 1.3). -/
inductive SampleOutcome where
  | none | ok | timeout | fault | notReady | aborted | lost | blocked
  deriving DecidableEq, Repr

/-- QUEUED (R87). -/
inductive Queued where
  | no | routine | urgent | sampling
  deriving DecidableEq, Repr

/-- The class of a queue entry (R86). -/
inductive SampleClass where
  | urgent | routine
  deriving DecidableEq, Repr

inductive MoveState where
  | none | waiting | moving
  deriving DecidableEq, Repr

inductive MoveOutcome where
  | none | done | timeout | abandoned | blocked
  deriving DecidableEq, Repr

inductive DeviceState where
  | run | standby | safe
  deriving DecidableEq, Repr

inductive PermitState where
  | withdrawn | pending | granted
  deriving DecidableEq, Repr

inductive BudgetState where
  | under | over
  deriving DecidableEq, Repr

inductive Severity where
  | ignored | correctable | degraded | fatal
  deriving DecidableEq, Repr

/-- The twelve fault kinds (R149). -/
inductive FaultKind where
  | badFrame | stationRefused | stationNoReply | stationLost | analyserFail | analyserOffline
  | moveTimeout | actuatorFault | oxygenSuspect | hotWell | recordCheck | suctionLost
  deriving DecidableEq, Repr

/-- The eight well event kinds (R76). -/
inductive WellEvent where
  | button | cap | actuator | liquid | move | station | oxygen | sample
  deriving DecidableEq, Repr

/-- The six device event kinds (R77). -/
inductive DeviceEvent where
  | analyser | fault | permit | budget | suction | state
  deriving DecidableEq, Repr

/-- The four contact inputs (chapter 4). -/
inductive Input where
  | button | cap | actuator | liquid
  deriving DecidableEq, Repr

/-- The four selections DETECT makes for an input (R71, R74). -/
inductive Selection where
  | rise | fall | high | low
  deriving DecidableEq, Repr

/-- The members of OPTIONS. -/
inductive WellOption where
  | autoPurge | buttonIsolate | surveyOff | blendExclude
  deriving DecidableEq, Repr

/-- The status of an answer (R179). -/
inductive Status where
  | done | absent | notFound | exists_ | tableFull | stationTaken | badValue | badField | wrongMode | claimed
  | heldByYou | heldByOther | queueFull | queuedAlready | blocked | busy | pending | safe | standby
  | extUnusable | extCount | extOverflow | noGroup | unknownRequest | damaged | empty
  deriving DecidableEq, Repr

/-- The fields of a well record that a request can name (R179). -/
inductive WellField where
  | tag | station | valveMin | valveMax | step | o2Ceiling | ch4Floor | vacLimit | tempLimit | surveyInterval
  | debounce | lamp | detect | options | enableA | enableB | wakeSet | totalDraw | location
  | mode | returnMode | valveTarget | valveFeedback | inputs | vacuum | flow | temp | events | sample | sampleAge
  | sampleOutcome | surveyDue | queued | excursions | clean | moveState | moveOutcome | purgeLeft | claim
  deriving DecidableEq, Repr

/-- The fields of the device record (R179). -/
inductive DeviceField where
  | engineCh4Floor | permitMargin | engineO2Limit | permitHold | drawBudget | engineIntake | purgeTime
  | analyserTimeout | moveTimeout | moveBand | moveSlots | purgePulse | lossThreshold | suspectInterval | wakeEnable
  | devEnableA | devEnableB | severity
  | deviceState | deviceEvents | suction | blend | fieldFlow | permitState | budgetState | sequencer | moves
  | firstFault | furtherFaults | wellCount | stationCount
  deriving DecidableEq, Repr

/-- A field a request names: of a well record or of the device record (R10). -/
inductive Field where
  | well (f : WellField)
  | device (f : DeviceField)
  deriving DecidableEq, Repr

/-! ### The well table -/

/-- A well as the other blocks hold it: by its tag and its slot, and matched by both (R13). -/
structure Well where
  tag  : Nat
  slot : Nat
  deriving DecidableEq, Repr

/-- SAMPLE, in hundredths of a percent. -/
structure Sample where
  ch4 : Nat
  co2 : Nat
  o2  : Nat
  deriving DecidableEq, Repr

/-- LOCATION, in decimetres. -/
structure Location where
  easting  : BitVec 24
  northing : BitVec 24
  deriving DecidableEq, Repr

/-- The fields of a well record (section 1.3) and its draw remainder (R14). An optional field is an `Option` (R9). -/
structure WellRecord where
  tag            : Nat
  address        : Nat
  channel        : Nat
  valveMin       : Nat
  valveMax       : Nat
  step           : Nat
  o2Ceiling      : Nat
  ch4Floor       : Nat
  vacLimit       : Nat
  tempLimit      : Nat
  surveyInterval : Nat
  debounce       : Nat
  lamp           : Lamp
  detect         : BitVec 16
  options        : BitVec 4
  enableA        : BitVec 8
  enableB        : BitVec 8
  wakeSet        : BitVec 8
  totalDraw      : BitVec 32
  location       : Location
  mode           : Mode
  returnMode     : Option ActiveMode
  valveTarget    : Nat
  valveFeedback  : Option Nat
  inputs         : Option (PerInput Level)
  vacuum         : Option Nat
  flow           : Option Nat
  temp           : Option Int
  events         : BitVec 8
  sample         : Option Sample
  sampleAge      : Option Nat
  sampleOutcome  : SampleOutcome
  surveyDue      : Nat
  queued         : Queued
  excursions     : Nat
  clean          : Nat
  moveState      : MoveState
  moveOutcome    : MoveOutcome
  purgeLeft      : Nat
  claim          : Option Half
  drawRemainder  : Nat
  deriving DecidableEq, Repr

/-- The run of one input toward a level it does not hold: the pending level and the run count (R68). -/
structure Run where
  pending : Option Level
  count   : Nat
  deriving DecidableEq, Repr

/-- No run in progress. -/
def Run.none : Run := { pending := Option.none, count := 0 }

/-- An occupied slot. `tag` is the tag of its index entry (R3), `address` and `channel` are those under which the scan
engine holds the well in its station's channel map (R46, R47): they stand beside the record, and damage to the record's
own TAG or STATION leaves them (R19, log 4). Then its record, whether the record agrees with its integrity check (R19,
log 4), the debounce runs the event unit holds for it (R68), and the model's mark that its purge pulse has reached 0 and
the end has not been taken (log 8). -/
structure Slot where
  tag         : Nat
  address     : Nat
  channel     : Nat
  record      : WellRecord
  intact      : Bool
  runs        : PerInput Run
  purgeEndDue : Bool
  deriving DecidableEq, Repr

/-! ### The device record's settings -/

/-- SEVERITY, one for each fault kind (R17, R150). -/
structure SeverityTable where
  badFrame        : Severity
  stationRefused  : Severity
  stationNoReply  : Severity
  stationLost     : Severity
  analyserFail    : Severity
  analyserOffline : Severity
  moveTimeout     : Severity
  actuatorFault   : Severity
  oxygenSuspect   : Severity
  hotWell         : Severity
  recordCheck     : Severity
  suctionLost     : Severity
  deriving DecidableEq, Repr

/-- The settings of the device record (section 1.4). -/
structure Settings where
  engineCh4Floor  : Nat
  permitMargin    : Nat
  engineO2Limit   : Nat
  permitHold      : Nat
  drawBudget      : Nat
  engineIntake    : Nat
  purgeTime       : Nat
  analyserTimeout : Nat
  moveTimeout     : Nat
  moveBand        : Nat
  moveSlots       : Nat
  purgePulse      : Nat
  lossThreshold   : Nat
  suspectInterval : Nat
  wakeEnable      : Bool
  devEnableA      : BitVec 6
  devEnableB      : BitVec 6
  severity        : SeverityTable
  deriving DecidableEq, Repr

/-! ### Device control and the lines -/

/-- The device state (R160), DEVICE_EVENTS (R77) and the SUCTION line as it stands (R145). A change of the state is an
event of its own for each block it is handed to (R160): `owed` names the blocks that have not taken it yet, and `late`
those that take a change handed to them in this second late (log 15). -/
structure DeviceUnit where
  state   : DeviceState
  events  : BitVec 6
  suction : Level
  late    : Handover
  owed    : Handover
  deriving DecidableEq, Repr

/-- ALERT A, ALERT B (R80) and WAKE (R82): `true` is asserted. -/
structure AlertLines where
  alertA : Bool
  alertB : Bool
  wake   : Bool
  deriving DecidableEq, Repr

/-- The time base (R1): the second ticks taken since the last sixtieth one, and whether a minute tick has been raised
and is not yet taken. -/
structure TimeBase where
  second    : Nat
  minuteDue : Bool
  deriving DecidableEq, Repr

/-! ### The scan engine -/

inductive StationState where
  | setupDue | active | lost
  deriving DecidableEq, Repr

/-- A channel of a station's channel map, with its baseline-pending flag (R46). -/
structure StationChannel where
  channel         : Nat
  baselinePending : Bool
  deriving DecidableEq, Repr

/-- A station record (R46); the channel map is in ascending channel order. -/
structure StationRecord where
  address  : Nat
  channels : List StationChannel
  state    : StationState
  failures : Nat
  deriving DecidableEq, Repr

/-- The commanded outputs of one channel (R59). -/
structure Outputs where
  lamp        : Lamp
  valvePower  : Bool
  sampleValve : Bool
  purge       : Bool
  position    : Nat
  deriving DecidableEq, Repr

/-- A channel as sent in a SETUP, with the well that held it (R49). -/
structure SetupChannel where
  channel : Nat
  well    : Well
  deriving DecidableEq, Repr

/-- A channel as sent in a POLL, with the well that held it and its outputs as sent (R49). -/
structure PollChannel where
  channel : Nat
  well    : Well
  outputs : Outputs
  deriving DecidableEq, Repr

/-- The kind and contents of a transaction (R49, R50). -/
inductive Sent where
  | setup (channels : List SetupChannel)
  | poll (channels : List PollChannel)
  deriving DecidableEq, Repr

/-- The transaction in flight on the field scan link (R49). -/
structure Transaction where
  address : Nat
  sent    : Sent
  deriving DecidableEq, Repr

/-- Whether a round is in progress, and the address visited last in it (R52). -/
inductive Round where
  | idle
  | running (position : Option Nat)
  deriving DecidableEq, Repr

structure ScanEngine where
  stations : List StationRecord
  inFlight : Option Transaction
  round    : Round
  deriving DecidableEq, Repr

/-! ### The sequencer -/

structure QueueEntry where
  well : Well
  cls  : SampleClass
  deriving DecidableEq, Repr

/-- What READ waits for: the reply of the transaction in flight, with the analyser timer, or the end of a BUSY wait,
with no transaction in flight (R101). -/
inductive ReadWait where
  | reply (timer : Nat)
  | busyWait (timer : Nat)
  deriving DecidableEq, Repr

/-- The sequencer's state with what it holds there: the current well from SELECT to RELEASE, the running timer, and in
OFFLINE whether a probe is in flight (R87, R97, R103). -/
inductive Phase where
  | idle
  | select (w : Well)
  | purge (w : Well) (timer : Nat)
  | read (w : Well) (wait : ReadWait)
  | release (w : Well)
  | offline (timer : Nat) (probeInFlight : Bool)
  deriving DecidableEq, Repr

/-- The outcomes that raise the failure count (R87). -/
inductive FailOutcome where
  | fault | timeout
  deriving DecidableEq, Repr

/-- A failure count above 0 and the failing sample that raised it last (R87). -/
structure FailureRun where
  count   : Nat
  tag     : Nat
  outcome : FailOutcome
  deriving DecidableEq, Repr

/-- The sequencer (R86, R87); `failures` absent is a failure count of 0 with no failing sample held. -/
structure Sequencer where
  phase     : Phase
  queue     : List QueueEntry
  failures  : Option FailureRun
  busyCount : Nat
  number    : Byte
  deriving DecidableEq, Repr

/-! ### The move scheduler -/

/-- A well that holds a move slot, with the seconds left of its move timer (R109, R114). -/
structure Holder where
  well  : Well
  timer : Nat
  deriving DecidableEq, Repr

/-- The holder list in the order of the grants, and the wait list, oldest first (R109, R112). -/
structure MoveScheduler where
  holders : List Holder
  waiting : List Well
  deriving DecidableEq, Repr

/-! ### The blend unit -/

structure Blend where
  ch4  : Nat
  o2   : Nat
  flow : Nat
  deriving DecidableEq, Repr

/-- What the blend unit holds (chapter 8); `enginePermit` and `flareDemand` are the lines, `true` asserted. -/
structure BlendUnit where
  blend           : Option Blend
  contributing    : Nat
  fieldFlow       : Nat
  budget          : BudgetState
  permit          : PermitState
  holdTimer       : Option Nat
  enginePermit    : Bool
  flareDemand     : Bool
  deriving DecidableEq, Repr

/-! ### The fault unit -/

structure FaultEntry where
  kind   : FaultKind
  tag    : Nat
  detail : Half
  deriving DecidableEq, Repr

/-- FIRST_FAULT and FURTHER_FAULTS (R151). -/
structure FaultUnit where
  first   : Option FaultEntry
  further : BitVec 12
  deriving DecidableEq, Repr

/-! ### The record port -/

/-- An answer owed (R173). -/
structure Answer where
  seq    : BitVec 4
  status : Status
  tag    : Half
  value  : Wide
  deriving DecidableEq, Repr

/-- An answer frame as driven, with the UNIT it carries (R173, R174). -/
structure AnswerFrame where
  unit   : BitVec 4
  answer : Answer
  deriving DecidableEq, Repr

inductive GroupKind where
  | look | amend
  deriving DecidableEq, Repr

/-- The open group (R177). -/
structure Group where
  kind     : GroupKind
  field    : Byte
  base     : Nat
  start    : Nat
  position : Nat
  deriving DecidableEq, Repr

/-- The record port (R173 to R177): the straps as read, the two pipeline slots, the answer that a hold exchange
repeats, the answer line in the latest exchange, the extension words (oldest first) and the open group. -/
structure Port where
  straps     : Straps
  older      : Option Answer
  newer      : Option Answer
  lastDriven : Option AnswerFrame
  line       : Option AnswerFrame
  words      : List Half
  group      : Option Group
  deriving DecidableEq, Repr

end Sys2Proof.Machine
end

