-- ==== Sys2Proof/Machine/Encodings.lean ====
section
/-! DEFINITION. The encodings of R179: an enumerated value is its place in its list, counted from 0, and a set carries
its members from bit 0 in the order listed. -/

namespace Sys2Proof.Machine

/-! ### Enumerated values -/

def Mode.code : Mode → Nat
  | .staging => 0 | .auto => 1 | .manual => 2 | .isolated => 3 | .suspect => 4 | .unreachable => 5 | .retiring => 6

/-- The mode a start-mode or MODE operand names: AUTO, MANUAL or ISOLATED, and no other (R6, R33). -/
def requestedMode (code : Nat) : Option ActiveMode :=
  match code with
  | 1 => some .auto
  | 2 => some .manual
  | 3 => some .isolated
  | _ => none

def ActiveMode.toMode : ActiveMode → Mode
  | .auto => .auto | .manual => .manual | .isolated => .isolated | .suspect => .suspect | .retiring => .retiring

/-- The active mode a mode is, if it is one (R26). -/
def Mode.active? : Mode → Option ActiveMode
  | .auto => some .auto | .manual => some .manual | .isolated => some .isolated | .suspect => some .suspect
  | .retiring => some .retiring | .staging => none | .unreachable => none

def SampleOutcome.code : SampleOutcome → Nat
  | .none => 0 | .ok => 1 | .timeout => 2 | .fault => 3 | .notReady => 4 | .aborted => 5 | .lost => 6 | .blocked => 7

/-- A failing outcome as SAMPLE_OUTCOME has it. -/
def FailOutcome.toOutcome : FailOutcome → SampleOutcome
  | .fault => .fault | .timeout => .timeout

def Queued.code : Queued → Nat
  | .no => 0 | .routine => 1 | .urgent => 2 | .sampling => 3

/-- The class a SAMPLE operand names (R91, R179). -/
def sampleClassOfCode (code : Nat) : Option SampleClass :=
  match code with
  | 0 => some .urgent
  | 1 => some .routine
  | _ => none

/-- The QUEUED value of an entry of a class (R87). -/
def SampleClass.queued : SampleClass → Queued
  | .urgent => .urgent | .routine => .routine

def MoveState.code : MoveState → Nat
  | .none => 0 | .waiting => 1 | .moving => 2

def MoveOutcome.code : MoveOutcome → Nat
  | .none => 0 | .done => 1 | .timeout => 2 | .abandoned => 3 | .blocked => 4

def Lamp.code : Lamp → Nat
  | .off => 0 | .on => 1 | .blink => 2

def lampOfCode (code : Nat) : Option Lamp :=
  match code with
  | 0 => some .off
  | 1 => some .on
  | 2 => some .blink
  | _ => none

def DeviceState.code : DeviceState → Nat
  | .run => 0 | .standby => 1 | .safe => 2

def PermitState.code : PermitState → Nat
  | .withdrawn => 0 | .pending => 1 | .granted => 2

def BudgetState.code : BudgetState → Nat
  | .under => 0 | .over => 1

/-- The state the SEQUENCER field answers; a BUSY wait answers READ (R87). -/
def Phase.code : Phase → Nat
  | .idle => 0 | .select _ => 1 | .purge _ _ => 2 | .read _ _ => 3 | .release _ => 4 | .offline _ _ => 5

def Severity.code : Severity → Nat
  | .ignored => 0 | .correctable => 1 | .degraded => 2 | .fatal => 3

def severityOfCode (code : Nat) : Option Severity :=
  match code with
  | 0 => some .ignored
  | 1 => some .correctable
  | 2 => some .degraded
  | 3 => some .fatal
  | _ => none

/-- The fault kinds in the order of R179. -/
def faultKinds : List FaultKind :=
  [.badFrame, .stationRefused, .stationNoReply, .stationLost, .analyserFail, .analyserOffline, .moveTimeout,
   .actuatorFault, .oxygenSuspect, .hotWell, .recordCheck, .suctionLost]

def FaultKind.code : FaultKind → Nat
  | .badFrame => 0 | .stationRefused => 1 | .stationNoReply => 2 | .stationLost => 3 | .analyserFail => 4
  | .analyserOffline => 5 | .moveTimeout => 6 | .actuatorFault => 7 | .oxygenSuspect => 8 | .hotWell => 9
  | .recordCheck => 10 | .suctionLost => 11

def faultKindOfCode (code : Nat) : Option FaultKind := faultKinds[code]?

def Level.code : Level → Nat
  | .low => 0 | .high => 1

def Status.code : Status → Nat
  | .done => 0 | .absent => 1 | .notFound => 2 | .exists_ => 3 | .tableFull => 4 | .stationTaken => 5
  | .badValue => 6 | .badField => 7 | .wrongMode => 8 | .claimed => 9 | .heldByYou => 10 | .heldByOther => 11
  | .queueFull => 12 | .queuedAlready => 13 | .blocked => 14 | .busy => 15 | .pending => 16 | .safe => 17
  | .standby => 18 | .extUnusable => 19 | .extCount => 20 | .extOverflow => 21 | .noGroup => 22
  | .unknownRequest => 23 | .damaged => 24 | .empty => 25

/-- The fields in the order of R179: the fields of a well record first, then those of the device record. -/
def wellFields : List WellField :=
  [.tag, .station, .valveMin, .valveMax, .step, .o2Ceiling, .ch4Floor, .vacLimit, .tempLimit, .surveyInterval,
   .debounce, .lamp, .detect, .options, .enableA, .enableB, .wakeSet, .totalDraw, .location] ++
  [.mode, .returnMode, .valveTarget, .valveFeedback, .inputs, .vacuum, .flow, .temp, .events, .sample, .sampleAge,
   .sampleOutcome, .surveyDue, .queued, .excursions, .clean, .moveState, .moveOutcome, .purgeLeft, .claim]

def deviceFields : List DeviceField :=
  [.engineCh4Floor, .permitMargin, .engineO2Limit, .permitHold, .drawBudget, .engineIntake, .purgeTime,
   .analyserTimeout, .moveTimeout, .moveBand, .moveSlots, .purgePulse, .lossThreshold, .suspectInterval, .wakeEnable,
   .devEnableA, .devEnableB, .severity] ++
  [.deviceState, .deviceEvents, .suction, .blend, .fieldFlow, .permitState, .budgetState, .sequencer, .moves,
   .firstFault, .furtherFaults, .wellCount, .stationCount]

/-- The field a FIELD code names, if any (R179). -/
def fieldOfCode (code : Byte) : Option Field :=
  match wellFields[code.toNat]? with
  | some f => some (.well f)
  | none => (deviceFields[code.toNat - wellFields.length]?).map .device

/-! ### Members of sets -/

def WellEvent.bit : WellEvent → BitVec 8
  | .button => 0x01#8 | .cap => 0x02#8 | .actuator => 0x04#8 | .liquid => 0x08#8
  | .move => 0x10#8 | .station => 0x20#8 | .oxygen => 0x40#8 | .sample => 0x80#8

def DeviceEvent.bit : DeviceEvent → BitVec 6
  | .analyser => 0x01#6 | .fault => 0x02#6 | .permit => 0x04#6 | .budget => 0x08#6 | .suction => 0x10#6
  | .state => 0x20#6

def FaultKind.bit (k : FaultKind) : BitVec 12 := 1#12 <<< k.code

def Selection.index : Selection → Nat
  | .rise => 0 | .fall => 1 | .high => 2 | .low => 3

def Input.index : Input → Nat
  | .button => 0 | .cap => 1 | .actuator => 2 | .liquid => 3

/-- Whether DETECT holds a selection of an input. -/
def detectHolds (detect : BitVec 16) (i : Input) (sel : Selection) : Bool :=
  detect.getLsbD (4 * i.index + sel.index)

def WellOption.index : WellOption → Nat
  | .autoPurge => 0 | .buttonIsolate => 1 | .surveyOff => 2 | .blendExclude => 3

/-- Whether OPTIONS holds a member. -/
def optionHolds (options : BitVec 4) (o : WellOption) : Bool := options.getLsbD o.index

/-- The ENROL default of DETECT: RISE of each input (section 1.3). -/
def defaultDetect : BitVec 16 := 0x1111#16

/-- The event kind of an input. -/
def Input.event : Input → WellEvent
  | .button => .button | .cap => .cap | .actuator => .actuator | .liquid => .liquid

/-- The four inputs in the order the manual lists them. -/
def inputsInOrder : List Input := [.button, .cap, .actuator, .liquid]

/-- The value held for one input. -/
def inputValue {α : Type} (p : PerInput α) : Input → α
  | .button => p.button | .cap => p.cap | .actuator => p.actuator | .liquid => p.liquid

/-- The levels of INPUTS as a set, 1 for high (R179). -/
def levelsWord (p : PerInput Level) : Nat :=
  Level.code p.button + 2 * Level.code p.cap + 4 * Level.code p.actuator + 8 * Level.code p.liquid

/-! ### The 48-bit VALUE -/

/-- A single value, in bits 15-0 (R179). -/
def single (n : Nat) : Wide := BitVec.ofNat 48 (n % 65536)

/-- A value of three 16-bit parts, from bits 47-32 down (R179). -/
def parts (a b c : Nat) : Wide := BitVec.ofNat 16 a ++ BitVec.ofNat 16 b ++ BitVec.ofNat 16 c

/-- A signed 16-bit value in two's complement, in bits 15-0 (R179). -/
def signed (t : Int) : Wide := (BitVec.ofInt 16 t).setWidth 48

end Sys2Proof.Machine
end

