-- ==== Sys2Proof/Machine/State.lean ====
section
/-! DEFINITION. The machine's state, the reasons a step could stop, and the state after power-on. -/

namespace Sys2Proof.Machine

/-- The state of the part. Free slots are not listed in `slots`, which stands in ascending slot order (log 17); `index`
is the tag index, (tag, slot) pairs in ascending tag order (R3). `pending` holds the commands waiting, first in first
out; it is the interface's own. -/
structure State where
  slots    : List (Nat × Slot)
  index    : List (Nat × Nat)
  settings : Settings
  device   : DeviceUnit
  lines    : AlertLines
  time     : TimeBase
  scan     : ScanEngine
  seq      : Sequencer
  moves    : MoveScheduler
  blend    : BlendUnit
  faults   : FaultUnit
  port     : Port
  pending  : List Instr
  deriving DecidableEq, Repr

/-- The reasons the machine could stop. The manual gives none: every condition it calls a fault is a report to the
fault unit and is state (R149), so no command raises one, and the type has no member. Safe: nothing is hidden by it. -/
inductive Fault where
  deriving DecidableEq, Repr

/-- The reasons a command could be refused a meaning. -/
inductive Refusal where
  /-- Raised by an arm of `exec` for a command that has no meaning yet, and by no meaning. Safe: the run stops. No arm
  raises it now. -/
  | notModelled (mnemonic : String)
  deriving DecidableEq, Repr

/-- The severities power-on sets (R150). -/
def SeverityTable.default : SeverityTable :=
  { badFrame := .correctable, stationRefused := .correctable, stationNoReply := .correctable,
    stationLost := .degraded, analyserFail := .correctable, analyserOffline := .degraded, moveTimeout := .degraded,
    actuatorFault := .degraded, oxygenSuspect := .degraded, hotWell := .degraded, recordCheck := .fatal,
    suctionLost := .degraded }

/-- The settings power-on sets (section 1.4, R16). -/
def Settings.default : Settings :=
  { engineCh4Floor := 4000, permitMargin := 200, engineO2Limit := 300, permitHold := 120, drawBudget := 2000,
    engineIntake := 1200, purgeTime := 60, analyserTimeout := 10, moveTimeout := 120, moveBand := 10, moveSlots := 4,
    purgePulse := 5, lossThreshold := 3, suspectInterval := 15, wakeEnable := false, devEnableA := 0, devEnableB := 0,
    severity := .default }

/-- The straps and the SUCTION line the reset state shows. They are inputs of the part and the manual gives no level:
DESIGN CHOICE (log 3); POWER_ON carries any. -/
def strapsAtReset : Straps := { unit := 0, order := .linear }

/-- The state right after power-on (R167 and the rules of each block): an empty table, default settings, RUN, vacant
pipeline slots, and the empty round begun at power-on already ended (R53, R54). -/
def State.reset : State :=
  { slots := [], index := [], settings := .default,
    device := { state := .run, events := 0, suction := .low, late := .none, owed := .none },
    lines := { alertA := false, alertB := false, wake := false },
    time := { second := 0, minuteDue := false },
    scan := { stations := [], inFlight := none, round := .idle },
    seq := { phase := .idle, queue := [], failures := none, busyCount := 0, number := 0 },
    moves := { holders := [], waiting := [] },
    blend := { blend := none, contributing := 0, fieldFlow := 0, budget := .under, permit := .withdrawn,
               holdTimer := none, enginePermit := false, flareDemand := true },
    faults := { first := none, further := 0 },
    port := { straps := strapsAtReset, older := none, newer := none, lastDriven := none, line := none, words := [],
              group := none },
    pending := [] }

end Sys2Proof.Machine
end

