-- ==== Sys2Proof/Machine/Ops.lean ====
section
/-! DEFINITION. The named operations over the well table, the settings and the small lists of the units: every read and
write of a record goes through this file. -/

namespace Sys2Proof.Machine

/-! ### Modes and values of a record -/

/-- The five active modes (chapter 2). -/
def Mode.isActive : Mode → Bool
  | .auto | .manual | .isolated | .suspect | .retiring => true
  | .staging | .unreachable => false

/-- The parked modes (chapter 2). -/
def Mode.isParked (m : Mode) : Bool := !m.isActive

/-- The sampled modes AUTO, MANUAL and SUSPECT (chapter 2). -/
def Mode.isSampled : Mode → Bool
  | .auto | .manual | .suspect => true
  | .staging | .isolated | .unreachable | .retiring => false

/-- `v` clamped into [`lo`, `hi`]: below `lo` it becomes `lo`, above `hi` it becomes `hi` (R11, R25, R132). -/
def clamp (lo hi v : Nat) : Nat := if v < lo then lo else if hi < v then hi else v

/-- How far two openings stand apart. -/
def apart (a b : Nat) : Nat := (a - b) + (b - a)

/-- Whether OPTIONS holds a member. -/
def WellRecord.hasOption (r : WellRecord) (o : WellOption) : Bool := optionHolds r.options o

/-- Whether an input is debounced high; an absent INPUTS answers no (R75). -/
def WellRecord.inputHigh (r : WellRecord) (i : Input) : Bool :=
  match r.inputs with
  | none => false
  | some p => inputValue p i == .high

/-- VALVE_FEEDBACK absent, or farther from VALVE_TARGET than the band (R110). -/
def WellRecord.outOfBand (band : Nat) (r : WellRecord) : Bool :=
  match r.valveFeedback with
  | none => true
  | some f => decide (band < apart f r.valveTarget)

/-- The valve is seen closed: VALVE_FEEDBACK present and at most the band (R40). -/
def WellRecord.closed (band : Nat) (r : WellRecord) : Bool :=
  match r.valveFeedback with
  | none => false
  | some f => decide (f ≤ band)

/-- A well needs a move (R110). -/
def WellRecord.needsMove (band : Nat) (r : WellRecord) : Bool :=
  r.mode.isActive && !r.inputHigh .actuator && r.outOfBand band

/-! ### Slots and the tag index -/

/-- The contents of an occupied slot. -/
def State.slot? (s : State) (n : Nat) : Option Slot := (s.slots.find? (fun p => p.1 == n)).map (·.2)

/-- The slot of a well, matched by slot and tag (R13). The tag is that of the slot's index entry, so that a record whose
own TAG is damaged is found, and freed under the index entry's tag (R19). -/
def State.well? (s : State) (w : Well) : Option Slot :=
  match s.slot? w.slot with
  | none => none
  | some x => if x.tag = w.tag then some x else none

/-- The record of a well, matched by slot and tag (R13). -/
def State.record? (s : State) (w : Well) : Option WellRecord := (s.well? w).map (·.record)

/-- The well of a table entry. -/
def wellOf (p : Nat × Slot) : Well := { tag := p.2.tag, slot := p.1 }

/-- The wells of the table in ascending slot order. -/
def State.wells (s : State) : List Well := s.slots.map wellOf

/-- The records of the table in ascending slot order. -/
def State.records (s : State) : List WellRecord := s.slots.map fun p => p.2.record

/-- Whether a table entry is the well's. -/
def isWell (w : Well) (p : Nat × Slot) : Bool := p.1 == w.slot && p.2.tag == w.tag

/-- Change what a well's slot holds; a well that is not in the table is passed over (R13). -/
def changeSlot (f : Slot → Slot) (w : Well) (s : State) : State :=
  { s with slots := s.slots.map fun p => if isWell w p then (p.1, f p.2) else p }

/-- The table applies a change to a record and re-forms its integrity check (R13, R19). -/
def Slot.write (f : WellRecord → WellRecord) (x : Slot) : Slot := { x with record := f x.record, intact := true }

/-- The table applies a change to a well's record (R13, R19). -/
def writeRecord (f : WellRecord → WellRecord) (w : Well) (s : State) : State := changeSlot (Slot.write f) w s

/-- Apply a change to every slot, a step on each record. -/
def changeAllSlots (f : Slot → Slot) (s : State) : State := { s with slots := s.slots.map fun p => (p.1, f p.2) }

/-- Insert an entry at its place in a list in ascending order of its first part. -/
def insertAscending {α : Type} (k : Nat) (v : α) : List (Nat × α) → List (Nat × α)
  | [] => [(k, v)]
  | p :: rest => if k < p.1 then (k, v) :: p :: rest else p :: insertAscending k v rest

/-- The lowest number, from `n` on, that an ascending list of keys does not hold. -/
def firstFree {α : Type} : Nat → List (Nat × α) → Nat
  | n, [] => n
  | n, p :: rest => if p.1 = n then firstFree (n + 1) rest else n

/-- The lowest-numbered free slot, if any (R6). -/
def State.freeSlot? (s : State) : Option Nat :=
  let n := firstFree 0 s.slots
  if n < Config.slotCount then some n else none

/-- The slot a tag is paired with in the index (R3, R4). -/
def State.indexed? (s : State) (tag : Nat) : Option Nat := (s.index.find? (fun p => p.1 == tag)).map (·.2)

/-- The smallest enrolled tag greater than `tag` (R7). -/
def State.nextTag? (s : State) (tag : Nat) : Option Nat := (s.index.find? (fun p => decide (tag < p.1))).map (·.1)

/-- Remove a well's pair from the index and its record from its slot (R20). -/
def removeRecord (w : Well) (s : State) : State :=
  { s with slots := s.slots.filter (fun p => !isWell w p),
           index := s.index.filter (fun p => !(p.1 == w.tag && p.2 == w.slot)) }

/-- The well of an occupied slot with this station address and channel (R46). -/
def State.wellAt? (s : State) (address channel : Nat) : Option Well :=
  (s.slots.find? (fun p => p.2.address == address && p.2.channel == channel)).map wellOf

/-- The wells of a station, in ascending slot order. -/
def State.wellsOf (s : State) (address : Nat) : List Well :=
  (s.slots.filter (fun p => p.2.address == address)).map wellOf

/-! ### Other units -/

/-- Take wells in order, a step on each. -/
def forEach (ws : List Well) (f : Well → State → State) (s : State) : State := ws.foldl (fun t w => f w t) s

def setDeviceState (d : DeviceState) (s : State) : State := { s with device := { s.device with state := d } }

/-- The severity a fault kind has (R17). -/
def severityOf (t : SeverityTable) : FaultKind → Severity
  | .badFrame => t.badFrame
  | .stationRefused => t.stationRefused
  | .stationNoReply => t.stationNoReply
  | .stationLost => t.stationLost
  | .analyserFail => t.analyserFail
  | .analyserOffline => t.analyserOffline
  | .moveTimeout => t.moveTimeout
  | .actuatorFault => t.actuatorFault
  | .oxygenSuspect => t.oxygenSuspect
  | .hotWell => t.hotWell
  | .recordCheck => t.recordCheck
  | .suctionLost => t.suctionLost

/-- Set the severity of one fault kind (R17). -/
def withSeverity (t : SeverityTable) (v : Severity) : FaultKind → SeverityTable
  | .badFrame => { t with badFrame := v }
  | .stationRefused => { t with stationRefused := v }
  | .stationNoReply => { t with stationNoReply := v }
  | .stationLost => { t with stationLost := v }
  | .analyserFail => { t with analyserFail := v }
  | .analyserOffline => { t with analyserOffline := v }
  | .moveTimeout => { t with moveTimeout := v }
  | .actuatorFault => { t with actuatorFault := v }
  | .oxygenSuspect => { t with oxygenSuspect := v }
  | .hotWell => { t with hotWell := v }
  | .recordCheck => { t with recordCheck := v }
  | .suctionLost => { t with suctionLost := v }

/-- The sequencer's current well, present from SELECT to RELEASE (R87). -/
def Phase.current? : Phase → Option Well
  | .idle => none
  | .select w => some w
  | .purge w _ => some w
  | .read w _ => some w
  | .release w => some w
  | .offline _ _ => none

/-- The sequencer is in SELECT, PURGE or READ, where a sample can be aborted and the sample valve is commanded on
(R94, R104). -/
def Phase.isOpen : Phase → Bool
  | .select _ => true
  | .purge _ _ => true
  | .read _ _ => true
  | .idle => false
  | .release _ => false
  | .offline _ _ => false

/-- The failure count (R87). -/
def Sequencer.failureCount (q : Sequencer) : Nat :=
  match q.failures with
  | none => 0
  | some f => f.count

/-- The well holds a move slot. -/
def MoveScheduler.holds (m : MoveScheduler) (w : Well) : Bool := m.holders.any (fun h => h.well == w)

/-- The well stands in the wait list. -/
def MoveScheduler.waits (m : MoveScheduler) (w : Well) : Bool := m.waiting.contains w

/-- The station record of an address (R46). -/
def State.station? (s : State) (address : Nat) : Option StationRecord :=
  s.scan.stations.find? (fun x => x.address == address)

/-- Whether a channel of a station is baseline-pending (R46). -/
def State.baselinePending (s : State) (address channel : Nat) : Bool :=
  match s.station? address with
  | none => false
  | some x => x.channels.any (fun c => c.channel == channel && c.baselinePending)

/-- Change the station record of an address. -/
def changeStation (f : StationRecord → StationRecord) (address : Nat) (s : State) : State :=
  { s with scan := { s.scan with stations := s.scan.stations.map fun x => if x.address = address then f x else x } }

end Sys2Proof.Machine
end

