-- ==== Sys2Proof/Machine/Flags.lean ====
section
/-! DEFINITION. Event kinds, the alert lines and the wake test: every set, clear and evaluation of a status flag the
part shows (chapter 4). -/

namespace Sys2Proof.Machine

/-- A set of standing kinds meets an enable when it holds a kind the enable holds (R80). -/
def meets {n : Nat} (events enable : BitVec n) : Bool := (events &&& enable) != 0

/-- The condition of ALERT A (R80). -/
def State.alertAStands (s : State) : Bool :=
  s.slots.any (fun p => meets p.2.record.events p.2.record.enableA) || meets s.device.events s.settings.devEnableA

/-- The condition of ALERT B (R80). -/
def State.alertBStands (s : State) : Bool :=
  s.slots.any (fun p => meets p.2.record.events p.2.record.enableB) || meets s.device.events s.settings.devEnableB

/-- The event unit evaluates ALERT A and ALERT B (R80). -/
def evalAlerts (s : State) : State :=
  { s with lines := { s.lines with alertA := s.alertAStands, alertB := s.alertBStands } }

/-- The wake test made at the setting of a well event kind (R82). -/
def wakeTest (k : WellEvent) (w : Well) (s : State) : State :=
  match s.record? w with
  | none => s
  | some r =>
    if s.device.state = .standby ∧ s.settings.wakeEnable = true ∧ meets k.bit r.wakeSet = true
    then { s with lines := { s.lines with wake := true } }
    else s

/-- Add a kind to a record's EVENTS. -/
def addEvent (k : WellEvent) (r : WellRecord) : WellRecord := { r with events := r.events ||| k.bit }

/-- Set a well event kind: the kind joins EVENTS, the lines are evaluated and, in STANDBY, the wake test is made
(R78). -/
def setWellEvent (k : WellEvent) (w : Well) (s : State) : State :=
  wakeTest k w (evalAlerts (writeRecord (addEvent k) w s))

/-- Set a device event kind: it joins DEVICE_EVENTS and the lines are evaluated (R78). -/
def setDeviceEvent (k : DeviceEvent) (s : State) : State :=
  evalAlerts { s with device := { s.device with events := s.device.events ||| k.bit } }

/-- ACK on a well: the marked kinds leave EVENTS and the lines are evaluated (R79). -/
def ackWell (mask : BitVec 8) (w : Well) (s : State) : State :=
  evalAlerts (writeRecord (fun r => { r with events := r.events &&& ~~~mask }) w s)

/-- ACK on tag 0: the marked kinds leave DEVICE_EVENTS, members beyond the six are passed over, and the lines are
evaluated (R79). -/
def ackDevice (mask : BitVec 8) (s : State) : State :=
  evalAlerts { s with device := { s.device with events := s.device.events &&& ~~~(mask.setWidth 6) } }

end Sys2Proof.Machine
end

