-- ==== Sys2Proof/Machine/MoveUnit.lean ====
section
/-! DEFINITION. The move scheduler's lists, grants and endings, as far as no record is freed and no fault is reported
(chapter 6). -/

namespace Sys2Proof.Machine

/-- A well leaves both lists, with its timer stopped and its power command off (R109, R112, R114). -/
def leaveLists (w : Well) (s : State) : State :=
  { s with moves := { holders := s.moves.holders.filter (fun h => !(h.well == w)),
                      waiting := s.moves.waiting.filter (fun v => !(v == w)) } }

def setMoveState (m : MoveState) (w : Well) (s : State) : State := writeRecord (fun r => { r with moveState := m }) w s

/-- A move slot can be granted: RUN, and fewer holders than MOVE_SLOTS (R113). -/
def State.slotOpen (s : State) : Bool :=
  decide (s.device.state = .run) && decide (s.moves.holders.length < s.settings.moveSlots)

/-- The head `w` of the wait list is granted a slot, `rest` being the list behind it (R113). -/
def grant (w : Well) (rest : List Well) (s : State) : State :=
  setMoveState .moving w
    { s with moves := { holders := s.moves.holders ++ [{ well := w, timer := s.settings.moveTimeout }],
                        waiting := rest } }

/-- The grant rule applied again and again over the wait list until one of its conditions fails (R113). -/
def grantLoop : List Well → State → State
  | [], s => s
  | w :: rest, s => if s.slotOpen then grantLoop rest (grant w rest s) else s

/-- The grant test (R113). -/
def grantTest (s : State) : State := grantLoop s.moves.waiting s

/-- The record's part of a move ending: MOVE_STATE NONE and the outcome (R115 to R119). -/
def moveEnded (o : MoveOutcome) (r : WellRecord) : WellRecord := { r with moveState := .none, moveOutcome := o }

/-- A move ends with an outcome and a MOVE event; the grant test is the caller's (R115 to R119). -/
def endMove (o : MoveOutcome) (w : Well) (s : State) : State :=
  setWellEvent .move w (writeRecord (moveEnded o) w (leaveLists w s))

/-- The well holds a slot or waits for one. -/
def State.moving (s : State) (w : Well) : Bool := s.moves.holds w || s.moves.waits w

/-- The moves of these wells end ABANDONED (R119). -/
def abandonMoves (ws : List Well) (s : State) : State :=
  forEach ws (fun w t => if t.moving w then endMove .abandoned w t else t) s

/-- Every holder's and every waiting well's move ends ABANDONED (R119, R156). -/
def abandonAllMoves (s : State) : State :=
  abandonMoves (s.moves.holders.map (fun h => h.well) ++ s.moves.waiting) s

/-- A move ends BLOCKED, from either list; a released slot is open to the wait-list head (R118). A well in neither list
is passed over. -/
def blockMove (w : Well) (s : State) : State :=
  if s.moves.holds w then grantTest (endMove .blocked w s)
  else if s.moves.waits w then endMove .blocked w s
  else s

/-- A well joins the tail of the wait list; the grant test follows (R111). -/
def joinWaitList (w : Well) (s : State) : State :=
  grantTest (setMoveState .waiting w { s with moves := { s.moves with waiting := s.moves.waiting ++ [w] } })

/-- A waiting well that needs no move leaves quietly (R111). -/
def leaveQuietly (w : Well) (s : State) : State := setMoveState .none w (leaveLists w s)

/-- An evaluation finds the actuator in fault for a well in neither list (R111). -/
def findBlocked (w : Well) (s : State) : State :=
  setWellEvent .move w (writeRecord (fun r => { r with moveOutcome := .blocked }) w s)

/-- A holder's timer restarts with the MOVE_TIMEOUT then standing (R116). -/
def restartTimer (w : Well) (s : State) : State :=
  { s with moves := { s.moves with holders := s.moves.holders.map fun h =>
      if h.well = w then { h with timer := s.settings.moveTimeout } else h } }

/-- A purge pulse starts, or starts again, at the PURGE_PULSE then standing (R121). -/
def startPulse (w : Well) (s : State) : State :=
  changeSlot (fun x => { x with purgeEndDue := false }) w
    (writeRecord (fun r => { r with purgeLeft := s.settings.purgePulse }) w s)

end Sys2Proof.Machine
end

