-- ==== Sys2Proof/Machine/SampleUnit.lean ====
section
/-! DEFINITION. The sample queue, the taking of heads and aborts, as far as no fault is reported (chapter 5). -/

namespace Sys2Proof.Machine

def setQueue (q : List QueueEntry) (s : State) : State := { s with seq := { s.seq with queue := q } }

def setPhase (p : Phase) (s : State) : State := { s with seq := { s.seq with phase := p } }

def setQueued (q : Queued) (w : Well) (s : State) : State := writeRecord (fun r => { r with queued := q }) w s

def QueueEntry.isUrgent (e : QueueEntry) : Bool := e.cls == .urgent

/-- Where an entry joins: a ROUTINE entry at the tail, an URGENT one after the last URGENT and before the first ROUTINE
entry (R91). -/
def placeEntry (e : QueueEntry) (q : List QueueEntry) : List QueueEntry :=
  match e.cls with
  | .routine => q ++ [e]
  | .urgent => q.takeWhile QueueEntry.isUrgent ++ e :: q.dropWhile QueueEntry.isUrgent

/-- The queue without a well's entry; the entries behind it move up (R86). -/
def withoutEntry (w : Well) (q : List QueueEntry) : List QueueEntry := q.filter (fun e => !(e.well == w))

/-- Whether a well has an entry. -/
def State.hasEntry (s : State) (w : Well) : Bool := s.seq.queue.any (fun e => e.well == w)

/-- A well joins the queue with a class, or an entry is moved to it: QUEUED becomes the class (R91, R92). -/
def placeInQueue (c : SampleClass) (w : Well) (s : State) : State :=
  setQueued c.queued w (setQueue (placeEntry { well := w, cls := c } (withoutEntry w s.seq.queue)) s)

/-- The sequencer removes a well's entry, if any, and QUEUED becomes NO (R88). -/
def removeEntry (w : Well) (s : State) : State :=
  if s.hasEntry w then setQueued .no w (setQueue (withoutEntry w s.seq.queue) s) else s

/-- The event unit's answer whether an input of a well is debounced high (R75). -/
def State.inputHigh (s : State) (i : Input) (w : Well) : Bool :=
  match s.record? w with
  | none => false
  | some r => r.inputHigh i

/-- A sample outcome is written with its SAMPLE event (R76). -/
def writeOutcome (o : SampleOutcome) (w : Well) (s : State) : State :=
  setWellEvent .sample w (writeRecord (fun r => { r with sampleOutcome := o }) w s)

/-- The head becomes the current well and the sequencer enters SELECT (R93). -/
def selectWell (w : Well) (s : State) : State :=
  setQueued .sampling w { s with seq := { s.seq with phase := .select w, busyCount := 0 } }

/-- Take heads while their CAP is debounced high, each ending BLOCKED, and then one into SELECT (R93). -/
def takeHeads : List QueueEntry → State → State
  | [], s => s
  | e :: rest, s =>
    let t := setQueue rest s
    if t.inputHigh .cap e.well then takeHeads rest (setQueued .no e.well (writeOutcome .blocked e.well t))
    else selectWell e.well t

/-- The conditions under which a head is taken, but for the queue holding one (R93). -/
def State.headAllowed (s : State) : Bool :=
  decide (s.seq.phase = .idle) && decide (s.device.state = .run) && decide (s.device.suction = .high)

/-- The sequencer tests for a head (R93). -/
def headTest (s : State) : State := if s.headAllowed then takeHeads s.seq.queue s else s

/-- Abort the sample in hand with outcome ABORTED, in SELECT, PURGE or READ: the timer stops, the transaction ends, the
valve is commanded off and the sequencer enters RELEASE (R104). In any other state nothing is aborted. -/
def abortSample (s : State) : State :=
  match s.seq.phase with
  | .select w => writeOutcome .aborted w (setPhase (.release w) s)
  | .purge w _ => writeOutcome .aborted w (setPhase (.release w) s)
  | .read w _ => writeOutcome .aborted w (setPhase (.release w) s)
  | .idle => s
  | .release _ => s
  | .offline _ _ => s

/-- An abort for one well acts only when it is the current well (R104). -/
def abortSampleOf (w : Well) (s : State) : State :=
  if s.seq.phase.current? = some w then abortSample s else s

/-- The well enters ISOLATED or RETIRING: its entry leaves the queue and its sample in hand is aborted (R27). -/
def leaveSampling (w : Well) (s : State) : State := abortSampleOf w (removeEntry w s)

/-- The newest ROUTINE entry of a full queue, which is its last entry (R92). -/
def newestRoutine (q : List QueueEntry) : Option QueueEntry :=
  match q.getLast? with
  | none => none
  | some e => if e.cls = .routine then some e else none

/-- An entry is evicted: QUEUED NO and SURVEY_DUE 0 (R92). -/
def evict (e : QueueEntry) (s : State) : State :=
  writeRecord (fun r => { r with queued := .no, surveyDue := 0 }) e.well (setQueue (withoutEntry e.well s.seq.queue) s)

def dueAtOnce (w : Well) (s : State) : State := writeRecord (fun r => { r with surveyDue := 0 }) w s

/-- The internal URGENT enqueue at a CAP fall (R92). The join or promotion brings a test for a head (R93), but for `held`:
a BUTTON isolation of the same arrival is still to be taken and will remove the entry (R73, log 34). -/
def urgentEnqueue (held : Bool) (w : Well) (s : State) : State :=
  let test (t : State) : State := if held then t else headTest t
  match s.record? w with
  | none => s
  | some r =>
    if r.mode.isSampled = false then s
    else match r.queued with
      | .urgent => s
      | .routine => test (placeInQueue .urgent w s)
      | .sampling => dueAtOnce w s
      | .no =>
        if s.seq.queue.length < Config.queueCapacity then test (placeInQueue .urgent w s)
        else match newestRoutine s.seq.queue with
          | some e => test (placeInQueue .urgent w (evict e s))
          | none => dueAtOnce w s

/-- A record takes part in the survey (R89). R58 has the wells of a found station rejoin the survey from its first
successful POLL, and R89 asks for a sampled mode alone, which the acceptance gives: the model follows R89 (log 33). -/
def WellRecord.surveyed (r : WellRecord) : Bool :=
  r.mode.isSampled && !r.hasOption .surveyOff && (r.queued == .no)

/-- The survey of one well (R89). -/
def surveyWell (w : Well) (s : State) : State :=
  match s.record? w with
  | none => s
  | some r =>
    if r.surveyed = false then s
    else if r.surveyDue = 0 then
      if s.seq.queue.length < Config.queueCapacity then headTest (placeInQueue .routine w s) else s
    else writeRecord (fun r => { r with surveyDue := r.surveyDue - 1 }) w s

/-- The survey, over the slots in ascending order, in RUN and SAFE (R89). -/
def survey (s : State) : State :=
  match s.device.state with
  | .standby => s
  | .run | .safe => forEach s.wells surveyWell s

/-- SAMPLE_AGE of a record rises by 1 and stops at 65535 (R90). -/
def ageMinute (r : WellRecord) : WellRecord :=
  { r with sampleAge := r.sampleAge.map fun a => min (a + 1) Config.maxSampleAge }

/-- At each minute tick SAMPLE_AGE rises in every record in which it is present (R90). -/
def ageSamples (s : State) : State :=
  changeAllSlots (fun x => if x.record.sampleAge.isSome then x.write ageMinute else x) s

/-- The transaction number rises by 1 before a MEASURE, 255 being followed by 0 (R97). -/
def raiseNumber (s : State) : State := { s with seq := { s.seq with number := s.seq.number + 1 } }

end Sys2Proof.Machine
end

