-- ==== Sys2Proof/Machine/BlendUnit.lean ====
section
/-! DEFINITION. The blend unit: BLEND, FIELD_FLOW, BUDGET_STATE, the engine permit and its lines, and the cumulative
draw (chapter 8). -/

namespace Sys2Proof.Machine

/-- What a record weighs into the blend: its FLOW and its SAMPLE, when it contributes (R139). -/
def contribution (d : DeviceState) (r : WellRecord) : Option (Nat × Sample) :=
  match r.flow, r.sample with
  | some f, some x =>
    if d = .run ∧ r.mode.isSampled = true ∧ r.hasOption .blendExclude = false then some (f, x) else none
  | _, _ => none

/-- The contributing records' flows and samples, in ascending slot order (R139). -/
def State.contributions (s : State) : List (Nat × Sample) := s.records.filterMap (contribution s.device.state)

/-- ΣF (R139). -/
def sumFlow (l : List (Nat × Sample)) : Nat := (l.map fun p => p.1).sum

/-- ΣF·CH4 (R139). -/
def sumFlowCh4 (l : List (Nat × Sample)) : Nat := (l.map fun p => p.1 * p.2.ch4).sum

/-- ΣF·O2 (R139). -/
def sumFlowO2 (l : List (Nat × Sample)) : Nat := (l.map fun p => p.1 * p.2.o2).sum

/-- The BLEND of the contributing records; absent when ΣF is 0 (R139). -/
def blendOf (l : List (Nat × Sample)) : Option Blend :=
  if sumFlow l = 0 then none
  else some { ch4 := sumFlowCh4 l / sumFlow l, o2 := sumFlowO2 l / sumFlow l, flow := min (sumFlow l / 10) 65535 }

/-- Form the contributing sum and BLEND (R139). -/
def formBlend (s : State) : State :=
  { s with blend := { s.blend with blend := blendOf s.contributions, contributing := sumFlow s.contributions } }

/-- FIELD_FLOW as the records give it: every present FLOW, whatever the mode (R140). -/
def State.fieldFlowNow (s : State) : Nat := (s.records.map fun r => r.flow.getD 0).sum

/-- BUDGET_STATE from a field flow and a budget (R140). -/
def budgetOf (fieldFlow budget : Nat) : BudgetState := if budget < fieldFlow / 10 then .over else .under

/-- Form FIELD_FLOW and BUDGET_STATE, with the BUDGET event when the state changes (R140). -/
def formBudget (s : State) : State :=
  let flow := s.fieldFlowNow
  let state := budgetOf flow s.settings.drawBudget
  let t := { s with blend := { s.blend with fieldFlow := flow, budget := state } }
  if state = s.blend.budget then t else setDeviceEvent .budget t

/-- The conditions the grant and hold conditions share, with blend CH4 at or above `floor` (R141). -/
def State.permitConditions (s : State) (floor : Nat) : Bool :=
  decide (s.device.state = .run) && decide (s.device.suction = .high) &&
  (match s.blend.blend with
   | none => false
   | some b => decide (floor ≤ b.ch4) && decide (b.o2 ≤ s.settings.engineO2Limit))

/-- The grant conditions (R141). -/
def State.grantConditions (s : State) : Bool :=
  s.permitConditions (s.settings.engineCh4Floor + s.settings.permitMargin)

/-- The hold conditions (R141). -/
def State.holdConditions (s : State) : Bool := s.permitConditions s.settings.engineCh4Floor

def setPermit (p : PermitState) (timer : Option Nat) (s : State) : State :=
  { s with blend := { s.blend with permit := p, holdTimer := timer } }

/-- Step the permit at a round end (R141). -/
def stepPermit (s : State) : State :=
  match s.blend.permit with
  | .withdrawn => if s.grantConditions then setPermit .pending (some s.settings.permitHold) s else s
  | .pending => if s.grantConditions then s else setPermit .withdrawn none s
  | .granted => if s.holdConditions then s else setDeviceEvent .permit (setPermit .withdrawn none s)

/-- Set ENGINE PERMIT and FLARE DEMAND (R144). -/
def setPermitLines (s : State) : State :=
  let granted := decide (s.blend.permit = .granted)
  { s with blend := { s.blend with
      enginePermit := granted,
      flareDemand := !granted || decide (s.settings.engineIntake < s.blend.contributing / 10) } }

/-- The blend unit takes a round end (R138). -/
def blendRoundEnd (s : State) : State := setPermitLines (stepPermit (formBudget (formBlend s)))

/-- Withdraw the permit at once (R143), with the lines set (R144). -/
def withdrawPermit (s : State) : State :=
  setPermitLines (match s.blend.permit with
    | .withdrawn => s
    | .pending => setPermit .withdrawn none s
    | .granted => setDeviceEvent .permit (setPermit .withdrawn none s))

/-- The blend unit after power-on and after device reset (R138). -/
def BlendUnit.cleared : BlendUnit :=
  { blend := none, contributing := 0, fieldFlow := 0, budget := .under, permit := .withdrawn, holdTimer := none,
    enginePermit := false, flareDemand := true }

/-- A record takes a minute's draw, when its FLOW is present (R146). -/
def drawMinute (r : WellRecord) : WellRecord :=
  match r.flow with
  | none => r
  | some f =>
    { r with totalDraw := r.totalDraw + BitVec.ofNat 32 ((r.drawRemainder + f) / Config.drawUnit),
             drawRemainder := (r.drawRemainder + f) % Config.drawUnit }

/-- The blend unit takes a minute tick: each record with FLOW present is written, the others are passed over
(R146). -/
def cumulativeDraw (s : State) : State :=
  changeAllSlots (fun x => if x.record.flow.isSome then x.write drawMinute else x) s

end Sys2Proof.Machine
end

