-- ==== Sys2Proof/Machine/Scan.lean ====
section
/-! DEFINITION. The scan engine: the station table, what is sent at each turn, rounds and the round end (chapter 3), and
the level detection the round end brings (R74). -/

namespace Sys2Proof.Machine

/-! ### The station table -/

/-- Put a channel in a channel map at its ascending place, its baseline-pending flag clear (R47). -/
def joinChannel (c : Nat) : List StationChannel → List StationChannel
  | [] => [{ channel := c, baselinePending := false }]
  | x :: rest =>
    if c < x.channel then { channel := c, baselinePending := false } :: x :: rest
    else if c = x.channel then { channel := c, baselinePending := false } :: rest
    else x :: joinChannel c rest

/-- Put a station record at its ascending place (R46, R47). -/
def insertStation (st : StationRecord) : List StationRecord → List StationRecord
  | [] => [st]
  | x :: rest => if st.address < x.address then st :: x :: rest else x :: insertStation st rest

/-- A station record takes a new channel: ACTIVE becomes SETUP_DUE, the other states and the count are kept (R47). -/
def StationRecord.joined (c : Nat) (st : StationRecord) : StationRecord :=
  { st with channels := joinChannel c st.channels,
            state := match st.state with
              | .active => .setupDue
              | .setupDue => .setupDue
              | .lost => .lost }

/-- The station record of a first enrolment at an address (R47). -/
def newStation (address channel : Nat) : StationRecord :=
  { address := address, channels := [{ channel := channel, baselinePending := false }], state := .setupDue,
    failures := 0 }

/-- The scan engine takes the station address and channel of an accepted ENROL (R47). -/
def enrolStation (address channel : Nat) (s : State) : State :=
  match s.station? address with
  | some _ => changeStation (StationRecord.joined channel) address s
  | none =>
    { s with scan := { s.scan with stations := insertStation (newStation address channel) s.scan.stations } }

/-- A station record loses a channel, with its baseline-pending flag (R48). -/
def StationRecord.dropped (c : Nat) (st : StationRecord) : StationRecord :=
  { st with channels := st.channels.filter fun x => x.channel != c }

/-! ### What is sent -/

/-- The commanded outputs of a well's channel at the moment a POLL is sent (R59, R94, R114, R121, R123). -/
def outputsOf (s : State) (w : Well) (r : WellRecord) : Outputs :=
  { lamp := if r.mode = .suspect then .blink else r.lamp,
    valvePower := s.moves.holds w,
    sampleValve := s.seq.phase.isOpen && decide (s.seq.phase.current? = some w),
    purge := decide (0 < r.purgeLeft),
    position := r.valveTarget }

/-- The channels of a SETUP, with the well each holds (R49, R55). -/
def setupChannels (s : State) (st : StationRecord) : List SetupChannel :=
  st.channels.filterMap fun c => (s.wellAt? st.address c.channel).map fun w => { channel := c.channel, well := w }

/-- The channels of a POLL, with the well and the outputs of each (R49, R59). -/
def pollChannels (s : State) (st : StationRecord) : List PollChannel :=
  st.channels.filterMap fun c =>
    match s.wellAt? st.address c.channel with
    | none => none
    | some w => (s.record? w).map fun r => { channel := c.channel, well := w, outputs := outputsOf s w r }

/-- The transaction a station is sent at its turn: SETUP when it is SETUP_DUE or LOST, POLL when it is ACTIVE (R52). -/
def transactionFor (s : State) (st : StationRecord) : Transaction :=
  { address := st.address,
    sent := match st.state with
      | .active => .poll (pollChannels s st)
      | .setupDue => .setup (setupChannels s st)
      | .lost => .setup (setupChannels s st) }

/-- What the frame of a transaction carries (R50). -/
def Transaction.contents (t : Transaction) : Config.LinkContents :=
  match t.sent with
  | .setup channels => .setup t.address (channels.map fun c => c.channel)
  | .poll channels => .poll t.address (channels.map fun c =>
      { channel := c.channel, lampCode := c.outputs.lamp.code, valvePower := c.outputs.valvePower,
        sampleValve := c.outputs.sampleValve, purge := c.outputs.purge, position := c.outputs.position })

/-- The frame of the transaction in flight: SETUP or POLL, closed with its check (R50). -/
def State.linkFrame? (s : State) : Option LinkFrame :=
  s.scan.inFlight.map fun t => LinkFrame.close (Config.linkBytes t.contents)

/-- Visit a station: its transaction is in flight and the round position is its address (R49, R52). -/
def sendTo (st : StationRecord) (s : State) : State :=
  { s with scan := { s.scan with inFlight := some (transactionFor s st), round := .running (some st.address) } }

/-! ### Level detection at a round end -/

/-- DETECT selects the level an input stands at (R74). -/
def levelSelected (detect : BitVec 16) (i : Input) (l : Level) : Bool :=
  match l with
  | .high => detectHolds detect i .high
  | .low => detectHolds detect i .low

/-- The record takes part in level detection: INPUTS present, an active mode and no baseline pending on its channel
(R74). -/
def State.levelsRead (s : State) (x : Slot) : Option (PerInput Level) :=
  if x.record.mode.isActive = true ∧ s.baselinePending x.address x.channel = false then x.record.inputs else none

/-- The event unit evaluates the level selections of one well (R74). -/
def detectLevels (w : Well) (s : State) : State :=
  match s.well? w with
  | none => s
  | some x =>
    match s.levelsRead x with
    | none => s
    | some p =>
      inputsInOrder.foldl
        (fun t i => if levelSelected x.record.detect i (inputValue p i) then setWellEvent i.event w t else t) s

/-- The event unit takes a round end: levels are evaluated in RUN and SAFE, and not in STANDBY (R74, R81). -/
def levelDetection (s : State) : State :=
  match s.device.state with
  | .standby => s
  | .run | .safe => forEach s.wells detectLevels s

/-! ### Rounds -/

/-- The round end event is handed to the event unit and to the blend unit (R65). -/
def roundEnd (s : State) : State := blendRoundEnd (levelDetection s)

/-- The round is over: no round is in progress and the round end is raised (R52, R65). -/
def finishRound (s : State) : State :=
  roundEnd { s with scan := { s.scan with inFlight := none, round := .idle } }

/-- A round begins from the lowest station address; with no station record it ends at once (R52, R53). -/
def beginRound (s : State) : State :=
  match s.scan.stations with
  | [] => finishRound s
  | st :: _ => sendTo st s

/-- Whether the round begun may be followed at once by the next: RUN and SAFE, and not STANDBY (R53). -/
def DeviceState.backToBack : DeviceState → Bool
  | .run | .safe => true
  | .standby => false

/-- The station record with the smallest address above the round position (R52). -/
def State.nextStation? (s : State) (position : Option Nat) : Option StationRecord :=
  match position with
  | none => s.scan.stations.head?
  | some a => s.scan.stations.find? fun x => decide (a < x.address)

/-- When a transaction has ended, the round goes on with the next station, or ends; in RUN and SAFE the next round then
begins at once (R52, R53). With no round in progress nothing follows. -/
def visitNext (s : State) : State :=
  match s.scan.round with
  | .idle => s
  | .running position =>
    match s.nextStation? position with
    | some st => sendTo st s
    | none =>
      let t := finishRound s
      if t.device.state.backToBack then beginRound t else t

/-- A round begins when none is in progress (R53). -/
def beginRoundIfIdle (s : State) : State :=
  match s.scan.round with
  | .idle => beginRound s
  | .running _ => s

/-- The scan engine takes the freeing of a record: the channel leaves its station's map, and with the last channel the
station record, a transaction in flight with it being ended and the round going on (R48). -/
def dropStationChannel (address channel : Nat) (s : State) : State :=
  let t := changeStation (StationRecord.dropped channel) address s
  match t.station? address with
  | none => t
  | some st =>
    if st.channels.isEmpty then
      let u := { t with scan := { t.scan with stations := t.scan.stations.filter fun x => x.address != address } }
      match u.scan.inFlight with
      | none => u
      | some x =>
        if x.address = address then visitNext { u with scan := { u.scan with inFlight := none } } else u
    else t

end Sys2Proof.Machine
end

