-- ==== Sys2Proof/Machine/FaultUnit.lean ====
section
/-! DEFINITION. The fault unit: a report, the fault record and the entry to SAFE (chapter 9). -/

namespace Sys2Proof.Machine

/-- Write a report into the fault record (R151). -/
def FaultUnit.written (k : FaultKind) (tag : Nat) (detail : Half) (f : FaultUnit) : FaultUnit :=
  match f.first with
  | none => { f with first := some { kind := k, tag := tag, detail := detail } }
  | some _ => { f with further := f.further ||| k.bit }

def recordFault (k : FaultKind) (tag : Nat) (detail : Half) (s : State) : State :=
  { s with faults := s.faults.written k tag detail }

/-! ### A change of the device state reaches the blocks -/

def setOwed (h : Handover) (s : State) : State := { s with device := { s.device with owed := h } }

/-- A block takes a change, or does not. -/
def takeIf (takes : Bool) (f : State → State) (s : State) : State := if takes then f s else s

/-- The blocks of `h` take a departure from RUN or an entry to SAFE, each on its own state as it then stands: every move
ends ABANDONED, a sample in SELECT, PURGE or READ is aborted, the permit is withdrawn, and a round begins when none is in
progress (R53, R106, R119, R143, R156, R157, R160). -/
def takeChange (h : Handover) (s : State) : State :=
  takeIf h.scan beginRoundIfIdle
    (takeIf h.blend withdrawPermit (takeIf h.sequencer abortSample (takeIf h.moves abandonAllMoves s)))

/-- The blocks that take a change handed to them now late. A GRANTED permit is withdrawn in the step of the change
whatever is late, because ENGINE PERMIT is asserted in RUN only (R144); the lateness R142 speaks of is that of a PENDING
permit (log 15). -/
def State.lateBlocks (s : State) : Handover :=
  { s.device.late with blend := s.device.late.blend && decide (s.blend.permit ≠ .granted) }

/-- Device control hands a change to the blocks of `h`: each takes it as its own event, at once or, when it is late, when
it has caught up (R142, R160, log 15). -/
def handChange (h : Handover) (s : State) : State :=
  takeChange (h.map₂ (fun a late => a && !late) s.lateBlocks)
    (setOwed (s.device.owed.map₂ or (h.map₂ and s.lateBlocks)) s)

/-- The blocks that still owe the taking of a change take it (R160, log 15). -/
def takeOwed (s : State) : State := takeChange s.device.owed (setOwed .none s)

/-- The blocks that an entry to SAFE moves to something: from STANDBY the scan engine too (R53, R156, R157). -/
def safeEntry (fromStandby : Bool) : Handover :=
  { moves := true, sequencer := true, blend := true, scan := fromStandby }

/-- Device control takes the entry to SAFE handed by a FATAL report (R154). -/
def enterSafe (s : State) : State :=
  match s.device.state with
  | .safe => s
  | .run => handChange (safeEntry false) (setDeviceEvent .state (setDeviceState .safe s))
  | .standby => handChange (safeEntry true) (setDeviceEvent .state (setDeviceState .safe s))

/-- The fault unit takes a report, under the severity then standing (R150, R151). -/
def reportFault (k : FaultKind) (tag : Nat) (detail : Half) (s : State) : State :=
  match severityOf s.settings.severity k with
  | .ignored => s
  | .correctable => recordFault k tag detail s
  | .degraded => setDeviceEvent .fault (recordFault k tag detail s)
  | .fatal => enterSafe (setDeviceEvent .fault (recordFault k tag detail s))

/-- The tag of a report that concerns no single well (R149). -/
def noTag : Nat := 65535

end Sys2Proof.Machine
end

