-- ==== Sys2Proof/Machine/Lifecycle.lean ====
section
/-! DEFINITION. What the blocks do together to one well: the sequencer's leaving of a sample, freeing, need
evaluations, mode changes and the loss and finding of a station (chapters 1, 2, 3, 5 and 6). -/

namespace Sys2Proof.Machine

/-! ### The sequencer leaves a sample -/

/-- Entry to IDLE, with its test for a head (R93). -/
def enterIdle (s : State) : State := headTest (setPhase .idle s)

/-- The detail that carries an outcome (R149). -/
def outcomeDetail (o : SampleOutcome) : Half := BitVec.ofNat 16 o.code

/-- Entry to OFFLINE: the report with the failing sample, the ANALYSER event and the probe timer (R103). -/
def enterOffline (f : FailureRun) (s : State) : State :=
  setDeviceEvent .analyser
    (reportFault .analyserOffline f.tag (outcomeDetail f.outcome.toOutcome)
      (setPhase (.offline Config.probeSeconds false) s))

/-- The sequencer leaves a sample: to OFFLINE when the failure count is 3, and to IDLE otherwise (R102, R105). -/
def leaveSample (s : State) : State :=
  match s.seq.failures with
  | none => enterIdle s
  | some f => if f.count = Config.offlineCount then enterOffline f s else enterIdle s

/-! ### Freeing -/

/-- The sequencer takes a freeing: the queue entry is removed, and the current well's sample is abandoned without a
RELEASE wait, with no outcome and no event (R20, R105). -/
def sequencerDrops (w : Well) (s : State) : State :=
  let t := setQueue (withoutEntry w s.seq.queue) s
  if t.seq.phase.current? = some w then leaveSample t else t

/-- The move scheduler takes a freeing: the well leaves its list, and a released slot is open to the wait-list head
(R20, R119). -/
def schedulerDrops (w : Well) (s : State) : State :=
  if s.moves.holds w then grantTest (leaveLists w s) else leaveLists w s

/-- Freeing a well's record (R20): the table removes it, and then the sequencer, the move scheduler, the scan engine
and the event unit take it. A well that is not in the table is passed over (R13). -/
def freeWell (w : Well) (s : State) : State :=
  match s.well? w with
  | none => s
  | some x =>
    evalAlerts (dropStationChannel x.address x.channel (schedulerDrops w (sequencerDrops w (removeRecord w s))))

/-- A damaged record is freed and RECORD_CHECK is reported with its index tag and its slot (R19). -/
def freeDamaged (w : Well) (s : State) : State :=
  reportFault .recordCheck w.tag (BitVec.ofNat 16 w.slot) (freeWell w s)

/-! ### Need and targets -/

/-- The move scheduler evaluates a well's need; the first row of R111 whose condition holds applies (R110, R111). -/
def evalNeed (w : Well) (s : State) : State :=
  match s.record? w with
  | none => s
  | some r =>
    if r.mode.isActive = false then s
    else if s.moving w = true ∧ r.inputHigh .actuator = true then blockMove w s
    else if s.moves.holds w then s
    else if r.mode = .retiring ∧ r.closed s.settings.moveBand = true then freeWell w s
    else if s.moves.waits w then
      if r.needsMove s.settings.moveBand then s else leaveQuietly w s
    else if r.needsMove s.settings.moveBand then joinWaitList w s
    else if r.inputHigh .actuator = true ∧ r.outOfBand s.settings.moveBand = true then findBlocked w s
    else s

/-- The move scheduler takes a change of target: a holder keeps its slot and restarts its timer, and no need is evaluated
for it; any other well is evaluated (R73, R111, R116). R111's closing words name a change of target as an evaluation of a
holder: the model follows R116 and the row of R73 for an isolation before an ACTUATOR rise (log 31). -/
def handTarget (w : Well) (s : State) : State :=
  if s.moves.holds w then restartTimer w s else evalNeed w s

/-- Write a record by `f`, and hand the change of target when VALVE_TARGET takes another value (R110). -/
def writeAndHand (f : WellRecord → WellRecord) (w : Well) (s : State) : State :=
  match s.record? w with
  | none => s
  | some r =>
    let t := writeRecord f w s
    if (f r).valveTarget = r.valveTarget then t else handTarget w t

/-! ### Mode changes -/

/-- Departure from SUSPECT sets both counts to 0 (R28). -/
def WellRecord.departed (r : WellRecord) : WellRecord :=
  if r.mode = .suspect then { r with excursions := 0, clean := 0 } else r

/-- The target a record has on entry to a mode (R25). -/
def entryTarget (m : Mode) (r : WellRecord) : Nat :=
  match m with
  | .auto => clamp r.valveMin r.valveMax r.valveTarget
  | .manual => clamp r.valveMin r.valveMax r.valveTarget
  | .suspect => r.valveMin
  | .isolated => 0
  | .retiring => 0
  | .staging => r.valveTarget
  | .unreachable => r.valveTarget

/-- The record's part of an entry to a mode: the departure from SUSPECT, the target, and for SUSPECT the CLEAN count
and SURVEY_DUE (R25, R28). -/
def WellRecord.entered (m : Mode) (suspectInterval : Nat) (r : WellRecord) : WellRecord :=
  let d := r.departed
  { d with mode := m,
           valveTarget := entryTarget m d,
           clean := if m = .suspect then 0 else d.clean,
           surveyDue := if m = .suspect then min d.surveyDue suspectInterval else d.surveyDue }

/-- The modes whose entry takes a well out of sampling (R27). -/
def Mode.closes : Mode → Bool
  | .isolated | .retiring => true
  | .staging | .auto | .manual | .suspect | .unreachable => false

/-- A transition from one active mode to another, with its entry effects (R24 to R28); `always` hands the target to the
move scheduler also when the entry has not changed it (RETIRE, R39 and log 11). A transition to the mode held is
none. -/
def changeMode (m : Mode) (always : Bool) (w : Well) (s : State) : State :=
  match s.record? w with
  | none => s
  | some r =>
    if r.mode = m then s
    else
      let r' := r.entered m s.settings.suspectInterval
      let t := writeRecord (WellRecord.entered m s.settings.suspectInterval) w s
      let u := if m.closes then leaveSampling w t else t
      if always = true ∨ r'.valveTarget ≠ r.valveTarget then handTarget w u else u

/-- The record's part of a setup acceptance: a parked record takes up its RETURN_MODE, and no target is handed
(R30). -/
def WellRecord.returned (suspectInterval : Nat) (r : WellRecord) : WellRecord :=
  match r.returnMode with
  | none => r
  | some m => { r.entered m.toMode suspectInterval with returnMode := none }

/-- A well of an accepting station: one that is parked takes up its RETURN_MODE and receives a STATION event; one in an
active mode is left as it stands (R30). -/
def takeUpMode (w : Well) (s : State) : State :=
  match s.record? w with
  | none => s
  | some r =>
    if r.mode.isParked then
      setWellEvent .station w (writeRecord (WellRecord.returned s.settings.suspectInterval) w s)
    else s

/-- The record's part of a station loss (R31, R57): an active mode is parked as UNREACHABLE with RETURN_MODE, and the
readings become absent. -/
def WellRecord.lost (r : WellRecord) : WellRecord :=
  let d := match r.mode.active? with
    | none => r
    | some m => { r.departed with mode := .unreachable, returnMode := some m }
  { d with vacuum := none, flow := none, temp := none, valveFeedback := none }

/-- The table takes a well of a lost station, with its STATION event (R31). -/
def loseWell (w : Well) (s : State) : State := setWellEvent .station w (writeRecord WellRecord.lost w s)

/-- The event unit ends the runs of a well of a lost station; INPUTS is kept (R85). -/
def noRuns : PerInput Run := { button := .none, cap := .none, actuator := .none, liquid := .none }

def clearRuns (w : Well) (s : State) : State := changeSlot (fun x => { x with runs := noRuns }) w s

/-- The sequencer takes a station loss: the station's entries leave the queue, and the current well's sample ends LOST
without a RELEASE wait (R57, R105). -/
def sequencerLoses (ws : List Well) (s : State) : State :=
  let t := forEach ws removeEntry s
  match t.seq.phase.current? with
  | none => t
  | some w => if ws.contains w then leaveSample (setQueued .no w (writeOutcome .lost w t)) else t

/-- The loss of a station's wells, block by block (R31, R57, R85, R105, R119). -/
def loseWells (ws : List Well) (s : State) : State :=
  forEach ws clearRuns (sequencerLoses ws (grantTest (abandonMoves ws (forEach ws loseWell s))))

end Sys2Proof.Machine
end

