-- ==== Sys2Proof/Machine/Tuning.lean ====
section
/-! DEFINITION. The tuning unit: the judgment of an OK sample (chapter 7). -/

namespace Sys2Proof.Machine

/-- The sample's O2 exceeds O2_CEILING (R126). -/
def overCeiling (x : Sample) (r : WellRecord) : Bool := decide (r.o2Ceiling < x.o2)

/-- The hot-well reading: TEMP present and at or above TEMP_LIMIT (R126). -/
def hotReading (r : WellRecord) : Option Int :=
  match r.temp with
  | none => none
  | some t => if (r.tempLimit : Int) ≤ t then some t else none

/-- The sample is under adjustment (R128). -/
def State.adjusts (s : State) (r : WellRecord) : Bool :=
  decide (s.device.state = .run) && decide (s.device.suction = .high) && !r.inputHigh .liquid && !r.inputHigh .cap

/-- Room to open (R131). -/
def State.roomToOpen (s : State) (x : Sample) (r : WellRecord) : Bool :=
  decide (r.ch4Floor + Config.openMargin ≤ x.ch4) && decide (x.o2 ≤ r.o2Ceiling / 2) &&
  (match r.vacuum with
   | none => false
   | some v => decide (v < r.vacLimit)) &&
  decide (s.blend.budget = .under)

/-- The target a tuning step computes is clamped into the limits (R132). -/
def WellRecord.aimed (target : Nat) (r : WellRecord) : WellRecord :=
  { r with valveTarget := clamp r.valveMin r.valveMax target }

/-- The record's part of an excursion (R129). -/
def WellRecord.excursion (r : WellRecord) : WellRecord := { r with excursions := min (r.excursions + 1) 3, clean := 0 }

/-- An excursion of an AUTO well: the count rises, and the target is lowered by 2 × STEP, or at the third excursion the
well enters SUSPECT and OXYGEN_SUSPECT is reported (R37, R129). -/
def tuneExcursion (w : Well) (r : WellRecord) (s : State) : State :=
  let t := writeRecord WellRecord.excursion w s
  if 3 ≤ r.excursions + 1 then reportFault .oxygenSuspect w.tag 0 (changeMode .suspect false w t)
  else writeAndHand (fun q => q.aimed (q.valveTarget - 2 * q.step)) w t

/-- An AUTO sample that is no excursion: EXCURSIONS 0, and the target is lowered for low methane, raised for room to
open, or kept (R130, R131). -/
def tuneQuiet (x : Sample) (w : Well) (r : WellRecord) (s : State) : State :=
  let t := writeRecord (fun q => { q with excursions := 0 }) w s
  if x.ch4 < r.ch4Floor then writeAndHand (fun q => q.aimed (q.valveTarget - q.step)) w t
  else if s.roomToOpen x r then writeAndHand (fun q => q.aimed (q.valveTarget + q.step)) w t
  else t

/-- A SUSPECT sample under adjustment: the clean count, and at the third clean sample the return to AUTO (R37,
R133). -/
def tuneSuspect (x : Sample) (w : Well) (r : WellRecord) (s : State) : State :=
  if x.o2 ≤ r.o2Ceiling / 2 then
    if 3 ≤ r.clean + 1 then changeMode .auto false w s
    else writeRecord (fun q => { q with clean := q.clean + 1 }) w s
  else writeRecord (fun q => { q with clean := 0 }) w s

/-- A sample under adjustment, by the mode that stands (R128). -/
def tuneAdjusted (x : Sample) (w : Well) (r : WellRecord) (s : State) : State :=
  match r.mode with
  | .auto => if overCeiling x r then tuneExcursion w r s else tuneQuiet x w r s
  | .suspect => tuneSuspect x w r s
  | .manual => s
  | .staging => s
  | .isolated => s
  | .unreachable => s
  | .retiring => s

/-- A hot-well sample: the well enters ISOLATED and HOT_WELL is reported with the TEMP compared (R38, R127). -/
def tuneHot (temp : Int) (w : Well) (s : State) : State :=
  reportFault .hotWell w.tag (BitVec.ofInt 16 temp) (changeMode .isolated false w s)

/-- The two checks made on every OK sample, and then the judgment of a sample under adjustment (R126, R128). -/
def judge (x : Sample) (w : Well) (r : WellRecord) (s : State) : State :=
  let t := if overCeiling x r then setWellEvent .oxygen w s else s
  match (if overCeiling x r then hotReading r else none) with
  | some temp => tuneHot temp w t
  | none => if t.adjusts r then tuneAdjusted x w r t else t

/-- The tuning unit takes an OK sample, on the record as just written, whose mode is AUTO, MANUAL or SUSPECT (R124,
R126); no other mode reaches it. -/
def tune (x : Sample) (w : Well) (s : State) : State :=
  match s.record? w with
  | none => s
  | some r => if r.mode.isSampled then judge x w r s else s

end Sys2Proof.Machine
end

