-- ==== Sys2Proof/Machine/AnalyserLink.lean ====
section
/-! DEFINITION. The sequencer's endings of a read, and the commands of the analyser link and of the sequencer's timers
(chapter 5): PURGE_TIMER_EXPIRY, ANALYSER_TIMER_EXPIRY, BUSY_WAIT_EXPIRY, PROBE_TIMER_EXPIRY, VALUES,
ANALYSER_FAULT_REPLY, BUSY, PROBE_REPLY, PROBE_FAULT_REPLY, ANALYSER_FRAME_DISCARD. -/

namespace Sys2Proof.Machine

/-! ### Endings of a read -/

/-- A VALUES reply is plausible: each value and the sum within full scale (R99). -/
def plausible (ch4 co2 o2 : Half) : Bool :=
  decide (ch4.toNat ≤ Config.fullScale) && decide (co2.toNat ≤ Config.fullScale) &&
  decide (o2.toNat ≤ Config.fullScale) && decide (ch4.toNat + co2.toNat + o2.toNat ≤ Config.fullScale)

/-- The SURVEY_DUE an OK ending sets, from the mode before tuning (R99). -/
def okSurveyDue (suspectInterval : Nat) (r : WellRecord) : Nat :=
  if r.mode = .suspect then suspectInterval else r.surveyInterval

/-- The record's part of an OK ending (R99). -/
def WellRecord.sampled (x : Sample) (suspectInterval : Nat) (r : WellRecord) : WellRecord :=
  { r with sample := some x, sampleAge := some 0, sampleOutcome := .ok,
           surveyDue := okSurveyDue suspectInterval r }

def setFailures (f : Option FailureRun) (s : State) : State := { s with seq := { s.seq with failures := f } }

/-- An OK ending: RELEASE, the record written, the SAMPLE event, the failure count 0, and the hand-off to tuning in the
same step (R99, R124). -/
def endOk (x : Sample) (w : Well) (s : State) : State :=
  tune x w
    (setFailures none
      (setWellEvent .sample w
        (writeRecord (WellRecord.sampled x s.settings.suspectInterval) w (setPhase (.release w) s))))

/-- SURVEY_DUE becomes SURVEY_INTERVAL, whatever the mode (R100, R101). -/
def resetSurvey (w : Well) (s : State) : State :=
  writeRecord (fun r => { r with surveyDue := r.surveyInterval }) w s

/-- The failure count rises by 1, to at most 3, with the failing sample (R87, R100). -/
def raiseFailures (o : FailOutcome) (w : Well) (s : State) : State :=
  setFailures (some { count := min (s.seq.failureCount + 1) Config.offlineCount, tag := w.tag, outcome := o }) s

/-- An ending FAULT or TIMEOUT (R100). -/
def endFailed (o : FailOutcome) (w : Well) (s : State) : State :=
  reportFault .analyserFail w.tag (outcomeDetail o.toOutcome)
    (raiseFailures o w (resetSurvey w (writeOutcome o.toOutcome w (setPhase (.release w) s))))

/-- An ending NOT_READY (R101). -/
def endNotReady (w : Well) (s : State) : State :=
  resetSurvey w (writeOutcome .notReady w (setPhase (.release w) s))

def setBusyCount (n : Nat) (s : State) : State := { s with seq := { s.seq with busyCount := n } }

/-- A BUSY reply in READ (R101). -/
def takeBusy (w : Well) (s : State) : State :=
  let t := setBusyCount (s.seq.busyCount + 1) s
  if Config.busyLimit ≤ s.seq.busyCount + 1 then endNotReady w t
  else setPhase (.read w (.busyWait Config.busyWaitSeconds)) t

/-- A VALUES reply in READ (R99, R100). -/
def takeValues (ch4 co2 o2 : Half) (w : Well) (s : State) : State :=
  if plausible ch4 co2 o2 then endOk { ch4 := ch4.toNat, co2 := co2.toNat, o2 := o2.toNat } w s
  else endFailed .fault w s

/-- A reply to a probe that shows the analyser alive (R103). -/
def takeLiveProbe (s : State) : State := enterIdle (setDeviceEvent .analyser (setFailures none s))

/-- A FAULT reply to a probe ends the probe, and the sequencer stays in OFFLINE (R103). -/
def takeProbeFault (timer : Nat) (s : State) : State := setPhase (.offline timer false) s

/-! ### Replies -/

/-- What a good frame of the analyser carries after its number (R97). -/
inductive AnalyserReply where
  | values (ch4 co2 o2 : Half)
  | busy
  | fault
  deriving DecidableEq, Repr

/-- A reply taken in READ (R99 to R101). -/
def takeReadReply (reply : AnalyserReply) (w : Well) (s : State) : State :=
  match reply with
  | .values ch4 co2 o2 => takeValues ch4 co2 o2 w s
  | .busy => takeBusy w s
  | .fault => endFailed .fault w s

/-- A reply taken in OFFLINE (R103). -/
def takeProbeReply (reply : AnalyserReply) (timer : Nat) (s : State) : State :=
  match reply with
  | .values _ _ _ => takeLiveProbe s
  | .busy => takeLiveProbe s
  | .fault => takeProbeFault timer s

/-- The sequencer takes a good frame when a transaction is in flight and the frame carries its number, and discards
every other (R98): in READ while the analyser timer runs, and in OFFLINE while a probe is in flight. -/
def takeAnalyserFrame (number : Byte) (reply : AnalyserReply) (s : State) : State :=
  if number = s.seq.number then
    match s.seq.phase with
    | .read w (.reply _) => takeReadReply reply w s
    | .offline timer true => takeProbeReply reply timer s
    | .read _ (.busyWait _) => s
    | .offline _ false => s
    | .idle => s
    | .select _ => s
    | .purge _ _ => s
    | .release _ => s
  else s

/-- VALUES (R98, R99, R100). -/
def execValues (number : Byte) (ch4 co2 o2 : Half) (s : State) : Host.Outcome State Fault Refusal :=
  .next (takeAnalyserFrame number (.values ch4 co2 o2) s)

/-- ANALYSER_FAULT_REPLY (R98, R100). -/
def execAnalyserFaultReply (number : Byte) (s : State) : Host.Outcome State Fault Refusal :=
  .next (takeAnalyserFrame number .fault s)

/-- BUSY (R98, R101). -/
def execBusy (number : Byte) (s : State) : Host.Outcome State Fault Refusal :=
  .next (takeAnalyserFrame number .busy s)

/-- PROBE_REPLY (R98, R103). -/
def execProbeReply (number : Byte) (reply : LiveReply) (s : State) : Host.Outcome State Fault Refusal :=
  .next (takeAnalyserFrame number
    (match reply with
     | .values ch4 co2 o2 => .values ch4 co2 o2
     | .busy => .busy) s)

/-- PROBE_FAULT_REPLY (R98, R103). -/
def execProbeFaultReply (number : Byte) (s : State) : Host.Outcome State Fault Refusal :=
  .next (takeAnalyserFrame number .fault s)

/-- ANALYSER_FRAME_DISCARD: the frame is discarded and stops no timer (R98). -/
def execAnalyserFrameDiscard (s : State) : Host.Outcome State Fault Refusal := .next s

/-! ### Timers -/

/-- A timer with this many seconds left has run out: its last second tick has been taken (R96). -/
def ranOut (timer : Nat) : Bool := timer == 0

/-- The MEASURE frame of the transaction in flight on the analyser link, for a sample in READ or for a probe, closed with
its check (R97, R103). -/
def State.measureFrame? (s : State) : Option LinkFrame :=
  match s.seq.phase with
  | .read _ (.reply _) => some (.close (Config.linkBytes (.measure s.seq.number)))
  | .offline _ true => some (.close (Config.linkBytes (.measure s.seq.number)))
  | .read _ (.busyWait _) | .offline _ false | .idle | .select _ | .purge _ _ | .release _ => none

/-- MEASURE is sent: the number rises, the analyser timer starts and the sequencer waits in READ for the reply (R96,
R97, R101). -/
def sendMeasure (w : Well) (s : State) : State :=
  setPhase (.read w (.reply s.settings.analyserTimeout)) (raiseNumber s)

def afterPurgeTimer (s : State) : State :=
  match s.seq.phase with
  | .purge w timer => if ranOut timer then sendMeasure w s else s
  | .idle | .select _ | .read _ _ | .release _ | .offline _ _ => s

/-- PURGE_TIMER_EXPIRY (R96). -/
def execPurgeTimerExpiry (s : State) : Host.Outcome State Fault Refusal := .next (afterPurgeTimer s)

def afterAnalyserTimer (s : State) : State :=
  match s.seq.phase with
  | .read w (.reply timer) => if ranOut timer then endFailed .timeout w s else s
  | .read _ (.busyWait _) | .idle | .select _ | .purge _ _ | .release _ | .offline _ _ => s

/-- ANALYSER_TIMER_EXPIRY (R100). -/
def execAnalyserTimerExpiry (s : State) : Host.Outcome State Fault Refusal := .next (afterAnalyserTimer s)

def afterBusyWait (s : State) : State :=
  match s.seq.phase with
  | .read w (.busyWait timer) => if ranOut timer then sendMeasure w s else s
  | .read _ (.reply _) | .idle | .select _ | .purge _ _ | .release _ | .offline _ _ => s

/-- BUSY_WAIT_EXPIRY (R101). -/
def execBusyWaitExpiry (s : State) : Host.Outcome State Fault Refusal := .next (afterBusyWait s)

def afterProbeTimer (s : State) : State :=
  match s.seq.phase with
  | .offline timer _ =>
    if ranOut timer then setPhase (.offline Config.probeSeconds true) (raiseNumber s) else s
  | .idle | .select _ | .purge _ _ | .read _ _ | .release _ => s

/-- PROBE_TIMER_EXPIRY: any probe in flight is ended, a new one is sent and the timer starts again (R103). -/
def execProbeTimerExpiry (s : State) : Host.Outcome State Fault Refusal := .next (afterProbeTimer s)

end Sys2Proof.Machine
end

