-- ==== Sys2Proof/Machine/TimeBase.lean ====
section
/-! DEFINITION. The commands of the time base and of the move, purge and hold timers: SECOND_TICK, MINUTE_TICK,
PURGE_PULSE_END, MOVE_TIMER_EXPIRY, HOLD_TIMER_EXPIRY (R1, R53, R89, R90, R117, R121, R142, R146). A timer holds the
seconds it has left; a second tick takes one from it, and its expiry acts when none is left (log 1). -/

namespace Sys2Proof.Machine

/-! ### The second tick -/

/-- The time base counts a second tick, and at every sixtieth raises the minute tick (R1). -/
def countSecond (s : State) : State :=
  if s.time.second + 1 = 60 then { s with time := { second := 0, minuteDue := true } }
  else { s with time := { s.time with second := s.time.second + 1 } }

/-- The running timer of the sequencer's state counts a second tick (R96). -/
def Phase.ticked : Phase → Phase
  | .purge w timer => .purge w (timer - 1)
  | .read w (.reply timer) => .read w (.reply (timer - 1))
  | .read w (.busyWait timer) => .read w (.busyWait (timer - 1))
  | .offline timer probe => .offline (timer - 1) probe
  | .idle => .idle
  | .select w => .select w
  | .release w => .release w

def tickSequencer (s : State) : State := setPhase s.seq.phase.ticked s

/-- The move timers count a second tick (R114). -/
def tickMoves (s : State) : State :=
  { s with moves := { s.moves with holders := s.moves.holders.map fun h => { h with timer := h.timer - 1 } } }

/-- The hold timer counts a second tick (R142). -/
def tickHold (s : State) : State :=
  { s with blend := { s.blend with holdTimer := s.blend.holdTimer.map fun t => t - 1 } }

/-- PURGE_LEFT falls by 1 where it is above 0; the tick that brings it to 0 ends the pulse (R121, log 8). -/
def tickPulse (x : Slot) : Slot :=
  if 0 < x.record.purgeLeft then
    { x.write (fun r => { r with purgeLeft := r.purgeLeft - 1 }) with
      purgeEndDue := x.purgeEndDue || decide (x.record.purgeLeft = 1) }
  else x

def tickPulses (s : State) : State := changeAllSlots tickPulse s

/-- In RUN and SAFE the round after one that found the table empty begins at this second tick (R53). -/
def tickRounds (s : State) : State := if s.device.state.backToBack then beginRoundIfIdle s else s

/-- The blocks that will be late in the second that begins (log 15). -/
def setLate (h : Handover) (s : State) : State := { s with device := { s.device with late := h } }

/-- SECOND_TICK: a change of the device state still owed from the second that ends is taken first (R160, log 15), and then
every block takes the tick (R1, R53, R96, R114, R121, R142). -/
def execSecondTick (s : State) (late : Handover := Handover.none) : Host.Outcome State Fault Refusal :=
  .next (tickRounds (tickPulses (tickHold (tickMoves (tickSequencer (countSecond (setLate late (takeOwed s))))))))

/-! ### The minute tick -/

/-- A minute tick has been raised and is not yet taken (R1). -/
def State.minuteTickDue (s : State) : Bool := s.time.minuteDue

/-- In STANDBY a round begins at a minute tick when none is in progress (R53). -/
def minuteRound (s : State) : State :=
  match s.device.state with
  | .standby => beginRoundIfIdle s
  | .run | .safe => s

/-- The blocks take a minute tick: the survey, SAMPLE_AGE, the cumulative draw and, in STANDBY, the round (R53, R89,
R90, R146). -/
def takeMinute (s : State) : State := minuteRound (cumulativeDraw (ageSamples (survey s)))

/-- MINUTE_TICK: taken once for each minute tick the time base has raised (R1); one that has not been raised is no event
and changes nothing (log 1). -/
def execMinuteTick (s : State) : Host.Outcome State Fault Refusal :=
  .next (if s.minuteTickDue then takeMinute { s with time := { s.time with minuteDue := false } } else s)

/-! ### Expiries -/

/-- The well of an enrolled tag (R4). -/
def State.wellOfTag? (s : State) (tag : Nat) : Option Well :=
  (s.indexed? tag).map fun n => { tag := tag, slot := n }

/-- PURGE_PULSE_END: the end of the pulse is taken; PURGE_LEFT is already 0, so the next POLL carries PURGE off
(R121, log 8). -/
def execPurgePulseEnd (tag : Nat) (s : State) : Host.Outcome State Fault Refusal :=
  .next (match s.wellOfTag? tag with
    | none => s
    | some w => changeSlot (fun x => { x with purgeEndDue := false }) w s)

/-- VALVE_FEEDBACK as the detail of MOVE_TIMEOUT, or 65535 when absent (R117). -/
def feedbackDetail (s : State) (w : Well) : Half :=
  match s.record? w with
  | none => 65535
  | some r =>
    match r.valveFeedback with
    | none => 65535
    | some f => BitVec.ofNat 16 f

/-- A holder's move ends TIMEOUT: the report follows the ending, and the grant test follows the report (R117). -/
def endTimeout (w : Well) (s : State) : State :=
  grantTest (reportFault .moveTimeout w.tag (feedbackDetail s w) (endMove .timeout w s))

/-- MOVE_TIMER_EXPIRY of a holder whose timer has run out; for a well that holds no slot, or whose timer runs on, there
is no such event and nothing changes (R117, R120, log 1). -/
def execMoveTimerExpiry (tag : Nat) (s : State) : Host.Outcome State Fault Refusal :=
  .next (match s.moves.holders.find? (fun h => h.well.tag == tag) with
    | none => s
    | some h => if ranOut h.timer then endTimeout h.well s else s)

/-- The hold timer has run out: a PENDING permit in RUN becomes GRANTED with a PERMIT event, and one whose departure from
RUN has not been taken becomes WITHDRAWN with none; the lines are set (R142, R144). -/
def takeHoldExpiry (s : State) : State :=
  match s.blend.permit with
  | .pending =>
    if s.device.state = .run then setPermitLines (setDeviceEvent .permit (setPermit .granted none s))
    else setPermitLines (setPermit .withdrawn none s)
  | .withdrawn => s
  | .granted => s

/-- HOLD_TIMER_EXPIRY (R142); a timer that is stopped or runs on has no such event and nothing changes (log 1). -/
def execHoldTimerExpiry (s : State) : Host.Outcome State Fault Refusal :=
  .next (match s.blend.holdTimer with
    | none => s
    | some t => if ranOut t then takeHoldExpiry s else s)

end Sys2Proof.Machine
end

