-- ==== Sys2Proof/Machine/Lines.lean ====
section
/-! DEFINITION. Power-on, device reset and the SUCTION line: POWER_ON, RESET_LINE, SUCTION_CHANGE (R145, R165 to R167),
and device reset as the shared operation of RESET_LINE and RESET. -/

namespace Sys2Proof.Machine

/-! ### Device reset -/

/-- Device reset of a record (R15, R43). -/
def WellRecord.afterReset (r : WellRecord) : WellRecord :=
  { r with mode := .staging,
           returnMode := match r.mode.active? with
             | some m => some m
             | none => r.returnMode,
           valveFeedback := none, inputs := none, vacuum := none, flow := none, temp := none,
           events := 0, excursions := 0, clean := 0, purgeLeft := 0, queued := .no, moveState := .none }

/-- Device reset of a slot: the record with its check re-formed (R15), and the debounce state (R68). -/
def Slot.afterReset (x : Slot) : Slot :=
  { x.write WellRecord.afterReset with runs := noRuns, purgeEndDue := false }

/-- Device reset of a station record (R46). -/
def StationRecord.afterReset (st : StationRecord) : StationRecord :=
  { st with state := .setupDue, failures := 0,
            channels := st.channels.map fun c => { c with baselinePending := false } }

/-- The step of a device reset in every block but the port (R166); the time base runs on (R1). -/
def resetBlocks (s : State) : State :=
  { s with slots := s.slots.map fun p => (p.1, p.2.afterReset),
           device := { state := .run, events := 0, suction := s.device.suction, late := .none, owed := .none },
           lines := { alertA := false, alertB := false, wake := false },
           scan := { stations := s.scan.stations.map StationRecord.afterReset, inFlight := none, round := .idle },
           seq := { phase := .idle, queue := [], failures := none, busyCount := 0, number := 0 },
           moves := { holders := [], waiting := [] },
           blend := .cleared }

/-- Both sources of a device reset end an open group, discard the words and read the straps again (R165, R175). -/
def resetPort (straps : Straps) (s : State) : State :=
  { s with port := { s.port with straps := straps, words := [], group := none } }

/-- Device reset: every block's own reset, and then a new round from the lowest address (R54, R165, R166). -/
def deviceReset (straps : Straps) (s : State) : State := beginRound (resetBlocks (resetPort straps s))

/-- The EMPTY answer that takes the place of an owed answer at a RESET line assertion (R175). -/
def Answer.emptied (a : Answer) : Answer := { seq := a.seq, status := .empty, tag := 65535, value := 0 }

/-- RESET_LINE: one device reset; each owed answer becomes EMPTY, a vacant slot stays vacant, and no answer counts as
driven (R165, R174, R175). -/
def execResetLine (straps : Straps) (s : State) : Host.Outcome State Fault Refusal :=
  let t := deviceReset straps s
  .next { t with port := { t.port with older := t.port.older.map Answer.emptied,
                                       newer := t.port.newer.map Answer.emptied,
                                       lastDriven := none, line := none } }

/-! ### Power-on -/

/-- The part at power-on, before its first round, with the straps and the SUCTION line as they stand (R167). -/
def State.poweredUp (straps : Straps) (suction : Level) : State :=
  { State.reset with
    device := { State.reset.device with suction := suction },
    port := { State.reset.port with straps := straps } }

/-- POWER_ON: every block's first state, and an empty round begun at once (R54, R167). The queue of pending commands is
the interface's and is kept. -/
def execPowerOn (straps : Straps) (suction : Level) (s : State) : Host.Outcome State Fault Refusal :=
  .next (beginRound { State.poweredUp straps suction with pending := s.pending })

/-! ### The SUCTION line -/

def setSuction (l : Level) (s : State) : State := { s with device := { s.device with suction := l } }

/-- A fall of SUCTION withdraws the permit (R143); a fall taken in RUN first reports SUCTION_LOST (R145). -/
def suctionFalls (s : State) : State :=
  match s.device.state with
  | .run => withdrawPermit (reportFault .suctionLost noTag 0 s)
  | .standby => withdrawPermit s
  | .safe => withdrawPermit s

/-- SUCTION_CHANGE: the SUCTION event is set; then a fall is taken by the blend unit, or a rise by the sequencer (R93,
R145). A level the line already holds is no change (log 19). -/
def execSuctionChange (level : Level) (s : State) : Host.Outcome State Fault Refusal :=
  .next (if s.device.suction = level then s
    else
      let t := setDeviceEvent .suction (setSuction level s)
      match level with
      | .low => suctionFalls t
      | .high => headTest t)

end Sys2Proof.Machine
end

