-- ==== Sys2Proof/Machine/Operands.lean ====
section
/-! DEFINITION. The operands of requests: resolution of a tag with the checks of R5, the answer of each field, the
amendment of each field, and the members of set-valued fields (R4, R5, R9 to R12, R16 to R18, R179). -/

namespace Sys2Proof.Machine

/-- The status, TAG and VALUE a request's owner returns (R172). -/
structure Reply where
  status : Status
  tag    : Half
  value  : Wide
  deriving DecidableEq, Repr

/-- A refusal, or an answer with no value named: VALUE 0 (R179). -/
def refuse (status : Status) (tag : Half) : Reply := { status := status, tag := tag, value := 0 }

/-- DONE with a value. -/
def done (tag : Half) (value : Wide) : Reply := { status := .done, tag := tag, value := value }

/-- A holder as an answer's VALUE (R21 to R23). -/
def holderValue (h : Half) : Wide := h.setWidth 48

/-- The MASK member FORCE (R179). -/
def forced (mask : Byte) : Bool := mask.getLsbD 0

/-! ### Resolution and the checks of R5 -/

/-- The well a tag resolves to; 0 and 65535 resolve to no well record (R4). -/
def resolveWell (tag : Half) (s : State) : Option Well :=
  if tag = 0 ∨ tag = 65535 then none
  else (s.indexed? tag.toNat).map fun n => { tag := tag.toNat, slot := n }

/-- Whether a changing request with this ARG passes a record's claim (R21). -/
def claimPasses (arg : Half) (r : WellRecord) : Bool :=
  match r.claim with
  | none => true
  | some h => h == arg

/-- The holder a CLAIMED answer names (R21). -/
def claimHolder (r : WellRecord) : Wide :=
  match r.claim with
  | none => 0
  | some h => holderValue h

/-- Steps 2 to 4 of R5 for a request on a well tag, and then `act` on the well and its record: NOT_FOUND, DAMAGED with
the record freed, and, for a changing request, CLAIMED. -/
def onWell (changing : Bool) (tag arg : Half) (act : Well → WellRecord → State → State × Reply) (s : State) :
    State × Reply :=
  match resolveWell tag s with
  | none => (s, refuse .notFound tag)
  | some w =>
    match s.well? w with
    | none => (s, refuse .notFound tag)
    | some x =>
      if x.intact = false then (freeDamaged w s, refuse .damaged tag)
      else if changing = true ∧ claimPasses arg x.record = false then
        (s, { status := .claimed, tag := tag, value := claimHolder x.record })
      else act w x.record s

/-! ### Answers of fields -/

/-- The value a field of a well record is answered with; `none` is an absent field (R9, R14, R179). -/
def wellAnswer (r : WellRecord) : WellField → Option Wide
  | .tag => some (single r.tag)
  | .station => some (parts 0 r.address r.channel)
  | .valveMin => some (single r.valveMin)
  | .valveMax => some (single r.valveMax)
  | .step => some (single r.step)
  | .o2Ceiling => some (single r.o2Ceiling)
  | .ch4Floor => some (single r.ch4Floor)
  | .vacLimit => some (single r.vacLimit)
  | .tempLimit => some (single r.tempLimit)
  | .surveyInterval => some (single r.surveyInterval)
  | .debounce => some (single r.debounce)
  | .lamp => some (single r.lamp.code)
  | .detect => some (r.detect.setWidth 48)
  | .options => some (r.options.setWidth 48)
  | .enableA => some (r.enableA.setWidth 48)
  | .enableB => some (r.enableB.setWidth 48)
  | .wakeSet => some (r.wakeSet.setWidth 48)
  | .totalDraw => some (r.totalDraw.setWidth 48)
  | .location => some (r.location.easting ++ r.location.northing)
  | .mode => some (single r.mode.code)
  | .returnMode => r.returnMode.map fun m => single m.toMode.code
  | .valveTarget => some (single r.valveTarget)
  | .valveFeedback => r.valveFeedback.map single
  | .inputs => r.inputs.map fun p => single (levelsWord p)
  | .vacuum => r.vacuum.map single
  | .flow => r.flow.map single
  | .temp => r.temp.map signed
  | .events => some (r.events.setWidth 48)
  | .sample => r.sample.map fun x => parts x.ch4 x.co2 x.o2
  | .sampleAge => r.sampleAge.map single
  | .sampleOutcome => some (single r.sampleOutcome.code)
  | .surveyDue => some (single r.surveyDue)
  | .queued => some (single r.queued.code)
  | .excursions => some (single r.excursions)
  | .clean => some (single r.clean)
  | .moveState => some (single r.moveState.code)
  | .moveOutcome => some (single r.moveOutcome.code)
  | .purgeLeft => some (single r.purgeLeft)
  | .claim => r.claim.map holderValue

/-- The tag the SEQUENCER and MOVES fields answer for a well, or 65535 (R18). -/
def tagOr65535 (w : Option Well) : Nat :=
  match w with
  | none => noTag
  | some v => v.tag

/-- MOVES with its index: the counts for 0, the tag of a holder in grant order for 1 to 4, refused above (R18). -/
def movesAnswer (s : State) (index : Nat) : Except Status Wide :=
  if index = 0 then .ok (parts 0 s.moves.holders.length s.moves.waiting.length)
  else if index ≤ 4 then .ok (single (tagOr65535 ((s.moves.holders[index - 1]?).map fun h => h.well)))
  else .error .badValue

/-- An optional value, or ABSENT (R9). -/
def presentOr (v : Option Wide) : Except Status Wide :=
  match v with
  | none => .error .absent
  | some x => .ok x

/-- The value a field of the device record is answered with, or the refusal (R17, R18, R179). -/
def deviceAnswer (s : State) (arg : Half) : DeviceField → Except Status Wide
  | .engineCh4Floor => .ok (single s.settings.engineCh4Floor)
  | .permitMargin => .ok (single s.settings.permitMargin)
  | .engineO2Limit => .ok (single s.settings.engineO2Limit)
  | .permitHold => .ok (single s.settings.permitHold)
  | .drawBudget => .ok (single s.settings.drawBudget)
  | .engineIntake => .ok (single s.settings.engineIntake)
  | .purgeTime => .ok (single s.settings.purgeTime)
  | .analyserTimeout => .ok (single s.settings.analyserTimeout)
  | .moveTimeout => .ok (single s.settings.moveTimeout)
  | .moveBand => .ok (single s.settings.moveBand)
  | .moveSlots => .ok (single s.settings.moveSlots)
  | .purgePulse => .ok (single s.settings.purgePulse)
  | .lossThreshold => .ok (single s.settings.lossThreshold)
  | .suspectInterval => .ok (single s.settings.suspectInterval)
  | .wakeEnable => .ok (single (if s.settings.wakeEnable then 1 else 0))
  | .devEnableA => .ok (s.settings.devEnableA.setWidth 48)
  | .devEnableB => .ok (s.settings.devEnableB.setWidth 48)
  | .severity =>
    match faultKindOfCode arg.toNat with
    | none => .error .badValue
    | some k => .ok (single (severityOf s.settings.severity k).code)
  | .deviceState => .ok (single s.device.state.code)
  | .deviceEvents => .ok (s.device.events.setWidth 48)
  | .suction => .ok (single (Level.code s.device.suction))
  | .blend => presentOr (s.blend.blend.map fun b => parts b.ch4 b.o2 b.flow)
  | .fieldFlow => .ok (BitVec.ofNat 48 s.blend.fieldFlow)
  | .permitState => .ok (single s.blend.permit.code)
  | .budgetState => .ok (single s.blend.budget.code)
  | .sequencer => .ok (parts s.seq.phase.code (tagOr65535 s.seq.phase.current?) s.seq.queue.length)
  | .moves => movesAnswer s arg.toNat
  | .firstFault => presentOr (s.faults.first.map fun f => parts f.kind.code f.tag f.detail.toNat)
  | .furtherFaults => .ok (s.faults.further.setWidth 48)
  | .wellCount => .ok (single s.slots.length)
  | .stationCount => .ok (single s.scan.stations.length)

/-! ### Amendment of well fields -/

/-- A value within a field's range, or BAD_VALUE (R11, R16). -/
def inRange (lo hi : Nat) (v : Half) : Except Status Nat :=
  if lo ≤ v.toNat ∧ v.toNat ≤ hi then .ok v.toNat else .error .badValue

/-- A set operand that marks no bit beyond the field's last member, of `n` members (R184, R185). -/
def inSet (n : Nat) (v : Half) : Except Status (BitVec n) :=
  if v.toNat < 2 ^ n then .ok (v.setWidth n) else .error .badValue

/-- A value an enumerated operand names, or BAD_VALUE (R184). -/
def named {α : Type} (v : Option α) : Except Status α :=
  match v with
  | none => .error .badValue
  | some x => .ok x

/-- The target after an amendment of VALVE_MIN or VALVE_MAX (R11). -/
def WellRecord.reclamped (r : WellRecord) : WellRecord :=
  match r.mode with
  | .auto => { r with valveTarget := clamp r.valveMin r.valveMax r.valveTarget }
  | .manual => { r with valveTarget := clamp r.valveMin r.valveMax r.valveTarget }
  | .suspect => { r with valveTarget := r.valveMin }
  | .staging => r
  | .isolated => r
  | .unreachable => r
  | .retiring => r

/-- VALVE_MIN amended (R11). -/
def amendedValveMin (v : Half) (r : WellRecord) : Except Status WellRecord :=
  (inRange 0 Config.fullTravel v).bind fun n =>
    if r.valveMax < n then .error .badValue else .ok { r with valveMin := n }.reclamped

/-- VALVE_MAX amended (R11). -/
def amendedValveMax (v : Half) (r : WellRecord) : Except Status WellRecord :=
  (inRange 0 Config.fullTravel v).bind fun n =>
    if n < r.valveMin then .error .badValue else .ok { r with valveMax := n }.reclamped

/-- VALVE_TARGET amended: STANDBY, SAFE and WRONG_MODE in that order, and then the range (R11, R184). -/
def amendedTarget (d : DeviceState) (v : Half) (r : WellRecord) : Except Status WellRecord :=
  match d with
  | .standby => .error .standby
  | .safe => .error .safe
  | .run =>
    if r.mode ≠ .manual then .error .wrongMode
    else (inRange r.valveMin r.valveMax v).bind fun n =>
      (inRange 0 Config.fullTravel v).map fun _ => { r with valveTarget := n }

/-- SURVEY_INTERVAL amended: SURVEY_DUE is lowered to the new interval when greater (R11). -/
def amendedInterval (v : Half) (r : WellRecord) : Except Status WellRecord :=
  (inRange 5 1440 v).map fun n => { r with surveyInterval := n, surveyDue := min r.surveyDue n }

/-- TOTAL_DRAW amended, with one extension word as the upper 16 bits; the remainder is kept (R11). -/
def amendedDraw (words : List Half) (v : Half) (r : WellRecord) : Except Status WellRecord :=
  match words with
  | [upper] => .ok { r with totalDraw := upper ++ v }
  | _ => .error .extCount

/-- LOCATION amended, with two extension words, the first taken the most significant (R11). -/
def amendedLocation (words : List Half) (v : Half) (r : WellRecord) : Except Status WellRecord :=
  match words with
  | [a, b] =>
    let whole : BitVec 48 := a ++ b ++ v
    .ok { r with location := { easting := whole.extractLsb' 24 24, northing := whole.extractLsb' 0 24 } }
  | _ => .error .extCount

/-- The record after an AMEND of a field of a well, or the refusal (R10, R11, R12, R184). `words` are the extension
words the port has consumed for it. -/
def amendedRecord (d : DeviceState) (words : List Half) (v : Half) (r : WellRecord) :
    WellField → Except Status WellRecord
  | .valveMin => amendedValveMin v r
  | .valveMax => amendedValveMax v r
  | .step => (inRange 1 200 v).map fun n => { r with step := n }
  | .o2Ceiling => (inRange 0 2000 v).map fun n => { r with o2Ceiling := n }
  | .ch4Floor => (inRange 0 10000 v).map fun n => { r with ch4Floor := n }
  | .vacLimit => (inRange 0 65535 v).map fun n => { r with vacLimit := n }
  | .tempLimit => (inRange 400 800 v).map fun n => { r with tempLimit := n }
  | .surveyInterval => amendedInterval v r
  | .debounce => (inRange 1 15 v).map fun n => { r with debounce := n }
  | .lamp => (named (lampOfCode v.toNat)).map fun l => { r with lamp := l }
  | .detect => (inSet 16 v).map fun m => { r with detect := m }
  | .options => (inSet 4 v).map fun m => { r with options := m }
  | .enableA => (inSet 8 v).map fun m => { r with enableA := m }
  | .enableB => (inSet 8 v).map fun m => { r with enableB := m }
  | .wakeSet => (inSet 8 v).map fun m => { r with wakeSet := m }
  | .totalDraw => amendedDraw words v r
  | .location => amendedLocation words v r
  | .valveTarget => amendedTarget d v r
  | .tag | .station | .mode | .returnMode | .valveFeedback | .inputs | .vacuum | .flow | .temp | .events | .sample
  | .sampleAge | .sampleOutcome | .surveyDue | .queued | .excursions | .clean | .moveState | .moveOutcome
  | .purgeLeft | .claim => .error .badField

/-- A change of this field makes the event unit evaluate the alert lines (R12, R80). -/
def WellField.isAlertEnable : WellField → Bool
  | .enableA | .enableB => true
  | .tag | .station | .valveMin | .valveMax | .step | .o2Ceiling | .ch4Floor | .vacLimit | .tempLimit
  | .surveyInterval | .debounce | .lamp | .detect | .options | .wakeSet | .totalDraw | .location
  | .mode | .returnMode | .valveTarget | .valveFeedback | .inputs | .vacuum | .flow | .temp | .events | .sample
  | .sampleAge | .sampleOutcome | .surveyDue | .queued | .excursions | .clean | .moveState | .moveOutcome
  | .purgeLeft | .claim => false

/-- The new members of a set: SET adds the marked ones, CLEAR removes them (R12). -/
def memberChange {n : Nat} (add : Bool) (old marked : BitVec n) : BitVec n :=
  if add then old ||| marked else old &&& ~~~marked

/-- The record after a SET or CLEAR of a field of a well, or the refusal (R10, R12, R185). -/
def memberRecord (add : Bool) (v : Half) (r : WellRecord) : WellField → Except Status WellRecord
  | .detect => (inSet 16 v).map fun m => { r with detect := memberChange add r.detect m }
  | .options => (inSet 4 v).map fun m => { r with options := memberChange add r.options m }
  | .enableA => (inSet 8 v).map fun m => { r with enableA := memberChange add r.enableA m }
  | .enableB => (inSet 8 v).map fun m => { r with enableB := memberChange add r.enableB m }
  | .wakeSet => (inSet 8 v).map fun m => { r with wakeSet := memberChange add r.wakeSet m }
  | .tag | .station | .valveMin | .valveMax | .step | .o2Ceiling | .ch4Floor | .vacLimit | .tempLimit
  | .surveyInterval | .debounce | .lamp | .totalDraw | .location
  | .mode | .returnMode | .valveTarget | .valveFeedback | .inputs | .vacuum | .flow | .temp | .events | .sample
  | .sampleAge | .sampleOutcome | .surveyDue | .queued | .excursions | .clean | .moveState | .moveOutcome
  | .purgeLeft | .claim => .error .badField

/-! ### Amendment of settings -/

/-- The settings after an AMEND on tag 0, or the refusal (R10, R16, R17, R184). -/
def amendedSettings (arg v : Half) (t : Settings) : DeviceField → Except Status Settings
  | .engineCh4Floor => (inRange 0 10000 v).map fun n => { t with engineCh4Floor := n }
  | .permitMargin => (inRange 0 2000 v).map fun n => { t with permitMargin := n }
  | .engineO2Limit => (inRange 0 2000 v).map fun n => { t with engineO2Limit := n }
  | .permitHold => (inRange 10 3600 v).map fun n => { t with permitHold := n }
  | .drawBudget => (inRange 0 65535 v).map fun n => { t with drawBudget := n }
  | .engineIntake => (inRange 0 65535 v).map fun n => { t with engineIntake := n }
  | .purgeTime => (inRange 10 300 v).map fun n => { t with purgeTime := n }
  | .analyserTimeout => (inRange 2 60 v).map fun n => { t with analyserTimeout := n }
  | .moveTimeout => (inRange 10 600 v).map fun n => { t with moveTimeout := n }
  | .moveBand => (inRange 2 50 v).map fun n => { t with moveBand := n }
  | .moveSlots => (inRange 1 4 v).map fun n => { t with moveSlots := n }
  | .purgePulse => (inRange 1 30 v).map fun n => { t with purgePulse := n }
  | .lossThreshold => (inRange 2 8 v).map fun n => { t with lossThreshold := n }
  | .suspectInterval => (inRange 5 240 v).map fun n => { t with suspectInterval := n }
  | .wakeEnable => (inRange 0 1 v).map fun n => { t with wakeEnable := n == 1 }
  | .devEnableA => (inSet 6 v).map fun m => { t with devEnableA := m }
  | .devEnableB => (inSet 6 v).map fun m => { t with devEnableB := m }
  | .severity =>
    match faultKindOfCode arg.toNat with
    | none => .error .badValue
    | some k => (named (severityOfCode v.toNat)).map fun x => { t with severity := withSeverity t.severity x k }
  | .deviceState | .deviceEvents | .suction | .blend | .fieldFlow | .permitState | .budgetState | .sequencer | .moves
  | .firstFault | .furtherFaults | .wellCount | .stationCount => .error .badField

/-- The settings after a SET or CLEAR on tag 0, or the refusal (R10, R12, R17, R185). -/
def memberSettings (add : Bool) (v : Half) (t : Settings) : DeviceField → Except Status Settings
  | .devEnableA => (inSet 6 v).map fun m => { t with devEnableA := memberChange add t.devEnableA m }
  | .devEnableB => (inSet 6 v).map fun m => { t with devEnableB := memberChange add t.devEnableB m }
  | .engineCh4Floor | .permitMargin | .engineO2Limit | .permitHold | .drawBudget | .engineIntake | .purgeTime
  | .analyserTimeout | .moveTimeout | .moveBand | .moveSlots | .purgePulse | .lossThreshold | .suspectInterval
  | .wakeEnable | .severity
  | .deviceState | .deviceEvents | .suction | .blend | .fieldFlow | .permitState | .budgetState | .sequencer | .moves
  | .firstFault | .furtherFaults | .wellCount | .stationCount => .error .badField

/-- What the blocks do when new settings are written: a change of an alert enable evaluates the lines, and MOVE_SLOTS
brings the grant test (R16, R80, R113). Every other setting is read at its next use. -/
def settingTaken (f : DeviceField) (s : State) : State :=
  match f with
  | .devEnableA => evalAlerts s
  | .devEnableB => evalAlerts s
  | .moveSlots => grantTest s
  | .engineCh4Floor | .permitMargin | .engineO2Limit | .permitHold | .drawBudget | .engineIntake | .purgeTime
  | .analyserTimeout | .moveTimeout | .moveBand | .purgePulse | .lossThreshold | .suspectInterval | .wakeEnable
  | .severity
  | .deviceState | .deviceEvents | .suction | .blend | .fieldFlow | .permitState | .budgetState | .sequencer | .moves
  | .firstFault | .furtherFaults | .wellCount | .stationCount => s

end Sys2Proof.Machine
end

