-- ==== Sys2Proof/Machine/Port.lean ====
section
/-! DEFINITION. The record port (chapter 11): the answer pipeline, the extension words, the taking of a request, and the
commands that are the port's own: HOLD_EXCHANGE, DESELECT, NOP, EXTEND and UNKNOWN_REQUEST. -/

namespace Sys2Proof.Machine

/-! ### The answer pipeline -/

/-- An answer frame's 96 bits: UNIT, SEQ, STATUS, TAG, VALUE and CHECK (R170, R173, R179). -/
def AnswerFrame.bits (f : AnswerFrame) : Frame :=
  Frame.close (f.unit ++ f.answer.seq ++ BitVec.ofNat 8 f.answer.status.code ++ f.answer.tag ++ f.answer.value)

/-- The pipeline advances: the older slot is delivered under the UNIT then standing, or the line is released when it is
vacant; the newer slot becomes the older, and the newer is left vacant (R173). -/
def Port.advanced (p : Port) : Port :=
  let driven := p.older.map fun a => { unit := p.straps.unit, answer := a : AnswerFrame }
  { p with line := driven, lastDriven := driven, older := p.newer, newer := none }

def advance (s : State) : State := { s with port := s.port.advanced }

/-- The exchange's own answer fills the newer slot (R173). -/
def fill (a : Answer) (s : State) : State := { s with port := { s.port with newer := some a } }

/-- The answer a reply makes: SEQ is the request's, unchanged (R173). -/
def answerTo (r : Request) (x : Reply) : Answer := { seq := r.seq, status := x.status, tag := x.tag, value := x.value }

/-- A request is taken whole in its exchange: the pipeline advances, the request acts, and its answer fills the newer
slot (R172, R173). -/
def takeRequest (r : Request) (act : State → State × Reply) (s : State) : Host.Outcome State Fault Refusal :=
  let p := act (advance s)
  .next (fill (answerTo r p.2) p.1)

/-! ### Groups, words and the port checks -/

def setGroup (g : Option Group) (s : State) : State := { s with port := { s.port with group := g } }

def setWords (ws : List Half) (s : State) : State := { s with port := { s.port with words := ws } }

/-- What every request but CONTINUE and EXTEND does before it acts: an open group ends and the held words are consumed
(R176, R178). -/
def closePort (s : State) : State := setGroup none (setWords [] s)

/-- A request that can use no extension words: it ends a group, consumes the words, and is refused EXT_UNUSABLE when
words were held (R176, R178). -/
def plainRequest (r : Request) (act : State → State × Reply) (s : State) : Host.Outcome State Fault Refusal :=
  takeRequest r
    (fun t => if t.port.words.isEmpty then act (closePort t) else (closePort t, refuse .extUnusable r.tag)) s

/-- The extension check of an AMEND by the field it names (R176): the refusal, if any. -/
def amendWordsRefusal (field : Byte) (count : Nat) : Option Status :=
  match fieldOfCode field with
  | some (.well .totalDraw) => if count = 1 then none else some .extCount
  | some (.well .location) => if count = 2 then none else some .extCount
  | _ => if count = 0 then none else some .extUnusable

/-- Whether a FIELD code names a wide field (R10). -/
def isWide (field : Byte) : Bool :=
  decide (fieldOfCode field = some (.well .totalDraw)) || decide (fieldOfCode field = some (.well .location))

/-! ### The port's own commands -/

/-- HOLD_EXCHANGE: the frame driven in the last exchange is driven again, or the line stays released; nothing else
changes (R174). -/
def execHoldExchange (s : State) : Host.Outcome State Fault Refusal :=
  .next { s with port := { s.port with line := s.port.lastDriven } }

/-- The port's part of a deselect (R171). -/
def deselectPort (s : State) : State := closePort (advance s)

/-- DESELECT: the group ends, the words are discarded and the pipeline advances with a vacant slot; a failed check is
also reported as BAD_FRAME (R170, R171). -/
def execDeselect (cause : DeselectCause) (s : State) : Host.Outcome State Fault Refusal :=
  .next (match cause with
    | .otherUnit => deselectPort s
    | .badCheck => reportFault .badFrame noTag 0 (deselectPort s))

/-- NOP (R180). -/
def execNop (r : Request) (s : State) : Host.Outcome State Fault Refusal :=
  plainRequest r (fun t => (t, done r.tag 0)) s

/-- EXTEND: its VALUE joins the held words, or with two words held every word is discarded; an open group stays open
(R176, R191). -/
def extendPort (r : Request) (s : State) : State × Reply :=
  if s.port.words.length < Config.maxWords then
    (setWords (s.port.words ++ [r.value]) s, done r.tag (single (s.port.words.length + 1)))
  else (setWords [] s, refuse .extOverflow r.tag)

/-- EXTEND (R176, R191). -/
def execExtend (r : Request) (s : State) : Host.Outcome State Fault Refusal := takeRequest r (extendPort r) s

/-- UNKNOWN_REQUEST: the first port check fails, whatever words are held; the group ends and the words are consumed
(R172, R176, R178). -/
def execUnknownRequest (r : Request) (_code : Byte) (s : State) : Host.Outcome State Fault Refusal :=
  takeRequest r (fun t => (closePort t, refuse .unknownRequest r.tag)) s

end Sys2Proof.Machine
end

