-- ==== Sys2Proof/Machine/ClaimRequests.lean ====
section
/-! DEFINITION. CLAIM and RELEASE (R22, R23, R187). -/

namespace Sys2Proof.Machine

def setClaim (c : Option Half) (w : Well) (s : State) : State := writeRecord (fun r => { r with claim := c }) w s

/-- CLAIM on a well that has passed R5, by the table of R22. -/
def claimWell (r : Request) (w : Well) (q : WellRecord) (s : State) : State × Reply :=
  match q.claim with
  | none => (setClaim (some r.arg) w s, done r.tag 0)
  | some h =>
    if h = r.arg then (s, { status := .heldByYou, tag := r.tag, value := holderValue h })
    else (s, { status := .heldByOther, tag := r.tag, value := holderValue h })

/-- CLAIM (R22, R187). -/
def execClaim (r : Request) (s : State) : Host.Outcome State Fault Refusal :=
  plainRequest r (onWell false r.tag r.arg (claimWell r)) s

/-- A RELEASE may clear a claim held by `h`: with FORCE only holder 0, without FORCE only the holder (R23). -/
def releaseAllowed (r : Request) (h : Half) : Bool := if forced r.mask then r.arg == 0 else r.arg == h

/-- RELEASE on a well that has passed R5, by the table of R23. -/
def releaseWell (r : Request) (w : Well) (q : WellRecord) (s : State) : State × Reply :=
  match q.claim with
  | none => (s, refuse .absent r.tag)
  | some h =>
    if releaseAllowed r h then (setClaim none w s, done r.tag (holderValue h))
    else (s, { status := .claimed, tag := r.tag, value := holderValue h })

/-- RELEASE (R23, R187). -/
def execRelease (r : Request) (s : State) : Host.Outcome State Fault Refusal :=
  plainRequest r (onWell false r.tag r.arg (releaseWell r)) s

end Sys2Proof.Machine
end

