-- ==== Sys2Proof/Machine/DeviceCommands.lean ====
section
/-! DEFINITION. The commands to the part: STANDBY, RESUME, CLEARFAULTS and RESET (R153, R158, R161, R162, R164 to R166,
R192). Each answers VALUE 0. -/

namespace Sys2Proof.Machine

/-! ### STANDBY -/

/-- An enabled event kind stands (R161). -/
def State.alertStands (s : State) : Bool := s.alertAStands || s.alertBStands

/-- Work is in flight: a holder, a waiting well, or the sequencer in SELECT, PURGE, READ or RELEASE (R161). -/
def State.working (s : State) : Bool :=
  !s.moves.holders.isEmpty || !s.moves.waiting.isEmpty || s.seq.phase.current?.isSome

/-- The block that the entry to STANDBY moves to something: the blend unit withdraws the permit, and the other blocks
read the new state when they act (R162). -/
def standbyEntry : Handover := { Handover.none with blend := true }

/-- The entry to STANDBY (R160, R162). -/
def enterStandby (s : State) : State := handChange standbyEntry (setDeviceState .standby s)

/-- The checks of STANDBY in their order (R161). -/
def standby (r : Request) (s : State) : State × Reply :=
  match s.device.state with
  | .standby => (s, refuse .standby r.tag)
  | .safe => (s, refuse .safe r.tag)
  | .run =>
    if s.alertStands then (s, refuse .pending r.tag)
    else if s.working then (s, refuse .busy r.tag)
    else (enterStandby s, done r.tag 0)

/-- STANDBY (R161, R192). -/
def execStandby (r : Request) (s : State) : Host.Outcome State Fault Refusal := plainRequest r (standby r) s

/-! ### RESUME -/

/-- The step of an accepted RESUME that both states share: a change still owed is taken before this one; then RUN, WAKE
released, the grants to the wells that waited, the need evaluations in slot order, and the test for a head, which R158
and R164 put in this step (R83, R158, R160, R164, log 15). -/
def enterRun (s : State) : State :=
  let u := takeOwed s
  let t := grantTest (setDeviceState .run { u with lines := { u.lines with wake := false } })
  headTest (forEach t.wells evalNeed t)

/-- RESUME (R158, R164): from STANDBY the scan engine also begins a round when none is in progress. -/
def resume (r : Request) (s : State) : State × Reply :=
  match s.device.state with
  | .run => (s, refuse .wrongMode r.tag)
  | .safe => if s.faults.first.isSome then (s, refuse .pending r.tag) else (enterRun s, done r.tag 0)
  | .standby => (beginRoundIfIdle (enterRun s), done r.tag 0)

/-- RESUME (R158, R164, R192). -/
def execResume (r : Request) (s : State) : Host.Outcome State Fault Refusal := plainRequest r (resume r) s

/-! ### CLEARFAULTS and RESET -/

/-- The fault record emptied (R153). -/
def clearFaultRecord (s : State) : State := { s with faults := { first := none, further := 0 } }

/-- CLEARFAULTS (R153, R192). -/
def execClearFaults (r : Request) (s : State) : Host.Outcome State Fault Refusal :=
  plainRequest r (fun t => (clearFaultRecord t, done r.tag 0)) s

/-- RESET: a device reset in the step of its exchange, with the pipeline kept and its own DONE owed; refused while words
are held, and then no reset is taken (R165, R175, R192). -/
def execReset (r : Request) (straps : Straps) (s : State) : Host.Outcome State Fault Refusal :=
  plainRequest r (fun t => (deviceReset straps t, done r.tag 0)) s

end Sys2Proof.Machine
end

