-- ==== Sys2Proof/Machine/FieldRequests.lean ====
section
/-! DEFINITION. LOOKUP, AMEND, SET, CLEAR and ACK (R9 to R12, R16 to R18, R79, R183 to R186). -/

namespace Sys2Proof.Machine

/-! ### LOOKUP -/

/-- LOOKUP of a field of a well that has passed R5 (R183). -/
def lookupField (field : Byte) (tag : Half) (r : WellRecord) : Reply :=
  match fieldOfCode field with
  | some (.well f) =>
    match wellAnswer r f with
    | some v => done tag v
    | none => refuse .absent tag
  | some (.device _) => refuse .badField tag
  | none => refuse .badField tag

def lookupWell (field : Byte) (tag : Half) (_w : Well) (r : WellRecord) (s : State) : State × Reply :=
  (s, lookupField field tag r)

/-- The answer of a device field, or its refusal (R17, R18). -/
def deviceReply (s : State) (arg tag : Half) (f : DeviceField) : Reply :=
  match deviceAnswer s arg f with
  | .ok v => done tag v
  | .error e => refuse e tag

/-- LOOKUP on tag 0 (R17, R18, R183). -/
def lookupDevice (r : Request) (s : State) : Reply :=
  match fieldOfCode r.field with
  | some (.device f) => deviceReply s r.arg r.tag f
  | some (.well _) => refuse .badField r.tag
  | none => refuse .badField r.tag

/-- LOOKUP (R183). -/
def lookup (r : Request) (s : State) : State × Reply :=
  if r.tag = 0 then (s, lookupDevice r s)
  else onWell false r.tag r.arg (lookupWell r.field r.tag) s

def execLookup (r : Request) (s : State) : Host.Outcome State Fault Refusal := plainRequest r (lookup r) s

/-! ### Writes by request -/

/-- A change of an alert enable makes the event unit evaluate the lines (R12, R80). -/
def afterFieldWrite (f : WellField) (s : State) : State := if f.isAlertEnable then evalAlerts s else s

/-- The reply that carries a field of a well as it stands after a write; a written field is never absent. -/
def writtenReply (tag : Half) (r : WellRecord) (f : WellField) : Reply :=
  match wellAnswer r f with
  | some v => done tag v
  | none => refuse .absent tag

/-- The table takes a write of one field of a well: the new record, with a changed target handed on, or the refusal
with the record unchanged (R11, R12, R184, R185). -/
def writeWellField (new : Except Status WellRecord) (f : WellField) (tag : Half) (w : Well) (s : State) :
    State × Reply :=
  match new with
  | .error e => (s, refuse e tag)
  | .ok q => (afterFieldWrite f (writeAndHand (fun _ => q) w s), writtenReply tag q f)

/-- The table takes a write of one setting, and the blocks take it (R12, R16, R17). -/
def writeSetting (new : Except Status Settings) (f : DeviceField) (arg tag : Half) (s : State) : State × Reply :=
  match new with
  | .error e => (s, refuse e tag)
  | .ok t =>
    let u := settingTaken f { s with settings := t }
    (u, deviceReply u arg tag f)

/-! ### AMEND -/

/-- AMEND of a field of a well that has passed R5 (R184). -/
def amendWell (field : Byte) (words : List Half) (value tag : Half) (w : Well) (r : WellRecord) (s : State) :
    State × Reply :=
  match fieldOfCode field with
  | some (.well f) => writeWellField (amendedRecord s.device.state words value r f) f tag w s
  | some (.device _) => (s, refuse .badField tag)
  | none => (s, refuse .badField tag)

/-- AMEND on tag 0 (R16, R17, R184). -/
def amendDevice (r : Request) (s : State) : State × Reply :=
  match fieldOfCode r.field with
  | some (.device f) => writeSetting (amendedSettings r.arg r.value s.settings f) f r.arg r.tag s
  | some (.well _) => (s, refuse .badField r.tag)
  | none => (s, refuse .badField r.tag)

/-- AMEND past the port checks, with the words the port has consumed for it (R184). -/
def amend (r : Request) (words : List Half) (s : State) : State × Reply :=
  if r.tag = 0 then amendDevice r s
  else onWell true r.tag r.arg (amendWell r.field words r.value r.tag) s

/-- AMEND: the group ends and the words are consumed; their count is checked by the field named (R176, R184). -/
def execAmend (r : Request) (s : State) : Host.Outcome State Fault Refusal :=
  takeRequest r
    (fun t =>
      match amendWordsRefusal r.field t.port.words.length with
      | some e => (closePort t, refuse e r.tag)
      | none => amend r t.port.words (closePort t)) s

/-! ### SET and CLEAR -/

/-- SET (`add`) or CLEAR of a field of a well that has passed R5 (R185). -/
def memberWell (add : Bool) (r : Request) (w : Well) (q : WellRecord) (s : State) : State × Reply :=
  match fieldOfCode r.field with
  | some (.well f) => writeWellField (memberRecord add r.value q f) f r.tag w s
  | some (.device _) => (s, refuse .badField r.tag)
  | none => (s, refuse .badField r.tag)

/-- SET or CLEAR on tag 0 (R12, R17, R185). -/
def memberDevice (add : Bool) (r : Request) (s : State) : State × Reply :=
  match fieldOfCode r.field with
  | some (.device f) => writeSetting (memberSettings add r.value s.settings f) f r.arg r.tag s
  | some (.well _) => (s, refuse .badField r.tag)
  | none => (s, refuse .badField r.tag)

/-- SET or CLEAR (R185). -/
def changeMembers (add : Bool) (r : Request) (s : State) : State × Reply :=
  if r.tag = 0 then memberDevice add r s else onWell true r.tag r.arg (memberWell add r) s

/-- SET (R12, R185). -/
def execSetMembers (r : Request) (s : State) : Host.Outcome State Fault Refusal :=
  plainRequest r (changeMembers true r) s

/-- CLEAR (R12, R185). -/
def execClearMembers (r : Request) (s : State) : Host.Outcome State Fault Refusal :=
  plainRequest r (changeMembers false r) s

/-! ### ACK -/

/-- ACK on a well: EVENTS after the removal is answered (R79, R186). -/
def ackWellRequest (r : Request) (w : Well) (q : WellRecord) (s : State) : State × Reply :=
  (ackWell r.mask w s, done r.tag ((q.events &&& ~~~r.mask).setWidth 48))

/-- ACK on tag 0: DEVICE_EVENTS after the removal is answered (R79, R186). -/
def ackDeviceRequest (r : Request) (s : State) : State × Reply :=
  let t := ackDevice r.mask s
  (t, done r.tag (t.device.events.setWidth 48))

/-- ACK (R79, R186). -/
def acknowledge (r : Request) (s : State) : State × Reply :=
  if r.tag = 0 then ackDeviceRequest r s else onWell false r.tag r.arg (ackWellRequest r) s

def execAck (r : Request) (s : State) : Host.Outcome State Fault Refusal := plainRequest r (acknowledge r) s

end Sys2Proof.Machine
end

