-- ==== Sys2Proof/Machine/GroupRequests.lean ====
section
/-! DEFINITION. GROUPLOOK, GROUPAMEND and CONTINUE (R8, R177, R178, R190). -/

namespace Sys2Proof.Machine

/-- The offset visited at position `k`, counted from 1, of a group with start `b` (R177). -/
def visitOffset (order : VisitOrder) (b k : Nat) : Nat :=
  match order with
  | .linear => (b + k - 1) % 4
  | .interleaved => b ^^^ (k - 1)

/-- The tag of position `k` of a group (R177). -/
def Group.tagAt (order : VisitOrder) (g : Group) (k : Nat) : Half :=
  BitVec.ofNat 16 (g.base + visitOffset order g.start k)

/-- The group a request opens, at position 1 (R177). -/
def openedGroup (kind : GroupKind) (r : Request) : Group :=
  { kind := kind, field := r.field, base := r.tag.toNat - r.tag.toNat % 4, start := r.tag.toNat % 4, position := 1 }

/-- A group's act at one position, with the VALUE and ARG of the request that acts there: the checks of LOOKUP or of
AMEND on the position's tag, which is answered in TAG (R8, R178, R190). A tag that resolves to no well record, 0 and
65535 among them, is NOT_FOUND (R4). -/
def actAt (kind : GroupKind) (field : Byte) (tag value arg : Half) (s : State) : State × Reply :=
  match kind with
  | .look => onWell false tag arg (lookupWell field tag) s
  | .amend => onWell true tag arg (amendWell field [] value tag) s

/-- The opening of a group: it is recorded, and the request acts at position 1, which is its own tag (R177). -/
def openGroup (kind : GroupKind) (r : Request) (s : State) : State × Reply :=
  actAt kind r.field r.tag r.value r.arg (setGroup (some (openedGroup kind r)) s)

/-- GROUPLOOK (R177, R190). -/
def execGroupLook (r : Request) (s : State) : Host.Outcome State Fault Refusal :=
  plainRequest r (openGroup .look r) s

/-- GROUPAMEND past the extension check: a wide field is refused EXT_UNUSABLE and opens no group (R172, R177). -/
def groupAmend (r : Request) (s : State) : State × Reply :=
  if isWide r.field then (s, refuse .extUnusable r.tag) else openGroup .amend r s

/-- GROUPAMEND (R177, R190). -/
def execGroupAmend (r : Request) (s : State) : Host.Outcome State Fault Refusal := plainRequest r (groupAmend r) s

/-- Number of positions of a group (R177). -/
def lastPosition : Nat := 4

/-- The group after a position has been used: the counter has risen, and the group ends with position 4 (R178). -/
def Group.stepped (g : Group) : Option Group :=
  if lastPosition ≤ g.position + 1 then none else some { g with position := g.position + 1 }

/-- CONTINUE, `words` being the words that were held: the extension check, then NO_GROUP, then the act at the next
position; a position refused EXT_UNUSABLE is used up (R172, R176, R178, log 14). -/
def continueWith (words : List Half) (r : Request) (s : State) : State × Reply :=
  match s.port.group with
  | none => (s, refuse (if words.isEmpty then .noGroup else .extUnusable) r.tag)
  | some g =>
    let tag := g.tagAt s.port.straps.order (g.position + 1)
    let t := setGroup g.stepped s
    if words.isEmpty then actAt g.kind g.field tag r.value r.arg t else (t, refuse .extUnusable tag)

/-- CONTINUE (R178, R190). -/
def execContinueGroup (r : Request) (s : State) : Host.Outcome State Fault Refusal :=
  takeRequest r (fun t => continueWith t.port.words r (setWords [] t)) s

end Sys2Proof.Machine
end

