-- ==== Sys2Proof/Machine/RecordRequests.lean ====
section
/-! DEFINITION. ENROL, RETIRE and FIND (R6, R7, R29, R39, R42, R181, R182, R189). -/

namespace Sys2Proof.Machine

/-! ### ENROL -/

/-- A new record: the ENROL defaults of section 1.3 (R6, R29). -/
def freshRecord (tag address channel : Nat) (start : ActiveMode) : WellRecord :=
  { tag := tag, address := address, channel := channel,
    valveMin := 0, valveMax := 1000, step := 20, o2Ceiling := 200, ch4Floor := 4500, vacLimit := 2500,
    tempLimit := 550, surveyInterval := 240, debounce := 2, lamp := .off, detect := defaultDetect, options := 0,
    enableA := 0, enableB := 0, wakeSet := 0, totalDraw := 0, location := { easting := 0, northing := 0 },
    mode := .staging, returnMode := some start, valveTarget := 0, valveFeedback := none, inputs := none,
    vacuum := none, flow := none, temp := none, events := 0, sample := none, sampleAge := none,
    sampleOutcome := .none, surveyDue := 0, queued := .no, excursions := 0, clean := 0, moveState := .none,
    moveOutcome := .none, purgeLeft := 0, claim := none, drawRemainder := 0 }

/-- A newly occupied slot: the index and the scan engine hold it under the record's own names, the record agrees with its
check, and the event unit holds no run for it (R3, R19, R47, R68). -/
def freshSlot (r : WellRecord) : Slot :=
  { tag := r.tag, address := r.address, channel := r.channel, record := r, intact := true, runs := noRuns,
    purgeEndDue := false }

/-- The table and the scan engine take an accepted ENROL (R3, R6, R47). -/
def placeRecord (slot tag address channel : Nat) (start : ActiveMode) (s : State) : State :=
  enrolStation address channel
    { s with slots := insertAscending slot (freshSlot (freshRecord tag address channel start)) s.slots,
             index := insertAscending tag slot s.index }

/-- A station address and channel ENROL admits (R6). -/
def stationInRange (address channel : Nat) : Bool :=
  decide (1 ≤ address) && decide (address ≤ Config.maxAddress) && decide (channel ≤ Config.maxChannel)

/-- The checks of ENROL in their order, and its effect (R6, R181). -/
def enrol (r : Request) (s : State) : State × Reply :=
  let tag := r.tag.toNat
  let address := r.value.toNat / 256
  let channel := r.value.toNat % 256
  match s.device.state with
  | .standby => (s, refuse .standby r.tag)
  | .safe => (s, refuse .safe r.tag)
  | .run =>
    if tag = 0 ∨ tag = 65535 then (s, refuse .badValue r.tag)
    else if stationInRange address channel = false then (s, refuse .badValue r.tag)
    else match requestedMode r.mask.toNat with
      | none => (s, refuse .badValue r.tag)
      | some start =>
        if (s.indexed? tag).isSome then (s, refuse .exists_ r.tag)
        else if (s.wellAt? address channel).isSome then (s, refuse .stationTaken r.tag)
        else match s.freeSlot? with
          | none => (s, refuse .tableFull r.tag)
          | some slot => (placeRecord slot tag address channel start s, done r.tag (single slot))

/-- ENROL (R6, R181). -/
def execEnrol (r : Request) (s : State) : Host.Outcome State Fault Refusal := plainRequest r (enrol r) s

/-! ### RETIRE -/

/-- The VALUE of a RETIRE answer when the record was freed at once, and when it was not (R182). -/
def freedAtOnce : Wide := 1
def freedLater : Wide := 0

/-- RETIRE of a parked well: RETURN_MODE becomes RETIRING (R39). -/
def retireParked (w : Well) (r : WellRecord) (s : State) : State :=
  if r.returnMode = some .retiring then s
  else writeRecord (fun q => { q with returnMode := some .retiring }) w s

/-- RETIRE without FORCE, outside SAFE, by the table of R39. -/
def retireByMode (tag : Half) (w : Well) (r : WellRecord) (s : State) : State × Reply :=
  match r.mode with
  | .retiring => (s, done tag freedLater)
  | .staging => (retireParked w r s, done tag freedLater)
  | .unreachable => (retireParked w r s, done tag freedLater)
  | .auto | .manual | .isolated | .suspect =>
    if r.closed s.settings.moveBand then (freeWell w s, done tag freedAtOnce)
    else (changeMode .retiring true w s, done tag freedLater)

/-- RETIRE of a well that has passed R5 (R39, R42, R182). -/
def retireWell (r : Request) (w : Well) (q : WellRecord) (s : State) : State × Reply :=
  if forced r.mask then (freeWell w s, done r.tag freedAtOnce)
  else match s.device.state with
    | .safe => (s, refuse .safe r.tag)
    | .run => retireByMode r.tag w q s
    | .standby => retireByMode r.tag w q s

/-- RETIRE (R39, R42, R182). -/
def execRetire (r : Request) (s : State) : Host.Outcome State Fault Refusal :=
  plainRequest r (onWell true r.tag r.arg (retireWell r)) s

/-! ### FIND -/

/-- FIND: the smallest enrolled tag greater than the tag named, in TAG and in VALUE, or NOT_FOUND with 65535 in both
(R7, R189). -/
def find (r : Request) (s : State) : State × Reply :=
  match s.nextTag? r.tag.toNat with
  | some tag => (s, done (BitVec.ofNat 16 tag) (single tag))
  | none => (s, { status := .notFound, tag := 65535, value := 65535 })

/-- FIND (R7, R189). -/
def execFind (r : Request) (s : State) : Host.Outcome State Fault Refusal := plainRequest r (find r) s

end Sys2Proof.Machine
end

