-- ==== Sys2Proof/Machine/ScanReplies.lean ====
section
/-! DEFINITION. The commands of the field scan link: ACCEPT, READINGS, REFUSED, TRANSACTION_FAILURE and
SCAN_FRAME_DISCARD (R49, R51, R55 to R64), with the event unit's debouncing and the events an arrival hands to the
blocks (R61, R68 to R73). -/

namespace Sys2Proof.Machine

/-! ### The end of a transaction -/

/-- The scan engine takes the outcome of the transaction in flight: the transaction ends, `act` acts on the outcome and
the round goes on (R49, R52). With no transaction in flight a frame is discarded (R49). -/
def endTransaction (act : Transaction → State → State) (s : State) : State :=
  match s.scan.inFlight with
  | none => s
  | some t => visitNext (act t { s with scan := { s.scan with inFlight := none } })

def setStationState (st : StationState) (address : Nat) (s : State) : State :=
  changeStation (fun x => { x with state := st }) address s

/-- A successful transaction returns the failure count to 0 (R55, R60, R63). -/
def clearFailures (address : Nat) (s : State) : State :=
  changeStation (fun x => { x with failures := 0 }) address s

/-- The failure count rises by 1 and stays at 8 (R56). -/
def raiseStationFailures (address : Nat) (s : State) : State :=
  changeStation (fun x => { x with failures := min (x.failures + 1) Config.maxFailures }) address s

def addressDetail (address : Nat) : Half := BitVec.ofNat 16 address

/-- A station becomes LOST: the report, and the loss of each of its wells (R57). R149 lets reports of different blocks be
taken in either order: an ANALYSER_OFFLINE that the loss brings comes after STATION_LOST (log 35). -/
def loseStation (address : Nat) (s : State) : State :=
  let t := reportFault .stationLost noTag (addressDetail address) (setStationState .lost address s)
  loseWells (t.wellsOf address) t

/-- The failure just counted makes the station LOST: the count is at or above LOSS_THRESHOLD and it is not LOST (R56). -/
def lossReached (threshold : Nat) (st : StationRecord) : Bool :=
  decide (threshold ≤ st.failures) && !(st.state == .lost)

/-- A failed transaction, SETUP or POLL (R56, R57). The threshold and the station are read as the failure finds them. -/
def failTransaction (address : Nat) (s : State) : State :=
  let t := raiseStationFailures address s
  match t.station? address with
  | none => t
  | some st =>
    let u := reportFault .stationNoReply noTag (addressDetail address) t
    if lossReached s.settings.lossThreshold st then loseStation address u else u

/-- TRANSACTION_FAILURE: the reply window closes with no valid reply (R51, R56). -/
def execTransactionFailure (s : State) : Host.Outcome State Fault Refusal :=
  .next (endTransaction (fun t => failTransaction t.address) s)

/-- SCAN_FRAME_DISCARD: the frame is discarded and counts as neither success nor failure (R48, R49, R54). -/
def execScanFrameDiscard (s : State) : Host.Outcome State Fault Refusal := .next s

/-- A reply is judged by its check first: one whose check is bad fails the transaction, whatever it carries (R51,
condition 1); `judge` tests the other conditions. -/
def judgeFrame (frame : LinkFrame) (judge : Transaction → State → State) (t : Transaction) (s : State) : State :=
  if frame.passes then judge t s else failTransaction t.address s

/-! ### ACCEPT -/

/-- A channel of the map gets its baseline-pending flag when it was in the map as sent (R55). -/
def StationChannel.accepted (sent : List Nat) (c : StationChannel) : StationChannel :=
  if sent.contains c.channel then { c with baselinePending := true } else c

/-- A station record takes an acceptance: the count 0, the flags, and ACTIVE when every channel now in the map was in
the map as sent, SETUP_DUE otherwise (R55). -/
def StationRecord.accepted (sent : List Nat) (st : StationRecord) : StationRecord :=
  { st with failures := 0, channels := st.channels.map (StationChannel.accepted sent),
            state := if st.channels.all (fun c => sent.contains c.channel) then .active else .setupDue }

/-- The wells now on the channels as sent that are still in the map (R55). A channel freed and enrolled again under another
tag while the SETUP was in flight is still in the map as sent, and R55 speaks both of the channels and of the wells: the
model goes by the channel and takes up the well that is there now, whatever tag held the channel at sending (log 29). -/
def State.acceptedWells (s : State) (address : Nat) (sent : List Nat) : List Well :=
  match s.station? address with
  | none => []
  | some st => (st.channels.filter (fun c => sent.contains c.channel)).filterMap fun c => s.wellAt? address c.channel

/-- An accepted SETUP (R30, R55). -/
def acceptSetup (address : Nat) (channels : List SetupChannel) (s : State) : State :=
  let sent := channels.map fun c => c.channel
  forEach (s.acceptedWells address sent) takeUpMode (changeStation (StationRecord.accepted sent) address s)

/-- The reply ACCEPT, judged by R51: its address and its kind must fit the transaction. -/
def judgeAccept (address : Nat) (t : Transaction) (s : State) : State :=
  match t.sent with
  | .setup channels => if address = t.address then acceptSetup address channels s else failTransaction t.address s
  | .poll _ => failTransaction t.address s

/-- ACCEPT (R51, R55). -/
def execAccept (reply : StationReply) (s : State) : Host.Outcome State Fault Refusal :=
  .next (endTransaction (judgeFrame reply.frame (judgeAccept reply.address)) s)

/-! ### REFUSED -/

/-- The station of the sequencer's current well (R57, R63). -/
def State.currentAddress? (s : State) : Option Nat :=
  match s.seq.phase.current? with
  | none => none
  | some w => (s.well? w).map fun x => x.address

/-- A REFUSED reply to a POLL (R63). -/
def refusePoll (address : Nat) (s : State) : State :=
  let t := reportFault .stationRefused noTag (addressDetail address)
    (setStationState .setupDue address (clearFailures address s))
  if t.currentAddress? = some address then abortSample t else t

/-- The reply REFUSED, judged by R51. -/
def judgeRefused (address : Nat) (t : Transaction) (s : State) : State :=
  match t.sent with
  | .poll _ => if address = t.address then refusePoll address s else failTransaction t.address s
  | .setup _ => failTransaction t.address s

/-- REFUSED (R51, R63). -/
def execRefused (reply : StationReply) (s : State) : Host.Outcome State Fault Refusal :=
  .next (endTransaction (judgeFrame reply.frame (judgeRefused reply.address)) s)

/-! ### Debouncing -/

/-- One input takes a raw level: its debounced level and its run afterwards (R70). -/
def debounceInput (limit : Nat) (raw level : Level) (run : Run) : Level × Run :=
  if raw = level then (level, .none)
  else
    let count := if run.pending = some raw then run.count + 1 else 1
    if limit ≤ count then (raw, .none) else (level, { pending := some raw, count := count })

/-- The four inputs take an arrival that is no baseline (R70). -/
def debounceAll (limit : Nat) (raw level : PerInput Level) (run : PerInput Run) : PerInput Level × PerInput Run :=
  let b := debounceInput limit raw.button level.button run.button
  let c := debounceInput limit raw.cap level.cap run.cap
  let a := debounceInput limit raw.actuator level.actuator run.actuator
  let l := debounceInput limit raw.liquid level.liquid run.liquid
  ({ button := b.1, cap := c.1, actuator := a.1, liquid := l.1 },
   { button := b.2, cap := c.2, actuator := a.2, liquid := l.2 })

/-- The input rose. -/
def rose (before after : PerInput Level) (i : Input) : Bool :=
  inputValue before i == .low && inputValue after i == .high

/-- The input fell. -/
def fell (before after : PerInput Level) (i : Input) : Bool :=
  inputValue before i == .high && inputValue after i == .low

/-- DETECT selects the change an input has made (R71). -/
def changeSelected (detect : BitVec 16) (before after : PerInput Level) (i : Input) : Bool :=
  (rose before after i && detectHolds detect i .rise) || (fell before after i && detectHolds detect i .fall)

/-- Set the event kinds of the changes of one arrival (R71). -/
def setEdgeEvents (detect : BitVec 16) (before after : PerInput Level) (w : Well) (s : State) : State :=
  inputsInOrder.foldl (fun t i => if changeSelected detect before after i then setWellEvent i.event w t else t) s

/-! ### Events handed to the blocks -/

/-- What an arrival hands to a block as an event of its own (R61, R72): the actions of the debounced changes, the
arrival of feedback, and the confirmation of the outputs as sent. -/
inductive Handed where
  /-- BUTTON rising, to the table -/
  | isolate
  /-- CAP rising, to the sequencer -/
  | capAbort
  /-- CAP falling, to the sequencer -/
  | capEnqueue
  /-- ACTUATOR rising, to the move scheduler -/
  | actuatorBlock
  /-- ACTUATOR rising, to the fault unit -/
  | actuatorReport
  /-- ACTUATOR falling, to the move scheduler -/
  | actuatorFall
  /-- LIQUID rising, to the move scheduler -/
  | autoPurge
  /-- new feedback, to the move scheduler, at a baseline or not -/
  | feedback (baseline : Bool)
  /-- the outputs as sent have reached the station, to the sequencer -/
  | confirm (sampleValve : Bool)
  deriving DecidableEq, Repr

/-- The actions of the changes of one arrival, in the order R72 lists them. -/
def changeActions (before after : PerInput Level) : List Handed :=
  (if rose before after .button then [.isolate] else []) ++
  (if rose before after .cap then [.capAbort] else []) ++
  (if fell before after .cap then [.capEnqueue] else []) ++
  (if rose before after .actuator then [.actuatorBlock, .actuatorReport] else []) ++
  (if fell before after .actuator then [.actuatorFall] else []) ++
  (if rose before after .liquid then [.autoPurge] else [])

/-- A rising BUTTON change isolates the well: its mode is AUTO, MANUAL or SUSPECT, and its OPTIONS holds BUTTON_ISOLATE
(R36). -/
def WellRecord.isolable (r : WellRecord) : Bool := r.mode.isSampled && r.hasOption .buttonIsolate

def buttonIsolate (w : Well) (s : State) : State :=
  match s.record? w with
  | none => s
  | some r => if r.isolable then changeMode .isolated false w s else s

/-- The sequencer takes a CAP fall; `later` are the events of the same arrival that follow it. With an isolation among
them that will act, no head is taken at the join, so that the isolation finds an entry to remove and the well's sample
outcome is that of the other order (R73, R92). -/
def capEnqueue (later : List Handed) (w : Well) (s : State) : State :=
  match s.record? w with
  | none => s
  | some r => urgentEnqueue (later.contains .isolate && r.isolable) w s

/-- The move scheduler's completion check of a holder, or its look for a closed valve of a waiting RETIRING well (R40,
R115). -/
def checkMove (w : Well) (s : State) : State :=
  match s.record? w with
  | none => s
  | some r =>
    if s.moves.holds w then
      if r.outOfBand s.settings.moveBand then s
      else if r.mode = .retiring then freeWell w s
      else grantTest (endMove .done w s)
    else if s.moves.waits w = true ∧ r.mode = .retiring ∧ r.closed s.settings.moveBand = true then freeWell w s
    else s

/-- The move scheduler takes new feedback; at a baseline it first evaluates need (R61, R62, R111, log 12). -/
def takeFeedback (baseline : Bool) (w : Well) (s : State) : State :=
  checkMove w (if baseline then evalNeed w s else s)

/-- The sequencer takes the confirmation of a station's POLL for one of its channels: in SELECT a valve on for the
current well starts the purge timer, and in RELEASE a valve off ends the sample (R95, R102). -/
def takeConfirmation (valve : Bool) (w : Well) (s : State) : State :=
  match s.seq.phase with
  | .select v => if valve = true ∧ v = w then setPhase (.purge w s.settings.purgeTime) s else s
  | .release v => if valve = false ∧ v = w then leaveSample (setQueued .no w s) else s
  | .idle => s
  | .purge _ _ => s
  | .read _ _ => s
  | .offline _ _ => s

/-- A rising LIQUID change on a well whose OPTIONS holds AUTO_PURGE starts a pulse (R121). -/
def liquidPurge (w : Well) (s : State) : State :=
  match s.record? w with
  | none => s
  | some r => if r.hasOption .autoPurge then startPulse w s else s

/-- A block takes an event an arrival has handed to it, on its own state as it then stands (R72, R73). A well freed
meanwhile is passed over by the owner (R13); the report of ACTUATOR_FAULT, once made, is taken all the same (R149). The
events still to be taken after it are `later`. -/
def takeHanded (later : List Handed) (w : Well) (h : Handed) (s : State) : State :=
  match h with
  | .isolate => buttonIsolate w s
  | .capAbort => abortSampleOf w s
  | .capEnqueue => capEnqueue later w s
  | .actuatorBlock => blockMove w s
  | .actuatorReport => reportFault .actuatorFault w.tag 0 s
  | .actuatorFall => evalNeed w s
  | .autoPurge => liquidPurge w s
  | .feedback baseline => takeFeedback baseline w s
  | .confirm valve => takeConfirmation valve w s

/-- A list with its elements taken in the order of `picks`: each pick takes one of those left, and when the picks end
the rest keep their order. Every order of a list is that of some picks (R73, log 5). -/
def reorder {α : Type} : List Nat → List α → List α
  | [], l => l
  | k :: ks, l =>
    match l[k % l.length]? with
    | none => l
    | some a => a :: reorder ks (l.eraseIdx (k % l.length))

/-- The blocks take the events of one arrival, in the order given. -/
def takeAllHanded (w : Well) : List Handed → State → State
  | [], s => s
  | h :: later, s => takeAllHanded w later (takeHanded later w h s)

/-! ### READINGS -/

/-- The readings a reply carries for a channel: one marked not measured leaves its field as it stands (R60). -/
def WellRecord.withReadings (c : ChannelReading) (r : WellRecord) : WellRecord :=
  { r with valveFeedback := some c.feedback,
           vacuum := (c.vacuum.map BitVec.toNat).or r.vacuum,
           flow := (c.flow.map BitVec.toNat).or r.flow,
           temp := c.temp.or r.temp }

/-- Clear the baseline-pending flag of a channel (R62). -/
def clearBaseline (address channel : Nat) (s : State) : State :=
  changeStation (fun st => { st with channels := st.channels.map fun c =>
    if c.channel = channel then { c with baselinePending := false } else c }) address s

def setInputs (p : PerInput Level) (w : Well) (s : State) : State := writeRecord (fun r => { r with inputs := some p }) w s

def setRuns (q : PerInput Run) (w : Well) (s : State) : State := changeSlot (fun x => { x with runs := q }) w s

/-- The event unit takes a baseline: the debounced levels are the raw levels, with no run and no edge, and the flag is
cleared (R62, R69). -/
def takeBaseline (address : Nat) (c : ChannelReading) (w : Well) (s : State) : State :=
  clearBaseline address c.channel (setRuns noRuns w (setInputs c.raw w s))

/-- The event unit takes raw levels that are no baseline, `before` being the debounced levels that stand (R70, R71). -/
def takeLevels (c : ChannelReading) (before : PerInput Level) (x : Slot) (w : Well) (s : State) : State :=
  let d := debounceAll x.record.debounce c.raw before x.runs
  setEdgeEvents x.record.detect before d.1 w (setRuns d.2 w (setInputs d.1 w s))

/-- The arrival at one channel of a well whose slot is `x`, its readings being written: the event unit's part, then the
events handed to the blocks in the order given (R61, R62, R69 to R73). An arrival for a record whose INPUTS is absent
is a baseline (R69). R61 hands the arrival to the event unit, the move scheduler and the sequencer as separate events and
gives them no order: in the model the event unit takes its part, the debouncing with the event kinds it sets, before the
move scheduler takes the feedback and the sequencer the confirmation (log 32). R61 has the sequencer take one confirmation
for the station as a whole: the model hands it over channel by channel, with the arrival of each, before the arrivals of
the later channels (log 30). -/
def takeArrival (address : Nat) (p : PollChannel) (c : ChannelReading) (order : List Nat) (x : Slot) (s : State) :
    State :=
  match x.record.inputs with
  | none =>
    takeAllHanded p.well (reorder order [.feedback true, .confirm p.outputs.sampleValve])
      (takeBaseline address c p.well s)
  | some before =>
    if s.baselinePending address c.channel then
      takeAllHanded p.well (reorder order [.feedback true, .confirm p.outputs.sampleValve])
        (takeBaseline address c p.well s)
    else
      takeAllHanded p.well
        (reorder order
          (changeActions before (debounceAll x.record.debounce c.raw before x.runs).1 ++
            [.feedback false, .confirm p.outputs.sampleValve]))
        (takeLevels c before x p.well s)

/-- One channel as sent takes its readings (R60): a freed record's are discarded, a damaged record is freed, and
otherwise they are written and their arrival is handed on. -/
def takeChannel (address : Nat) (p : PollChannel) (c : ChannelReading) (order : List Nat) (s : State) : State :=
  match s.well? p.well with
  | none => s
  | some x =>
    if x.intact then
      takeArrival address p c order x (writeRecord (WellRecord.withReadings c) p.well s)
    else freeDamaged p.well s

/-- The channels as sent, each with its readings and its order, in ascending channel order (R60). -/
def takeChannels (address : Nat) : List PollChannel → List ChannelReading → List (List Nat) → State → State
  | p :: ps, c :: cs, orders, s =>
    takeChannels address ps cs orders.tail (takeChannel address p c (orders.headD []) s)
  | _, _, _, s => s

/-- The readings of a channel lie in range (R51, condition 5). -/
def ChannelReading.inRange (c : ChannelReading) : Bool :=
  decide (c.feedback ≤ Config.fullTravel) &&
  (match c.temp with
   | none => true
   | some t => decide (-400 ≤ t) && decide (t ≤ 1200))

/-- A READINGS reply to this POLL succeeds: its address, its channel list and its values (R51). -/
def readingsFit (address : Nat) (channels : List ChannelReading) (t : Transaction) (sent : List PollChannel) : Bool :=
  decide (address = t.address) && decide (channels.map (fun c => c.channel) = sent.map (fun p => p.channel)) &&
  channels.all ChannelReading.inRange

/-- The reply READINGS, judged by R51. -/
def judgeReadings (address : Nat) (channels : List ChannelReading) (orders : List (List Nat)) (t : Transaction)
    (s : State) : State :=
  match t.sent with
  | .poll sent =>
    if readingsFit address channels t sent then takeChannels address sent channels orders (clearFailures address s)
    else failTransaction t.address s
  | .setup _ => failTransaction t.address s

/-- READINGS (R51, R60 to R62). -/
def execReadings (reply : StationReply) (channels : List ChannelReading) (orders : List (List Nat)) (s : State) :
    Host.Outcome State Fault Refusal :=
  .next (endTransaction (judgeFrame reply.frame (judgeReadings reply.address channels orders)) s)

end Sys2Proof.Machine
end

