-- ==== Sys2Proof/Machine/WellCommands.lean ====
section
/-! DEFINITION. MODE, SAMPLE and PURGE (R33 to R35, R91, R121, R188). -/

namespace Sys2Proof.Machine

/-! ### MODE -/

/-- The well is RETIRING, or parked with RETURN_MODE RETIRING (R33). -/
def WellRecord.isRetiring (r : WellRecord) : Bool :=
  decide (r.mode = .retiring) || (r.mode.isParked && decide (r.returnMode = some .retiring))

/-- MODE on a parked well (R35). -/
def setReturnMode (m : ActiveMode) (w : Well) (r : WellRecord) (s : State) : State :=
  if r.returnMode = some m then s else writeRecord (fun q => { q with returnMode := some m }) w s

/-- An accepted MODE: a transition of an active well, or a new RETURN_MODE of a parked one; MODE after the request is
answered (R33 to R35). -/
def takeMode (m : ActiveMode) (tag : Half) (w : Well) (r : WellRecord) (s : State) : State × Reply :=
  if r.mode.isParked then (setReturnMode m w r s, done tag (single r.mode.code))
  else (changeMode m.toMode false w s, done tag (single m.toMode.code))

/-- MODE on a well that has passed R5: SAFE, BAD_VALUE and WRONG_MODE in that order (R33). -/
def modeWell (r : Request) (w : Well) (q : WellRecord) (s : State) : State × Reply :=
  if s.device.state = .safe then (s, refuse .safe r.tag)
  else match requestedMode r.value.toNat with
    | none => (s, refuse .badValue r.tag)
    | some m => if q.isRetiring then (s, refuse .wrongMode r.tag) else takeMode m r.tag w q s

/-- MODE (R33, R188). -/
def execModeRequest (r : Request) (s : State) : Host.Outcome State Fault Refusal :=
  plainRequest r (onWell true r.tag r.arg (modeWell r)) s

/-! ### SAMPLE -/

/-- The well stands in the queue at the same or a higher class, or is the current well (R91). -/
def alreadyQueued (c : SampleClass) (q : Queued) : Bool :=
  match q with
  | .sampling => true
  | .urgent => true
  | .routine => decide (c = .routine)
  | .no => false

/-- A well's position in a queue, counted from 1 at the head (R91). -/
def queuePosition (w : Well) (q : List QueueEntry) : Nat := q.findIdx (fun e => e.well == w) + 1

/-- An accepted SAMPLE: the entry joins or is promoted, and the sequencer tests for a head; the position answered is the
one the entry takes as it joins (R91, R93, log 13). -/
def takeSample (c : SampleClass) (tag : Half) (w : Well) (s : State) : State × Reply :=
  let t := placeInQueue c w s
  (headTest t, done tag (single (queuePosition w t.seq.queue)))

/-- SAMPLE in RUN, from the check of VALUE on (R91). -/
def sampleInRun (r : Request) (w : Well) (q : WellRecord) (s : State) : State × Reply :=
  match sampleClassOfCode r.value.toNat with
  | none => (s, refuse .badValue r.tag)
  | some c =>
    if q.mode.isSampled = false then (s, refuse .wrongMode r.tag)
    else if alreadyQueued c q.queued then (s, refuse .queuedAlready r.tag)
    else if q.inputHigh .cap then (s, refuse .blocked r.tag)
    else if q.queued = .no ∧ Config.queueCapacity ≤ s.seq.queue.length then (s, refuse .queueFull r.tag)
    else takeSample c r.tag w s

/-- SAMPLE on a well that has passed R5 (R91). -/
def sampleWell (r : Request) (w : Well) (q : WellRecord) (s : State) : State × Reply :=
  match s.device.state with
  | .standby => (s, refuse .standby r.tag)
  | .safe => (s, refuse .safe r.tag)
  | .run => sampleInRun r w q s

/-- SAMPLE (R91, R188). -/
def execSample (r : Request) (s : State) : Host.Outcome State Fault Refusal :=
  plainRequest r (onWell true r.tag r.arg (sampleWell r)) s

/-! ### PURGE -/

/-- PURGE on a well that has passed R5: PURGE_LEFT after the request is answered (R121). -/
def purgeWell (r : Request) (w : Well) (q : WellRecord) (s : State) : State × Reply :=
  match s.device.state with
  | .standby => (s, refuse .standby r.tag)
  | .safe => (s, refuse .safe r.tag)
  | .run =>
    if q.mode.isParked then (s, refuse .wrongMode r.tag)
    else (startPulse w s, done r.tag (single s.settings.purgePulse))

/-- PURGE (R121, R188). -/
def execPurge (r : Request) (s : State) : Host.Outcome State Fault Refusal :=
  plainRequest r (onWell true r.tag r.arg (purgeWell r)) s

end Sys2Proof.Machine
end

