-- ==== Sys2Proof/Machine/Dispatch.lean ====
section
/-! DEFINITION. The command table: one arm for each command, which calls the command's meaning. -/

namespace Sys2Proof.Machine

/-- The effect of one command on everything but the queue of pending commands. -/
def exec (i : Instr) (s : State) : Host.Outcome State Fault Refusal :=
  match i with
  | .powerOn straps suction => Sys2Proof.Machine.execPowerOn straps suction s
  | .resetLine straps => Sys2Proof.Machine.execResetLine straps s
  | .secondTick late => Sys2Proof.Machine.execSecondTick s late
  | .minuteTick => Sys2Proof.Machine.execMinuteTick s
  | .purgePulseEnd tag => Sys2Proof.Machine.execPurgePulseEnd tag s
  | .moveTimerExpiry tag => Sys2Proof.Machine.execMoveTimerExpiry tag s
  | .purgeTimerExpiry => Sys2Proof.Machine.execPurgeTimerExpiry s
  | .analyserTimerExpiry => Sys2Proof.Machine.execAnalyserTimerExpiry s
  | .busyWaitExpiry => Sys2Proof.Machine.execBusyWaitExpiry s
  | .probeTimerExpiry => Sys2Proof.Machine.execProbeTimerExpiry s
  | .holdTimerExpiry => Sys2Proof.Machine.execHoldTimerExpiry s
  | .suctionChange level => Sys2Proof.Machine.execSuctionChange level s
  | .holdExchange => Sys2Proof.Machine.execHoldExchange s
  | .deselect cause => Sys2Proof.Machine.execDeselect cause s
  | .nop r => Sys2Proof.Machine.execNop r s
  | .enrol r => Sys2Proof.Machine.execEnrol r s
  | .retire r => Sys2Proof.Machine.execRetire r s
  | .lookup r => Sys2Proof.Machine.execLookup r s
  | .amend r => Sys2Proof.Machine.execAmend r s
  | .setMembers r => Sys2Proof.Machine.execSetMembers r s
  | .clearMembers r => Sys2Proof.Machine.execClearMembers r s
  | .ack r => Sys2Proof.Machine.execAck r s
  | .claim r => Sys2Proof.Machine.execClaim r s
  | .release r => Sys2Proof.Machine.execRelease r s
  | .modeRequest r => Sys2Proof.Machine.execModeRequest r s
  | .sample r => Sys2Proof.Machine.execSample r s
  | .purge r => Sys2Proof.Machine.execPurge r s
  | .find r => Sys2Proof.Machine.execFind r s
  | .groupLook r => Sys2Proof.Machine.execGroupLook r s
  | .groupAmend r => Sys2Proof.Machine.execGroupAmend r s
  | .continueGroup r => Sys2Proof.Machine.execContinueGroup r s
  | .extend r => Sys2Proof.Machine.execExtend r s
  | .standby r => Sys2Proof.Machine.execStandby r s
  | .resume r => Sys2Proof.Machine.execResume r s
  | .clearFaults r => Sys2Proof.Machine.execClearFaults r s
  | .reset r straps => Sys2Proof.Machine.execReset r straps s
  | .accept reply => Sys2Proof.Machine.execAccept reply s
  | .readings reply channels orders => Sys2Proof.Machine.execReadings reply channels orders s
  | .refused reply => Sys2Proof.Machine.execRefused reply s
  | .transactionFailure => Sys2Proof.Machine.execTransactionFailure s
  | .values number ch4 co2 o2 => Sys2Proof.Machine.execValues number ch4 co2 o2 s
  | .analyserFaultReply number => Sys2Proof.Machine.execAnalyserFaultReply number s
  | .busy number => Sys2Proof.Machine.execBusy number s
  | .probeReply number reply => Sys2Proof.Machine.execProbeReply number reply s
  | .analyserFrameDiscard => Sys2Proof.Machine.execAnalyserFrameDiscard s
  | .unknownRequest r code => Sys2Proof.Machine.execUnknownRequest r code s
  | .scanFrameDiscard => Sys2Proof.Machine.execScanFrameDiscard s
  | .probeFaultReply number => Sys2Proof.Machine.execProbeFaultReply number s

end Sys2Proof.Machine
end

