-- ==== Sys2Proof/Machine/Step.lean ====
section
/-! DEFINITION. A step of the machine: the command at the front of the queue runs on the state with the queue's rest. -/

namespace Sys2Proof.Machine

/-- The state with this queue of pending commands. -/
def State.withPending (s : State) (cs : List Instr) : State := { s with pending := cs }

/-- Take the command at the front of the queue and run it; with no command waiting the part idles (log 2). -/
def step (s : State) : Host.Outcome State Fault Refusal :=
  match s.pending with
  | [] => .next s
  | c :: rest => exec c (s.withPending rest)

/-- The state with the command a word spells at the front of its queue; a word that spells no command leaves the state
as it stands, and the table gives no row bits, so that no word spells one (log 23). -/
def State.withFetchWord (s : State) (nbits w : Nat) : State :=
  match decodeTableWord nbits w with
  | none => s
  | some c => s.withPending (c :: s.pending)

end Sys2Proof.Machine
end

