-- ==== Sys2Proof/Safety.lean ====
section
/-! DEFINITION. The terms claims are made in: what a legal state is, what an exchange does to the port, and when a request
reaches a well. -/

namespace Sys2Proof.Machine

/-! ### Legal records and a consistent table -/

/-- The bounds R25 puts on the target of each mode. -/
abbrev WellRecord.TargetLegal (r : WellRecord) : Prop :=
  ((r.mode = .auto ∨ r.mode = .manual) → r.valveMin ≤ r.valveTarget ∧ r.valveTarget ≤ r.valveMax) ∧
  (r.mode = .suspect → r.valveTarget = r.valveMin) ∧
  ((r.mode = .isolated ∨ r.mode = .retiring) → r.valveTarget = 0)

/-- The counts stay within R125, and the draw remainder within R14. -/
abbrev WellRecord.CountsLegal (r : WellRecord) : Prop :=
  r.excursions ≤ 3 ∧ r.clean ≤ 2 ∧ (r.mode ≠ .suspect → r.clean = 0) ∧ r.drawRemainder < Config.drawUnit

/-- What R11, R14, R25, R26 and R125 promise of every record. -/
abbrev WellRecord.Legal (r : WellRecord) : Prop :=
  r.valveMin ≤ r.valveMax ∧ r.valveMax ≤ Config.fullTravel ∧ r.valveTarget ≤ Config.fullTravel ∧ r.TargetLegal ∧
  (r.returnMode.isSome ↔ r.mode.isParked) ∧ r.CountsLegal

/-- The occupied slots stand in strictly ascending order, each numbered below 160 (R2). -/
abbrev State.SlotsOrdered (s : State) : Prop :=
  s.slots.Pairwise (fun p q => p.1 < q.1) ∧ ∀ p ∈ s.slots, p.1 < Config.slotCount

/-- Every record is legal. -/
abbrev State.RecordsLegal (s : State) : Prop := s.SlotsOrdered ∧ ∀ p ∈ s.slots, p.2.record.Legal

/-- The tag index is in strictly ascending tag order and holds exactly the pairs of the occupied slots, whose records
carry the tag they are indexed under (R3). -/
abbrev State.IndexAgrees (s : State) : Prop :=
  s.SlotsOrdered ∧ s.index.Pairwise (fun p q => p.1 < q.1) ∧
  (∀ p ∈ s.slots, (p.2.tag, p.1) ∈ s.index ∧ p.2.record.tag = p.2.tag) ∧
  ∀ q ∈ s.index, ∃ p ∈ s.slots, p.1 = q.2 ∧ p.2.tag = q.1

/-! ### Lines -/

/-- ALERT A and ALERT B are asserted exactly when their conditions stand (R80), and WAKE is released in RUN (R83). -/
abbrev State.LinesFollow (s : State) : Prop :=
  s.lines.alertA = s.alertAStands ∧ s.lines.alertB = s.alertBStands ∧
  (s.device.state = .run → s.lines.wake = false)

/-- ENGINE PERMIT is asserted exactly while the permit is GRANTED, FLARE DEMAND is asserted outside GRANTED, and the hold
timer runs exactly while the permit is PENDING. It is GRANTED in RUN with SUCTION high only, and PENDING only there or
while the blend unit has still to take the departure from RUN (R142 to R144; log 15). -/
abbrev State.PermitSafe (s : State) : Prop :=
  s.blend.enginePermit = decide (s.blend.permit = .granted) ∧
  (s.blend.permit ≠ .granted → s.blend.flareDemand = true) ∧
  (s.blend.holdTimer.isSome ↔ s.blend.permit = .pending) ∧
  (s.blend.permit = .granted → s.device.state = .run) ∧
  (s.blend.permit = .pending → s.device.state = .run ∨ s.device.owed.blend = true) ∧
  (s.blend.permit ≠ .withdrawn → s.device.suction = .high)

/-! ### Settings, move slots, the port and the fault record -/

/-- Every setting lies in its range (section 1.4). -/
abbrev Settings.InRange (t : Settings) : Prop :=
  t.engineCh4Floor ≤ 10000 ∧ t.permitMargin ≤ 2000 ∧ t.engineO2Limit ≤ 2000 ∧
  (10 ≤ t.permitHold ∧ t.permitHold ≤ 3600) ∧ t.drawBudget ≤ 65535 ∧ t.engineIntake ≤ 65535 ∧
  (10 ≤ t.purgeTime ∧ t.purgeTime ≤ 300) ∧ (2 ≤ t.analyserTimeout ∧ t.analyserTimeout ≤ 60) ∧
  (10 ≤ t.moveTimeout ∧ t.moveTimeout ≤ 600) ∧ (2 ≤ t.moveBand ∧ t.moveBand ≤ 50) ∧
  (1 ≤ t.moveSlots ∧ t.moveSlots ≤ 4) ∧ (1 ≤ t.purgePulse ∧ t.purgePulse ≤ 30) ∧
  (2 ≤ t.lossThreshold ∧ t.lossThreshold ≤ 8) ∧ (5 ≤ t.suspectInterval ∧ t.suspectInterval ≤ 240)

/-- At most four wells hold move slots, MOVE_SLOTS being at most 4 (R109, R113). -/
abbrev State.HoldersBounded (s : State) : Prop := s.settings.moveSlots ≤ 4 ∧ s.moves.holders.length ≤ 4

/-- An open group stands between its positions 1 and 3, on a base that is a multiple of 4 (R177, R178). -/
abbrev Group.Legal (g : Group) : Prop :=
  1 ≤ g.position ∧ g.position < 4 ∧ g.base % 4 = 0 ∧ g.start < 4 ∧ g.base + g.start ≤ 65535

/-- The port holds at most two extension words, and its open group is legal (R176 to R178). -/
abbrev State.PortLegal (s : State) : Prop :=
  s.port.words.length ≤ Config.maxWords ∧ ∀ g ∈ s.port.group, g.Legal

/-- FURTHER_FAULTS is empty while FIRST_FAULT is absent (R151), and a failure count held lies within 1 to 3 (R87). -/
abbrev State.FaultsLegal (s : State) : Prop :=
  (s.faults.first = none → s.faults.further = 0) ∧ ∀ f ∈ s.seq.failures, 1 ≤ f.count ∧ f.count ≤ Config.offlineCount

/-! ### The station table, the queue and the lists -/

/-- The station records stand in ascending address order, and each holds a channel (R46, R48). -/
abbrev State.StationsOrdered (s : State) : Prop :=
  s.scan.stations.Pairwise (fun x y => x.address < y.address) ∧ ∀ x ∈ s.scan.stations, x.channels ≠ []

/-- The station table is that of the occupied slots (R46): its channel maps ascend and are exactly the channels that
occupied slots use at each address, no two slots hold the same station address and channel, a failure count is at most 8,
and on an ACTIVE station every well is in an active mode. -/
abbrev State.StationsLegal (s : State) : Prop :=
  s.SlotsOrdered ∧ s.StationsOrdered ∧
  s.slots.Pairwise (fun p q => ¬ (p.2.address = q.2.address ∧ p.2.channel = q.2.channel)) ∧
  (∀ p ∈ s.slots, ∃ x ∈ s.scan.stations, x.address = p.2.address ∧ ∃ c ∈ x.channels, c.channel = p.2.channel) ∧
  ∀ x ∈ s.scan.stations, x.failures ≤ Config.maxFailures ∧
    x.channels.Pairwise (fun c d => c.channel < d.channel) ∧
    (∀ c ∈ x.channels, ∃ p ∈ s.slots, p.2.address = x.address ∧ p.2.channel = c.channel) ∧
    (x.state = .active → ∀ p ∈ s.slots, p.2.address = x.address → p.2.record.mode.isActive = true)

/-- The channels as sent in a transaction, each with the well that then held it (R49). -/
def Sent.wells : Sent → List (Nat × Well)
  | .setup l => l.map fun c => (c.channel, c.well)
  | .poll l => l.map fun c => (c.channel, c.well)

/-- A transaction is in flight exactly while a round is in progress, with the station at the round position (R49, R52).
Its channels as sent ascend and its wells are distinct; a well that still stands stands at its channel, or has been
enrolled again elsewhere since, and then no reading has reached it. -/
abbrev State.TransactionLegal (s : State) : Prop :=
  (s.scan.inFlight = none → s.scan.round = .idle) ∧
  ∀ tr ∈ s.scan.inFlight,
    s.scan.round = .running (some tr.address) ∧ (∃ x ∈ s.scan.stations, x.address = tr.address) ∧
    tr.sent.wells.Pairwise (fun p q => p.1 < q.1 ∧ p.2 ≠ q.2) ∧
    ∀ p ∈ tr.sent.wells, ∀ x ∈ s.well? p.2,
      x.address = tr.address ∧ x.channel = p.1 ∨ x.record.inputs = none

/-- The queue holds at most 16 entries and no well twice, URGENT before ROUTINE, each the entry of an occupied slot in a
sampled mode; and QUEUED of every record says where the well stands: in which class, or as the current well (R86 to
R88). -/
abbrev State.QueueLegal (s : State) : Prop :=
  s.SlotsOrdered ∧ s.seq.queue.length ≤ Config.queueCapacity ∧ (s.seq.queue.map fun e => e.well).Nodup ∧
  s.seq.queue.Pairwise (fun d e => d.cls = .routine → e.cls = .routine) ∧
  (∀ e ∈ s.seq.queue, ∃ r ∈ s.record? e.well, r.mode.isSampled = true) ∧
  (∀ w ∈ s.seq.phase.current?, (s.record? w).isSome = true) ∧
  ∀ p ∈ s.slots,
    (p.2.record.queued = .routine ↔ { well := wellOf p, cls := .routine } ∈ s.seq.queue) ∧
    (p.2.record.queued = .urgent ↔ { well := wellOf p, cls := .urgent } ∈ s.seq.queue) ∧
    (p.2.record.queued = .sampling ↔ s.seq.phase.current? = some (wellOf p))

/-- The wells that hold a move slot, in the order of the grants, and then those that wait, oldest first. -/
def State.inLists (s : State) : List Well := s.moves.holders.map (fun h => h.well) ++ s.moves.waiting

/-- No well holds a slot twice, waits twice, or does both; each is the well of an occupied slot in an active mode; and
MOVE_STATE of every record says where the well stands (R109, R111, R112). -/
abbrev State.MovesLegal (s : State) : Prop :=
  s.SlotsOrdered ∧ s.inLists.Nodup ∧ (∀ w ∈ s.inLists, ∃ r ∈ s.record? w, r.mode.isActive = true) ∧
  ∀ p ∈ s.slots,
    (p.2.record.moveState = .moving ↔ s.moves.holds (wellOf p) = true) ∧
    (p.2.record.moveState = .waiting ↔ s.moves.waits (wellOf p) = true)

/-- Outside RUN no well holds a slot and no sample is open, once the move scheduler and the sequencer have taken the
change (R156, R160 to R162; log 15). -/
abbrev State.Quiet (s : State) : Prop :=
  s.device.state ≠ .run →
    (s.device.owed.moves = false → s.moves.holders = []) ∧
    (s.device.owed.sequencer = false → s.seq.phase.isOpen = false)

/-- What every step keeps of the table, the station table, the transaction in flight, the queue and the lists. -/
abbrev State.Sound (s : State) : Prop :=
  s.RecordsLegal ∧ s.StationsLegal ∧ s.TransactionLegal ∧ s.QueueLegal ∧ s.MovesLegal

/-! ### Exchanges -/

/-- The port after an exchange of this part that is no hold exchange: the older slot is driven under the UNIT then
standing, the newer becomes the older, and the exchange's own answer fills the newer (R173). -/
def Port.afterExchange (p : Port) (answer : Option Answer) (words : List Half) (group : Option Group) : Port :=
  { straps := p.straps, older := p.newer, newer := answer,
    lastDriven := p.older.map fun a => { unit := p.straps.unit, answer := a },
    line := p.older.map fun a => { unit := p.straps.unit, answer := a },
    words := words, group := group }

/-- The answer to a request (R173). -/
def answerOf (r : Request) (status : Status) (tag : Half) (value : Wide) : Answer :=
  { seq := r.seq, status := status, tag := tag, value := value }

/-- The state after a request that changes nothing but the port: its words are consumed, its group is ended, and its
answer is owed (R173, R176, R178). -/
def State.answered (s : State) (r : Request) (status : Status) (tag : Half) (value : Wide) : State :=
  { s with port := s.port.afterExchange (some (answerOf r status tag value)) [] none }

/-- A request on this tag finds this well with these contents of its slot, whose record agrees with its integrity check
(R4, R5, R19). -/
abbrev State.Reaches (s : State) (tag : Half) (w : Well) (x : Slot) : Prop :=
  resolveWell tag s = some w ∧ s.well? w = some x ∧ x.intact = true

/-- A tag names no well record: it is 0 or 65535, or the index holds no pair with it (R4). -/
abbrev State.Unresolved (s : State) (tag : Half) : Prop :=
  tag = 0 ∨ tag = 65535 ∨ ∀ p ∈ s.index, p.1 ≠ tag.toNat

/-- A changing request with this ARG passes the record's claim (R21). -/
abbrev WellRecord.Admits (q : WellRecord) (arg : Half) : Prop := q.claim = none ∨ q.claim = some arg

/-- FIELD names TOTAL_DRAW or LOCATION (R10, R179). -/
abbrev NamesWide (r : Request) : Prop := r.field = 17 ∨ r.field = 18

/-- The requests that can use no extension words and step no group (R176, R178). -/
def plainRequests (r : Request) (straps : Straps) : List Instr :=
  [.nop r, .enrol r, .retire r, .lookup r, .setMembers r, .clearMembers r, .ack r, .claim r, .release r,
   .modeRequest r, .sample r, .purge r, .find r, .groupLook r, .groupAmend r, .standby r, .resume r, .clearFaults r,
   .reset r straps]

/-- The single requests that act on well records only (R4). -/
def wellRequests (r : Request) : List Instr :=
  [.retire r, .claim r, .release r, .modeRequest r, .sample r, .purge r]

/-- The single requests that act on a well record, or on tag 0 on the device record (R4). -/
def recordRequests (r : Request) : List Instr :=
  [.lookup r, .amend r, .setMembers r, .clearMembers r, .ack r]

/-! ### States after a write -/

/-- This state with these contents in the slot of `w`; every other slot and every other unit is as it was. -/
def State.withSlot (s : State) (w : Well) (x : Slot) : State :=
  { s with slots := s.slots.map fun p => if p.1 = w.slot then (p.1, x) else p }

/-- This state with the alert lines set by their conditions (R80), and nothing else changed. -/
def State.alertsTaken (s : State) : State :=
  { s with lines := { s.lines with alertA := s.alertAStands, alertB := s.alertBStands } }

/-- The fault record after a report of this kind (R150, R151). -/
def State.faultsAfter (s : State) (k : FaultKind) (tag : Nat) (detail : Half) : FaultUnit :=
  if severityOf s.settings.severity k = .ignored then s.faults
  else match s.faults.first with
    | none => { first := some { kind := k, tag := tag, detail := detail }, further := s.faults.further }
    | some f => { first := some f, further := s.faults.further ||| k.bit }

/-- The record of `w` is `r`, but for the fields in which the sequencer, the move scheduler and the event unit mark
what becomes of a well among the others: EVENTS, QUEUED, SAMPLE_OUTCOME, MOVE_STATE and MOVE_OUTCOME. -/
def State.HoldsUpToMarks (t : State) (w : Well) (r : WellRecord) : Prop :=
  ∃ q, t.record? w = some q ∧
    q = { r with events := q.events, queued := q.queued, sampleOutcome := q.sampleOutcome, moveState := q.moveState,
                 moveOutcome := q.moveOutcome }

/-- Every other well of `s` is in `t` with its record, up to the marks. -/
def State.OthersUpToMarks (s t : State) (w : Well) : Prop :=
  ∀ v r, v ≠ w → s.record? v = some r → t.HoldsUpToMarks v r

/-- The units that a request to one well leaves as they were: settings, time base and the waiting commands. -/
abbrev State.SameFrame (s t : State) : Prop :=
  t.settings = s.settings ∧ t.time = s.time ∧ t.pending = s.pending

/-! ### Device reset -/

/-- A slot as device reset leaves it: the record as R15 and R43 state, and no debounce run (R68). -/
def resetSlot (x : Slot) : Slot :=
  { tag := x.tag, address := x.address, channel := x.channel,
    record :=
      { x.record with
        valveFeedback := none, inputs := none, vacuum := none, flow := none, temp := none, events := 0,
        excursions := 0, clean := 0, purgeLeft := 0, queued := .no, moveState := .none, mode := .staging,
        returnMode := match x.record.mode with
          | .staging => x.record.returnMode
          | .unreachable => x.record.returnMode
          | .auto => some .auto
          | .manual => some .manual
          | .isolated => some .isolated
          | .suspect => some .suspect
          | .retiring => some .retiring },
    intact := true,
    runs := { button := ⟨none, 0⟩, cap := ⟨none, 0⟩, actuator := ⟨none, 0⟩, liquid := ⟨none, 0⟩ },
    purgeEndDue := false }

/-- What R166 states of the blocks of a part after device reset. -/
def BlocksAfterReset (s t : State) : Prop :=
  t.device = { state := .run, events := 0, suction := s.device.suction, late := Handover.none,
               owed := Handover.none } ∧
  t.lines = { alertA := false, alertB := false, wake := false } ∧
  t.seq = { phase := .idle, queue := [], failures := none, busyCount := 0, number := 0 } ∧
  t.moves = { holders := [], waiting := [] } ∧
  t.blend = { blend := none, contributing := 0, fieldFlow := 0, budget := .under, permit := .withdrawn,
              holdTimer := none, enginePermit := false, flareDemand := true } ∧
  t.faults = s.faults ∧ t.settings = s.settings ∧ t.time = s.time ∧ t.pending = s.pending ∧
  t.scan.stations = s.scan.stations.map (fun x =>
    { x with state := .setupDue, failures := 0,
             channels := x.channels.map fun c => { c with baselinePending := false } }) ∧
  (match s.scan.stations with
   | [] => t.scan.inFlight = none ∧ t.scan.round = .idle
   | x :: _ => t.scan.round = .running (some x.address) ∧
     ∃ channels, t.scan.inFlight = some { address := x.address, sent := .setup channels })

/-! ### Fields by their codes -/

/-- A value in bits 15-0 of an answer (R179). -/
def low (n : Nat) : Wide := BitVec.ofNat 48 (n % 65536)

/-- Three 16-bit parts, from bits 47-32 down (R179). -/
def three (a b c : Nat) : Wide := BitVec.ofNat 16 a ++ BitVec.ofNat 16 b ++ BitVec.ofNat 16 c

/-- What a LOOKUP of the field with this code answers of a well record: `none` for a code that is no field of a well
record, `some none` for a field that is absent (R9, R14, R179, R183). -/
def fieldValue (q : WellRecord) : Nat → Option (Option Wide)
  | 0 => some (some (low q.tag))
  | 1 => some (some (three 0 q.address q.channel))
  | 2 => some (some (low q.valveMin))
  | 3 => some (some (low q.valveMax))
  | 4 => some (some (low q.step))
  | 5 => some (some (low q.o2Ceiling))
  | 6 => some (some (low q.ch4Floor))
  | 7 => some (some (low q.vacLimit))
  | 8 => some (some (low q.tempLimit))
  | 9 => some (some (low q.surveyInterval))
  | 10 => some (some (low q.debounce))
  | 11 => some (some (low q.lamp.code))
  | 12 => some (some (q.detect.setWidth 48))
  | 13 => some (some (q.options.setWidth 48))
  | 14 => some (some (q.enableA.setWidth 48))
  | 15 => some (some (q.enableB.setWidth 48))
  | 16 => some (some (q.wakeSet.setWidth 48))
  | 17 => some (some (q.totalDraw.setWidth 48))
  | 18 => some (some (q.location.easting ++ q.location.northing))
  | 19 => some (some (low q.mode.code))
  | 20 => some (q.returnMode.map fun m => low m.toMode.code)
  | 21 => some (some (low q.valveTarget))
  | 22 => some (q.valveFeedback.map low)
  | 23 => some (q.inputs.map fun p =>
      low (Level.code p.button + 2 * Level.code p.cap + 4 * Level.code p.actuator + 8 * Level.code p.liquid))
  | 24 => some (q.vacuum.map low)
  | 25 => some (q.flow.map low)
  | 26 => some (q.temp.map fun t => (BitVec.ofInt 16 t).setWidth 48)
  | 27 => some (some (q.events.setWidth 48))
  | 28 => some (q.sample.map fun x => three x.ch4 x.co2 x.o2)
  | 29 => some (q.sampleAge.map low)
  | 30 => some (some (low q.sampleOutcome.code))
  | 31 => some (some (low q.surveyDue))
  | 32 => some (some (low q.queued.code))
  | 33 => some (some (low q.excursions))
  | 34 => some (some (low q.clean))
  | 35 => some (some (low q.moveState.code))
  | 36 => some (some (low q.moveOutcome.code))
  | 37 => some (some (low q.purgeLeft))
  | 38 => some (q.claim.map fun h => h.setWidth 48)
  | _ => none

/-- The answer to a LOOKUP of a field of a well record by its code (R183). -/
def fieldAnswer (r : Request) (tag : Half) (code : Byte) (q : WellRecord) : Answer :=
  match fieldValue q code.toNat with
  | none => answerOf r .badField tag 0
  | some none => answerOf r .absent tag 0
  | some (some v) => answerOf r .done tag v

/-- What a LOOKUP on tag 0 answers for the field with this code and this ARG (R17, R18, R179). -/
def deviceValue (s : State) (arg : Nat) : Nat → Except Status Wide
  | 39 => .ok (low s.settings.engineCh4Floor)
  | 40 => .ok (low s.settings.permitMargin)
  | 41 => .ok (low s.settings.engineO2Limit)
  | 42 => .ok (low s.settings.permitHold)
  | 43 => .ok (low s.settings.drawBudget)
  | 44 => .ok (low s.settings.engineIntake)
  | 45 => .ok (low s.settings.purgeTime)
  | 46 => .ok (low s.settings.analyserTimeout)
  | 47 => .ok (low s.settings.moveTimeout)
  | 48 => .ok (low s.settings.moveBand)
  | 49 => .ok (low s.settings.moveSlots)
  | 50 => .ok (low s.settings.purgePulse)
  | 51 => .ok (low s.settings.lossThreshold)
  | 52 => .ok (low s.settings.suspectInterval)
  | 53 => .ok (if s.settings.wakeEnable then 1 else 0)
  | 54 => .ok (s.settings.devEnableA.setWidth 48)
  | 55 => .ok (s.settings.devEnableB.setWidth 48)
  | 56 =>
    match faultKinds[arg]? with
    | none => .error .badValue
    | some k => .ok (low (severityOf s.settings.severity k).code)
  | 57 => .ok (low s.device.state.code)
  | 58 => .ok (s.device.events.setWidth 48)
  | 59 => .ok (low (Level.code s.device.suction))
  | 60 =>
    match s.blend.blend with
    | none => .error .absent
    | some b => .ok (three b.ch4 b.o2 b.flow)
  | 61 => .ok (BitVec.ofNat 48 s.blend.fieldFlow)
  | 62 => .ok (low s.blend.permit.code)
  | 63 => .ok (low s.blend.budget.code)
  | 64 => .ok (three s.seq.phase.code (match s.seq.phase.current? with | none => 65535 | some w => w.tag)
      s.seq.queue.length)
  | 65 =>
    if arg = 0 then .ok (three 0 s.moves.holders.length s.moves.waiting.length)
    else if arg ≤ 4 then .ok (low (match s.moves.holders[arg - 1]? with | none => 65535 | some h => h.well.tag))
    else .error .badValue
  | 66 =>
    match s.faults.first with
    | none => .error .absent
    | some f => .ok (three f.kind.code f.tag f.detail.toNat)
  | 67 => .ok (s.faults.further.setWidth 48)
  | 68 => .ok (low s.slots.length)
  | 69 => .ok (low s.scan.stations.length)
  | _ => .error .badField

/-- The plain configuration fields of a well record by code: the bounds of the value and the field it writes (R11,
section 1.3). -/
def plainField : Nat → Option (Nat × Nat × (Nat → WellRecord → WellRecord))
  | 4 => some (1, 200, fun n r => { r with step := n })
  | 5 => some (0, 2000, fun n r => { r with o2Ceiling := n })
  | 6 => some (0, 10000, fun n r => { r with ch4Floor := n })
  | 7 => some (0, 65535, fun n r => { r with vacLimit := n })
  | 8 => some (400, 800, fun n r => { r with tempLimit := n })
  | 9 => some (5, 1440, fun n r => { r with surveyInterval := n, surveyDue := min r.surveyDue n })
  | 10 => some (1, 15, fun n r => { r with debounce := n })
  | 11 => some (0, 2, fun n r => { r with lamp := if n = 0 then .off else if n = 1 then .on else .blink })
  | 12 => some (0, 65535, fun n r => { r with detect := BitVec.ofNat 16 n })
  | 13 => some (0, 15, fun n r => { r with options := BitVec.ofNat 4 n })
  | 16 => some (0, 255, fun n r => { r with wakeSet := BitVec.ofNat 8 n })
  | _ => none

/-- The plain settings by code: the bounds of the value and the setting it writes (R16, section 1.4). -/
def plainSetting : Nat → Option (Nat × Nat × (Nat → Settings → Settings))
  | 39 => some (0, 10000, fun n t => { t with engineCh4Floor := n })
  | 40 => some (0, 2000, fun n t => { t with permitMargin := n })
  | 41 => some (0, 2000, fun n t => { t with engineO2Limit := n })
  | 42 => some (10, 3600, fun n t => { t with permitHold := n })
  | 43 => some (0, 65535, fun n t => { t with drawBudget := n })
  | 44 => some (0, 65535, fun n t => { t with engineIntake := n })
  | 45 => some (10, 300, fun n t => { t with purgeTime := n })
  | 46 => some (2, 60, fun n t => { t with analyserTimeout := n })
  | 47 => some (10, 600, fun n t => { t with moveTimeout := n })
  | 48 => some (2, 50, fun n t => { t with moveBand := n })
  | 50 => some (1, 30, fun n t => { t with purgePulse := n })
  | 51 => some (2, 8, fun n t => { t with lossThreshold := n })
  | 52 => some (5, 240, fun n t => { t with suspectInterval := n })
  | 53 => some (0, 1, fun n t => { t with wakeEnable := n == 1 })
  | _ => none

/-! ### Groups -/

/-- The tag of a group's next position (R177, R178). -/
def Group.nextTag (order : VisitOrder) (g : Group) : Half :=
  BitVec.ofNat 16 (g.base + match order with
    | .linear => (g.start + g.position) % 4
    | .interleaved => g.start ^^^ g.position)

/-- The group after its next position has been used (R178). -/
def Group.next (g : Group) : Option Group :=
  if g.position = 3 then none else some { g with position := g.position + 1 }

/-- The group that a request of this kind opens (R177). -/
def Group.opening (kind : GroupKind) (r : Request) : Group :=
  { kind := kind, field := r.field, base := 4 * (r.tag.toNat / 4), start := r.tag.toNat % 4, position := 1 }

/-! ### The blend, the sequencer and the scan engine -/

/-- The flows and samples of the records that contribute to the blend (R139). -/
def State.weights (s : State) : List (Nat × Sample) :=
  s.slots.filterMap fun p =>
    match p.2.record.flow, p.2.record.sample with
    | some f, some x =>
      if s.device.state = .run ∧
          (p.2.record.mode = .auto ∨ p.2.record.mode = .manual ∨ p.2.record.mode = .suspect) ∧
          p.2.record.options.getLsbD 3 = false then some (f, x) else none
    | _, _ => none

/-- The conditions the permit is granted or held under, for this blend and this floor of blend CH4 (R141). -/
abbrev State.PermitAllowed (s : State) (b : Option Blend) (floor : Nat) : Prop :=
  s.device.state = .run ∧ s.device.suction = .high ∧
  ∃ x, b = some x ∧ floor ≤ x.ch4 ∧ x.o2 ≤ s.settings.engineO2Limit

/-- A slot after a second tick: PURGE_LEFT has fallen by 1 where it was above 0, and the model has marked a pulse that
ended (R121, log 8). -/
def pulseSecond (x : Slot) : Slot :=
  if x.record.purgeLeft = 0 then x
  else { x with record := { x.record with purgeLeft := x.record.purgeLeft - 1 }, intact := true,
                purgeEndDue := x.purgeEndDue || decide (x.record.purgeLeft = 1) }

/-- The reply the sequencer waits for in READ, for this well, carries this number (R97, R98). -/
abbrev State.AwaitsReply (s : State) (w : Well) (number : Byte) : Prop :=
  (∃ n, s.seq.phase = .read w (.reply n)) ∧ number = s.seq.number

/-- The values of a VALUES reply are plausible (R99). -/
abbrev PlausibleValues (ch4 co2 o2 : Half) : Prop := ch4.toNat + co2.toNat + o2.toNat ≤ 10000

/-- The record as an OK ending writes it, before tuning (R99). -/
def WellRecord.withSample (ch4 co2 o2 : Half) (suspectInterval : Nat) (r : WellRecord) : WellRecord :=
  { r with sample := some { ch4 := ch4.toNat, co2 := co2.toNat, o2 := o2.toNat }, sampleAge := some 0,
           sampleOutcome := .ok,
           surveyDue := if r.mode = .suspect then suspectInterval else r.surveyInterval }

/-- A target brought into the limits of a record (R132). -/
def WellRecord.within (r : WellRecord) (target : Nat) : Nat := max r.valveMin (min target r.valveMax)

/-- The sample of a well with this record is under adjustment, unless it is a hot-well sample (R128). -/
abbrev State.Adjusts (s : State) (r : WellRecord) : Prop :=
  s.device.state = .run ∧ s.device.suction = .high ∧
  ∀ p, r.inputs = some p → p.liquid = .low ∧ p.cap = .low

/-- The sample is a hot-well sample (R126). -/
abbrev WellRecord.Hot (r : WellRecord) (o2 : Half) : Prop :=
  r.o2Ceiling < o2.toNat ∧ ∃ t, r.temp = some t ∧ (r.tempLimit : Int) ≤ t

/-- The debounced level and the run of one input after a raw level (R70). -/
def settled (debounce : Nat) (raw level : Level) (run : Run) : Level × Run :=
  if raw = level then (level, { pending := none, count := 0 })
  else if debounce ≤ (if run.pending = some raw then run.count + 1 else 1) then
    (raw, { pending := none, count := 0 })
  else (level, { pending := some raw, count := if run.pending = some raw then run.count + 1 else 1 })

/-- The level and the run of one input, chosen by `f`, after an arrival at a channel whose slot is `x`: a baseline takes
the raw level and ends the run, another arrival debounces (R69, R70). -/
def arrivedInput (baseline : Bool) (x : Slot) (raw : PerInput Level) (f : ∀ {α : Type}, PerInput α → α) : Level × Run :=
  match x.record.inputs with
  | none => (f raw, { pending := none, count := 0 })
  | some p =>
    if baseline then (f raw, { pending := none, count := 0 }) else settled x.record.debounce (f raw) (f p) (f x.runs)

/-- INPUTS after an arrival (R69, R70). -/
def arrivedInputs (baseline : Bool) (x : Slot) (raw : PerInput Level) : PerInput Level :=
  { button := (arrivedInput baseline x raw PerInput.button).1, cap := (arrivedInput baseline x raw PerInput.cap).1,
    actuator := (arrivedInput baseline x raw PerInput.actuator).1,
    liquid := (arrivedInput baseline x raw PerInput.liquid).1 }

/-- The debounce runs after an arrival (R69, R70). -/
def arrivedRuns (baseline : Bool) (x : Slot) (raw : PerInput Level) : PerInput Run :=
  { button := (arrivedInput baseline x raw PerInput.button).2, cap := (arrivedInput baseline x raw PerInput.cap).2,
    actuator := (arrivedInput baseline x raw PerInput.actuator).2,
    liquid := (arrivedInput baseline x raw PerInput.liquid).2 }

/-- The channel of this station stands with its baseline pending (R46). -/
abbrev State.BaselineDue (s : State) (address channel : Nat) : Bool :=
  s.scan.stations.any fun x =>
    decide (x.address = address) && x.channels.any fun c => decide (c.channel = channel) && c.baselinePending

/-- The station records after `f` on the one with this address. -/
def State.stationsWith (s : State) (address : Nat) (f : StationRecord → StationRecord) : List StationRecord :=
  s.scan.stations.map fun x => if x.address = address then f x else x

/-- The units that a report of a fault other than a loss leaves as they were: settings, time base, port and the waiting
commands. -/
abbrev State.SameBase (s t : State) : Prop := s.SameFrame t ∧ t.port = s.port

/-- The device state after a report of this kind: SAFE when it is FATAL, as it stood otherwise (R151, R154). -/
def State.stateAfter (s : State) (k : FaultKind) : DeviceState :=
  if severityOf s.settings.severity k = .fatal then .safe else s.device.state

/-- The fault record of `t` shows a report of this kind, as the first or among the further ones (R151). -/
def State.Reported (t : State) (k : FaultKind) (tag : Nat) (detail : Half) : Prop :=
  t.faults.first = some { kind := k, tag := tag, detail := detail } ∨ t.faults.further.getLsbD k.code = true

/-! ### Moves -/

/-- ACTUATOR is debounced high (R75). -/
def WellRecord.ActuatorHigh (r : WellRecord) : Prop := ∃ p, r.inputs = some p ∧ p.actuator = .high

/-- The feedback is absent, or differs from this target by more than the band (R110). -/
def WellRecord.OffTarget (r : WellRecord) (target band : Nat) : Prop :=
  ∀ f, r.valveFeedback = some f → target + band < f ∨ f + band < target

/-- A well holds a slot or waits for one. -/
def State.Listed (s : State) (w : Well) : Prop := w ∈ s.inLists

/-- From `s` to `t` the well has joined the tail of the wait list, and the grants that follow have been made: in RUN
until the slots or the waiting wells run out, and none outside RUN (R111, R113). -/
def State.Joined (s t : State) (w : Well) : Prop :=
  t.inLists = s.inLists ++ [w] ∧ s.moves.holders <+: t.moves.holders ∧
  (∀ h ∈ t.moves.holders, h ∈ s.moves.holders ∨ h.timer = s.settings.moveTimeout) ∧
  (s.device.state ≠ .run → t.moves.holders = s.moves.holders) ∧
  (s.device.state = .run → t.moves.waiting = [] ∨ s.settings.moveSlots ≤ t.moves.holders.length)

/-- What the move scheduler makes of a write that leaves the record `r` of an active well, whose target is handed to it as
changed or not: a holder's timer restarts and no need is evaluated; a waiting well keeps its place, leaves quietly, or
with ACTUATOR high ends BLOCKED; any other well joins when it needs a move, and is found BLOCKED with ACTUATOR high out of
band (R110, R111, R113, R116). -/
def State.TargetTaken (s t : State) (w : Well) (handed : Prop) (r : WellRecord) : Prop :=
  ∀ q off same, t.record? w = some q → (off ↔ r.OffTarget r.valveTarget s.settings.moveBand) →
  (same ↔ q.moveState = r.moveState ∧ q.moveOutcome = r.moveOutcome) →
  (¬ handed → t.moves = s.moves ∧ same) ∧
  (handed → s.moves.holds w = true →
    t.moves = { s.moves with holders := s.moves.holders.map fun h =>
      if h.well = w then { h with timer := s.settings.moveTimeout } else h } ∧ same) ∧
  (handed → s.moves.holds w = false → s.moves.waits w = true →
    (r.ActuatorHigh → t.moves = { s.moves with waiting := s.moves.waiting.filter fun v => !(v == w) } ∧
      q.moveState = .none ∧ q.moveOutcome = .blocked ∧ q.events.getLsbD 4 = true) ∧
    (¬ r.ActuatorHigh → off → t.moves = s.moves ∧ same) ∧
    (¬ r.ActuatorHigh → ¬ off → t.moves = { s.moves with waiting := s.moves.waiting.filter fun v => !(v == w) } ∧
      q.moveState = .none ∧ q.moveOutcome = r.moveOutcome)) ∧
  (handed → s.moves.holds w = false → s.moves.waits w = false →
    (¬ r.ActuatorHigh → off → s.Joined t w ∧ q.moveOutcome = r.moveOutcome ∧
      q.moveState = if t.moves.holds w then .moving else .waiting) ∧
    (r.ActuatorHigh → off → t.moves = s.moves ∧ q.moveState = r.moveState ∧ q.moveOutcome = .blocked ∧
      q.events.getLsbD 4 = true) ∧
    (¬ off → t.moves = s.moves ∧ same))

/-! ### Samples in hand, and WAKE -/

/-- The well is current, in SELECT, PURGE or READ (R104). -/
abbrev State.SampleOpen (s : State) (w : Well) : Prop := s.seq.phase.isOpen = true ∧ s.seq.phase.current? = some w

/-- In `t` the sample of the well has been aborted: the sequencer is in RELEASE, the outcome is ABORTED and a SAMPLE event
stands (R104). -/
def State.SampleAborted (t : State) (w : Well) : Prop :=
  t.seq.phase = .release w ∧ ∀ q, t.record? w = some q → q.sampleOutcome = .aborted ∧ q.events.getLsbD 7 = true

/-- From `s` to `t` the well has entered ISOLATED or RETIRING: its entry has left the queue, with QUEUED NO, and its sample
in SELECT, PURGE or READ has been aborted; in any other phase nothing is aborted (R27, R104). -/
def State.SamplingLeft (s t : State) (w : Well) : Prop :=
  t.seq = { s.seq with phase := t.seq.phase, queue := s.seq.queue.filter fun e => !(e.well == w) } ∧
  ((∃ e ∈ s.seq.queue, e.well = w) → ∀ q, t.record? w = some q → q.queued = .no) ∧
  (s.SampleOpen w → t.SampleAborted w) ∧ (¬ s.SampleOpen w → t.seq.phase = s.seq.phase)

/-- The command releases WAKE: an accepted RESUME, a device reset or power-on (R83, R158, R164 to R167). -/
def State.ReleasesWake (s : State) (c : Instr) : Prop :=
  ∃ r straps suction, c = .powerOn straps suction ∨ c = .resetLine straps ∨
    s.port.words = [] ∧ (c = .reset r straps ∨
      c = .resume r ∧ (s.device.state = .standby ∨ s.device.state = .safe ∧ s.faults.first = none))

/-! ### What the scan engine sends -/

/-- The outputs of a well's channel as a POLL sent now carries them (R59, R94, R114, R121, R123). -/
def State.OutputsNow (t : State) (w : Well) (r : WellRecord) (o : Outputs) : Prop :=
  o.lamp = (if r.mode = .suspect then .blink else r.lamp) ∧ o.position = r.valveTarget ∧
  (o.purge = true ↔ 0 < r.purgeLeft) ∧ (o.valvePower = true ↔ ∃ h ∈ t.moves.holders, h.well = w) ∧
  (o.sampleValve = true ↔ t.seq.phase = .select w ∨ (∃ n, t.seq.phase = .purge w n) ∨ ∃ x, t.seq.phase = .read w x)

/-- A station's turn has come in `t`: its address is the round position, and in flight is a POLL with the outputs of every
channel of its map when it is ACTIVE, and a SETUP with its map otherwise, each channel with the well that stands there
(R49, R52, R55, R59). -/
def State.TurnOf (t : State) (x : StationRecord) : Prop :=
  t.scan.round = .running (some x.address) ∧
  ∃ sent, t.scan.inFlight = some { address := x.address, sent := sent } ∧
    sent.wells.map (fun p => p.1) = x.channels.map (fun c => c.channel) ∧
    (∀ p ∈ sent.wells, ∃ y, t.well? p.2 = some y ∧ y.address = x.address ∧ y.channel = p.1) ∧
    (x.state = .active → ∃ l, sent = .poll l ∧
      ∀ c ∈ l, ∃ r, t.record? c.well = some r ∧ t.OutputsNow c.well r c.outputs) ∧
    (x.state ≠ .active → ∃ l, sent = .setup l)

/-- A transaction with the station at `address` has ended: the turn has come of the station with the next higher address;
with none above it the round has ended, FIELD_FLOW being formed, and in RUN and SAFE the next has begun from the lowest
address (R52, R53, R65, R140). -/
def State.SendsNext (t : State) (address : Nat) : Prop :=
  (∀ x ∈ t.scan.stations, address < x.address →
    (∀ y ∈ t.scan.stations, address < y.address → x.address ≤ y.address) → t.TurnOf x) ∧
  ((∀ x ∈ t.scan.stations, x.address ≤ address) →
    t.blend.fieldFlow = (t.slots.map fun p => p.2.record.flow.getD 0).sum ∧
    (t.device.state = .standby ∨ t.scan.stations = [] → t.scan.inFlight = none ∧ t.scan.round = .idle) ∧
    (t.device.state ≠ .standby → ∀ x rest, t.scan.stations = x :: rest → t.TurnOf x))

/-! ### The arrival of readings -/

/-- The channel of an intact record as its readings arrive: the well, its slot before, the reading, whether the POLL
carried its SAMPLE VALVE on, whether the arrival is a baseline, and the debounced levels before and after (a baseline
changes none, R69). -/
structure Arrival where
  well     : Well
  slot     : Slot
  reading  : ChannelReading
  valve    : Bool
  baseline : Bool
  before   : PerInput Level
  after    : PerInput Level

/-- This arrival is one of the reply to this POLL of the station at address `a` (R60, R62, R69, R70). -/
def State.Arrives (s : State) (a : Nat) (sent : List PollChannel) (channels : List ChannelReading) (v : Arrival) :
    Prop :=
  (∃ p, (p, v.reading) ∈ sent.zip channels ∧ v.well = p.well ∧ v.valve = p.outputs.sampleValve) ∧
  s.well? v.well = some v.slot ∧ v.slot.intact = true ∧
  (v.baseline = true ↔ s.BaselineDue a v.reading.channel = true ∨ v.slot.record.inputs = none) ∧
  v.after = arrivedInputs (s.BaselineDue a v.reading.channel) v.slot v.reading.raw ∧
  v.before = if v.baseline then v.after else v.slot.record.inputs.getD v.after

/-- An input chosen by `f` rose, or fell, in this arrival. -/
abbrev Arrival.Rose (v : Arrival) (f : PerInput Level → Level) : Prop := f v.before = .low ∧ f v.after = .high
abbrev Arrival.Fell (v : Arrival) (f : PerInput Level → Level) : Prop := f v.before = .high ∧ f v.after = .low

/-- AUTO, MANUAL or SUSPECT. -/
abbrev Arrival.Sampled (v : Arrival) : Prop :=
  v.slot.record.mode = .auto ∨ v.slot.record.mode = .manual ∨ v.slot.record.mode = .suspect

/-- The arrival isolates the well: BUTTON rose, OPTIONS holds BUTTON_ISOLATE and the mode is a sampled one (R36). -/
abbrev Arrival.Isolates (v : Arrival) : Prop :=
  v.Rose PerInput.button ∧ v.Sampled ∧ v.slot.record.options.getLsbD 1 = true

/-- The new feedback is out of band of the target that stood before the arrival (R110, R115). -/
abbrev Arrival.Off (v : Arrival) (band : Nat) : Prop :=
  v.slot.record.valveTarget + band < v.reading.feedback ∨ v.reading.feedback + band < v.slot.record.valveTarget

/-- A RETIRING well that the new feedback shows closed (R40). -/
abbrev Arrival.ShowsClosed (v : Arrival) (band : Nat) : Prop :=
  v.slot.record.mode = .retiring ∧ v.reading.feedback ≤ band

/-- What the arrival writes: the readings carried, the debounced levels, and the fields that the handed actions give new
values: mode, target and the counts of a SUSPECT well by an isolation, PURGE_LEFT by an automatic purge, SURVEY_DUE 0 by an
enqueue that finds no place or an eviction. Every other field but the marks of `HoldsUpToMarks` is as it was (R28, R36,
R60, R70, R72, R92, R121). -/
def Arrival.Written (v : Arrival) (purgePulse : Nat) (q : WellRecord) : Prop :=
  q = { v.slot.record with
    valveFeedback := some v.reading.feedback,
    vacuum := match v.reading.vacuum with | none => v.slot.record.vacuum | some x => some x.toNat,
    flow := match v.reading.flow with | none => v.slot.record.flow | some x => some x.toNat,
    temp := match v.reading.temp with | none => v.slot.record.temp | some x => some x,
    inputs := some v.after,
    mode := if v.Isolates then .isolated else v.slot.record.mode,
    valveTarget := if v.Isolates then 0 else v.slot.record.valveTarget,
    excursions := if v.Isolates ∧ v.slot.record.mode = .suspect then 0 else v.slot.record.excursions,
    clean := if v.Isolates ∧ v.slot.record.mode = .suspect then 0 else v.slot.record.clean,
    purgeLeft := if v.Rose PerInput.liquid ∧ v.slot.record.options.getLsbD 0 = true then purgePulse
      else v.slot.record.purgeLeft,
    surveyDue := q.surveyDue, events := q.events, queued := q.queued, sampleOutcome := q.sampleOutcome,
    moveState := q.moveState, moveOutcome := q.moveOutcome } ∧
  (q.surveyDue = v.slot.record.surveyDue ∨ q.surveyDue = 0)

/-- The input event kinds after the arrival: those that stood, and those whose change DETECT selects; no other, unless a
round has ended in the same step and DETECT selects the level that stands (R71, R74, R78). -/
def Arrival.Raises (v : Arrival) (roundEnded : Prop) (q : WellRecord) : Prop :=
  ∀ i f, (i, f) ∈ [(0, PerInput.button), (1, PerInput.cap), (2, PerInput.actuator), (3, PerInput.liquid)] →
    (v.slot.record.events.getLsbD i = true ∨
      v.Rose f ∧ v.slot.record.detect.getLsbD (4 * i) = true ∨
      v.Fell f ∧ v.slot.record.detect.getLsbD (4 * i + 1) = true → q.events.getLsbD i = true) ∧
    (q.events.getLsbD i = true → v.slot.record.events.getLsbD i = true ∨
      v.Rose f ∧ v.slot.record.detect.getLsbD (4 * i) = true ∨
      v.Fell f ∧ v.slot.record.detect.getLsbD (4 * i + 1) = true ∨
      roundEnded ∧ (f v.after = .high ∧ v.slot.record.detect.getLsbD (4 * i + 2) = true ∨
        f v.after = .low ∧ v.slot.record.detect.getLsbD (4 * i + 3) = true))

/-- What the move scheduler leaves of the arrival, with the device state unchanged (that the need evaluation of a baseline
comes before the completion check, and that an arrival with INPUTS absent is such a baseline, is the model's reading, log
12): an ACTUATOR rise takes the well out of
either list and ends its move BLOCKED; a completion check in band ends a holder's move DONE and frees a RETIRING well;
out of band a listed well stays listed; at a baseline and at an ACTUATOR fall need is evaluated (R40, R61, R62, R72, R111,
R115, R116, R118). -/
def State.MovesAfter (s t : State) (v : Arrival) : Prop :=
  ∀ off, (off ↔ v.Off s.settings.moveBand) →
  (v.Rose PerInput.actuator →
    ¬ t.Listed v.well ∧
    ∀ q, t.record? v.well = some q →
      (s.Listed v.well → off → (v.Isolates → s.settings.moveBand < v.reading.feedback) →
        q.moveOutcome = .blocked ∧ q.events.getLsbD 4 = true) ∧
      (¬ s.Listed v.well → ¬ v.Isolates → q.moveOutcome = v.slot.record.moveOutcome)) ∧
  (v.after.actuator = .low → ¬ v.Isolates →
    (s.Listed v.well → off → t.Listed v.well) ∧
    (s.moves.holds v.well = true → ¬ off → ¬ t.Listed v.well ∧
      ∀ q, t.record? v.well = some q → q.moveOutcome = .done ∧ q.events.getLsbD 4 = true) ∧
    (s.Listed v.well ∨ v.baseline = true ∨ v.Fell PerInput.actuator →
      v.ShowsClosed s.settings.moveBand → t.well? v.well = none) ∧
    (v.baseline = true ∨ v.Fell PerInput.actuator → v.slot.record.mode.isActive = true →
      (t.Listed v.well ↔ off))) ∧
  (v.after.actuator = .high → v.baseline = true → v.slot.record.mode.isActive = true →
    ¬ t.Listed v.well ∧
    (s.Listed v.well ∨ off → ∀ q, t.record? v.well = some q → q.moveOutcome = .blocked ∧ q.events.getLsbD 4 = true) ∧
    (¬ s.Listed v.well → v.ShowsClosed s.settings.moveBand → t.well? v.well = none)) ∧
  (v.Isolates → v.after.actuator = .low → v.slot.record.valveTarget ≠ 0 → s.settings.moveBand < v.reading.feedback →
    t.Listed v.well)

/-- What the sequencer leaves of the arrival: a CAP rise or an isolation of the well in SELECT, PURGE or READ ends its
sample ABORTED, and an isolation takes it out of the queue, with no sample of a well that was not queued, also when its CAP
falls in the same arrival; a valve confirmed off in RELEASE ends the sample, into OFFLINE
at a failure count of 3. With the device state unchanged, a CAP fall queues a sampled well URGENT or makes its survey due
at once, and a valve confirmed on in SELECT starts the purge (R27, R36, R61, R72, R73, R92, R95, R102 to R104). -/
def State.SamplesAfter (s t : State) (v : Arrival) : Prop :=
  (v.Rose PerInput.cap ∨ v.Isolates → s.seq.phase.current? = some v.well → s.seq.phase.isOpen = true →
    (t.seq.phase.current? = some v.well → t.seq.phase = .release v.well) ∧
    ∀ q, t.record? v.well = some q → q.sampleOutcome = .aborted ∧ q.events.getLsbD 7 = true) ∧
  (v.Isolates → ∀ e ∈ t.seq.queue, e.well ≠ v.well) ∧
  (v.Isolates → v.slot.record.queued = .no → t.seq.phase.current? ≠ some v.well ∧
    ∀ q, t.record? v.well = some q → q.queued = .no ∧ q.sampleOutcome = v.slot.record.sampleOutcome ∧
      q.events.getLsbD 7 = v.slot.record.events.getLsbD 7) ∧
  (s.seq.phase = .release v.well → v.valve = false →
    (¬ v.Fell PerInput.cap → t.seq.phase.current? ≠ some v.well ∧
      ∀ q, t.record? v.well = some q → q.queued = .no) ∧
    (∀ f, s.seq.failures = some f → f.count = 3 →
      t.seq.phase = .offline 60 false ∧ t.device.events.getLsbD 0 = true ∧
      (s.settings.severity.analyserOffline ≠ .ignored →
        t.Reported .analyserOffline f.tag (match f.outcome with | .timeout => 2 | .fault => 3))) ∧
    ((∀ f, s.seq.failures = some f → f.count ≠ 3) → ∀ n b, t.seq.phase ≠ .offline n b)) ∧
  (t.device.state = s.device.state →
    (v.Fell PerInput.cap → v.Sampled → ¬ v.Isolates → ∀ q, t.record? v.well = some q →
      q.queued = .urgent ∨ q.queued = .sampling ∨ q.surveyDue = 0) ∧
    (s.seq.phase = .select v.well → v.valve = true → ¬ v.Rose PerInput.cap → ¬ v.Isolates →
      t.record? v.well ≠ none → t.seq.phase = .purge v.well s.settings.purgeTime))

end Sys2Proof.Machine
end

