-- ==== Sys2Proof/Certificates/Slice0/Obligations.lean ====
section
/-! DEFINITION. The statements for the provers. Rule numbers are those of spec/; "log n" names a row of the assumption
log. A statement that rests on a choice of the log says so in its docstring. -/

section

open Sys2Proof Sys2Proof.Machine

/-! ### Taking commands, and the frames of the record port -/

/-- A step runs the command at the front of the queue on the state with the queue's rest; with an empty queue the part
idles, which is the model's choice (log 2). -/
def Obligations.StepRunsFrontCommand : Prop :=
  (∀ c rest s, s.pending = c :: rest → step s = exec c (s.withPending rest)) ∧
  ∀ s : State, s.pending = [] → step s = .next s

/-- The frame that carries a request decodes to that request, with every field as it was encoded (R169, R170, R172,
R179). -/
def Obligations.RequestFramesDecodeBack : Prop :=
  ∀ unit straps i f, i.wellFormed = true → encodeRequest unit i = some f →
    decodeExchange unit (i.strapsOr straps) false f = i

/-- Every frame that passes its check holds an odd number of one bits, so a frame of all zeros and an undriven slot of
all ones fail (R170). A frame of the two links closes with the check formed the same way over every byte before it, so
that a frame the part sends passes, whatever the layout of its bytes (R50, R97, log 22), and the parity holds of it too. -/
def Obligations.PassingFramesHaveOddParity : Prop :=
  (∀ f : Frame, f.passes = true → ((List.range 96).countP fun i => f.getLsbD i) % 2 = 1) ∧
  Frame.passes 0#96 = false ∧ Frame.passes (BitVec.allOnes 96) = false ∧
  (∀ f : LinkFrame, f.passes = true →
    ((f.bytes.map fun b => (List.range 8).countP fun i => b.getLsbD i).sum +
      (List.range 16).countP fun i => f.check.getLsbD i) % 2 = 1) ∧
  (∀ (s : State) f, s.linkFrame? = some f → f.passes = true) ∧
  ∀ (s : State) f, s.measureFrame? = some f → f.passes = true

/-! ### What every step keeps -/

/-- Every step keeps the slots ordered and every record legal: limits, target, RETURN_MODE, counts and draw remainder
(R2, R11, R14, R25, R26, R125). -/
def Obligations.RecordsStayLegal : Prop :=
  ∀ s t, s.RecordsLegal → step s = .next t → t.RecordsLegal

/-- Every step keeps the tag index in ascending order and in agreement with the occupied slots (R3). -/
def Obligations.IndexStaysInAgreement : Prop :=
  ∀ s t, s.IndexAgrees → step s = .next t → t.IndexAgrees

/-- Every step leaves ALERT A and ALERT B as their conditions stand, and WAKE released in RUN (R80, R83). In STANDBY with
WAKE_ENABLE on, an event kind newly set in a record whose WAKE_SET holds it asserts WAKE. The setting of a kind that
already stood asserts it as well, and only a setting does: WAKE is newly asserted in STANDBY with WAKE_ENABLE on only, and
then some record's WAKE_SET holds a kind that stands after the step, unless that record has been freed in it (R82). Once
asserted WAKE stays, in SAFE too, until an accepted RESUME, a device reset or power-on (R83). The records are legal before
the step, which every step keeps (`RecordsStayLegal`). -/
def Obligations.LinesFollowConditions : Prop :=
  ∀ s t, s.RecordsLegal → step s = .next t →
    (s.LinesFollow → t.LinesFollow) ∧
    (s.device.state = .standby → t.device.state = .standby → s.settings.wakeEnable = true →
      (∃ w r q i, s.record? w = some r ∧ t.record? w = some q ∧ r.events.getLsbD i = false ∧
        q.events.getLsbD i = true ∧ r.wakeSet.getLsbD i = true) → t.lines.wake = true) ∧
    (s.lines.wake = false → t.lines.wake = true → s.device.state = .standby ∧ s.settings.wakeEnable = true ∧
      ∃ w r i, s.record? w = some r ∧ r.wakeSet.getLsbD i = true ∧
        ∀ q, t.record? w = some q → q.events.getLsbD i = true) ∧
    (s.lines.wake = true → t.lines.wake = false → ∃ c rest, s.pending = c :: rest ∧ s.ReleasesWake c)

/-- Every step keeps ENGINE PERMIT with GRANTED, FLARE DEMAND outside GRANTED, the hold timer with PENDING, the permit
WITHDRAWN with SUCTION low, and GRANTED in RUN only (R142 to R144). Outside RUN it keeps the permit from PENDING too, but
for the gap R142 speaks of; that the gap is there exactly while the blend unit owes the taking of a departure from RUN is
the model's reading (log 15). -/
def Obligations.PermitStaysSafe : Prop :=
  ∀ s t, s.PermitSafe → step s = .next t → t.PermitSafe

/-- Every step keeps the bounds of the port, of the fault record and the failure count, of the settings and of the
holder list (section 1.4, R87, R109, R151, R176 to R178); the station table as that of the occupied slots (R46), the
transaction in flight with its round (R49, R52), the sample queue with QUEUED (R86 to R88), the move scheduler's lists
with MOVE_STATE (R109, R112), and the quiet of the moves and samples outside RUN (R156, R161; that a change may still be
owed is log 15). -/
def Obligations.BoundsStayKept : Prop :=
  ∀ s t, step s = .next t →
    (s.PortLegal → t.PortLegal) ∧ (s.FaultsLegal → t.FaultsLegal) ∧
    (s.settings.InRange → t.settings.InRange) ∧ (s.HoldersBounded → t.HoldersBounded) ∧
    (s.RecordsLegal → s.StationsLegal → t.StationsLegal) ∧
    (s.StationsLegal → s.TransactionLegal → t.TransactionLegal) ∧
    (s.QueueLegal → t.QueueLegal) ∧ (s.MovesLegal → t.MovesLegal) ∧ (s.Quiet → t.Quiet)

/-- The state after power-on meets each of these invariants. -/
def Obligations.ResetMeetsInvariants : Prop :=
  State.reset.RecordsLegal ∧ State.reset.IndexAgrees ∧ State.reset.LinesFollow ∧ State.reset.PermitSafe ∧
  State.reset.PortLegal ∧ State.reset.FaultsLegal ∧ State.reset.settings.InRange ∧ State.reset.HoldersBounded ∧
  State.reset.Sound ∧ State.reset.Quiet

/-! ### Power-on and device reset -/

/-- POWER_ON leaves the first state of every block, with the straps and the SUCTION line as they stand, and the empty
round begun at once has ended (R53, R54, R150, R167, section 1.4). The queue of waiting commands is the interface's. -/
def Obligations.PowerOnGivesFirstState : Prop :=
  ∀ straps suction s, exec (.powerOn straps suction) s = .next
    { slots := [], index := [],
      settings :=
        { engineCh4Floor := 4000, permitMargin := 200, engineO2Limit := 300, permitHold := 120, drawBudget := 2000,
          engineIntake := 1200, purgeTime := 60, analyserTimeout := 10, moveTimeout := 120, moveBand := 10,
          moveSlots := 4, purgePulse := 5, lossThreshold := 3, suspectInterval := 15, wakeEnable := false,
          devEnableA := 0, devEnableB := 0,
          severity :=
            { badFrame := .correctable, stationRefused := .correctable, stationNoReply := .correctable,
              stationLost := .degraded, analyserFail := .correctable, analyserOffline := .degraded,
              moveTimeout := .degraded, actuatorFault := .degraded, oxygenSuspect := .degraded, hotWell := .degraded,
              recordCheck := .fatal, suctionLost := .degraded } },
      device := { state := .run, events := 0, suction := suction, late := Handover.none, owed := Handover.none },
      lines := { alertA := false, alertB := false, wake := false },
      time := { second := 0, minuteDue := false },
      scan := { stations := [], inFlight := none, round := .idle },
      seq := { phase := .idle, queue := [], failures := none, busyCount := 0, number := 0 },
      moves := { holders := [], waiting := [] },
      blend := { blend := none, contributing := 0, fieldFlow := 0, budget := .under, permit := .withdrawn,
                 holdTimer := none, enginePermit := false, flareDemand := true },
      faults := { first := none, further := 0 },
      port := { straps := straps, older := none, newer := none, lastDriven := none, line := none, words := [],
                group := none },
      pending := s.pending }

/-- Device reset, by the RESET line and by an accepted RESET request, changes the fields of every record as R15 and R43
state, ends every debounce run (R68), and keeps the slots, the index and the tags. It also clears the mark of an ended
purge pulse, which is the model's own (log 8). -/
def Obligations.DeviceResetTreatsRecords : Prop :=
  ∀ straps s,
    (∃ t, exec (.resetLine straps) s = .next t ∧
      t.slots = s.slots.map (fun p => (p.1, resetSlot p.2)) ∧ t.index = s.index) ∧
    ∀ r, s.port.words = [] → ∃ t, exec (.reset r straps) s = .next t ∧
      t.slots = s.slots.map (fun p => (p.1, resetSlot p.2)) ∧ t.index = s.index

/-- Device reset, by the RESET line and by an accepted RESET request, takes every block as R166 states: RUN, no event,
every line released but FLARE DEMAND, the queue and the lists empty, the faults and the settings kept, and a round that
sends SETUP to the lowest address (R46, R54, R107, R109, R138). -/
def Obligations.DeviceResetTreatsBlocks : Prop :=
  ∀ straps s,
    (∃ t, exec (.resetLine straps) s = .next t ∧ BlocksAfterReset s t) ∧
    ∀ r, s.port.words = [] → ∃ t, exec (.reset r straps) s = .next t ∧ BlocksAfterReset s t

/-- The RESET line turns each owed answer into EMPTY; an accepted RESET request keeps the pipeline and is owed DONE, and
one that finds words held takes no reset (R165, R174, R175). That the answer driven in the RESET's own exchange carries
the UNIT that stood before it is the model's reading (log 16). -/
def Obligations.ResetActsAtPort : Prop :=
  ∀ straps s,
    (∃ t, exec (.resetLine straps) s = .next t ∧ t.port =
      { straps := straps,
        older := s.port.older.map fun a => { seq := a.seq, status := .empty, tag := 65535, value := 0 },
        newer := s.port.newer.map fun a => { seq := a.seq, status := .empty, tag := 65535, value := 0 },
        lastDriven := none, line := none, words := [], group := none }) ∧
    ∀ r,
      (s.port.words ≠ [] → exec (.reset r straps) s = .next (s.answered r .extUnusable r.tag 0)) ∧
      (s.port.words = [] → ∃ t, exec (.reset r straps) s = .next t ∧ t.port =
        { s.port.afterExchange (some (answerOf r .done r.tag 0)) [] none with straps := straps })

/-! ### The record port -/

/-- NOP makes no change but at the port and is answered DONE with VALUE 0; it ends the open group, consumes the held
words and is refused EXT_UNUSABLE when words are held (R180). -/
def Obligations.NopAnswersDone : Prop :=
  ∀ r s,
    (s.port.words = [] → exec (.nop r) s = .next (s.answered r .done r.tag 0)) ∧
    (s.port.words ≠ [] → exec (.nop r) s = .next (s.answered r .extUnusable r.tag 0))

/-- With extension words held, every request that can use none is refused EXT_UNUSABLE, an AMEND whose count does not
fit its field EXT_COUNT or EXT_UNUSABLE, and a CODE that names no request is refused UNKNOWN_REQUEST whatever words are
held; each consumes the words, ends the group and changes nothing else (R172, R176, R178). The answer's TAG is the
frame's TAG (log 7). -/
def Obligations.HeldWordsRefuseRequests : Prop :=
  ∀ r straps s,
    (∀ c ∈ plainRequests r straps, s.port.words ≠ [] → exec c s = .next (s.answered r .extUnusable r.tag 0)) ∧
    (r.field = 17 → s.port.words.length ≠ 1 → exec (.amend r) s = .next (s.answered r .extCount r.tag 0)) ∧
    (r.field = 18 → s.port.words.length ≠ 2 → exec (.amend r) s = .next (s.answered r .extCount r.tag 0)) ∧
    (¬ NamesWide r → s.port.words ≠ [] → exec (.amend r) s = .next (s.answered r .extUnusable r.tag 0)) ∧
    ∀ code, exec (.unknownRequest r code) s = .next (s.answered r .unknownRequest r.tag 0)

/-- EXTEND holds its VALUE as a word while fewer than two are held, and answers the count; with two held it discards
every word and is refused EXT_OVERFLOW. The group stays open (R176, R191). -/
def Obligations.ExtendHoldsWords : Prop :=
  ∀ r s,
    (s.port.words.length < 2 → exec (.extend r) s = .next { s with
      port := s.port.afterExchange (some (answerOf r .done r.tag (BitVec.ofNat 48 (s.port.words.length + 1))))
        (s.port.words ++ [r.value]) s.port.group }) ∧
    (2 ≤ s.port.words.length → exec (.extend r) s = .next { s with
      port := s.port.afterExchange (some (answerOf r .extOverflow r.tag 0)) [] s.port.group })

/-- A deselect takes no request: it ends the group, discards the words and advances the pipeline with a vacant slot,
while the answer due is still driven (R171). One by a failed check also reports BAD_FRAME with tag 65535 and detail 0,
under its severity (R150, R151, R170). When that is FATAL outside SAFE, the FAULT and STATE events are set and the blocks take
the entry to SAFE, at once or, which is the model's choice, late (log 15): every move ends ABANDONED, a sample in SELECT,
PURGE or READ is aborted, the permit is withdrawn, and from STANDBY a round begins (R53, R104, R119, R154, R156, R157,
R160). -/
def Obligations.DeselectAdvancesVacant : Prop :=
  ∀ s : State,
    exec (.deselect .otherUnit) s = .next { s with port := s.port.afterExchange none [] none } ∧
    (s.settings.severity.badFrame = .ignored →
      exec (.deselect .badCheck) s = .next { s with port := s.port.afterExchange none [] none }) ∧
    (s.settings.severity.badFrame = .correctable →
      exec (.deselect .badCheck) s = .next { s with
        port := s.port.afterExchange none [] none, faults := s.faultsAfter .badFrame 65535 0 }) ∧
    (s.settings.severity.badFrame = .degraded →
      exec (.deselect .badCheck) s = .next (State.alertsTaken { s with
        port := s.port.afterExchange none [] none, faults := s.faultsAfter .badFrame 65535 0,
        device := { s.device with events := s.device.events ||| 0x02 } })) ∧
    (s.settings.severity.badFrame = .fatal → ∃ t, exec (.deselect .badCheck) s = .next t ∧
      t.port = s.port.afterExchange none [] none ∧ t.faults = s.faultsAfter .badFrame 65535 0 ∧
      t.device.state = .safe ∧ (∀ v r, s.record? v = some r → t.HoldsUpToMarks v r) ∧ t.index = s.index ∧
      s.SameFrame t ∧
      (s.device.state = .safe → t = State.alertsTaken { s with
        port := s.port.afterExchange none [] none, faults := s.faultsAfter .badFrame 65535 0,
        device := { s.device with events := s.device.events ||| 0x02 } }) ∧
      (s.device.state ≠ .safe →
        t.device.events.getLsbD 1 = true ∧ t.device.events.getLsbD 5 = true ∧
        (s.blend.permit = .granted → t.device.events.getLsbD 2 = true) ∧
        (s.device.late.moves = false → t.moves.holders = [] ∧ t.moves.waiting = [] ∧
          ∀ w q, s.Listed w → t.record? w = some q →
            q.moveState = .none ∧ q.moveOutcome = .abandoned ∧ q.events.getLsbD 4 = true) ∧
        (s.device.late.moves = true → t.moves = s.moves ∧ t.device.owed.moves = true) ∧
        (s.device.late.sequencer = false →
          (∀ w, s.SampleOpen w → t.seq = { s.seq with phase := .release w } ∧ t.SampleAborted w) ∧
          (s.seq.phase.isOpen = false → t.seq = s.seq)) ∧
        (s.device.late.sequencer = true → t.seq = s.seq ∧ t.device.owed.sequencer = true) ∧
        (s.device.state = .run → t.scan = s.scan) ∧
        (s.device.state = .standby → s.device.late.scan = false → s.scan.round = .idle → ∀ x rest,
          s.scan.stations = x :: rest → t.scan.round = .running (some x.address)) ∧
        (s.device.state = .standby → s.device.late.scan = true → t.scan = s.scan ∧ t.device.owed.scan = true) ∧
        (s.device.late.blend = false ∨ s.blend.permit = .granted → t.blend.permit = .withdrawn) ∧
        (s.device.late.blend = true → s.blend.permit ≠ .granted → t.device.owed.blend = true ∧
          (s.device.state = .run → t.blend.permit = s.blend.permit))))

/-- A hold exchange drives again the frame driven in the exchange before, or releases the line again, and changes
nothing else; after power-on and after a reset by the RESET line no answer counts as driven (R174). -/
def Obligations.HoldExchangeRepeats : Prop :=
  (∀ s, exec .holdExchange s = .next { s with port := { s.port with line := s.port.lastDriven } }) ∧
  (∀ straps suction s t, exec (.powerOn straps suction) s = .next t → t.port.lastDriven = none) ∧
  ∀ straps s t, exec (.resetLine straps) s = .next t → t.port.lastDriven = none

/-! ### Resolution and the checks of R5 -/

/-- A request on a tag that resolves to no well record is refused NOT_FOUND with the named tag, and changes nothing but
the port; tag 0 is such a tag for the requests that act on well records only (R4, R5). -/
def Obligations.UnresolvedTagsNotFound : Prop :=
  ∀ r s, s.Unresolved r.tag → s.port.words = [] →
    (∀ c ∈ wellRequests r, exec c s = .next (s.answered r .notFound r.tag 0)) ∧
    (r.tag ≠ 0 → ¬ NamesWide r → ∀ c ∈ recordRequests r, exec c s = .next (s.answered r .notFound r.tag 0))

/-- A request that finds a damaged record, whatever its own TAG has become, frees it under the tag of the index entry,
reports RECORD_CHECK with that tag and the slot, and is refused DAMAGED; with FATAL severity the part is in SAFE after it
(R5, R19). An AMEND of a wide field is such a request when the words held fit the field (R176). -/
def Obligations.DamagedRecordsAreFreed : Prop :=
  ∀ r s w x c, resolveWell r.tag s = some w → s.well? w = some x → x.intact = false →
    (s.port.words = [] ∧ (c ∈ wellRequests r ∨ r.tag ≠ 0 ∧ ¬ NamesWide r ∧ c ∈ recordRequests r) ∨
      r.tag ≠ 0 ∧ c = .amend r ∧
        (r.field = 17 ∧ s.port.words.length = 1 ∨ r.field = 18 ∧ s.port.words.length = 2)) →
    ∃ t, exec c s = .next t ∧ t.record? w = none ∧ (∀ p ∈ t.index, p ≠ (w.tag, w.slot)) ∧
      t.port = s.port.afterExchange (some (answerOf r .damaged r.tag 0)) [] none ∧ s.SameFrame t ∧
      (s.settings.severity.recordCheck ≠ .ignored →
        t.faults.first = some { kind := .recordCheck, tag := w.tag, detail := BitVec.ofNat 16 w.slot } ∨
        t.faults.further.getLsbD 10 = true) ∧
      (s.settings.severity.recordCheck = .fatal → t.device.state = .safe)

/-- A changing request whose ARG is not the holder of a claimed record is refused CLAIMED with the holder in VALUE, and
changes nothing but the port (R21). -/
def Obligations.ClaimsGuardChanges : Prop :=
  ∀ r s w x h, s.Reaches r.tag w x → x.record.claim = some h → r.arg ≠ h → s.port.words = [] →
    ∀ c, (c ∈ [Instr.retire r, .modeRequest r, .sample r, .purge r, .setMembers r, .clearMembers r] ∨
        ¬ NamesWide r ∧ c = .amend r) →
      exec c s = .next (s.answered r .claimed r.tag (h.setWidth 48))

/-! ### The well table and the tag index -/

/-- An accepted ENROL places a record with the ENROL defaults, STAGING and RETURN_MODE the start mode, in the lowest
free slot, inserts its pair into the index, and hands address and channel to the scan engine; nothing else changes, and
the slot number is answered (R6, R29, R47, R181). -/
def Obligations.EnrolCreatesRecord : Prop :=
  ∀ r s start, s.SlotsOrdered → s.port.words = [] → s.device.state = .run →
    1 ≤ r.tag.toNat → r.tag.toNat ≤ 65534 → 1 ≤ r.value.toNat / 256 → r.value.toNat / 256 ≤ 62 →
    r.value.toNat % 256 ≤ 3 →
    (r.mask = 1 ∧ start = .auto ∨ r.mask = 2 ∧ start = .manual ∨ r.mask = 3 ∧ start = .isolated) →
    (∀ p ∈ s.index, p.1 ≠ r.tag.toNat) →
    (∀ p ∈ s.slots, ¬ (p.2.address = r.value.toNat / 256 ∧ p.2.channel = r.value.toNat % 256)) →
    (∃ n < 160, ∀ p ∈ s.slots, p.1 ≠ n) →
    ∃ n slots index stations,
      exec (.enrol r) s = .next { s with
        slots := slots, index := index, scan := { s.scan with stations := stations },
        port := s.port.afterExchange (some (answerOf r .done r.tag (BitVec.ofNat 48 n))) [] none } ∧
      n < 160 ∧ (∀ p ∈ s.slots, p.1 ≠ n) ∧ (∀ m < n, ∃ p ∈ s.slots, p.1 = m) ∧
      slots.Pairwise (fun p q => p.1 < q.1) ∧
      (∀ p, p ∈ slots ↔ p ∈ s.slots ∨ p = (n,
        { tag := r.tag.toNat, address := r.value.toNat / 256, channel := r.value.toNat % 256,
          record :=
            { tag := r.tag.toNat, address := r.value.toNat / 256, channel := r.value.toNat % 256,
              valveMin := 0, valveMax := 1000, step := 20, o2Ceiling := 200, ch4Floor := 4500, vacLimit := 2500,
              tempLimit := 550, surveyInterval := 240, debounce := 2, lamp := .off, detect := 0x1111, options := 0,
              enableA := 0, enableB := 0, wakeSet := 0, totalDraw := 0, location := { easting := 0, northing := 0 },
              mode := .staging, returnMode := some start, valveTarget := 0, valveFeedback := none, inputs := none,
              vacuum := none, flow := none, temp := none, events := 0, sample := none, sampleAge := none,
              sampleOutcome := .none, surveyDue := 0, queued := .no, excursions := 0, clean := 0, moveState := .none,
              moveOutcome := .none, purgeLeft := 0, claim := none, drawRemainder := 0 },
          intact := true,
          runs := { button := ⟨none, 0⟩, cap := ⟨none, 0⟩, actuator := ⟨none, 0⟩, liquid := ⟨none, 0⟩ },
          purgeEndDue := false })) ∧
      (s.index.Pairwise (fun p q => p.1 < q.1) → index.Pairwise (fun p q => p.1 < q.1)) ∧
      (∀ p, p ∈ index ↔ p ∈ s.index ∨ p = (r.tag.toNat, n)) ∧
      ((∀ x ∈ s.scan.stations, x.address ≠ r.value.toNat / 256) →
        ∀ x, x ∈ stations ↔ x ∈ s.scan.stations ∨
          x = { address := r.value.toNat / 256,
                channels := [{ channel := r.value.toNat % 256, baselinePending := false }],
                state := .setupDue, failures := 0 }) ∧
      ((∃ x ∈ s.scan.stations, x.address = r.value.toNat / 256) →
        stations = s.scan.stations.map fun x =>
          if x.address = r.value.toNat / 256 then
            { x with channels := joinChannel (r.value.toNat % 256) x.channels,
                     state := if x.state = .lost then .lost else .setupDue }
          else x)

/-- ENROL makes its checks in the order of R6 and is refused at the first that fails, with nothing changed but the port
(R6, R181). -/
def Obligations.EnrolIsRefusedInOrder : Prop :=
  ∀ r s e, s.SlotsOrdered → s.port.words = [] →
    (if s.device.state = .standby then some Status.standby
     else if s.device.state = .safe then some .safe
     else if r.tag = 0 ∨ r.tag = 65535 then some .badValue
     else if ¬ (1 ≤ r.value.toNat / 256 ∧ r.value.toNat / 256 ≤ 62 ∧ r.value.toNat % 256 ≤ 3) then some .badValue
     else if ¬ (r.mask = 1 ∨ r.mask = 2 ∨ r.mask = 3) then some .badValue
     else if ∃ p ∈ s.index, p.1 = r.tag.toNat then some .exists_
     else if ∃ p ∈ s.slots, p.2.address = r.value.toNat / 256 ∧ p.2.channel = r.value.toNat % 256
       then some .stationTaken
     else if 160 ≤ s.slots.length then some .tableFull
     else none) = some e →
    exec (.enrol r) s = .next (s.answered r e r.tag 0)

/-- RETIRE with FORCE in every device state, and RETIRE outside SAFE of an active well seen closed, frees the record in
the step of the request and answers VALUE 1: neither table nor index, lists, queue or sequencer holds the well any more;
its channel leaves the station's map, and with the last channel the station record, a transaction in flight with it being
ended and the round going on (R48, R52); and the other wells keep their records but for the marks of queue, moves and
events (R20, R39, R42, R182). -/
def Obligations.RetireFreesAtOnce : Prop :=
  ∀ r s w x, s.SlotsOrdered → s.Reaches r.tag w x → x.record.Admits r.arg → s.port.words = [] →
    (r.mask.getLsbD 0 = true ∨
      s.device.state ≠ .safe ∧
      (x.record.mode = .auto ∨ x.record.mode = .manual ∨ x.record.mode = .isolated ∨ x.record.mode = .suspect) ∧
      ∃ f, x.record.valveFeedback = some f ∧ f ≤ s.settings.moveBand) →
    ∃ t, exec (.retire r) s = .next t ∧ t.record? w = none ∧ (∀ p ∈ t.index, p ≠ (w.tag, w.slot)) ∧
      t.moves.holds w = false ∧ t.moves.waits w = false ∧ (∀ e ∈ t.seq.queue, e.well ≠ w) ∧
      t.seq.phase.current? ≠ some w ∧
      (s.Sound → ∀ st ∈ s.scan.stations, st.address = x.address →
        ((∃ c ∈ st.channels, c.channel ≠ x.channel) → t.scan.stations = s.stationsWith x.address fun y =>
          { y with channels := y.channels.filter fun c => c.channel != x.channel }) ∧
        ((∀ c ∈ st.channels, c.channel = x.channel) →
          t.scan.stations = s.scan.stations.filter (fun y => y.address != x.address) ∧
          ∀ tr, s.scan.inFlight = some tr → tr.address = x.address → t.SendsNext x.address) ∧
        ∀ tr, s.scan.inFlight = some tr → tr.address ≠ x.address ∨ (∃ c ∈ st.channels, c.channel ≠ x.channel) →
          t.scan.inFlight = some tr ∧ t.scan.round = s.scan.round) ∧
      s.OthersUpToMarks t w ∧ s.SameFrame t ∧
      t.port = s.port.afterExchange (some (answerOf r .done r.tag 1)) [] none

/-- RETIRE without FORCE of a well that is not seen closed: refused SAFE in SAFE; an active well enters RETIRING with
target 0 and leaves the queue, its sample in SELECT, PURGE or READ being aborted, and its target is handed to the move
scheduler also when it stood at 0 already, which is the model's reading (log 11); a parked well gets RETURN_MODE RETIRING; a
well already retiring is left as it stands. Each is answered VALUE 0 (R25 to R28, R39, R104, R111, R116, R182). That no need
is evaluated for a holder, also with ACTUATOR high, is the model's reading of R111 and R116 (log 31). -/
def Obligations.RetireClosesFirst : Prop :=
  ∀ r s w x, s.SlotsOrdered → s.Reaches r.tag w x → x.record.Admits r.arg → s.port.words = [] →
    r.mask.getLsbD 0 = false →
    (s.device.state = .safe → exec (.retire r) s = .next (s.answered r .safe r.tag 0)) ∧
    (s.device.state ≠ .safe → x.record.mode = .retiring →
      exec (.retire r) s = .next (s.answered r .done r.tag 0)) ∧
    (s.device.state ≠ .safe → x.record.mode = .staging ∨ x.record.mode = .unreachable →
      exec (.retire r) s = .next
        ((s.withSlot w { x with record := { x.record with returnMode := some .retiring } }).answered r .done r.tag 0)) ∧
    (s.device.state ≠ .safe →
      (x.record.mode = .auto ∨ x.record.mode = .manual ∨ x.record.mode = .isolated ∨ x.record.mode = .suspect) →
      (∀ f, x.record.valveFeedback = some f → s.settings.moveBand < f) →
      ∃ t, exec (.retire r) s = .next t ∧
        t.HoldsUpToMarks w { x.record with
          mode := .retiring, valveTarget := 0,
          excursions := if x.record.mode = .suspect then 0 else x.record.excursions,
          clean := if x.record.mode = .suspect then 0 else x.record.clean } ∧
        s.SamplingLeft t w ∧ s.TargetTaken t w True { x.record with valveTarget := 0 } ∧
        s.OthersUpToMarks t w ∧ s.SameFrame t ∧
        t.port = s.port.afterExchange (some (answerOf r .done r.tag 0)) [] none)

/-- FIND answers the smallest enrolled tag greater than the tag it names, in TAG and in VALUE, or NOT_FOUND with 65535
in both; it touches no record and makes only the port checks (R7, R189). -/
def Obligations.FindAnswersNextTag : Prop :=
  ∀ r s, s.index.Pairwise (fun p q => p.1 < q.1) →
    (s.port.words ≠ [] → exec (.find r) s = .next (s.answered r .extUnusable r.tag 0)) ∧
    (s.port.words = [] → (∀ p ∈ s.index, p.1 ≤ r.tag.toNat) →
      exec (.find r) s = .next (s.answered r .notFound 65535 65535)) ∧
    ∀ p ∈ s.index, s.port.words = [] → r.tag.toNat < p.1 → (∀ q ∈ s.index, r.tag.toNat < q.1 → p.1 ≤ q.1) →
      exec (.find r) s = .next (s.answered r .done (BitVec.ofNat 16 p.1) ((BitVec.ofNat 16 p.1).setWidth 48))

/-! ### Fields -/

/-- LOOKUP of a well record answers the field its code names as it stands, ABSENT for an absent field and BAD_FIELD for
a code that is no field of a well record, and changes nothing but the port (R9, R10, R14, R179, R183). -/
def Obligations.LookupAnswersWellFields : Prop :=
  ∀ r s w x, s.Reaches r.tag w x → s.port.words = [] →
    exec (.lookup r) s = .next { s with
      port := s.port.afterExchange (some (fieldAnswer r r.tag r.field x.record)) [] none }

/-- LOOKUP on tag 0 answers the field of the device record its code names, with ARG naming the kind of SEVERITY and the
holder of MOVES, and changes nothing but the port (R17, R18, R179, R183). -/
def Obligations.LookupAnswersDeviceFields : Prop :=
  ∀ r s, r.tag = 0 → s.port.words = [] →
    exec (.lookup r) s = .next (match deviceValue s r.arg.toNat r.field.toNat with
      | .ok v => s.answered r .done 0 v
      | .error e => s.answered r e 0 0)

/-- AMEND of a plain field writes the value when it lies in the field's range and is refused BAD_VALUE otherwise; of an
alert enable it also evaluates the lines; of a field of class E or L, or of the other record, it is refused BAD_FIELD
(R10, R11, R12, R80, R184). -/
def Obligations.AmendWritesPlainFields : Prop :=
  ∀ r s w x, s.SlotsOrdered → s.Reaches r.tag w x → x.record.Admits r.arg → s.port.words = [] →
    (∀ lo hi f, plainField r.field.toNat = some (lo, hi, f) →
      (lo ≤ r.value.toNat ∧ r.value.toNat ≤ hi → exec (.amend r) s = .next
        ((s.withSlot w { x with record := f r.value.toNat x.record }).answered r .done r.tag (r.value.setWidth 48))) ∧
      (¬ (lo ≤ r.value.toNat ∧ r.value.toNat ≤ hi) →
        exec (.amend r) s = .next (s.answered r .badValue r.tag 0))) ∧
    (r.field = 14 → r.value.toNat < 256 → exec (.amend r) s = .next
      ((s.withSlot w { x with record := { x.record with enableA := r.value.setWidth 8 } }).alertsTaken.answered
        r .done r.tag (r.value.setWidth 48))) ∧
    (r.field = 15 → r.value.toNat < 256 → exec (.amend r) s = .next
      ((s.withSlot w { x with record := { x.record with enableB := r.value.setWidth 8 } }).alertsTaken.answered
        r .done r.tag (r.value.setWidth 48))) ∧
    (r.field = 14 ∨ r.field = 15 → 256 ≤ r.value.toNat →
      exec (.amend r) s = .next (s.answered r .badValue r.tag 0)) ∧
    (r.field.toNat ≤ 1 ∨ r.field = 19 ∨ r.field = 20 ∨ 22 ≤ r.field.toNat →
      exec (.amend r) s = .next (s.answered r .badField r.tag 0))

/-- AMEND of VALVE_MIN or VALVE_MAX moves the limit when it stays on its side of the other and clamps the target as the
mode asks; AMEND of VALVE_TARGET writes the target of a MANUAL well in RUN within its limits. A target that takes another
value is handed to the move scheduler: a holder's timer restarts, and any other well's need is evaluated (R110, R111,
R113, R116; that no need is evaluated for the holder is the model's reading of R111 and R116, log 31). Each is refused
otherwise, for VALVE_TARGET in the order STANDBY, SAFE, WRONG_MODE, BAD_VALUE (R11, R25, R184). -/
def Obligations.AmendMovesLimitsAndTarget : Prop :=
  ∀ r s w x, s.RecordsLegal → s.Reaches r.tag w x → x.record.Admits r.arg → s.port.words = [] →
    (r.field = 2 → r.value.toNat ≤ x.record.valveMax → ∀ q, q = { x.record with
        valveMin := r.value.toNat,
        valveTarget :=
          if x.record.mode = .auto ∨ x.record.mode = .manual then
            max r.value.toNat (min x.record.valveTarget x.record.valveMax)
          else if x.record.mode = .suspect then r.value.toNat else x.record.valveTarget } →
      ∃ t, exec (.amend r) s = .next t ∧ t.HoldsUpToMarks w q ∧
      s.TargetTaken t w (q.valveTarget ≠ x.record.valveTarget) q ∧
      s.OthersUpToMarks t w ∧ s.SameFrame t ∧
      t.port = s.port.afterExchange (some (answerOf r .done r.tag (r.value.setWidth 48))) [] none) ∧
    (r.field = 2 → x.record.valveMax < r.value.toNat →
      exec (.amend r) s = .next (s.answered r .badValue r.tag 0)) ∧
    (r.field = 3 → x.record.valveMin ≤ r.value.toNat → r.value.toNat ≤ 1000 → ∀ q, q = { x.record with
        valveMax := r.value.toNat,
        valveTarget :=
          if x.record.mode = .auto ∨ x.record.mode = .manual then
            max x.record.valveMin (min x.record.valveTarget r.value.toNat)
          else if x.record.mode = .suspect then x.record.valveMin else x.record.valveTarget } →
      ∃ t, exec (.amend r) s = .next t ∧ t.HoldsUpToMarks w q ∧
      s.TargetTaken t w (q.valveTarget ≠ x.record.valveTarget) q ∧
      s.OthersUpToMarks t w ∧ s.SameFrame t ∧
      t.port = s.port.afterExchange (some (answerOf r .done r.tag (r.value.setWidth 48))) [] none) ∧
    (r.field = 3 → r.value.toNat < x.record.valveMin ∨ 1000 < r.value.toNat →
      exec (.amend r) s = .next (s.answered r .badValue r.tag 0)) ∧
    (r.field = 21 → s.device.state = .run → x.record.mode = .manual → x.record.valveMin ≤ r.value.toNat →
      r.value.toNat ≤ x.record.valveMax → ∃ t, exec (.amend r) s = .next t ∧
      t.HoldsUpToMarks w { x.record with valveTarget := r.value.toNat } ∧
      s.TargetTaken t w (r.value.toNat ≠ x.record.valveTarget) { x.record with valveTarget := r.value.toNat } ∧
      s.OthersUpToMarks t w ∧ s.SameFrame t ∧
      t.port = s.port.afterExchange (some (answerOf r .done r.tag (r.value.setWidth 48))) [] none) ∧
    (r.field = 21 →
      (s.device.state = .standby → exec (.amend r) s = .next (s.answered r .standby r.tag 0)) ∧
      (s.device.state = .safe → exec (.amend r) s = .next (s.answered r .safe r.tag 0)) ∧
      (s.device.state = .run → x.record.mode ≠ .manual →
        exec (.amend r) s = .next (s.answered r .wrongMode r.tag 0)) ∧
      (s.device.state = .run → x.record.mode = .manual →
        r.value.toNat < x.record.valveMin ∨ x.record.valveMax < r.value.toNat →
        exec (.amend r) s = .next (s.answered r .badValue r.tag 0)))

/-- AMEND of TOTAL_DRAW takes one held word as the upper 16 bits, and AMEND of LOCATION two, the first taken the most
significant, of which the upper 24 bits are the easting; the words are consumed (R11, R176, R184). -/
def Obligations.AmendWritesWideFields : Prop :=
  ∀ r s w x, s.SlotsOrdered → s.Reaches r.tag w x → x.record.Admits r.arg →
    (∀ upper, r.field = 17 → s.port.words = [upper] → exec (.amend r) s = .next
      ((s.withSlot w { x with record := { x.record with totalDraw := upper ++ r.value } }).answered r .done r.tag
        ((upper ++ r.value).setWidth 48))) ∧
    ∀ a b, r.field = 18 → s.port.words = [a, b] → exec (.amend r) s = .next
      ((s.withSlot w { x with record := { x.record with
          location := { easting := a ++ b.extractLsb' 8 8, northing := b.extractLsb' 0 8 ++ r.value } } }).answered
        r .done r.tag (a ++ b ++ r.value))

/-- AMEND on tag 0 writes one setting within its range: a plain one, an alert enable with the lines evaluated, SEVERITY
of the kind in ARG, or MOVE_SLOTS with the grants that a raise brings in RUN. It is refused BAD_VALUE out of range and
BAD_FIELD for a status field or a field of a well record (R10, R16, R17, R113, R184). -/
def Obligations.AmendWritesSettings : Prop :=
  ∀ r s, r.tag = 0 → ¬ NamesWide r → s.port.words = [] →
    (∀ lo hi f, plainSetting r.field.toNat = some (lo, hi, f) →
      (lo ≤ r.value.toNat ∧ r.value.toNat ≤ hi → exec (.amend r) s = .next
        (State.answered { s with settings := f r.value.toNat s.settings } r .done 0 (r.value.setWidth 48))) ∧
      (¬ (lo ≤ r.value.toNat ∧ r.value.toNat ≤ hi) → exec (.amend r) s = .next (s.answered r .badValue 0 0))) ∧
    (r.field = 54 → r.value.toNat < 64 → exec (.amend r) s = .next
      ((State.alertsTaken { s with settings := { s.settings with devEnableA := r.value.setWidth 6 } }).answered
        r .done 0 (r.value.setWidth 48))) ∧
    (r.field = 55 → r.value.toNat < 64 → exec (.amend r) s = .next
      ((State.alertsTaken { s with settings := { s.settings with devEnableB := r.value.setWidth 6 } }).answered
        r .done 0 (r.value.setWidth 48))) ∧
    (r.field = 54 ∨ r.field = 55 → 64 ≤ r.value.toNat → exec (.amend r) s = .next (s.answered r .badValue 0 0)) ∧
    (∀ k x, r.field = 56 → faultKinds[r.arg.toNat]? = some k → severityOfCode r.value.toNat = some x →
      exec (.amend r) s = .next
        (State.answered { s with settings := { s.settings with severity := withSeverity s.settings.severity x k } }
          r .done 0 (r.value.setWidth 48))) ∧
    (r.field = 56 → 12 ≤ r.arg.toNat ∨ 4 ≤ r.value.toNat →
      exec (.amend r) s = .next (s.answered r .badValue 0 0)) ∧
    (r.field = 49 → 1 ≤ r.value.toNat → r.value.toNat ≤ 4 → ∃ t, exec (.amend r) s = .next t ∧
      t.settings = { s.settings with moveSlots := r.value.toNat } ∧ s.moves.holders <+: t.moves.holders ∧
      t.moves.holders.map (fun h => h.well) ++ t.moves.waiting =
        s.moves.holders.map (fun h => h.well) ++ s.moves.waiting ∧
      (s.device.state ≠ .run → t.moves = s.moves) ∧
      (s.device.state = .run → t.moves.waiting = [] ∨ r.value.toNat ≤ t.moves.holders.length) ∧
      t.port = s.port.afterExchange (some (answerOf r .done 0 (r.value.setWidth 48))) [] none) ∧
    (r.field = 49 → r.value.toNat = 0 ∨ 4 < r.value.toNat →
      exec (.amend r) s = .next (s.answered r .badValue 0 0)) ∧
    (r.field.toNat < 39 ∨ 57 ≤ r.field.toNat → exec (.amend r) s = .next (s.answered r .badField 0 0))

/-- SET adds and CLEAR removes the marked members of a set-valued field and answers the resulting set; a change of an
alert enable evaluates the lines. Any other field is refused BAD_FIELD, and a bit beyond the last member BAD_VALUE (R10,
R12, R80, R185). -/
def Obligations.SetAndClearChangeMembers : Prop :=
  ∀ r s add c, (add = true ∧ c = Instr.setMembers r ∨ add = false ∧ c = .clearMembers r) → s.port.words = [] →
    (∀ w x, s.SlotsOrdered → s.Reaches r.tag w x → x.record.Admits r.arg →
      (r.field = 12 → ∀ m : BitVec 16, m = (if add then x.record.detect ||| r.value else x.record.detect &&& ~~~r.value) →
        exec c s = .next
          ((s.withSlot w { x with record := { x.record with detect := m } }).answered r .done r.tag (m.setWidth 48))) ∧
      (r.field = 13 → r.value.toNat < 16 → ∀ m : BitVec 4,
        m = (if add then x.record.options ||| r.value.setWidth 4 else x.record.options &&& ~~~(r.value.setWidth 4)) →
        exec c s = .next
          ((s.withSlot w { x with record := { x.record with options := m } }).answered r .done r.tag (m.setWidth 48))) ∧
      (r.field = 14 → r.value.toNat < 256 → ∀ m : BitVec 8,
        m = (if add then x.record.enableA ||| r.value.setWidth 8 else x.record.enableA &&& ~~~(r.value.setWidth 8)) →
        exec c s = .next
          ((s.withSlot w { x with record := { x.record with enableA := m } }).alertsTaken.answered r .done r.tag
            (m.setWidth 48))) ∧
      (r.field = 15 → r.value.toNat < 256 → ∀ m : BitVec 8,
        m = (if add then x.record.enableB ||| r.value.setWidth 8 else x.record.enableB &&& ~~~(r.value.setWidth 8)) →
        exec c s = .next
          ((s.withSlot w { x with record := { x.record with enableB := m } }).alertsTaken.answered r .done r.tag
            (m.setWidth 48))) ∧
      (r.field = 16 → r.value.toNat < 256 → ∀ m : BitVec 8,
        m = (if add then x.record.wakeSet ||| r.value.setWidth 8 else x.record.wakeSet &&& ~~~(r.value.setWidth 8)) →
        exec c s = .next
          ((s.withSlot w { x with record := { x.record with wakeSet := m } }).answered r .done r.tag (m.setWidth 48))) ∧
      ((r.field = 13 ∧ 16 ≤ r.value.toNat ∨ 14 ≤ r.field.toNat ∧ r.field.toNat ≤ 16 ∧ 256 ≤ r.value.toNat) →
        exec c s = .next (s.answered r .badValue r.tag 0)) ∧
      (r.field.toNat < 12 ∨ 16 < r.field.toNat → exec c s = .next (s.answered r .badField r.tag 0))) ∧
    (r.tag = 0 →
      (r.field = 54 → r.value.toNat < 64 → ∀ m : BitVec 6,
        m = (if add then s.settings.devEnableA ||| r.value.setWidth 6
             else s.settings.devEnableA &&& ~~~(r.value.setWidth 6)) →
        exec c s = .next
          ((State.alertsTaken { s with settings := { s.settings with devEnableA := m } }).answered r .done 0
            (m.setWidth 48))) ∧
      (r.field = 55 → r.value.toNat < 64 → ∀ m : BitVec 6,
        m = (if add then s.settings.devEnableB ||| r.value.setWidth 6
             else s.settings.devEnableB &&& ~~~(r.value.setWidth 6)) →
        exec c s = .next
          ((State.alertsTaken { s with settings := { s.settings with devEnableB := m } }).answered r .done 0
            (m.setWidth 48))) ∧
      (r.field = 54 ∨ r.field = 55 → 64 ≤ r.value.toNat → exec c s = .next (s.answered r .badValue 0 0)) ∧
      (r.field ≠ 54 ∧ r.field ≠ 55 → exec c s = .next (s.answered r .badField 0 0)))

/-- ACK removes the marked kinds that stand from EVENTS, or on tag 0 from DEVICE_EVENTS, adds none, evaluates the lines
and answers the set that is left; it is subject to no claim (R79, R186). -/
def Obligations.AckRemovesKinds : Prop :=
  ∀ r s, s.port.words = [] →
    (∀ w x, s.SlotsOrdered → s.Reaches r.tag w x → exec (.ack r) s = .next
      ((s.withSlot w { x with record := { x.record with events := x.record.events &&& ~~~r.mask } }).alertsTaken.answered
        r .done r.tag ((x.record.events &&& ~~~r.mask).setWidth 48))) ∧
    (r.tag = 0 → exec (.ack r) s = .next
      ((State.alertsTaken { s with
          device := { s.device with events := s.device.events &&& ~~~(r.mask.setWidth 6) } }).answered
        r .done 0 ((s.device.events &&& ~~~(r.mask.setWidth 6)).setWidth 48)))

/-! ### Claims -/

/-- CLAIM tests and sets the claim by the table of R22, in every device state and mode, and changes nothing else. -/
def Obligations.ClaimTestsAndSets : Prop :=
  ∀ r s w x, s.SlotsOrdered → s.Reaches r.tag w x → s.port.words = [] →
    (x.record.claim = none → exec (.claim r) s = .next
      ((s.withSlot w { x with record := { x.record with claim := some r.arg } }).answered r .done r.tag 0)) ∧
    ∀ h, x.record.claim = some h →
      (h = r.arg → exec (.claim r) s = .next (s.answered r .heldByYou r.tag (h.setWidth 48))) ∧
      (h ≠ r.arg → exec (.claim r) s = .next (s.answered r .heldByOther r.tag (h.setWidth 48)))

/-- RELEASE clears the claim by the table of R23, in every device state, and changes nothing else. -/
def Obligations.ReleaseClearsClaim : Prop :=
  ∀ r s w x, s.SlotsOrdered → s.Reaches r.tag w x → s.port.words = [] →
    (x.record.claim = none → exec (.release r) s = .next (s.answered r .absent r.tag 0)) ∧
    ∀ h, x.record.claim = some h →
      ((if r.mask.getLsbD 0 then r.arg = 0 else r.arg = h) → exec (.release r) s = .next
        ((s.withSlot w { x with record := { x.record with claim := none } }).answered r .done r.tag
          (h.setWidth 48))) ∧
      (¬ (if r.mask.getLsbD 0 then r.arg = 0 else r.arg = h) →
        exec (.release r) s = .next (s.answered r .claimed r.tag (h.setWidth 48)))

/-! ### Well commands -/

/-- MODE: SAFE, BAD_VALUE and WRONG_MODE in that order; a parked well gets a new RETURN_MODE; an active one enters the
named mode with its target and counts as R34 states, the changed target being taken by the move scheduler (R111, R116; that
no need is evaluated for a holder, also with ACTUATOR high, is the model's reading, log 31); ISOLATED takes it out of the
queue and aborts its sample in SELECT, PURGE or READ, the other modes keep both (R27, R104); the mode held is no change
(R25, R28, R33 to R35, R188). -/
def Obligations.ModeRequestActsByMode : Prop :=
  ∀ r s w x, s.RecordsLegal → s.Reaches r.tag w x → x.record.Admits r.arg → s.port.words = [] →
    (s.device.state = .safe → exec (.modeRequest r) s = .next (s.answered r .safe r.tag 0)) ∧
    (s.device.state ≠ .safe → ¬ (1 ≤ r.value.toNat ∧ r.value.toNat ≤ 3) →
      exec (.modeRequest r) s = .next (s.answered r .badValue r.tag 0)) ∧
    (∀ m, s.device.state ≠ .safe → requestedMode r.value.toNat = some m →
      (x.record.mode = .retiring ∨ x.record.returnMode = some .retiring →
        exec (.modeRequest r) s = .next (s.answered r .wrongMode r.tag 0)) ∧
      ((x.record.mode = .staging ∨ x.record.mode = .unreachable) → x.record.returnMode ≠ some .retiring →
        exec (.modeRequest r) s = .next
          ((s.withSlot w { x with record := { x.record with returnMode := some m } }).answered r .done r.tag
            (low x.record.mode.code))) ∧
      (x.record.mode = m.toMode → exec (.modeRequest r) s = .next (s.answered r .done r.tag (r.value.setWidth 48))) ∧
      ((x.record.mode = .auto ∨ x.record.mode = .manual ∨ x.record.mode = .isolated ∨ x.record.mode = .suspect) →
        x.record.mode ≠ m.toMode → ∃ t, exec (.modeRequest r) s = .next t ∧
        t.HoldsUpToMarks w { x.record with
          mode := m.toMode,
          valveTarget := if m = .isolated then 0
            else max x.record.valveMin (min x.record.valveTarget x.record.valveMax),
          excursions := if x.record.mode = .suspect then 0 else x.record.excursions,
          clean := if x.record.mode = .suspect then 0 else x.record.clean } ∧
        (m = .isolated → s.SamplingLeft t w) ∧ (m ≠ .isolated → t.seq = s.seq) ∧
        (∀ target, target = (if m = .isolated then 0
            else max x.record.valveMin (min x.record.valveTarget x.record.valveMax)) →
          s.TargetTaken t w (target ≠ x.record.valveTarget) { x.record with mode := m.toMode, valveTarget := target }) ∧
        s.OthersUpToMarks t w ∧ s.SameFrame t ∧
        t.port = s.port.afterExchange (some (answerOf r .done r.tag (r.value.setWidth 48))) [] none))

/-- SAMPLE makes its checks in the order of R91; an accepted one places or promotes the well's entry and answers its
position, and the sequencer may take a head in the same step. That the position is the one at joining is the model's
reading (log 13) (R91, R93, R188). -/
def Obligations.SampleRequestQueuesWell : Prop :=
  ∀ r s w x, s.SlotsOrdered → s.Reaches r.tag w x → x.record.Admits r.arg → s.port.words = [] →
    (∀ e, (if s.device.state = .standby then some Status.standby
        else if s.device.state = .safe then some .safe
        else if 2 ≤ r.value.toNat then some .badValue
        else if ¬ (x.record.mode = .auto ∨ x.record.mode = .manual ∨ x.record.mode = .suspect) then some .wrongMode
        else if x.record.queued = .sampling ∨ x.record.queued = .urgent ∨
          x.record.queued = .routine ∧ r.value = 1 then some .queuedAlready
        else if x.record.inputHigh .cap = true then some .blocked
        else if x.record.queued = .no ∧ 16 ≤ s.seq.queue.length then some .queueFull
        else none) = some e → exec (.sample r) s = .next (s.answered r e r.tag 0)) ∧
    (s.device.state = .run → (x.record.mode = .auto ∨ x.record.mode = .manual ∨ x.record.mode = .suspect) →
      x.record.inputHigh .cap = false → ∀ others, others = s.seq.queue.filter (fun e => !(e.well == w)) →
      (r.value = 1 → x.record.queued = .no → s.seq.queue.length < 16 →
        (s.seq.phase ≠ .idle ∨ s.device.suction = .low → exec (.sample r) s = .next
          (State.answered { s.withSlot w { x with record := { x.record with queued := .routine } } with
              seq := { s.seq with queue := others ++ [{ well := w, cls := .routine }] } }
            r .done r.tag (BitVec.ofNat 48 (others.length + 1)))) ∧
        (s.seq.phase = .idle → s.device.suction = .high → s.seq.queue = [] → exec (.sample r) s = .next
          (State.answered { s.withSlot w { x with record := { x.record with queued := .sampling } } with
              seq := { s.seq with phase := .select w, busyCount := 0 } }
            r .done r.tag 1))) ∧
      (r.value = 0 → (x.record.queued = .no ∧ s.seq.queue.length < 16 ∨ x.record.queued = .routine) →
        (s.seq.phase ≠ .idle ∨ s.device.suction = .low → s.seq.queue.length ≤ 16 → exec (.sample r) s = .next
          (State.answered { s.withSlot w { x with record := { x.record with queued := .urgent } } with
              seq := { s.seq with
                queue := others.takeWhile (fun e => e.cls == .urgent) ++ { well := w, cls := .urgent } ::
                  others.dropWhile (fun e => e.cls == .urgent) } }
            r .done r.tag (BitVec.ofNat 48 ((others.takeWhile (fun e => e.cls == .urgent)).length + 1)))) ∧
        ∃ t, exec (.sample r) s = .next t ∧ t.HoldsUpToMarks w x.record ∧ s.OthersUpToMarks t w ∧ s.SameFrame t ∧
          t.port.newer = some (answerOf r .done r.tag
            (low ((others.takeWhile (fun e => e.cls == .urgent)).length + 1)))))

/-- PURGE sets PURGE_LEFT to PURGE_PULSE in RUN in the active modes, and is refused STANDBY, SAFE, or WRONG_MODE for a
parked well (R121, R188). That a restart also clears the mark of an ended pulse is the model's own (log 8). -/
def Obligations.PurgeRequestStartsPulse : Prop :=
  ∀ r s w x, s.SlotsOrdered → s.Reaches r.tag w x → x.record.Admits r.arg → s.port.words = [] →
    (s.device.state = .standby → exec (.purge r) s = .next (s.answered r .standby r.tag 0)) ∧
    (s.device.state = .safe → exec (.purge r) s = .next (s.answered r .safe r.tag 0)) ∧
    (s.device.state = .run → (x.record.mode = .staging ∨ x.record.mode = .unreachable) →
      exec (.purge r) s = .next (s.answered r .wrongMode r.tag 0)) ∧
    (s.device.state = .run → x.record.mode ≠ .staging → x.record.mode ≠ .unreachable →
      exec (.purge r) s = .next
        ((s.withSlot w { x with
            record := { x.record with purgeLeft := s.settings.purgePulse }, purgeEndDue := false }).answered
          r .done r.tag (low s.settings.purgePulse)))

/-! ### Groups -/

/-- GROUPLOOK and GROUPAMEND open the group of their tag and act at position 1, which is that tag, with the checks of
LOOKUP and of AMEND: the answer and the state are those of a LOOKUP or an AMEND on that tag, but for the open group, for
every field, in range or not, and for a damaged record too (R19); tag 0 is NOT_FOUND. A GROUPAMEND of a wide field is
refused EXT_UNUSABLE and opens none (R4, R8, R172, R177, R190). -/
def Obligations.GroupsOpenAtPositionOne : Prop :=
  ∀ r s, s.port.words = [] →
    (s.Unresolved r.tag → exec (.groupLook r) s = .next { s with
      port := s.port.afterExchange (some (answerOf r .notFound r.tag 0)) [] (some (Group.opening .look r)) }) ∧
    (s.Unresolved r.tag → ¬ NamesWide r → exec (.groupAmend r) s = .next { s with
      port := s.port.afterExchange (some (answerOf r .notFound r.tag 0)) [] (some (Group.opening .amend r)) }) ∧
    (NamesWide r → exec (.groupAmend r) s = .next (s.answered r .extUnusable r.tag 0)) ∧
    (r.tag ≠ 0 → ∃ t, exec (.lookup r) s = .next t ∧ exec (.groupLook r) s = .next
      { t with port := { t.port with group := some (Group.opening .look r) } }) ∧
    (r.tag ≠ 0 → ¬ NamesWide r → ∃ t, exec (.amend r) s = .next t ∧ exec (.groupAmend r) s = .next
      { t with port := { t.port with group := some (Group.opening .amend r) } }) ∧
    ∀ w x, s.SlotsOrdered → s.Reaches r.tag w x →
      (exec (.groupLook r) s = .next { s with
        port := s.port.afterExchange (some (fieldAnswer r r.tag r.field x.record)) []
          (some (Group.opening .look r)) }) ∧
      (∀ h, x.record.claim = some h → h ≠ r.arg → ¬ NamesWide r → exec (.groupAmend r) s = .next { s with
        port := s.port.afterExchange (some (answerOf r .claimed r.tag (h.setWidth 48))) []
          (some (Group.opening .amend r)) }) ∧
      ∀ lo hi f, x.record.Admits r.arg → plainField r.field.toNat = some (lo, hi, f) → lo ≤ r.value.toNat →
        r.value.toNat ≤ hi → exec (.groupAmend r) s = .next
          { s.withSlot w { x with record := f r.value.toNat x.record } with
            port := s.port.afterExchange (some (answerOf r .done r.tag (r.value.setWidth 48))) []
              (some (Group.opening .amend r)) }

/-- CONTINUE acts at the next position of the open group, in the order the strap gives, with its own VALUE and ARG and the
group's field: the answer and the state are those of a LOOKUP or an AMEND on the position's tag, but for the open group,
which ends with position 4. Without a group it is refused NO_GROUP, and with words held EXT_UNUSABLE, which uses up the
position of an open group (R172, R176 to R178, R190); that this also ends a group at position 4 is the model's reading
(log 14), and so is the TAG of a refusal without a group (log 7). -/
def Obligations.ContinueStepsGroup : Prop :=
  ∀ r s,
    (s.port.group = none → s.port.words = [] → exec (.continueGroup r) s = .next (s.answered r .noGroup r.tag 0)) ∧
    (s.port.group = none → s.port.words ≠ [] →
      exec (.continueGroup r) s = .next (s.answered r .extUnusable r.tag 0)) ∧
    ∀ g tag, s.port.group = some g → g.Legal → tag = g.nextTag s.port.straps.order →
      (s.port.words ≠ [] → exec (.continueGroup r) s = .next { s with
        port := s.port.afterExchange (some (answerOf r .extUnusable tag 0)) [] g.next }) ∧
      (s.port.words = [] →
        (s.Unresolved tag → exec (.continueGroup r) s = .next { s with
          port := s.port.afterExchange (some (answerOf r .notFound tag 0)) [] g.next }) ∧
        (∀ single, single = { r with tag := tag, field := g.field } → tag ≠ 0 →
          (g.kind = .look → ∃ t, exec (.lookup single) s = .next t ∧
            exec (.continueGroup r) s = .next { t with port := { t.port with group := g.next } }) ∧
          (g.kind = .amend → ¬ NamesWide single → ∃ t, exec (.amend single) s = .next t ∧
            exec (.continueGroup r) s = .next { t with port := { t.port with group := g.next } })) ∧
        ∀ w x, s.SlotsOrdered → s.Reaches tag w x →
          (g.kind = .look → exec (.continueGroup r) s = .next { s with
            port := s.port.afterExchange (some (fieldAnswer r tag g.field x.record)) [] g.next }) ∧
          (∀ h, g.kind = .amend → x.record.claim = some h → h ≠ r.arg →
            exec (.continueGroup r) s = .next { s with
              port := s.port.afterExchange (some (answerOf r .claimed tag (h.setWidth 48))) [] g.next }) ∧
          ∀ lo hi f, g.kind = .amend → x.record.Admits r.arg → plainField g.field.toNat = some (lo, hi, f) →
            lo ≤ r.value.toNat → r.value.toNat ≤ hi → exec (.continueGroup r) s = .next
              { s.withSlot w { x with record := f r.value.toNat x.record } with
                port := s.port.afterExchange (some (answerOf r .done tag (r.value.setWidth 48))) [] g.next })

/-! ### Commands to the part -/

/-- STANDBY makes its checks in the order of R161; an accepted one enters STANDBY and withdraws the permit, with a
PERMIT event when it was GRANTED, and changes nothing else; that a blend unit late in this second takes a PENDING permit's
departure from RUN later is the model's choice (log 15) (R142, R143, R160 to R162, R192). -/
def Obligations.StandbyEntersOrRefuses : Prop :=
  ∀ r s, s.PermitSafe → s.port.words = [] →
    (∀ e, (if s.device.state = .standby then some Status.standby
        else if s.device.state = .safe then some .safe
        else if s.alertAStands = true ∨ s.alertBStands = true then some .pending
        else if s.moves.holders ≠ [] ∨ s.moves.waiting ≠ [] ∨ s.seq.phase.current? ≠ none then some .busy
        else none) = some e → exec (.standby r) s = .next (s.answered r e r.tag 0)) ∧
    (s.device.state = .run → s.alertAStands = false → s.alertBStands = false → s.moves.holders = [] →
      s.moves.waiting = [] → s.seq.phase.current? = none →
      ∀ b, b = { s.blend with permit := .withdrawn, holdTimer := none, enginePermit := false, flareDemand := true } →
      (s.blend.permit ≠ .granted → s.device.late.blend = false → exec (.standby r) s = .next
        (State.answered { s with device := { s.device with state := .standby }, blend := b } r .done r.tag 0)) ∧
      (s.blend.permit ≠ .granted → s.device.late.blend = true → exec (.standby r) s = .next
        (State.answered { s with device := { s.device with
          state := .standby, owed := { s.device.owed with blend := true } } } r .done r.tag 0)) ∧
      (s.blend.permit = .granted → exec (.standby r) s = .next
        (State.answered (State.alertsTaken { s with
          device := { s.device with state := .standby, events := s.device.events ||| 0x04 }, blend := b })
          r .done r.tag 0)))

/-- RESUME is refused WRONG_MODE in RUN, and PENDING in SAFE while FIRST_FAULT is present; otherwise it takes the part
to RUN with WAKE released, and from STANDBY a round is in progress or has ended after it. The wells that waited are
granted first and in their order, and then the need of every record is evaluated in slot order: a well that needs a move
stands in the lists, one that does not joins none, one with ACTUATOR high is found BLOCKED out of band, and slots are
filled. Only the freeing of a closed RETIRING well that is current at a failure count of 3 can take the part from there to
SAFE again, by a FATAL ANALYSER_OFFLINE (R40, R83, R103, R105, R111, R113, R158, R164, R192). A change the blocks still
owe is taken before this one, which is the model's reading (log 15). -/
def Obligations.ResumeReturnsToRun : Prop :=
  ∀ r s, s.port.words = [] →
    (s.device.state = .run → exec (.resume r) s = .next (s.answered r .wrongMode r.tag 0)) ∧
    (s.device.state = .safe → s.faults.first ≠ none → exec (.resume r) s = .next (s.answered r .pending r.tag 0)) ∧
    (s.device.state = .standby ∨ s.device.state = .safe ∧ s.faults.first = none →
      ∃ t, exec (.resume r) s = .next t ∧ t.lines.wake = false ∧
        (t.device.state = .run ∨ t.device.state = .safe ∧ s.settings.severity.analyserOffline = .fatal ∧
          ∃ w q f x, s.seq.phase.current? = some w ∧ s.record? w = some q ∧ q.mode = .retiring ∧
            q.valveFeedback = some f ∧ f ≤ s.settings.moveBand ∧ s.seq.failures = some x ∧ x.count = 3) ∧
        (t.device.state = .run → t.device.owed = Handover.none) ∧
        (∀ w q, s.record? w = some q → q.mode ≠ .retiring → t.HoldsUpToMarks w q) ∧ s.SameFrame t ∧
        (s.device.state = .standby → s.scan.stations ≠ [] → s.scan.round = .idle →
          (∀ p ∈ s.slots, p.2.record.mode ≠ .retiring) → t.scan.round ≠ .idle) ∧
        (s.Sound → s.device.owed.moves = false → t.device.state = .run →
          (∃ old added, t.inLists = old ++ added ∧ old.Sublist s.inLists ∧ (∀ w ∈ added, w ∉ s.inLists) ∧
            added.Pairwise (fun v w => v.slot < w.slot)) ∧
          (t.moves.waiting = [] ∨ s.settings.moveSlots ≤ t.moves.holders.length) ∧
          ∀ w q off, s.record? w = some q → q.mode.isActive = true →
            (off ↔ q.OffTarget q.valveTarget s.settings.moveBand) →
            (¬ q.ActuatorHigh → off → t.Listed w) ∧
            (¬ q.ActuatorHigh → ¬ off → ¬ s.Listed w → ¬ t.Listed w) ∧
            (q.ActuatorHigh → ¬ t.Listed w ∧ (s.Listed w ∨ off →
              ∀ y, t.record? w = some y → y.moveOutcome = .blocked ∧ y.events.getLsbD 4 = true)) ∧
            (q.mode = .retiring → ¬ s.Listed w → (∃ f, q.valveFeedback = some f ∧ f ≤ s.settings.moveBand) →
              t.record? w = none)) ∧
        t.port = s.port.afterExchange (some (answerOf r .done r.tag 0)) [] none)

/-- CLEARFAULTS empties the fault record in every device state and changes nothing else: no severity, no event, no
state (R153, R192). -/
def Obligations.ClearFaultsEmptiesRecord : Prop :=
  ∀ r s, s.port.words = [] → exec (.clearFaults r) s = .next
    (State.answered { s with faults := { first := none, further := 0 } } r .done r.tag 0)

/-! ### The blend unit and the ticks -/

/-- A round end is taken by the event unit and the blend unit (R65). In RUN and SAFE the event unit adds to EVENTS of each
active well with INPUTS present and no baseline pending the input kinds whose level DETECT selects, evaluates the lines
and changes nothing else; in STANDBY it does nothing (R74, R80). The blend unit forms the blend, the field flow and the
budget state, steps the permit and sets its lines, in that order; it touches no record and no other unit but DEVICE_EVENTS
and the alert lines (R138 to R141, R144). -/
def Obligations.RoundEndFormsBlend : Prop :=
  (∀ s : State, roundEnd s = blendRoundEnd (levelDetection s) ∧
    (s.device.state = .standby → levelDetection s = s) ∧
    (s.device.state ≠ .standby → s.SlotsOrdered → s.StationsOrdered → ∀ t, t = levelDetection s →
      (∃ slots, t = { s with slots := slots, lines := t.lines } ∧ t.lines.wake = s.lines.wake ∧
        (t.lines = s.lines ∨ t.lines.alertA = t.alertAStands ∧ t.lines.alertB = t.alertBStands)) ∧
      (∀ w, s.well? w = none → t.well? w = none) ∧
      ∀ w x, s.well? w = some x → ∃ y, t.well? w = some y ∧
        y = { x with record := { x.record with events := y.record.events }, intact := y.intact } ∧
        ∀ i, y.record.events.getLsbD i = true ↔ x.record.events.getLsbD i = true ∨
          x.record.mode.isActive = true ∧ s.BaselineDue x.address x.channel = false ∧
          ∃ f p, (i, f) ∈ [(0, PerInput.button), (1, PerInput.cap), (2, PerInput.actuator), (3, PerInput.liquid)] ∧
            x.record.inputs = some p ∧
            (f p = .high ∧ x.record.detect.getLsbD (4 * i + 2) = true ∨
             f p = .low ∧ x.record.detect.getLsbD (4 * i + 3) = true))) ∧
  ∀ s t, t = blendRoundEnd s → ∀ grants holds : Prop,
    (grants ↔ s.PermitAllowed t.blend.blend (s.settings.engineCh4Floor + s.settings.permitMargin)) →
    (holds ↔ s.PermitAllowed t.blend.blend s.settings.engineCh4Floor) →
    t.blend.contributing = (s.weights.map fun p => p.1).sum ∧
    (t.blend.contributing = 0 → t.blend.blend = none) ∧
    (0 < t.blend.contributing → t.blend.blend = some
      { ch4 := (s.weights.map fun p => p.1 * p.2.ch4).sum / t.blend.contributing,
        o2 := (s.weights.map fun p => p.1 * p.2.o2).sum / t.blend.contributing,
        flow := min (t.blend.contributing / 10) 65535 }) ∧
    t.blend.fieldFlow = (s.slots.map fun p => p.2.record.flow.getD 0).sum ∧
    t.blend.budget = (if s.settings.drawBudget < t.blend.fieldFlow / 10 then .over else .under) ∧
    (s.blend.permit = .withdrawn → grants → t.blend.permit = .pending ∧ t.blend.holdTimer = some s.settings.permitHold) ∧
    (s.blend.permit = .withdrawn → ¬ grants → t.blend.permit = .withdrawn ∧ t.blend.holdTimer = s.blend.holdTimer) ∧
    (s.blend.permit = .pending → grants → t.blend.permit = .pending ∧ t.blend.holdTimer = s.blend.holdTimer) ∧
    (s.blend.permit = .pending → ¬ grants → t.blend.permit = .withdrawn ∧ t.blend.holdTimer = none) ∧
    (s.blend.permit = .granted → holds → t.blend.permit = .granted ∧ t.blend.holdTimer = s.blend.holdTimer) ∧
    (s.blend.permit = .granted → ¬ holds → t.blend.permit = .withdrawn ∧ t.blend.holdTimer = none) ∧
    (t.blend.enginePermit = true ↔ t.blend.permit = .granted) ∧
    (t.blend.flareDemand = true ↔
      t.blend.permit ≠ .granted ∨ s.settings.engineIntake < t.blend.contributing / 10) ∧
    (∀ i, t.device.events.getLsbD i = true ↔ s.device.events.getLsbD i = true ∨
      i = 3 ∧ t.blend.budget ≠ s.blend.budget ∨ i = 2 ∧ s.blend.permit = .granted ∧ ¬ holds) ∧
    (t.device.events = s.device.events ∧ t.lines = s.lines ∨
      t.lines = { s.lines with alertA := t.alertAStands, alertB := t.alertBStands }) ∧
    t = { s with blend := t.blend, lines := t.lines, device := { s.device with events := t.device.events } }

/-- A second tick counts the time base and every running timer, lowers PURGE_LEFT, and in RUN and SAFE begins the round
that the last one left to it, from the lowest address; every sixtieth raises the minute tick (R1, R52, R53, R55, R59, R96,
R114, R121, R142). That expiries act as commands of their own is the model's choice (log 1), and so are the mark of an
ended pulse (log 8) and the taking, before the tick, of a change of the device state that a block still owes: the moves end
ABANDONED, an open sample ABORTED, the permit WITHDRAWN (R156, R160, log 15). -/
def Obligations.SecondTickCountsTimers : Prop :=
  ∀ s late, ∃ t, exec (.secondTick late) s = .next t ∧
    t.time = (if s.time.second = 59 then { second := 0, minuteDue := true }
      else { s.time with second := s.time.second + 1 }) ∧
    t.device.late = late ∧ t.device.owed = Handover.none ∧ t.device.state = s.device.state ∧
    (s.device.owed = Handover.none →
      (∀ w n, s.seq.phase = .purge w n → t.seq = { s.seq with phase := .purge w (n - 1) }) ∧
      (∀ w n, s.seq.phase = .read w (.reply n) → t.seq = { s.seq with phase := .read w (.reply (n - 1)) }) ∧
      (∀ w n, s.seq.phase = .read w (.busyWait n) → t.seq = { s.seq with phase := .read w (.busyWait (n - 1)) }) ∧
      (∀ n b, s.seq.phase = .offline n b → t.seq = { s.seq with phase := .offline (n - 1) b }) ∧
      ((∀ w, s.seq.phase = .idle ∨ s.seq.phase = .select w ∨ s.seq.phase = .release w → t.seq = s.seq)) ∧
      t.moves = { s.moves with holders := s.moves.holders.map fun h => { h with timer := h.timer - 1 } } ∧
      (s.scan.round ≠ .idle ∨ s.device.state = .standby →
        t.slots = s.slots.map (fun p => (p.1, pulseSecond p.2)) ∧ t.scan = s.scan ∧
        t.device = { s.device with late := late } ∧
        t.lines = s.lines ∧ t.blend = { s.blend with holdTimer := s.blend.holdTimer.map fun n => n - 1 }) ∧
      (∀ x rest, s.scan.round = .idle → s.device.state ≠ .standby → s.scan.stations = x :: rest →
        t.slots = s.slots.map (fun p => (p.1, pulseSecond p.2)) ∧ t.scan.stations = s.scan.stations ∧
        t.scan.round = .running (some x.address) ∧
        (∃ sent, t.scan.inFlight = some { address := x.address, sent := sent }) ∧ (s.StationsLegal → t.TurnOf x) ∧
        t.device = { s.device with late := late } ∧ t.lines = s.lines ∧
        t.blend = { s.blend with holdTimer := s.blend.holdTimer.map fun n => n - 1 })) ∧
    (s.device.owed.moves = true → t.inLists = [] ∧
      ∀ w q, s.Listed w → t.record? w = some q →
        q.moveState = .none ∧ q.moveOutcome = .abandoned ∧ q.events.getLsbD 4 = true) ∧
    (s.device.owed.sequencer = true → s.seq.phase.isOpen = true → ∀ w, s.seq.phase.current? = some w →
      t.seq = { s.seq with phase := .release w } ∧
      ∀ q, t.record? w = some q → q.sampleOutcome = .aborted ∧ q.events.getLsbD 7 = true) ∧
    (s.device.owed.blend = true → s.device.state ≠ .run → t.blend.permit = .withdrawn ∧ t.blend.enginePermit = false ∧
      t.blend.flareDemand = true) ∧
    (s.device.owed.scan = true → s.scan.round = .idle → ∀ x rest, s.scan.stations = x :: rest →
      t.scan.round = .running (some x.address)) ∧
    (∀ v r, s.record? v = some r → t.HoldsUpToMarks v { r with purgeLeft := r.purgeLeft - 1 }) ∧
    t.index = s.index ∧ t.settings = s.settings ∧ t.faults = s.faults ∧ t.port = s.port ∧ t.pending = s.pending

/-- A raised minute tick, taken, ages every present SAMPLE_AGE, adds a minute's flow to every draw, and begins a round
in STANDBY when none is in progress; SURVEY_DUE is the survey's, which runs in RUN and SAFE over the sampled wells
only. With no minute tick raised there is no such event, which is the model's choice (log 1) (R1, R53, R89, R90,
R146). -/
def Obligations.MinuteTickAgesAndDraws : Prop :=
  ∀ s, (s.time.minuteDue = false → exec .minuteTick s = .next s) ∧
    (s.time.minuteDue = true → s.SlotsOrdered → ∃ t, exec .minuteTick s = .next t ∧
      t.time = { s.time with minuteDue := false } ∧
      (∀ v r, s.record? v = some r → ∃ due, t.HoldsUpToMarks v { r with
          sampleAge := r.sampleAge.map fun a => min (a + 1) 65535,
          totalDraw := match r.flow with
            | none => r.totalDraw
            | some f => r.totalDraw + BitVec.ofNat 32 ((r.drawRemainder + f) / 600),
          drawRemainder := match r.flow with
            | none => r.drawRemainder
            | some f => (r.drawRemainder + f) % 600,
          surveyDue := due } ∧
        (due = r.surveyDue ∨ due + 1 = r.surveyDue) ∧
        (s.device.state = .standby ∨ r.options.getLsbD 2 = true ∨
          ¬ (r.mode = .auto ∨ r.mode = .manual ∨ r.mode = .suspect) → due = r.surveyDue)) ∧
      (s.device.state = .standby → t.seq = s.seq) ∧
      (∀ x rest, s.device.state = .standby → s.scan.round = .idle → s.scan.stations = x :: rest →
        t.scan.round = .running (some x.address)) ∧
      (s.device.state ≠ .standby → t.scan = s.scan ∧ t.blend = s.blend ∧ t.device = s.device) ∧
      t.index = s.index ∧ t.settings = s.settings ∧ t.moves = s.moves ∧ t.faults = s.faults ∧ t.port = s.port ∧
      t.pending = s.pending)

/-- While no head can be taken, the survey appends the due wells in slot order as ROUTINE entries until the queue holds
16, and lowers the SURVEY_DUE of each other well it covers by 1 (R89). That a found well is covered from the acceptance on,
not from its first POLL, is the model's reading (log 33). -/
def Obligations.SurveyQueuesDueWells : Prop :=
  ∀ s, s.time.minuteDue = true → s.SlotsOrdered → s.device.state ≠ .standby →
    (s.seq.phase ≠ .idle ∨ s.device.state ≠ .run ∨ s.device.suction = .low) →
    (∀ e ∈ s.seq.queue, ∀ r, s.record? e.well = some r → r.queued ≠ .no) →
    ∀ covered : WellRecord → Prop, (∀ r, covered r ↔
      (r.mode = .auto ∨ r.mode = .manual ∨ r.mode = .suspect) ∧ r.options.getLsbD 2 = false ∧ r.queued = .no) →
    ∀ due : List Well, due = s.slots.filterMap (fun p =>
      if (p.2.record.mode = .auto ∨ p.2.record.mode = .manual ∨ p.2.record.mode = .suspect) ∧
          p.2.record.options.getLsbD 2 = false ∧ p.2.record.queued = .no ∧ p.2.record.surveyDue = 0
      then some { tag := p.2.tag, slot := p.1 } else none) →
    ∃ t, exec .minuteTick s = .next t ∧
      t.seq = { s.seq with queue := s.seq.queue ++
        (due.take (16 - s.seq.queue.length)).map fun w => { well := w, cls := .routine } } ∧
      (∀ w ∈ due.take (16 - s.seq.queue.length), ∃ q, t.record? w = some q ∧ q.queued = .routine ∧ q.surveyDue = 0) ∧
      (∀ v r, s.record? v = some r → v ∉ due.take (16 - s.seq.queue.length) → ∃ q, t.record? v = some q ∧
        q.queued = r.queued ∧ (covered r → q.surveyDue = r.surveyDue - 1) ∧ (¬ covered r → q.surveyDue = r.surveyDue))

/-! ### Timers -/

/-- The purge timer and the BUSY wait send MEASURE with a new number and start the analyser timer; the probe timer
sends a new probe and starts again; the end of a purge pulse, PURGE_LEFT being 0 already, leaves every record and takes
back only the model's own mark (log 8). A timer that is not running or has not run out has no such event, which is the
model's choice (log 1) (R96, R97, R101, R103, R121). -/
def Obligations.TimersActWhenDue : Prop :=
  ∀ s : State,
    (∀ w, s.seq.phase = .purge w 0 → exec .purgeTimerExpiry s = .next { s with seq := { s.seq with
      phase := .read w (.reply s.settings.analyserTimeout), number := s.seq.number + 1 } }) ∧
    ((∀ w, s.seq.phase ≠ .purge w 0) → exec .purgeTimerExpiry s = .next s) ∧
    (∀ w, s.seq.phase = .read w (.busyWait 0) → exec .busyWaitExpiry s = .next { s with seq := { s.seq with
      phase := .read w (.reply s.settings.analyserTimeout), number := s.seq.number + 1 } }) ∧
    ((∀ w, s.seq.phase ≠ .read w (.busyWait 0)) → exec .busyWaitExpiry s = .next s) ∧
    (∀ b, s.seq.phase = .offline 0 b → exec .probeTimerExpiry s = .next { s with seq := { s.seq with
      phase := .offline 60 true, number := s.seq.number + 1 } }) ∧
    ((∀ b, s.seq.phase ≠ .offline 0 b) → exec .probeTimerExpiry s = .next s) ∧
    ((∀ w, s.seq.phase ≠ .read w (.reply 0)) → exec .analyserTimerExpiry s = .next s) ∧
    (∀ w x, s.SlotsOrdered → s.index.Pairwise (fun p q => p.1 < q.1) → (w.tag, w.slot) ∈ s.index →
      s.well? w = some x → exec (.purgePulseEnd w.tag) s = .next (s.withSlot w { x with purgeEndDue := false })) ∧
    ∀ tag, (∀ p ∈ s.index, p.1 ≠ tag) → exec (.purgePulseEnd tag) s = .next s

/-- When a holder's move timer runs out its move ends TIMEOUT with a MOVE event, MOVE_TIMEOUT is reported with the
feedback or 65535, and the grant test follows in RUN. A timer that runs on has no such event (log 1) (R113, R117). -/
def Obligations.MoveTimerEndsTimeout : Prop :=
  ∀ s tag,
    ((∀ h ∈ s.moves.holders, h.well.tag = tag → h.timer ≠ 0) → exec (.moveTimerExpiry tag) s = .next s) ∧
    ∀ w r, { well := w, timer := 0 } ∈ s.moves.holders → w.tag = tag →
      (∀ h ∈ s.moves.holders, h.well.tag = tag → h = { well := w, timer := 0 }) → s.record? w = some r →
      ∃ t, exec (.moveTimerExpiry tag) s = .next t ∧ t.HoldsUpToMarks w r ∧
        (∀ q, t.record? w = some q →
          q.moveState = .none ∧ q.moveOutcome = .timeout ∧ q.events.getLsbD 4 = true) ∧
        t.moves.holds w = false ∧ t.moves.waits w = false ∧
        t.faults = s.faultsAfter .moveTimeout tag (match r.valveFeedback with
          | none => 65535
          | some f => BitVec.ofNat 16 f) ∧
        t.device.state = s.stateAfter .moveTimeout ∧
        (s.settings.severity.moveTimeout ≠ .fatal →
          t.moves.holders.map (fun h => h.well) ++ t.moves.waiting =
            (s.moves.holders.map (fun h => h.well) ++ s.moves.waiting).filter (fun v => !(v == w)) ∧
          (s.device.state = .run → t.moves.waiting = [] ∨ s.settings.moveSlots ≤ t.moves.holders.length) ∧
          t.seq = s.seq ∧ t.scan = s.scan ∧ t.blend = s.blend) ∧
        s.OthersUpToMarks t w ∧ s.SameBase t

/-! ### The analyser link -/

/-- A failed read, by the analyser timer (TIMEOUT), by a FAULT reply or by implausible values (FAULT), ends the sample in
RELEASE: the outcome with its SAMPLE event, SURVEY_DUE at SURVEY_INTERVAL, the failure count with the failing sample,
and ANALYSER_FAIL reported with the outcome (R87, R98, R100). -/
def Obligations.FailedReadsCount : Prop :=
  ∀ s w r number ch4 co2 o2 c o code, s.record? w = some r →
    (c = .analyserTimerExpiry ∧ s.seq.phase = .read w (.reply 0) ∧ o = .timeout ∧ code = 2 ∨
     c = .analyserFaultReply number ∧ s.AwaitsReply w number ∧ o = .fault ∧ code = 3 ∨
     c = .values number ch4 co2 o2 ∧ s.AwaitsReply w number ∧ ¬ PlausibleValues ch4 co2 o2 ∧ o = .fault ∧ code = 3) →
    ∃ t, exec c s = .next t ∧
      t.seq = { s.seq with
        phase := .release w,
        failures := some {
          count := min ((match s.seq.failures with | none => 0 | some f => f.count) + 1) 3,
          tag := w.tag, outcome := o } } ∧
      (∃ q, t.record? w = some q ∧ q.events.getLsbD 7 = true ∧
        q = { r with sampleOutcome := if code = (2 : Half) then .timeout else .fault, surveyDue := r.surveyInterval,
                     events := q.events, moveState := q.moveState, moveOutcome := q.moveOutcome }) ∧
      t.faults = s.faultsAfter .analyserFail w.tag code ∧ t.device.state = s.stateAfter .analyserFail ∧
      (s.settings.severity.analyserFail ≠ .fatal → t.moves = s.moves ∧ t.scan = s.scan ∧ t.blend = s.blend) ∧
      s.OthersUpToMarks t w ∧ s.SameBase t

/-- A plausible VALUES reply in READ ends the sample OK in RELEASE: the record is written with a SAMPLE event, and an
OXYGEN event over the ceiling, and the failure count is 0. A sample that is neither hot nor under adjustment, or is a
MANUAL well's, moves nothing more; outside STANDBY the state is then exactly this (R98, R99, R126, R128). -/
def Obligations.OkValuesWriteSample : Prop :=
  ∀ s w x number ch4 co2 o2, s.SlotsOrdered → s.well? w = some x → s.AwaitsReply w number →
    PlausibleValues ch4 co2 o2 →
    (x.record.mode = .auto ∨ x.record.mode = .manual ∨ x.record.mode = .suspect) →
    (∃ t, exec (.values number ch4 co2 o2) s = .next t ∧ t.seq.phase = .release w ∧ t.seq.failures = none ∧
      (∃ q, t.record? w = some q ∧
        q.sample = some { ch4 := ch4.toNat, co2 := co2.toNat, o2 := o2.toNat } ∧ q.sampleAge = some 0 ∧
        q.sampleOutcome = .ok ∧ q.events.getLsbD 7 = true ∧
        (x.record.o2Ceiling < o2.toNat → q.events.getLsbD 6 = true)) ∧
      s.OthersUpToMarks t w ∧ s.SameBase t) ∧
    (s.device.state ≠ .standby → ¬ x.record.Hot o2 → ¬ s.Adjusts x.record ∨ x.record.mode = .manual →
      exec (.values number ch4 co2 o2) s = .next (State.alertsTaken
        { s.withSlot w { x with
            record := { x.record.withSample ch4 co2 o2 s.settings.suspectInterval with
              events := if x.record.o2Ceiling < o2.toNat then x.record.events ||| 0xC0
                        else x.record.events ||| 0x80 },
            intact := true } with
          seq := { s.seq with phase := .release w, failures := none } }))

/-- Tuning of an AUTO well under adjustment: over the ceiling the first two excursions lower the target by 2 × STEP and
the third takes the well into SUSPECT with OXYGEN_SUSPECT reported; otherwise EXCURSIONS is 0, lean gas lowers the
target by STEP, and room to open raises it; every target is within the limits (R37, R129 to R132). A target that takes
another value is taken by the move scheduler (R110, R111, R113, R116, R132; for a holder log 31). -/
def Obligations.TuningAdjustsAutoWells : Prop :=
  ∀ s w r number ch4 co2 o2 lim, s.RecordsLegal → s.record? w = some r → s.AwaitsReply w number →
    PlausibleValues ch4 co2 o2 → r.mode = .auto → s.Adjusts r → ¬ r.Hot o2 → lim = s.settings.suspectInterval →
    ∃ t, exec (.values number ch4 co2 o2) s = .next t ∧ s.OthersUpToMarks t w ∧
      (r.o2Ceiling < o2.toNat → r.excursions < 2 →
        t.HoldsUpToMarks w { r.withSample ch4 co2 o2 lim with
          valveTarget := r.within (r.valveTarget - 2 * r.step), excursions := r.excursions + 1, clean := 0 } ∧
        (∀ target, target = r.within (r.valveTarget - 2 * r.step) →
          s.TargetTaken t w (target ≠ r.valveTarget) { r with valveTarget := target }) ∧
        t.faults = s.faults ∧ t.device.state = .run) ∧
      (r.o2Ceiling < o2.toNat → 2 ≤ r.excursions →
        t.HoldsUpToMarks w { r.withSample ch4 co2 o2 lim with
          mode := .suspect, valveTarget := r.valveMin, excursions := 3, clean := 0,
          surveyDue := min r.surveyInterval lim } ∧
        (s.settings.severity.oxygenSuspect ≠ .fatal →
          s.TargetTaken t w (r.valveMin ≠ r.valveTarget) { r with mode := .suspect, valveTarget := r.valveMin }) ∧
        t.faults = s.faultsAfter .oxygenSuspect w.tag 0 ∧ t.device.state = s.stateAfter .oxygenSuspect) ∧
      (o2.toNat ≤ r.o2Ceiling → t.faults = s.faults ∧ t.device.state = .run ∧
        ∀ target, target = (if ch4.toNat < r.ch4Floor then r.within (r.valveTarget - r.step)
            else if r.ch4Floor + 500 ≤ ch4.toNat ∧ o2.toNat ≤ r.o2Ceiling / 2 ∧
              (∃ v, r.vacuum = some v ∧ v < r.vacLimit) ∧ s.blend.budget = .under
            then r.within (r.valveTarget + r.step)
            else r.valveTarget) →
          t.HoldsUpToMarks w { r.withSample ch4 co2 o2 lim with excursions := 0, valveTarget := target } ∧
          s.TargetTaken t w (target ≠ r.valveTarget) { r with valveTarget := target })

/-- A SUSPECT well under adjustment counts clean samples and returns to AUTO at the third; any other sample clears the
count; its target stays at VALVE_MIN, so nothing is handed to the move scheduler (R37, R133). A hot-well sample takes a
well of any sampled mode, in any device state, into ISOLATED with target 0, which the move scheduler takes as a change
unless the target was 0, and reports HOT_WELL with the temperature (R38, R110, R111, R113, R116, R126, R127; for a holder
log 31). -/
def Obligations.TuningSuspectAndHotWells : Prop :=
  ∀ s w r number ch4 co2 o2 lim, s.RecordsLegal → s.record? w = some r → s.AwaitsReply w number →
    PlausibleValues ch4 co2 o2 → lim = s.settings.suspectInterval →
    ∃ t, exec (.values number ch4 co2 o2) s = .next t ∧ s.OthersUpToMarks t w ∧
      (r.mode = .suspect → s.Adjusts r → ¬ r.Hot o2 → t.faults = s.faults ∧ s.TargetTaken t w False r ∧
        (o2.toNat ≤ r.o2Ceiling / 2 → 2 ≤ r.clean → t.HoldsUpToMarks w { r.withSample ch4 co2 o2 lim with
          mode := .auto, valveTarget := r.valveMin, excursions := 0, clean := 0 }) ∧
        (o2.toNat ≤ r.o2Ceiling / 2 → r.clean < 2 → t.HoldsUpToMarks w { r.withSample ch4 co2 o2 lim with
          clean := r.clean + 1 }) ∧
        (r.o2Ceiling / 2 < o2.toNat → t.HoldsUpToMarks w { r.withSample ch4 co2 o2 lim with clean := 0 })) ∧
      (∀ temp, (r.mode = .auto ∨ r.mode = .manual ∨ r.mode = .suspect) → r.temp = some temp → r.Hot o2 →
        t.HoldsUpToMarks w { r.withSample ch4 co2 o2 lim with
          mode := .isolated, valveTarget := 0,
          excursions := if r.mode = .suspect then 0 else r.excursions,
          clean := if r.mode = .suspect then 0 else r.clean } ∧
        (s.settings.severity.hotWell ≠ .fatal →
          s.TargetTaken t w (r.valveTarget ≠ 0) { r with mode := .isolated, valveTarget := 0 }) ∧
        t.faults = s.faultsAfter .hotWell w.tag (BitVec.ofInt 16 temp) ∧ t.device.state = s.stateAfter .hotWell)

/-- A BUSY reply in READ starts the wait of 10 seconds, and the third ends the sample NOT_READY with no fault and the
failure count kept. In OFFLINE a probe answered VALUES or BUSY returns the sequencer to IDLE with the ANALYSER event and
failure count 0, where a head may be taken at once; one answered FAULT keeps OFFLINE (R98, R101, R103). -/
def Obligations.BusyAndProbeReplies : Prop :=
  (∀ s w x number, s.SlotsOrdered → s.well? w = some x → s.AwaitsReply w number →
    (s.seq.busyCount < 2 → exec (.busy number) s = .next { s with seq := { s.seq with
      phase := .read w (.busyWait 10), busyCount := s.seq.busyCount + 1 } }) ∧
    (2 ≤ s.seq.busyCount → s.device.state ≠ .standby → exec (.busy number) s = .next (State.alertsTaken
      { s.withSlot w { x with
          record := { x.record with
            sampleOutcome := .notReady, surveyDue := x.record.surveyInterval,
            events := x.record.events ||| 0x80 },
          intact := true } with
        seq := { s.seq with phase := .release w, busyCount := s.seq.busyCount + 1 } }))) ∧
  ∀ s number n reply, s.seq.phase = .offline n true → number = s.seq.number →
    exec (.probeFaultReply number) s = .next { s with seq := { s.seq with phase := .offline n false } } ∧
    (s.device.state ≠ .run ∨ s.device.suction = .low ∨ s.seq.queue = [] →
      exec (.probeReply number reply) s = .next (State.alertsTaken { s with
        device := { s.device with events := s.device.events ||| 0x01 },
        seq := { s.seq with phase := .idle, failures := none } })) ∧
    ∃ t, exec (.probeReply number reply) s = .next t ∧ t.seq.failures = none ∧
      (t.seq.phase = .idle ∨ ∃ e ∈ s.seq.queue, t.seq.phase = .select e.well) ∧
      t.device = { s.device with events := s.device.events ||| 0x01 } ∧ t.faults = s.faults ∧ t.scan = s.scan ∧
      t.moves = s.moves ∧ t.blend = s.blend ∧ s.SameBase t

/-! ### The permit and the SUCTION line -/

/-- The hold timer's expiry grants a PENDING permit in RUN, with the PERMIT event and the lines, and withdraws one in
another state; a timer that is stopped or runs on has no such event (log 1). A change of SUCTION sets the SUCTION event;
a fall withdraws the permit and, in RUN, reports SUCTION_LOST. That the level already held is no change is the model's
choice (log 19) (R142 to R145). -/
def Obligations.PermitAndSuctionEvents : Prop :=
  ∀ s : State,
    (s.blend.holdTimer = some 0 → s.blend.permit = .pending →
      (s.device.state = .run → exec .holdTimerExpiry s = .next (State.alertsTaken { s with
        device := { s.device with events := s.device.events ||| 0x04 },
        blend := { s.blend with permit := .granted, holdTimer := none, enginePermit := true,
                                flareDemand := decide (s.settings.engineIntake < s.blend.contributing / 10) } })) ∧
      (s.device.state ≠ .run → exec .holdTimerExpiry s = .next { s with
        blend := { s.blend with permit := .withdrawn, holdTimer := none, enginePermit := false,
                                flareDemand := true } })) ∧
    (s.blend.holdTimer ≠ some 0 → exec .holdTimerExpiry s = .next s) ∧
    exec (.suctionChange s.device.suction) s = .next s ∧
    (s.device.suction = .low → s.seq.phase ≠ .idle ∨ s.device.state ≠ .run ∨ s.seq.queue = [] →
      exec (.suctionChange .high) s = .next (State.alertsTaken { s with
        device := { s.device with suction := .high, events := s.device.events ||| 0x10 } })) ∧
    (s.device.suction = .high → s.PermitSafe → ∃ t, exec (.suctionChange .low) s = .next t ∧
      t.device.suction = .low ∧ t.device.events.getLsbD 4 = true ∧
      t.blend = { s.blend with permit := .withdrawn, holdTimer := none, enginePermit := false, flareDemand := true } ∧
      (s.blend.permit = .granted → t.device.events.getLsbD 2 = true) ∧
      (s.device.state = .run → t.faults = s.faultsAfter .suctionLost 65535 0 ∧
        t.device.state = s.stateAfter .suctionLost) ∧
      (s.device.state ≠ .run → t.faults = s.faults ∧ t.device.state = s.device.state ∧ t.moves = s.moves ∧
        t.seq = s.seq ∧ t.slots = s.slots) ∧
      (∀ v r, s.record? v = some r → t.HoldsUpToMarks v r) ∧ t.index = s.index ∧ t.scan = s.scan ∧ s.SameBase t)

/-! ### The field scan link -/

/-- A frame or an expiry that meets nothing it could act on is no event: the scan engine's discards, a reply with no
transaction in flight, a reply of the analyser under another number or outside READ and OFFLINE (R49, R98). That the end
of a reply window with no transaction in flight is no event is the model's reading (log 20). -/
def Obligations.DiscardsChangeNothing : Prop :=
  ∀ s number ch4 co2 o2 reply,
    exec .scanFrameDiscard s = .next s ∧ exec .analyserFrameDiscard s = .next s ∧
    (s.scan.inFlight = none → ∀ a channels frame orders, ∀ c ∈ [Instr.accept ⟨a, frame⟩,
      .readings ⟨a, frame⟩ channels orders, .refused ⟨a, frame⟩, .transactionFailure], exec c s = .next s) ∧
    (number ≠ s.seq.number ∨ (∀ w n, s.seq.phase ≠ .read w (.reply n)) ∧ (∀ n, s.seq.phase ≠ .offline n true) →
      ∀ c ∈ [Instr.values number ch4 co2 o2, .analyserFaultReply number, .busy number, .probeReply number reply,
        .probeFaultReply number], exec c s = .next s)

/-- An ACCEPT with a good check from the station of a SETUP in flight returns its failure count to 0, marks the baselines
of the channels as sent, and makes it ACTIVE when no channel has joined since; its parked wells on those channels take up
RETURN_MODE with the entry effects and a STATION event, and the round goes on (R25, R28, R30, R52, R55). Any other ACCEPT
fails the transaction (R51). That the well taken up is the one that stands at the channel now, whatever well stood there
at sending, is the model's reading (log 29). -/
def Obligations.AcceptTakesUpModes : Prop :=
  ∀ s a frame tr, s.scan.inFlight = some tr →
    (frame.passes = false ∨ tr.address ≠ a ∨ (∀ l, tr.sent ≠ .setup l) →
      exec (.accept ⟨a, frame⟩) s = exec .transactionFailure s) ∧
    ∀ l sent st, frame.passes = true → tr = { address := a, sent := .setup l } → sent = l.map (fun c => c.channel) →
      s.RecordsLegal → s.StationsLegal → st ∈ s.scan.stations → st.address = a →
      ∃ t, exec (.accept ⟨a, frame⟩) s = .next t ∧
        t.scan.stations = s.stationsWith a (fun x => { x with
          failures := 0,
          channels := x.channels.map fun c => if c.channel ∈ sent then { c with baselinePending := true } else c,
          state := if ∀ c ∈ x.channels, c.channel ∈ sent then .active else .setupDue }) ∧
        (∀ v x m, s.well? v = some x → x.record.returnMode = some m → x.address = a → x.channel ∈ sent →
          t.HoldsUpToMarks v { x.record with
            mode := m.toMode, returnMode := none,
            valveTarget := match m with
              | .auto => x.record.within x.record.valveTarget
              | .manual => x.record.within x.record.valveTarget
              | .suspect => x.record.valveMin
              | .isolated => 0
              | .retiring => 0,
            clean := if m = .suspect then 0 else x.record.clean,
            surveyDue := if m = .suspect then min x.record.surveyDue s.settings.suspectInterval
              else x.record.surveyDue } ∧
          ∀ q, t.record? v = some q → q.events.getLsbD 5 = true) ∧
        (∀ v x, s.well? v = some x → x.record.returnMode = none ∨ x.address ≠ a ∨ x.channel ∉ sent →
          t.HoldsUpToMarks v x.record) ∧
        (s.TransactionLegal → t.SendsNext a) ∧
        t.seq = s.seq ∧ t.moves = s.moves ∧ t.faults = s.faults ∧ t.index = s.index ∧
        t.device.state = s.device.state ∧ s.SameBase t

/-- READINGS with a good check that fit the POLL in flight complete: the failure count returns to 0, and each channel as
sent whose record still stands intact takes the readings carried and the levels debounced or taken as a baseline, keeps
every field that nothing names, the debounce runs of R70 and no baseline pending, raises the input events its changes select, and hands them on: button
isolation, automatic purge, ACTUATOR fault, moves and samples, in whatever order the blocks take them. A damaged record is
freed with RECORD_CHECK, unless an earlier channel's events have written it and so re-formed its check; a RETIRING one seen
closed is freed, every other one stands, and the round goes on (R19, R28, R36, R40, R52, R60 to R62, R69 to R73, R85, R95, R102,
R104, R111, R115, R118, R121). READINGS that do not fit, or whose check is bad, fail the transaction (R51). That the
confirmation is handed over channel by channel, and that the event unit takes its part of an arrival first, so that its
events and the report of ACTUATOR_FAULT come also from a record the same arrival frees, are the model's choices (log 30,
log 32). That a baseline's need evaluation comes before the completion check, so that a listed well in band with ACTUATOR
high ends BLOCKED, that an arrival with INPUTS absent is a baseline for the move scheduler too, and that no head is taken
at a CAP fall whose well an isolation of the same arrival then takes out of the queue, are its readings (log 12, log 34). -/
def Obligations.ReadingsAreTaken : Prop :=
  ∀ s a channels frame orders tr, s.scan.inFlight = some tr →
    (frame.passes = false ∨ (∀ l, tr.sent ≠ .poll l) ∨ tr.address ≠ a ∨
      (∀ l, tr.sent = .poll l → channels.map (fun c => c.channel) ≠ l.map fun p => p.channel) ∨
      (∃ c ∈ channels, 1000 < c.feedback ∨ ∃ t, c.temp = some t ∧ (t < -400 ∨ 1200 < t)) →
      exec (.readings ⟨a, frame⟩ channels orders) s = exec .transactionFailure s) ∧
    ∀ l, frame.passes = true → tr = { address := a, sent := .poll l } →
      channels.map (fun c => c.channel) = l.map (fun p => p.channel) →
      (∀ c ∈ channels, c.feedback ≤ 1000 ∧ ∀ t, c.temp = some t → -400 ≤ t ∧ t ≤ 1200) → s.Sound →
      ∃ t, exec (.readings ⟨a, frame⟩ channels orders) s = .next t ∧
        (∀ v, s.Arrives a l channels v →
          (t.record? v.well = none → v.ShowsClosed s.settings.moveBand) ∧
          (∀ q, t.record? v.well = some q → v.Written s.settings.purgePulse q ∧
            v.Raises (∀ x ∈ t.scan.stations, x.address ≤ a) q) ∧
          (v.Rose PerInput.actuator → s.settings.severity.actuatorFault ≠ .ignored →
            t.Reported .actuatorFault v.well.tag 0) ∧
          (∀ y, t.well? v.well = some y →
            y.runs = arrivedRuns (s.BaselineDue a v.reading.channel) v.slot v.reading.raw) ∧
          (t.device.state = s.device.state → s.MovesAfter t v) ∧ s.SamplesAfter t v) ∧
        (∀ p ∈ l, ∀ x, s.well? p.well = some x → x.intact = false →
          (l.head? = some p ∨ x.record.queued = .no ∧ x.record.moveState = .none) →
          t.well? p.well = none ∧ (∀ e ∈ t.index, e ≠ (p.well.tag, p.well.slot)) ∧
          (s.settings.severity.recordCheck ≠ .ignored →
            t.Reported .recordCheck p.well.tag (BitVec.ofNat 16 p.well.slot))) ∧
        (∀ v r, s.record? v = some r → (∀ p ∈ l, p.well ≠ v) →
          ∃ due, (due = r.surveyDue ∨ due = 0) ∧ t.HoldsUpToMarks v { r with surveyDue := due }) ∧
        (∀ e ∈ t.index, e ∈ s.index) ∧
        (t.device.state = s.device.state ∨ t.device.state = .safe ∧ ∃ k, severityOf s.settings.severity k = .fatal) ∧
        (∀ st ∈ t.scan.stations, st.address = a → st.failures = 0 ∧ ∀ c ∈ st.channels,
          ((∃ v, s.Arrives a l channels v ∧ v.reading.channel = c.channel) → c.baselinePending = false) ∧
          ((∀ p ∈ l, p.channel ≠ c.channel) → c.baselinePending = s.BaselineDue a c.channel)) ∧
        t.SendsNext a ∧ s.SameBase t

/-- A REFUSED with a good check from the station of a POLL in flight makes it SETUP_DUE with failure count 0, reports
STATION_REFUSED, and aborts a sample in hand at the station; any other REFUSED fails the transaction (R51, R63). A failed
transaction raises the count to at most 8 and reports STATION_NO_REPLY; at LOSS_THRESHOLD a station that is not LOST
becomes LOST with STATION_LOST reported, and its wells lose their readings and debounce runs and take a STATION event, the
active ones becoming UNREACHABLE, their moves ABANDONED, and a sample in hand LOST (R31, R56, R57, R85, R105, R119); that an
ANALYSER_OFFLINE of the loss is reported after STATION_LOST is the model's choice (log 35). READINGS with a good check that
fit the POLL return the count to 0 (R60); what they write is in `ReadingsAreTaken`. After each reply and each failure the
round goes on with the next station (R52). -/
def Obligations.RefusalsAndFailures : Prop :=
  ∀ s frame tr st, s.scan.inFlight = some tr → s.StationsOrdered → st ∈ s.scan.stations → st.address = tr.address →
    (∀ a, frame.passes = false ∨ tr.address ≠ a ∨ (∀ l, tr.sent ≠ .poll l) →
      exec (.refused ⟨a, frame⟩) s = exec .transactionFailure s) ∧
    (∀ l, frame.passes = true → tr.sent = .poll l → ∃ t, exec (.refused ⟨tr.address, frame⟩) s = .next t ∧
      t.scan.stations = s.stationsWith tr.address (fun x => { x with failures := 0, state := .setupDue }) ∧
      t.faults = s.faultsAfter .stationRefused 65535 (BitVec.ofNat 16 tr.address) ∧
      t.device.state = s.stateAfter .stationRefused ∧
      (∀ w x, s.seq.phase.current? = some w → s.well? w = some x → x.address = tr.address →
        t.seq = { s.seq with phase := .release w } ∧
        (s.seq.phase ≠ .release w → ∃ q, t.record? w = some q ∧ q.sampleOutcome = .aborted ∧
          q.events.getLsbD 7 = true)) ∧
      (∀ v r, s.record? v = some r → t.HoldsUpToMarks v r) ∧ (s.Sound → t.SendsNext tr.address) ∧
      t.index = s.index ∧ s.SameBase t) ∧
    (∀ l channels orders, frame.passes = true → tr.sent = .poll l →
      channels.map (fun c => c.channel) = l.map (fun p => p.channel) →
      (∀ c ∈ channels, c.feedback ≤ 1000 ∧ ∀ x, c.temp = some x → -400 ≤ x ∧ x ≤ 1200) →
      ∃ t, exec (.readings ⟨tr.address, frame⟩ channels orders) s = .next t ∧
        (∀ x ∈ t.scan.stations, x.address = tr.address → x.failures = 0) ∧
        (s.Sound → t.SendsNext tr.address) ∧ s.SameBase t) ∧
    (∀ n, n = min (st.failures + 1) 8 → st.state = .lost ∨ n < s.settings.lossThreshold →
      ∃ t, exec .transactionFailure s = .next t ∧
        t.scan.stations = s.stationsWith tr.address (fun x => { x with failures := n }) ∧
        t.faults = s.faultsAfter .stationNoReply 65535 (BitVec.ofNat 16 tr.address) ∧
        t.device.state = s.stateAfter .stationNoReply ∧
        (∀ v r, s.record? v = some r → t.HoldsUpToMarks v r) ∧ (s.Sound → t.SendsNext tr.address) ∧
        t.index = s.index ∧ s.SameBase t) ∧
    (∀ n, n = min (st.failures + 1) 8 → st.state ≠ .lost → s.settings.lossThreshold ≤ n →
      ∃ t, exec .transactionFailure s = .next t ∧
        t.scan.stations = s.stationsWith tr.address (fun x => { x with failures := n, state := .lost }) ∧
        (s.SlotsOrdered → ∀ v x, s.well? v = some x → x.address = tr.address →
          t.HoldsUpToMarks v { x.record with
            vacuum := none, flow := none, temp := none, valveFeedback := none,
            mode := if x.record.mode = .staging then .staging else .unreachable,
            returnMode := match x.record.mode with
              | .staging => x.record.returnMode
              | .unreachable => x.record.returnMode
              | .auto => some .auto
              | .manual => some .manual
              | .isolated => some .isolated
              | .suspect => some .suspect
              | .retiring => some .retiring,
            excursions := if x.record.mode = .suspect then 0 else x.record.excursions,
            clean := if x.record.mode = .suspect then 0 else x.record.clean } ∧
          t.moves.holds v = false ∧ t.moves.waits v = false ∧ (∀ e ∈ t.seq.queue, e.well ≠ v) ∧
          t.seq.phase.current? ≠ some v ∧
          ∀ y, t.well? v = some y → y.record.events.getLsbD 5 = true ∧
            y.runs = { button := ⟨none, 0⟩, cap := ⟨none, 0⟩, actuator := ⟨none, 0⟩, liquid := ⟨none, 0⟩ } ∧
            (s.Listed v → y.record.moveOutcome = .abandoned ∧ y.record.events.getLsbD 4 = true) ∧
            (s.seq.phase.current? = some v → y.record.sampleOutcome = .lost ∧ y.record.queued = .no ∧
              y.record.events.getLsbD 7 = true)) ∧
        (s.SlotsOrdered → ∀ v x, s.well? v = some x → x.address ≠ tr.address → t.HoldsUpToMarks v x.record) ∧
        (∀ u offline, u = { s with faults := s.faultsAfter .stationNoReply 65535 (BitVec.ofNat 16 tr.address) } →
          (offline ↔ (∃ w x, s.seq.phase.current? = some w ∧ s.well? w = some x ∧ x.address = tr.address) ∧
            ∃ f, s.seq.failures = some f ∧ f.count = 3) → s.SlotsOrdered →
          (¬ offline → t.faults = u.faultsAfter .stationLost 65535 (BitVec.ofNat 16 tr.address) ∧
            (s.stateAfter .stationNoReply = s.device.state → t.device.state = s.stateAfter .stationLost) ∧
            ((∀ k m, s.seq.phase ≠ .offline k m) → ∀ k m, t.seq.phase ≠ .offline k m)) ∧
          (offline → t.seq.phase = .offline 60 false ∧ t.device.events.getLsbD 0 = true ∧
            ∀ f, s.seq.failures = some f → t.faults = State.faultsAfter
              { u with faults := u.faultsAfter .stationLost 65535 (BitVec.ofNat 16 tr.address) } .analyserOffline f.tag
              (match f.outcome with | .timeout => 2 | .fault => 3))) ∧
        (s.Sound → t.SendsNext tr.address) ∧ t.index = s.index ∧ s.SameBase t)

end
end

