-- ==== Sys2Proof/Laws/State.lean ====
section
/-! SUPPORT. One lemma for each field and each update: what an update writes, and that it keeps every other field. A proof
reads a field through an update with `simp` and unfolds no record update. -/

namespace Sys2Proof.Machine

variable (s : State)

@[simp] theorem changeSlot_slots (f : Slot → Slot) (w : Well) : (changeSlot f w s).slots =
    s.slots.map fun p => if isWell w p then (p.1, f p.2) else p := rfl
@[simp] theorem changeSlot_index (f : Slot → Slot) (w : Well) : (changeSlot f w s).index = s.index := rfl
@[simp] theorem changeSlot_settings (f : Slot → Slot) (w : Well) : (changeSlot f w s).settings = s.settings := rfl
@[simp] theorem changeSlot_device (f : Slot → Slot) (w : Well) : (changeSlot f w s).device = s.device := rfl
@[simp] theorem changeSlot_lines (f : Slot → Slot) (w : Well) : (changeSlot f w s).lines = s.lines := rfl
@[simp] theorem changeSlot_time (f : Slot → Slot) (w : Well) : (changeSlot f w s).time = s.time := rfl
@[simp] theorem changeSlot_scan (f : Slot → Slot) (w : Well) : (changeSlot f w s).scan = s.scan := rfl
@[simp] theorem changeSlot_seq (f : Slot → Slot) (w : Well) : (changeSlot f w s).seq = s.seq := rfl
@[simp] theorem changeSlot_moves (f : Slot → Slot) (w : Well) : (changeSlot f w s).moves = s.moves := rfl
@[simp] theorem changeSlot_blend (f : Slot → Slot) (w : Well) : (changeSlot f w s).blend = s.blend := rfl
@[simp] theorem changeSlot_faults (f : Slot → Slot) (w : Well) : (changeSlot f w s).faults = s.faults := rfl
@[simp] theorem changeSlot_port (f : Slot → Slot) (w : Well) : (changeSlot f w s).port = s.port := rfl
@[simp] theorem changeSlot_pending (f : Slot → Slot) (w : Well) : (changeSlot f w s).pending = s.pending := rfl

@[simp] theorem writeRecord_slots (f : WellRecord → WellRecord) (w : Well) : (writeRecord f w s).slots =
    s.slots.map fun p => if isWell w p then (p.1, p.2.write f) else p := rfl
@[simp] theorem writeRecord_index (f : WellRecord → WellRecord) (w : Well) : (writeRecord f w s).index = s.index := rfl
@[simp] theorem writeRecord_settings (f : WellRecord → WellRecord) (w : Well) : (writeRecord f w s).settings = s.settings := rfl
@[simp] theorem writeRecord_device (f : WellRecord → WellRecord) (w : Well) : (writeRecord f w s).device = s.device := rfl
@[simp] theorem writeRecord_lines (f : WellRecord → WellRecord) (w : Well) : (writeRecord f w s).lines = s.lines := rfl
@[simp] theorem writeRecord_time (f : WellRecord → WellRecord) (w : Well) : (writeRecord f w s).time = s.time := rfl
@[simp] theorem writeRecord_scan (f : WellRecord → WellRecord) (w : Well) : (writeRecord f w s).scan = s.scan := rfl
@[simp] theorem writeRecord_seq (f : WellRecord → WellRecord) (w : Well) : (writeRecord f w s).seq = s.seq := rfl
@[simp] theorem writeRecord_moves (f : WellRecord → WellRecord) (w : Well) : (writeRecord f w s).moves = s.moves := rfl
@[simp] theorem writeRecord_blend (f : WellRecord → WellRecord) (w : Well) : (writeRecord f w s).blend = s.blend := rfl
@[simp] theorem writeRecord_faults (f : WellRecord → WellRecord) (w : Well) : (writeRecord f w s).faults = s.faults := rfl
@[simp] theorem writeRecord_port (f : WellRecord → WellRecord) (w : Well) : (writeRecord f w s).port = s.port := rfl
@[simp] theorem writeRecord_pending (f : WellRecord → WellRecord) (w : Well) : (writeRecord f w s).pending = s.pending := rfl

@[simp] theorem changeAllSlots_slots (f : Slot → Slot) : (changeAllSlots f s).slots =
    s.slots.map fun p => (p.1, f p.2) := rfl
@[simp] theorem changeAllSlots_index (f : Slot → Slot) : (changeAllSlots f s).index = s.index := rfl
@[simp] theorem changeAllSlots_settings (f : Slot → Slot) : (changeAllSlots f s).settings = s.settings := rfl
@[simp] theorem changeAllSlots_device (f : Slot → Slot) : (changeAllSlots f s).device = s.device := rfl
@[simp] theorem changeAllSlots_lines (f : Slot → Slot) : (changeAllSlots f s).lines = s.lines := rfl
@[simp] theorem changeAllSlots_time (f : Slot → Slot) : (changeAllSlots f s).time = s.time := rfl
@[simp] theorem changeAllSlots_scan (f : Slot → Slot) : (changeAllSlots f s).scan = s.scan := rfl
@[simp] theorem changeAllSlots_seq (f : Slot → Slot) : (changeAllSlots f s).seq = s.seq := rfl
@[simp] theorem changeAllSlots_moves (f : Slot → Slot) : (changeAllSlots f s).moves = s.moves := rfl
@[simp] theorem changeAllSlots_blend (f : Slot → Slot) : (changeAllSlots f s).blend = s.blend := rfl
@[simp] theorem changeAllSlots_faults (f : Slot → Slot) : (changeAllSlots f s).faults = s.faults := rfl
@[simp] theorem changeAllSlots_port (f : Slot → Slot) : (changeAllSlots f s).port = s.port := rfl
@[simp] theorem changeAllSlots_pending (f : Slot → Slot) : (changeAllSlots f s).pending = s.pending := rfl

@[simp] theorem removeRecord_slots (w : Well) : (removeRecord w s).slots =
    s.slots.filter fun p => !isWell w p := rfl
@[simp] theorem removeRecord_index (w : Well) : (removeRecord w s).index =
    s.index.filter fun p => !(p.1 == w.tag && p.2 == w.slot) := rfl
@[simp] theorem removeRecord_settings (w : Well) : (removeRecord w s).settings = s.settings := rfl
@[simp] theorem removeRecord_device (w : Well) : (removeRecord w s).device = s.device := rfl
@[simp] theorem removeRecord_lines (w : Well) : (removeRecord w s).lines = s.lines := rfl
@[simp] theorem removeRecord_time (w : Well) : (removeRecord w s).time = s.time := rfl
@[simp] theorem removeRecord_scan (w : Well) : (removeRecord w s).scan = s.scan := rfl
@[simp] theorem removeRecord_seq (w : Well) : (removeRecord w s).seq = s.seq := rfl
@[simp] theorem removeRecord_moves (w : Well) : (removeRecord w s).moves = s.moves := rfl
@[simp] theorem removeRecord_blend (w : Well) : (removeRecord w s).blend = s.blend := rfl
@[simp] theorem removeRecord_faults (w : Well) : (removeRecord w s).faults = s.faults := rfl
@[simp] theorem removeRecord_port (w : Well) : (removeRecord w s).port = s.port := rfl
@[simp] theorem removeRecord_pending (w : Well) : (removeRecord w s).pending = s.pending := rfl

@[simp] theorem setDeviceState_slots (d : DeviceState) : (setDeviceState d s).slots = s.slots := rfl
@[simp] theorem setDeviceState_index (d : DeviceState) : (setDeviceState d s).index = s.index := rfl
@[simp] theorem setDeviceState_settings (d : DeviceState) : (setDeviceState d s).settings = s.settings := rfl
@[simp] theorem setDeviceState_device (d : DeviceState) : (setDeviceState d s).device =
    { s.device with state := d } := rfl
@[simp] theorem setDeviceState_lines (d : DeviceState) : (setDeviceState d s).lines = s.lines := rfl
@[simp] theorem setDeviceState_time (d : DeviceState) : (setDeviceState d s).time = s.time := rfl
@[simp] theorem setDeviceState_scan (d : DeviceState) : (setDeviceState d s).scan = s.scan := rfl
@[simp] theorem setDeviceState_seq (d : DeviceState) : (setDeviceState d s).seq = s.seq := rfl
@[simp] theorem setDeviceState_moves (d : DeviceState) : (setDeviceState d s).moves = s.moves := rfl
@[simp] theorem setDeviceState_blend (d : DeviceState) : (setDeviceState d s).blend = s.blend := rfl
@[simp] theorem setDeviceState_faults (d : DeviceState) : (setDeviceState d s).faults = s.faults := rfl
@[simp] theorem setDeviceState_port (d : DeviceState) : (setDeviceState d s).port = s.port := rfl
@[simp] theorem setDeviceState_pending (d : DeviceState) : (setDeviceState d s).pending = s.pending := rfl

@[simp] theorem setOwed_slots (h : Handover) : (setOwed h s).slots = s.slots := rfl
@[simp] theorem setOwed_index (h : Handover) : (setOwed h s).index = s.index := rfl
@[simp] theorem setOwed_settings (h : Handover) : (setOwed h s).settings = s.settings := rfl
@[simp] theorem setOwed_device (h : Handover) : (setOwed h s).device =
    { s.device with owed := h } := rfl
@[simp] theorem setOwed_lines (h : Handover) : (setOwed h s).lines = s.lines := rfl
@[simp] theorem setOwed_time (h : Handover) : (setOwed h s).time = s.time := rfl
@[simp] theorem setOwed_scan (h : Handover) : (setOwed h s).scan = s.scan := rfl
@[simp] theorem setOwed_seq (h : Handover) : (setOwed h s).seq = s.seq := rfl
@[simp] theorem setOwed_moves (h : Handover) : (setOwed h s).moves = s.moves := rfl
@[simp] theorem setOwed_blend (h : Handover) : (setOwed h s).blend = s.blend := rfl
@[simp] theorem setOwed_faults (h : Handover) : (setOwed h s).faults = s.faults := rfl
@[simp] theorem setOwed_port (h : Handover) : (setOwed h s).port = s.port := rfl
@[simp] theorem setOwed_pending (h : Handover) : (setOwed h s).pending = s.pending := rfl

@[simp] theorem setLate_slots (h : Handover) : (setLate h s).slots = s.slots := rfl
@[simp] theorem setLate_index (h : Handover) : (setLate h s).index = s.index := rfl
@[simp] theorem setLate_settings (h : Handover) : (setLate h s).settings = s.settings := rfl
@[simp] theorem setLate_device (h : Handover) : (setLate h s).device =
    { s.device with late := h } := rfl
@[simp] theorem setLate_lines (h : Handover) : (setLate h s).lines = s.lines := rfl
@[simp] theorem setLate_time (h : Handover) : (setLate h s).time = s.time := rfl
@[simp] theorem setLate_scan (h : Handover) : (setLate h s).scan = s.scan := rfl
@[simp] theorem setLate_seq (h : Handover) : (setLate h s).seq = s.seq := rfl
@[simp] theorem setLate_moves (h : Handover) : (setLate h s).moves = s.moves := rfl
@[simp] theorem setLate_blend (h : Handover) : (setLate h s).blend = s.blend := rfl
@[simp] theorem setLate_faults (h : Handover) : (setLate h s).faults = s.faults := rfl
@[simp] theorem setLate_port (h : Handover) : (setLate h s).port = s.port := rfl
@[simp] theorem setLate_pending (h : Handover) : (setLate h s).pending = s.pending := rfl

@[simp] theorem setSuction_slots (l : Level) : (setSuction l s).slots = s.slots := rfl
@[simp] theorem setSuction_index (l : Level) : (setSuction l s).index = s.index := rfl
@[simp] theorem setSuction_settings (l : Level) : (setSuction l s).settings = s.settings := rfl
@[simp] theorem setSuction_device (l : Level) : (setSuction l s).device =
    { s.device with suction := l } := rfl
@[simp] theorem setSuction_lines (l : Level) : (setSuction l s).lines = s.lines := rfl
@[simp] theorem setSuction_time (l : Level) : (setSuction l s).time = s.time := rfl
@[simp] theorem setSuction_scan (l : Level) : (setSuction l s).scan = s.scan := rfl
@[simp] theorem setSuction_seq (l : Level) : (setSuction l s).seq = s.seq := rfl
@[simp] theorem setSuction_moves (l : Level) : (setSuction l s).moves = s.moves := rfl
@[simp] theorem setSuction_blend (l : Level) : (setSuction l s).blend = s.blend := rfl
@[simp] theorem setSuction_faults (l : Level) : (setSuction l s).faults = s.faults := rfl
@[simp] theorem setSuction_port (l : Level) : (setSuction l s).port = s.port := rfl
@[simp] theorem setSuction_pending (l : Level) : (setSuction l s).pending = s.pending := rfl

@[simp] theorem changeStation_slots (f : StationRecord → StationRecord) (a : Nat) : (changeStation f a s).slots = s.slots := rfl
@[simp] theorem changeStation_index (f : StationRecord → StationRecord) (a : Nat) : (changeStation f a s).index = s.index := rfl
@[simp] theorem changeStation_settings (f : StationRecord → StationRecord) (a : Nat) : (changeStation f a s).settings = s.settings := rfl
@[simp] theorem changeStation_device (f : StationRecord → StationRecord) (a : Nat) : (changeStation f a s).device = s.device := rfl
@[simp] theorem changeStation_lines (f : StationRecord → StationRecord) (a : Nat) : (changeStation f a s).lines = s.lines := rfl
@[simp] theorem changeStation_time (f : StationRecord → StationRecord) (a : Nat) : (changeStation f a s).time = s.time := rfl
@[simp] theorem changeStation_scan (f : StationRecord → StationRecord) (a : Nat) : (changeStation f a s).scan =
    { s.scan with stations := s.scan.stations.map fun x => if x.address = a then f x else x } := rfl
@[simp] theorem changeStation_seq (f : StationRecord → StationRecord) (a : Nat) : (changeStation f a s).seq = s.seq := rfl
@[simp] theorem changeStation_moves (f : StationRecord → StationRecord) (a : Nat) : (changeStation f a s).moves = s.moves := rfl
@[simp] theorem changeStation_blend (f : StationRecord → StationRecord) (a : Nat) : (changeStation f a s).blend = s.blend := rfl
@[simp] theorem changeStation_faults (f : StationRecord → StationRecord) (a : Nat) : (changeStation f a s).faults = s.faults := rfl
@[simp] theorem changeStation_port (f : StationRecord → StationRecord) (a : Nat) : (changeStation f a s).port = s.port := rfl
@[simp] theorem changeStation_pending (f : StationRecord → StationRecord) (a : Nat) : (changeStation f a s).pending = s.pending := rfl

@[simp] theorem evalAlerts_slots : (evalAlerts s).slots = s.slots := rfl
@[simp] theorem evalAlerts_index : (evalAlerts s).index = s.index := rfl
@[simp] theorem evalAlerts_settings : (evalAlerts s).settings = s.settings := rfl
@[simp] theorem evalAlerts_device : (evalAlerts s).device = s.device := rfl
@[simp] theorem evalAlerts_lines : (evalAlerts s).lines =
    { s.lines with alertA := s.alertAStands, alertB := s.alertBStands } := rfl
@[simp] theorem evalAlerts_time : (evalAlerts s).time = s.time := rfl
@[simp] theorem evalAlerts_scan : (evalAlerts s).scan = s.scan := rfl
@[simp] theorem evalAlerts_seq : (evalAlerts s).seq = s.seq := rfl
@[simp] theorem evalAlerts_moves : (evalAlerts s).moves = s.moves := rfl
@[simp] theorem evalAlerts_blend : (evalAlerts s).blend = s.blend := rfl
@[simp] theorem evalAlerts_faults : (evalAlerts s).faults = s.faults := rfl
@[simp] theorem evalAlerts_port : (evalAlerts s).port = s.port := rfl
@[simp] theorem evalAlerts_pending : (evalAlerts s).pending = s.pending := rfl

@[simp] theorem setQueue_slots (q : List QueueEntry) : (setQueue q s).slots = s.slots := rfl
@[simp] theorem setQueue_index (q : List QueueEntry) : (setQueue q s).index = s.index := rfl
@[simp] theorem setQueue_settings (q : List QueueEntry) : (setQueue q s).settings = s.settings := rfl
@[simp] theorem setQueue_device (q : List QueueEntry) : (setQueue q s).device = s.device := rfl
@[simp] theorem setQueue_lines (q : List QueueEntry) : (setQueue q s).lines = s.lines := rfl
@[simp] theorem setQueue_time (q : List QueueEntry) : (setQueue q s).time = s.time := rfl
@[simp] theorem setQueue_scan (q : List QueueEntry) : (setQueue q s).scan = s.scan := rfl
@[simp] theorem setQueue_seq (q : List QueueEntry) : (setQueue q s).seq =
    { s.seq with queue := q } := rfl
@[simp] theorem setQueue_moves (q : List QueueEntry) : (setQueue q s).moves = s.moves := rfl
@[simp] theorem setQueue_blend (q : List QueueEntry) : (setQueue q s).blend = s.blend := rfl
@[simp] theorem setQueue_faults (q : List QueueEntry) : (setQueue q s).faults = s.faults := rfl
@[simp] theorem setQueue_port (q : List QueueEntry) : (setQueue q s).port = s.port := rfl
@[simp] theorem setQueue_pending (q : List QueueEntry) : (setQueue q s).pending = s.pending := rfl

@[simp] theorem setPhase_slots (p : Phase) : (setPhase p s).slots = s.slots := rfl
@[simp] theorem setPhase_index (p : Phase) : (setPhase p s).index = s.index := rfl
@[simp] theorem setPhase_settings (p : Phase) : (setPhase p s).settings = s.settings := rfl
@[simp] theorem setPhase_device (p : Phase) : (setPhase p s).device = s.device := rfl
@[simp] theorem setPhase_lines (p : Phase) : (setPhase p s).lines = s.lines := rfl
@[simp] theorem setPhase_time (p : Phase) : (setPhase p s).time = s.time := rfl
@[simp] theorem setPhase_scan (p : Phase) : (setPhase p s).scan = s.scan := rfl
@[simp] theorem setPhase_seq (p : Phase) : (setPhase p s).seq =
    { s.seq with phase := p } := rfl
@[simp] theorem setPhase_moves (p : Phase) : (setPhase p s).moves = s.moves := rfl
@[simp] theorem setPhase_blend (p : Phase) : (setPhase p s).blend = s.blend := rfl
@[simp] theorem setPhase_faults (p : Phase) : (setPhase p s).faults = s.faults := rfl
@[simp] theorem setPhase_port (p : Phase) : (setPhase p s).port = s.port := rfl
@[simp] theorem setPhase_pending (p : Phase) : (setPhase p s).pending = s.pending := rfl

@[simp] theorem setFailures_slots (f : Option FailureRun) : (setFailures f s).slots = s.slots := rfl
@[simp] theorem setFailures_index (f : Option FailureRun) : (setFailures f s).index = s.index := rfl
@[simp] theorem setFailures_settings (f : Option FailureRun) : (setFailures f s).settings = s.settings := rfl
@[simp] theorem setFailures_device (f : Option FailureRun) : (setFailures f s).device = s.device := rfl
@[simp] theorem setFailures_lines (f : Option FailureRun) : (setFailures f s).lines = s.lines := rfl
@[simp] theorem setFailures_time (f : Option FailureRun) : (setFailures f s).time = s.time := rfl
@[simp] theorem setFailures_scan (f : Option FailureRun) : (setFailures f s).scan = s.scan := rfl
@[simp] theorem setFailures_seq (f : Option FailureRun) : (setFailures f s).seq =
    { s.seq with failures := f } := rfl
@[simp] theorem setFailures_moves (f : Option FailureRun) : (setFailures f s).moves = s.moves := rfl
@[simp] theorem setFailures_blend (f : Option FailureRun) : (setFailures f s).blend = s.blend := rfl
@[simp] theorem setFailures_faults (f : Option FailureRun) : (setFailures f s).faults = s.faults := rfl
@[simp] theorem setFailures_port (f : Option FailureRun) : (setFailures f s).port = s.port := rfl
@[simp] theorem setFailures_pending (f : Option FailureRun) : (setFailures f s).pending = s.pending := rfl

@[simp] theorem setBusyCount_slots (n : Nat) : (setBusyCount n s).slots = s.slots := rfl
@[simp] theorem setBusyCount_index (n : Nat) : (setBusyCount n s).index = s.index := rfl
@[simp] theorem setBusyCount_settings (n : Nat) : (setBusyCount n s).settings = s.settings := rfl
@[simp] theorem setBusyCount_device (n : Nat) : (setBusyCount n s).device = s.device := rfl
@[simp] theorem setBusyCount_lines (n : Nat) : (setBusyCount n s).lines = s.lines := rfl
@[simp] theorem setBusyCount_time (n : Nat) : (setBusyCount n s).time = s.time := rfl
@[simp] theorem setBusyCount_scan (n : Nat) : (setBusyCount n s).scan = s.scan := rfl
@[simp] theorem setBusyCount_seq (n : Nat) : (setBusyCount n s).seq =
    { s.seq with busyCount := n } := rfl
@[simp] theorem setBusyCount_moves (n : Nat) : (setBusyCount n s).moves = s.moves := rfl
@[simp] theorem setBusyCount_blend (n : Nat) : (setBusyCount n s).blend = s.blend := rfl
@[simp] theorem setBusyCount_faults (n : Nat) : (setBusyCount n s).faults = s.faults := rfl
@[simp] theorem setBusyCount_port (n : Nat) : (setBusyCount n s).port = s.port := rfl
@[simp] theorem setBusyCount_pending (n : Nat) : (setBusyCount n s).pending = s.pending := rfl

@[simp] theorem raiseNumber_slots : (raiseNumber s).slots = s.slots := rfl
@[simp] theorem raiseNumber_index : (raiseNumber s).index = s.index := rfl
@[simp] theorem raiseNumber_settings : (raiseNumber s).settings = s.settings := rfl
@[simp] theorem raiseNumber_device : (raiseNumber s).device = s.device := rfl
@[simp] theorem raiseNumber_lines : (raiseNumber s).lines = s.lines := rfl
@[simp] theorem raiseNumber_time : (raiseNumber s).time = s.time := rfl
@[simp] theorem raiseNumber_scan : (raiseNumber s).scan = s.scan := rfl
@[simp] theorem raiseNumber_seq : (raiseNumber s).seq =
    { s.seq with number := s.seq.number + 1 } := rfl
@[simp] theorem raiseNumber_moves : (raiseNumber s).moves = s.moves := rfl
@[simp] theorem raiseNumber_blend : (raiseNumber s).blend = s.blend := rfl
@[simp] theorem raiseNumber_faults : (raiseNumber s).faults = s.faults := rfl
@[simp] theorem raiseNumber_port : (raiseNumber s).port = s.port := rfl
@[simp] theorem raiseNumber_pending : (raiseNumber s).pending = s.pending := rfl

@[simp] theorem leaveLists_slots (w : Well) : (leaveLists w s).slots = s.slots := rfl
@[simp] theorem leaveLists_index (w : Well) : (leaveLists w s).index = s.index := rfl
@[simp] theorem leaveLists_settings (w : Well) : (leaveLists w s).settings = s.settings := rfl
@[simp] theorem leaveLists_device (w : Well) : (leaveLists w s).device = s.device := rfl
@[simp] theorem leaveLists_lines (w : Well) : (leaveLists w s).lines = s.lines := rfl
@[simp] theorem leaveLists_time (w : Well) : (leaveLists w s).time = s.time := rfl
@[simp] theorem leaveLists_scan (w : Well) : (leaveLists w s).scan = s.scan := rfl
@[simp] theorem leaveLists_seq (w : Well) : (leaveLists w s).seq = s.seq := rfl
@[simp] theorem leaveLists_moves (w : Well) : (leaveLists w s).moves =
    { holders := s.moves.holders.filter (fun h => !(h.well == w)),
        waiting := s.moves.waiting.filter (fun v => !(v == w)) } := rfl
@[simp] theorem leaveLists_blend (w : Well) : (leaveLists w s).blend = s.blend := rfl
@[simp] theorem leaveLists_faults (w : Well) : (leaveLists w s).faults = s.faults := rfl
@[simp] theorem leaveLists_port (w : Well) : (leaveLists w s).port = s.port := rfl
@[simp] theorem leaveLists_pending (w : Well) : (leaveLists w s).pending = s.pending := rfl

@[simp] theorem restartTimer_slots (w : Well) : (restartTimer w s).slots = s.slots := rfl
@[simp] theorem restartTimer_index (w : Well) : (restartTimer w s).index = s.index := rfl
@[simp] theorem restartTimer_settings (w : Well) : (restartTimer w s).settings = s.settings := rfl
@[simp] theorem restartTimer_device (w : Well) : (restartTimer w s).device = s.device := rfl
@[simp] theorem restartTimer_lines (w : Well) : (restartTimer w s).lines = s.lines := rfl
@[simp] theorem restartTimer_time (w : Well) : (restartTimer w s).time = s.time := rfl
@[simp] theorem restartTimer_scan (w : Well) : (restartTimer w s).scan = s.scan := rfl
@[simp] theorem restartTimer_seq (w : Well) : (restartTimer w s).seq = s.seq := rfl
@[simp] theorem restartTimer_moves (w : Well) : (restartTimer w s).moves =
    { s.moves with holders := s.moves.holders.map fun h =>
        if h.well = w then { h with timer := s.settings.moveTimeout } else h } := rfl
@[simp] theorem restartTimer_blend (w : Well) : (restartTimer w s).blend = s.blend := rfl
@[simp] theorem restartTimer_faults (w : Well) : (restartTimer w s).faults = s.faults := rfl
@[simp] theorem restartTimer_port (w : Well) : (restartTimer w s).port = s.port := rfl
@[simp] theorem restartTimer_pending (w : Well) : (restartTimer w s).pending = s.pending := rfl

@[simp] theorem setPermit_slots (p : PermitState) (n : Option Nat) : (setPermit p n s).slots = s.slots := rfl
@[simp] theorem setPermit_index (p : PermitState) (n : Option Nat) : (setPermit p n s).index = s.index := rfl
@[simp] theorem setPermit_settings (p : PermitState) (n : Option Nat) : (setPermit p n s).settings = s.settings := rfl
@[simp] theorem setPermit_device (p : PermitState) (n : Option Nat) : (setPermit p n s).device = s.device := rfl
@[simp] theorem setPermit_lines (p : PermitState) (n : Option Nat) : (setPermit p n s).lines = s.lines := rfl
@[simp] theorem setPermit_time (p : PermitState) (n : Option Nat) : (setPermit p n s).time = s.time := rfl
@[simp] theorem setPermit_scan (p : PermitState) (n : Option Nat) : (setPermit p n s).scan = s.scan := rfl
@[simp] theorem setPermit_seq (p : PermitState) (n : Option Nat) : (setPermit p n s).seq = s.seq := rfl
@[simp] theorem setPermit_moves (p : PermitState) (n : Option Nat) : (setPermit p n s).moves = s.moves := rfl
@[simp] theorem setPermit_blend (p : PermitState) (n : Option Nat) : (setPermit p n s).blend =
    { s.blend with permit := p, holdTimer := n } := rfl
@[simp] theorem setPermit_faults (p : PermitState) (n : Option Nat) : (setPermit p n s).faults = s.faults := rfl
@[simp] theorem setPermit_port (p : PermitState) (n : Option Nat) : (setPermit p n s).port = s.port := rfl
@[simp] theorem setPermit_pending (p : PermitState) (n : Option Nat) : (setPermit p n s).pending = s.pending := rfl

@[simp] theorem setPermitLines_slots : (setPermitLines s).slots = s.slots := rfl
@[simp] theorem setPermitLines_index : (setPermitLines s).index = s.index := rfl
@[simp] theorem setPermitLines_settings : (setPermitLines s).settings = s.settings := rfl
@[simp] theorem setPermitLines_device : (setPermitLines s).device = s.device := rfl
@[simp] theorem setPermitLines_lines : (setPermitLines s).lines = s.lines := rfl
@[simp] theorem setPermitLines_time : (setPermitLines s).time = s.time := rfl
@[simp] theorem setPermitLines_scan : (setPermitLines s).scan = s.scan := rfl
@[simp] theorem setPermitLines_seq : (setPermitLines s).seq = s.seq := rfl
@[simp] theorem setPermitLines_moves : (setPermitLines s).moves = s.moves := rfl
@[simp] theorem setPermitLines_faults : (setPermitLines s).faults = s.faults := rfl
@[simp] theorem setPermitLines_port : (setPermitLines s).port = s.port := rfl
@[simp] theorem setPermitLines_pending : (setPermitLines s).pending = s.pending := rfl

@[simp] theorem formBlend_slots : (formBlend s).slots = s.slots := rfl
@[simp] theorem formBlend_index : (formBlend s).index = s.index := rfl
@[simp] theorem formBlend_settings : (formBlend s).settings = s.settings := rfl
@[simp] theorem formBlend_device : (formBlend s).device = s.device := rfl
@[simp] theorem formBlend_lines : (formBlend s).lines = s.lines := rfl
@[simp] theorem formBlend_time : (formBlend s).time = s.time := rfl
@[simp] theorem formBlend_scan : (formBlend s).scan = s.scan := rfl
@[simp] theorem formBlend_seq : (formBlend s).seq = s.seq := rfl
@[simp] theorem formBlend_moves : (formBlend s).moves = s.moves := rfl
@[simp] theorem formBlend_blend : (formBlend s).blend =
    { s.blend with blend := blendOf s.contributions, contributing := sumFlow s.contributions } := rfl
@[simp] theorem formBlend_faults : (formBlend s).faults = s.faults := rfl
@[simp] theorem formBlend_port : (formBlend s).port = s.port := rfl
@[simp] theorem formBlend_pending : (formBlend s).pending = s.pending := rfl

@[simp] theorem recordFault_slots (k : FaultKind) (n : Nat) (d : Half) : (recordFault k n d s).slots = s.slots := rfl
@[simp] theorem recordFault_index (k : FaultKind) (n : Nat) (d : Half) : (recordFault k n d s).index = s.index := rfl
@[simp] theorem recordFault_settings (k : FaultKind) (n : Nat) (d : Half) : (recordFault k n d s).settings = s.settings := rfl
@[simp] theorem recordFault_device (k : FaultKind) (n : Nat) (d : Half) : (recordFault k n d s).device = s.device := rfl
@[simp] theorem recordFault_lines (k : FaultKind) (n : Nat) (d : Half) : (recordFault k n d s).lines = s.lines := rfl
@[simp] theorem recordFault_time (k : FaultKind) (n : Nat) (d : Half) : (recordFault k n d s).time = s.time := rfl
@[simp] theorem recordFault_scan (k : FaultKind) (n : Nat) (d : Half) : (recordFault k n d s).scan = s.scan := rfl
@[simp] theorem recordFault_seq (k : FaultKind) (n : Nat) (d : Half) : (recordFault k n d s).seq = s.seq := rfl
@[simp] theorem recordFault_moves (k : FaultKind) (n : Nat) (d : Half) : (recordFault k n d s).moves = s.moves := rfl
@[simp] theorem recordFault_blend (k : FaultKind) (n : Nat) (d : Half) : (recordFault k n d s).blend = s.blend := rfl
@[simp] theorem recordFault_faults (k : FaultKind) (n : Nat) (d : Half) : (recordFault k n d s).faults =
    s.faults.written k n d := rfl
@[simp] theorem recordFault_port (k : FaultKind) (n : Nat) (d : Half) : (recordFault k n d s).port = s.port := rfl
@[simp] theorem recordFault_pending (k : FaultKind) (n : Nat) (d : Half) : (recordFault k n d s).pending = s.pending := rfl

@[simp] theorem clearFaultRecord_slots : (clearFaultRecord s).slots = s.slots := rfl
@[simp] theorem clearFaultRecord_index : (clearFaultRecord s).index = s.index := rfl
@[simp] theorem clearFaultRecord_settings : (clearFaultRecord s).settings = s.settings := rfl
@[simp] theorem clearFaultRecord_device : (clearFaultRecord s).device = s.device := rfl
@[simp] theorem clearFaultRecord_lines : (clearFaultRecord s).lines = s.lines := rfl
@[simp] theorem clearFaultRecord_time : (clearFaultRecord s).time = s.time := rfl
@[simp] theorem clearFaultRecord_scan : (clearFaultRecord s).scan = s.scan := rfl
@[simp] theorem clearFaultRecord_seq : (clearFaultRecord s).seq = s.seq := rfl
@[simp] theorem clearFaultRecord_moves : (clearFaultRecord s).moves = s.moves := rfl
@[simp] theorem clearFaultRecord_blend : (clearFaultRecord s).blend = s.blend := rfl
@[simp] theorem clearFaultRecord_faults : (clearFaultRecord s).faults =
    { first := none, further := 0 } := rfl
@[simp] theorem clearFaultRecord_port : (clearFaultRecord s).port = s.port := rfl
@[simp] theorem clearFaultRecord_pending : (clearFaultRecord s).pending = s.pending := rfl

@[simp] theorem sendTo_slots (x : StationRecord) : (sendTo x s).slots = s.slots := rfl
@[simp] theorem sendTo_index (x : StationRecord) : (sendTo x s).index = s.index := rfl
@[simp] theorem sendTo_settings (x : StationRecord) : (sendTo x s).settings = s.settings := rfl
@[simp] theorem sendTo_device (x : StationRecord) : (sendTo x s).device = s.device := rfl
@[simp] theorem sendTo_lines (x : StationRecord) : (sendTo x s).lines = s.lines := rfl
@[simp] theorem sendTo_time (x : StationRecord) : (sendTo x s).time = s.time := rfl
@[simp] theorem sendTo_scan (x : StationRecord) : (sendTo x s).scan =
    { s.scan with inFlight := some (transactionFor s x), round := .running (some x.address) } := rfl
@[simp] theorem sendTo_seq (x : StationRecord) : (sendTo x s).seq = s.seq := rfl
@[simp] theorem sendTo_moves (x : StationRecord) : (sendTo x s).moves = s.moves := rfl
@[simp] theorem sendTo_blend (x : StationRecord) : (sendTo x s).blend = s.blend := rfl
@[simp] theorem sendTo_faults (x : StationRecord) : (sendTo x s).faults = s.faults := rfl
@[simp] theorem sendTo_port (x : StationRecord) : (sendTo x s).port = s.port := rfl
@[simp] theorem sendTo_pending (x : StationRecord) : (sendTo x s).pending = s.pending := rfl

@[simp] theorem setGroup_slots (g : Option Group) : (setGroup g s).slots = s.slots := rfl
@[simp] theorem setGroup_index (g : Option Group) : (setGroup g s).index = s.index := rfl
@[simp] theorem setGroup_settings (g : Option Group) : (setGroup g s).settings = s.settings := rfl
@[simp] theorem setGroup_device (g : Option Group) : (setGroup g s).device = s.device := rfl
@[simp] theorem setGroup_lines (g : Option Group) : (setGroup g s).lines = s.lines := rfl
@[simp] theorem setGroup_time (g : Option Group) : (setGroup g s).time = s.time := rfl
@[simp] theorem setGroup_scan (g : Option Group) : (setGroup g s).scan = s.scan := rfl
@[simp] theorem setGroup_seq (g : Option Group) : (setGroup g s).seq = s.seq := rfl
@[simp] theorem setGroup_moves (g : Option Group) : (setGroup g s).moves = s.moves := rfl
@[simp] theorem setGroup_blend (g : Option Group) : (setGroup g s).blend = s.blend := rfl
@[simp] theorem setGroup_faults (g : Option Group) : (setGroup g s).faults = s.faults := rfl
@[simp] theorem setGroup_port (g : Option Group) : (setGroup g s).port =
    { s.port with group := g } := rfl
@[simp] theorem setGroup_pending (g : Option Group) : (setGroup g s).pending = s.pending := rfl

@[simp] theorem setWords_slots (ws : List Half) : (setWords ws s).slots = s.slots := rfl
@[simp] theorem setWords_index (ws : List Half) : (setWords ws s).index = s.index := rfl
@[simp] theorem setWords_settings (ws : List Half) : (setWords ws s).settings = s.settings := rfl
@[simp] theorem setWords_device (ws : List Half) : (setWords ws s).device = s.device := rfl
@[simp] theorem setWords_lines (ws : List Half) : (setWords ws s).lines = s.lines := rfl
@[simp] theorem setWords_time (ws : List Half) : (setWords ws s).time = s.time := rfl
@[simp] theorem setWords_scan (ws : List Half) : (setWords ws s).scan = s.scan := rfl
@[simp] theorem setWords_seq (ws : List Half) : (setWords ws s).seq = s.seq := rfl
@[simp] theorem setWords_moves (ws : List Half) : (setWords ws s).moves = s.moves := rfl
@[simp] theorem setWords_blend (ws : List Half) : (setWords ws s).blend = s.blend := rfl
@[simp] theorem setWords_faults (ws : List Half) : (setWords ws s).faults = s.faults := rfl
@[simp] theorem setWords_port (ws : List Half) : (setWords ws s).port =
    { s.port with words := ws } := rfl
@[simp] theorem setWords_pending (ws : List Half) : (setWords ws s).pending = s.pending := rfl

@[simp] theorem closePort_slots : (closePort s).slots = s.slots := rfl
@[simp] theorem closePort_index : (closePort s).index = s.index := rfl
@[simp] theorem closePort_settings : (closePort s).settings = s.settings := rfl
@[simp] theorem closePort_device : (closePort s).device = s.device := rfl
@[simp] theorem closePort_lines : (closePort s).lines = s.lines := rfl
@[simp] theorem closePort_time : (closePort s).time = s.time := rfl
@[simp] theorem closePort_scan : (closePort s).scan = s.scan := rfl
@[simp] theorem closePort_seq : (closePort s).seq = s.seq := rfl
@[simp] theorem closePort_moves : (closePort s).moves = s.moves := rfl
@[simp] theorem closePort_blend : (closePort s).blend = s.blend := rfl
@[simp] theorem closePort_faults : (closePort s).faults = s.faults := rfl
@[simp] theorem closePort_port : (closePort s).port =
    { s.port with words := [], group := none } := rfl
@[simp] theorem closePort_pending : (closePort s).pending = s.pending := rfl

@[simp] theorem advance_slots : (advance s).slots = s.slots := rfl
@[simp] theorem advance_index : (advance s).index = s.index := rfl
@[simp] theorem advance_settings : (advance s).settings = s.settings := rfl
@[simp] theorem advance_device : (advance s).device = s.device := rfl
@[simp] theorem advance_lines : (advance s).lines = s.lines := rfl
@[simp] theorem advance_time : (advance s).time = s.time := rfl
@[simp] theorem advance_scan : (advance s).scan = s.scan := rfl
@[simp] theorem advance_seq : (advance s).seq = s.seq := rfl
@[simp] theorem advance_moves : (advance s).moves = s.moves := rfl
@[simp] theorem advance_blend : (advance s).blend = s.blend := rfl
@[simp] theorem advance_faults : (advance s).faults = s.faults := rfl
@[simp] theorem advance_port : (advance s).port =
    s.port.advanced := rfl
@[simp] theorem advance_pending : (advance s).pending = s.pending := rfl

@[simp] theorem fill_slots (a : Answer) : (fill a s).slots = s.slots := rfl
@[simp] theorem fill_index (a : Answer) : (fill a s).index = s.index := rfl
@[simp] theorem fill_settings (a : Answer) : (fill a s).settings = s.settings := rfl
@[simp] theorem fill_device (a : Answer) : (fill a s).device = s.device := rfl
@[simp] theorem fill_lines (a : Answer) : (fill a s).lines = s.lines := rfl
@[simp] theorem fill_time (a : Answer) : (fill a s).time = s.time := rfl
@[simp] theorem fill_scan (a : Answer) : (fill a s).scan = s.scan := rfl
@[simp] theorem fill_seq (a : Answer) : (fill a s).seq = s.seq := rfl
@[simp] theorem fill_moves (a : Answer) : (fill a s).moves = s.moves := rfl
@[simp] theorem fill_blend (a : Answer) : (fill a s).blend = s.blend := rfl
@[simp] theorem fill_faults (a : Answer) : (fill a s).faults = s.faults := rfl
@[simp] theorem fill_port (a : Answer) : (fill a s).port =
    { s.port with newer := some a } := rfl
@[simp] theorem fill_pending (a : Answer) : (fill a s).pending = s.pending := rfl

@[simp] theorem resetPort_slots (x : Straps) : (resetPort x s).slots = s.slots := rfl
@[simp] theorem resetPort_index (x : Straps) : (resetPort x s).index = s.index := rfl
@[simp] theorem resetPort_settings (x : Straps) : (resetPort x s).settings = s.settings := rfl
@[simp] theorem resetPort_device (x : Straps) : (resetPort x s).device = s.device := rfl
@[simp] theorem resetPort_lines (x : Straps) : (resetPort x s).lines = s.lines := rfl
@[simp] theorem resetPort_time (x : Straps) : (resetPort x s).time = s.time := rfl
@[simp] theorem resetPort_scan (x : Straps) : (resetPort x s).scan = s.scan := rfl
@[simp] theorem resetPort_seq (x : Straps) : (resetPort x s).seq = s.seq := rfl
@[simp] theorem resetPort_moves (x : Straps) : (resetPort x s).moves = s.moves := rfl
@[simp] theorem resetPort_blend (x : Straps) : (resetPort x s).blend = s.blend := rfl
@[simp] theorem resetPort_faults (x : Straps) : (resetPort x s).faults = s.faults := rfl
@[simp] theorem resetPort_port (x : Straps) : (resetPort x s).port =
    { s.port with straps := x, words := [], group := none } := rfl
@[simp] theorem resetPort_pending (x : Straps) : (resetPort x s).pending = s.pending := rfl

@[simp] theorem tickSequencer_slots : (tickSequencer s).slots = s.slots := rfl
@[simp] theorem tickSequencer_index : (tickSequencer s).index = s.index := rfl
@[simp] theorem tickSequencer_settings : (tickSequencer s).settings = s.settings := rfl
@[simp] theorem tickSequencer_device : (tickSequencer s).device = s.device := rfl
@[simp] theorem tickSequencer_lines : (tickSequencer s).lines = s.lines := rfl
@[simp] theorem tickSequencer_time : (tickSequencer s).time = s.time := rfl
@[simp] theorem tickSequencer_scan : (tickSequencer s).scan = s.scan := rfl
@[simp] theorem tickSequencer_seq : (tickSequencer s).seq =
    { s.seq with phase := s.seq.phase.ticked } := rfl
@[simp] theorem tickSequencer_moves : (tickSequencer s).moves = s.moves := rfl
@[simp] theorem tickSequencer_blend : (tickSequencer s).blend = s.blend := rfl
@[simp] theorem tickSequencer_faults : (tickSequencer s).faults = s.faults := rfl
@[simp] theorem tickSequencer_port : (tickSequencer s).port = s.port := rfl
@[simp] theorem tickSequencer_pending : (tickSequencer s).pending = s.pending := rfl

@[simp] theorem tickMoves_slots : (tickMoves s).slots = s.slots := rfl
@[simp] theorem tickMoves_index : (tickMoves s).index = s.index := rfl
@[simp] theorem tickMoves_settings : (tickMoves s).settings = s.settings := rfl
@[simp] theorem tickMoves_device : (tickMoves s).device = s.device := rfl
@[simp] theorem tickMoves_lines : (tickMoves s).lines = s.lines := rfl
@[simp] theorem tickMoves_time : (tickMoves s).time = s.time := rfl
@[simp] theorem tickMoves_scan : (tickMoves s).scan = s.scan := rfl
@[simp] theorem tickMoves_seq : (tickMoves s).seq = s.seq := rfl
@[simp] theorem tickMoves_moves : (tickMoves s).moves =
    { s.moves with holders := s.moves.holders.map fun h => { h with timer := h.timer - 1 } } := rfl
@[simp] theorem tickMoves_blend : (tickMoves s).blend = s.blend := rfl
@[simp] theorem tickMoves_faults : (tickMoves s).faults = s.faults := rfl
@[simp] theorem tickMoves_port : (tickMoves s).port = s.port := rfl
@[simp] theorem tickMoves_pending : (tickMoves s).pending = s.pending := rfl

@[simp] theorem tickHold_slots : (tickHold s).slots = s.slots := rfl
@[simp] theorem tickHold_index : (tickHold s).index = s.index := rfl
@[simp] theorem tickHold_settings : (tickHold s).settings = s.settings := rfl
@[simp] theorem tickHold_device : (tickHold s).device = s.device := rfl
@[simp] theorem tickHold_lines : (tickHold s).lines = s.lines := rfl
@[simp] theorem tickHold_time : (tickHold s).time = s.time := rfl
@[simp] theorem tickHold_scan : (tickHold s).scan = s.scan := rfl
@[simp] theorem tickHold_seq : (tickHold s).seq = s.seq := rfl
@[simp] theorem tickHold_moves : (tickHold s).moves = s.moves := rfl
@[simp] theorem tickHold_blend : (tickHold s).blend =
    { s.blend with holdTimer := s.blend.holdTimer.map fun t => t - 1 } := rfl
@[simp] theorem tickHold_faults : (tickHold s).faults = s.faults := rfl
@[simp] theorem tickHold_port : (tickHold s).port = s.port := rfl
@[simp] theorem tickHold_pending : (tickHold s).pending = s.pending := rfl

@[simp] theorem tickPulses_slots : (tickPulses s).slots =
    s.slots.map fun p => (p.1, tickPulse p.2) := rfl
@[simp] theorem tickPulses_index : (tickPulses s).index = s.index := rfl
@[simp] theorem tickPulses_settings : (tickPulses s).settings = s.settings := rfl
@[simp] theorem tickPulses_device : (tickPulses s).device = s.device := rfl
@[simp] theorem tickPulses_lines : (tickPulses s).lines = s.lines := rfl
@[simp] theorem tickPulses_time : (tickPulses s).time = s.time := rfl
@[simp] theorem tickPulses_scan : (tickPulses s).scan = s.scan := rfl
@[simp] theorem tickPulses_seq : (tickPulses s).seq = s.seq := rfl
@[simp] theorem tickPulses_moves : (tickPulses s).moves = s.moves := rfl
@[simp] theorem tickPulses_blend : (tickPulses s).blend = s.blend := rfl
@[simp] theorem tickPulses_faults : (tickPulses s).faults = s.faults := rfl
@[simp] theorem tickPulses_port : (tickPulses s).port = s.port := rfl
@[simp] theorem tickPulses_pending : (tickPulses s).pending = s.pending := rfl

@[simp] theorem placeInQueue_slots (c : SampleClass) (w : Well) : (placeInQueue c w s).slots =
    (setQueued c.queued w s).slots := rfl
@[simp] theorem placeInQueue_index (c : SampleClass) (w : Well) : (placeInQueue c w s).index = s.index := rfl
@[simp] theorem placeInQueue_settings (c : SampleClass) (w : Well) : (placeInQueue c w s).settings = s.settings := rfl
@[simp] theorem placeInQueue_device (c : SampleClass) (w : Well) : (placeInQueue c w s).device = s.device := rfl
@[simp] theorem placeInQueue_lines (c : SampleClass) (w : Well) : (placeInQueue c w s).lines = s.lines := rfl
@[simp] theorem placeInQueue_time (c : SampleClass) (w : Well) : (placeInQueue c w s).time = s.time := rfl
@[simp] theorem placeInQueue_scan (c : SampleClass) (w : Well) : (placeInQueue c w s).scan = s.scan := rfl
@[simp] theorem placeInQueue_seq (c : SampleClass) (w : Well) : (placeInQueue c w s).seq =
    { s.seq with queue := placeEntry { well := w, cls := c } (withoutEntry w s.seq.queue) } := rfl
@[simp] theorem placeInQueue_moves (c : SampleClass) (w : Well) : (placeInQueue c w s).moves = s.moves := rfl
@[simp] theorem placeInQueue_blend (c : SampleClass) (w : Well) : (placeInQueue c w s).blend = s.blend := rfl
@[simp] theorem placeInQueue_faults (c : SampleClass) (w : Well) : (placeInQueue c w s).faults = s.faults := rfl
@[simp] theorem placeInQueue_port (c : SampleClass) (w : Well) : (placeInQueue c w s).port = s.port := rfl
@[simp] theorem placeInQueue_pending (c : SampleClass) (w : Well) : (placeInQueue c w s).pending = s.pending := rfl

@[simp] theorem selectWell_slots (w : Well) : (selectWell w s).slots =
    (setQueued .sampling w s).slots := rfl
@[simp] theorem selectWell_index (w : Well) : (selectWell w s).index = s.index := rfl
@[simp] theorem selectWell_settings (w : Well) : (selectWell w s).settings = s.settings := rfl
@[simp] theorem selectWell_device (w : Well) : (selectWell w s).device = s.device := rfl
@[simp] theorem selectWell_lines (w : Well) : (selectWell w s).lines = s.lines := rfl
@[simp] theorem selectWell_time (w : Well) : (selectWell w s).time = s.time := rfl
@[simp] theorem selectWell_scan (w : Well) : (selectWell w s).scan = s.scan := rfl
@[simp] theorem selectWell_seq (w : Well) : (selectWell w s).seq =
    { s.seq with phase := .select w, busyCount := 0 } := rfl
@[simp] theorem selectWell_moves (w : Well) : (selectWell w s).moves = s.moves := rfl
@[simp] theorem selectWell_blend (w : Well) : (selectWell w s).blend = s.blend := rfl
@[simp] theorem selectWell_faults (w : Well) : (selectWell w s).faults = s.faults := rfl
@[simp] theorem selectWell_port (w : Well) : (selectWell w s).port = s.port := rfl
@[simp] theorem selectWell_pending (w : Well) : (selectWell w s).pending = s.pending := rfl

@[simp] theorem withPending_slots (cs : List Instr) : (s.withPending cs).slots = s.slots := rfl
@[simp] theorem withPending_index (cs : List Instr) : (s.withPending cs).index = s.index := rfl
@[simp] theorem withPending_settings (cs : List Instr) : (s.withPending cs).settings = s.settings := rfl
@[simp] theorem withPending_device (cs : List Instr) : (s.withPending cs).device = s.device := rfl
@[simp] theorem withPending_lines (cs : List Instr) : (s.withPending cs).lines = s.lines := rfl
@[simp] theorem withPending_time (cs : List Instr) : (s.withPending cs).time = s.time := rfl
@[simp] theorem withPending_scan (cs : List Instr) : (s.withPending cs).scan = s.scan := rfl
@[simp] theorem withPending_seq (cs : List Instr) : (s.withPending cs).seq = s.seq := rfl
@[simp] theorem withPending_moves (cs : List Instr) : (s.withPending cs).moves = s.moves := rfl
@[simp] theorem withPending_blend (cs : List Instr) : (s.withPending cs).blend = s.blend := rfl
@[simp] theorem withPending_faults (cs : List Instr) : (s.withPending cs).faults = s.faults := rfl
@[simp] theorem withPending_port (cs : List Instr) : (s.withPending cs).port = s.port := rfl
@[simp] theorem withPending_pending (cs : List Instr) : (s.withPending cs).pending = cs := rfl

end Sys2Proof.Machine
end

