-- ==== Sys2Proof/Laws/Table.lean ====
section
/-! SUPPORT. What the table's operations do to a read of one well's record, and what keeps its slots ordered. -/

namespace Sys2Proof.Machine

/-! ### Reading a record through a write -/

theorem isWell_iff (w : Well) (p : Nat × Slot) : isWell w p = true ↔ p.1 = w.slot ∧ p.2.tag = w.tag := by
  simp [isWell]

theorem well?_eq_some {s : State} {w : Well} {x : Slot} :
    s.well? w = some x ↔ s.slot? w.slot = some x ∧ x.tag = w.tag := by
  unfold State.well?
  cases h : s.slot? w.slot with
  | none => simp
  | some y => by_cases e : y.tag = w.tag <;> simp [e] <;> aesop

theorem record?_eq_some {s : State} {w : Well} {r : WellRecord} :
    s.record? w = some r ↔ ∃ x, s.well? w = some x ∧ x.record = r := by
  simp [State.record?, Option.map_eq_some_iff]

/-- A well read by `well?` stands in the table under its slot and tag. -/
theorem mem_of_well? {s : State} {w : Well} {x : Slot} (h : s.well? w = some x) :
    (w.slot, x) ∈ s.slots ∧ x.tag = w.tag := by
  obtain ⟨h1, h2⟩ := well?_eq_some.1 h
  unfold State.slot? at h1
  rw [Option.map_eq_some_iff] at h1
  obtain ⟨p, hp, rfl⟩ := h1
  have := List.mem_of_find?_eq_some hp
  have hk := List.find?_some hp
  simp at hk
  exact ⟨by rw [← hk]; exact this, h2⟩

theorem find?_map_key (g : Nat × Slot → Nat × Slot) (hg : ∀ p, (g p).1 = p.1) (n : Nat) (l : List (Nat × Slot)) :
    (l.map g).find? (fun p => p.1 == n) = (l.find? (fun p => p.1 == n)).map g := by
  induction l with
  | nil => rfl
  | cons p l ih =>
    simp only [List.map_cons, List.find?_cons, hg]
    by_cases h : p.1 == n <;> simp [h, ih]

/-- A change of a well's slot that keeps the tag is seen by a read of that well, and by no other read. -/
theorem well?_changeSlot {f : Slot → Slot} (hf : ∀ x, (f x).tag = x.tag) (w v : Well) (s : State) :
    (changeSlot f w s).well? v = if v = w then (s.well? w).map f else s.well? v := by
  have key : (changeSlot f w s).slot? v.slot =
      (s.slot? v.slot).map fun x => if isWell w (v.slot, x) then f x else x := by
    unfold State.slot?
    rw [changeSlot_slots, find?_map_key _ (by intro p; by_cases h : isWell w p <;> simp [h])]
    cases h : s.slots.find? (fun p => p.1 == v.slot) with
    | none => rfl
    | some p =>
      have := List.find?_some h
      simp at this
      simp only [Option.map_some]
      rw [show (v.slot, p.2) = p by rw [← this]]
      by_cases e : isWell w p <;> simp [e]
  unfold State.well?
  rw [key]
  cases h : s.slot? v.slot with
  | none => by_cases e : v = w <;> simp [e]; subst e; simp [h]
  | some x =>
    by_cases e : v = w
    · subst e
      by_cases t : x.tag = v.tag <;> simp [isWell, h, t, hf]
    · have hw : ¬ (v.slot = w.slot ∧ x.tag = w.tag ∧ x.tag = v.tag) := by
        rintro ⟨a, b, c⟩
        apply e
        cases v; cases w; simp_all
      by_cases t : x.tag = v.tag
      · by_cases i : isWell w (v.slot, x) = true
        · rw [isWell_iff] at i; exact absurd ⟨i.1, i.2, t⟩ hw
        · simp [e, i, t]
      · by_cases i : isWell w (v.slot, x) = true <;> simp [e, i, t, hf]

theorem well?_writeRecord (f : WellRecord → WellRecord) (w v : Well) (s : State) :
    (writeRecord f w s).well? v = if v = w then (s.well? w).map (Slot.write f) else s.well? v :=
  well?_changeSlot (f := Slot.write f) (fun _ => rfl) w v s

/-- A write of a well's record is seen by a read of that well, and by no other read. -/
theorem record?_writeRecord (f : WellRecord → WellRecord) (w v : Well) (s : State) :
    (writeRecord f w s).record? v = if v = w then (s.record? w).map f else s.record? v := by
  unfold State.record?
  rw [well?_writeRecord]
  by_cases e : v = w <;> simp [e, Option.map_map]
  rfl

/-- A change of a slot that keeps its record is seen by no read of a record. -/
theorem record?_changeSlot {f : Slot → Slot} (hf : ∀ x, (f x).record = x.record ∧ (f x).tag = x.tag) (w v : Well)
    (s : State) :
    (changeSlot f w s).record? v = s.record? v := by
  unfold State.record?
  rw [well?_changeSlot (fun x => (hf x).2)]
  by_cases e : v = w
  · subst e; cases h : s.well? v <;> simp [hf]
  · simp [e]

/-- States with the same slots read alike. -/
theorem well?_congr {s t : State} (h : t.slots = s.slots) (w : Well) : t.well? w = s.well? w := by
  simp [State.well?, State.slot?, h]

theorem record?_congr {s t : State} (h : t.slots = s.slots) (w : Well) : t.record? w = s.record? w := by
  simp [State.record?, well?_congr h]

/-! ### Uniqueness in an ordered table -/

/-- In an ordered table, the only entry of a well is the one its read finds. -/
theorem SlotsOrdered.unique {s : State} (h : s.SlotsOrdered) {p q : Nat × Slot} (hp : p ∈ s.slots) (hq : q ∈ s.slots)
    (e : p.1 = q.1) : p = q := by
  have hd : s.slots.Pairwise (fun p q => p.1 ≠ q.1) := h.1.imp fun h => Nat.ne_of_lt h
  have := (List.pairwise_iff_getElem.1 hd)
  obtain ⟨i, hi, rfl⟩ := List.mem_iff_getElem.1 hp
  obtain ⟨j, hj, rfl⟩ := List.mem_iff_getElem.1 hq
  rcases Nat.lt_trichotomy i j with l | l | l
  · exact absurd e (this i j hi hj l)
  · subst l; rfl
  · exact absurd e.symm (this j i hj hi l)

theorem SlotsOrdered.well? {s : State} (h : s.SlotsOrdered) {w : Well} {p : Nat × Slot} (hp : p ∈ s.slots)
    (hw : isWell w p = true) : s.well? w = some p.2 := by
  rw [isWell_iff] at hw
  rw [well?_eq_some]
  refine ⟨?_, hw.2⟩
  unfold State.slot?
  cases hf : s.slots.find? (fun q => q.1 == w.slot) with
  | none =>
    rw [List.find?_eq_none] at hf
    exact absurd (by simp [hw.1]) (hf p hp)
  | some q =>
    have hq := List.find?_some hf
    simp at hq
    have := SlotsOrdered.unique h (List.mem_of_find?_eq_some hf) hp (by rw [hq, hw.1])
    simp [this]

/-! ### Order kept -/

theorem pairwise_map_key {g : Nat × Slot → Nat × Slot} (hg : ∀ p, (g p).1 = p.1) {l : List (Nat × Slot)}
    (h : l.Pairwise (fun p q => p.1 < q.1)) : (l.map g).Pairwise (fun p q => p.1 < q.1) := by
  rw [List.pairwise_map]
  exact h.imp fun hab => by rw [hg, hg]; exact hab

theorem SlotsOrdered.map {s t : State} (g : Nat × Slot → Nat × Slot) (hg : ∀ p, (g p).1 = p.1)
    (e : t.slots = s.slots.map g) (h : s.SlotsOrdered) : t.SlotsOrdered := by
  constructor
  · rw [e]; exact pairwise_map_key hg h.1
  · intro p hp
    rw [e, List.mem_map] at hp
    obtain ⟨q, hq, rfl⟩ := hp
    rw [hg]; exact h.2 q hq

theorem SlotsOrdered.filter {s t : State} (b : Nat × Slot → Bool) (e : t.slots = s.slots.filter b)
    (h : s.SlotsOrdered) : t.SlotsOrdered := by
  refine ⟨?_, ?_⟩
  · rw [e]; exact h.1.filter _
  · intro p hp
    rw [e] at hp
    exact h.2 p (List.mem_of_mem_filter hp)

/-! ### Ascending lists -/

/-- The lowest number, from `n` on, that no entry of an ascending list carries (R6). -/
theorem firstFree_spec {α : Type} (n : Nat) (l : List (Nat × α)) (h : l.Pairwise (fun p q => p.1 < q.1))
    (hn : ∀ p ∈ l, n ≤ p.1) :
    n ≤ firstFree n l ∧ (∀ p ∈ l, p.1 ≠ firstFree n l) ∧ ∀ m, n ≤ m → m < firstFree n l → ∃ p ∈ l, p.1 = m := by
  induction l generalizing n with
  | nil =>
    refine ⟨Nat.le_refl _, by simp, ?_⟩
    intro m h1 h2
    simp only [firstFree] at h2
    omega
  | cons a l ih =>
    rw [List.pairwise_cons] at h
    unfold firstFree
    split
    · rename_i e
      obtain ⟨h1, h2, h3⟩ := ih (n+1) h.2 (fun p hp => by have := h.1 p hp; omega)
      refine ⟨by omega, ?_, ?_⟩
      · intro p hp
        rcases List.mem_cons.1 hp with rfl | hp
        · omega
        · exact h2 p hp
      · intro m hm1 hm2
        by_cases e' : m = n
        · exact ⟨a, by simp, by omega⟩
        · obtain ⟨p, hp, e⟩ := h3 m (by omega) hm2
          exact ⟨p, by simp [hp], e⟩
    · rename_i e
      refine ⟨le_refl _, ?_, by omega⟩
      intro p hp
      have h0 := hn a (by simp)
      rcases List.mem_cons.1 hp with rfl | hp
      · omega
      · have := h.1 p hp; omega

theorem mem_insertAscending {α : Type} (k : Nat) (v : α) (l : List (Nat × α)) (p : Nat × α) :
    p ∈ insertAscending k v l ↔ p = (k, v) ∨ p ∈ l := by
  induction l with
  | nil => simp [insertAscending]
  | cons a l ih =>
    unfold insertAscending
    split
    · simp
    · simp only [List.mem_cons, ih]; tauto

/-- An entry with a new key keeps an ascending list ascending (R3). -/
theorem insertAscending_ascending {α : Type} (k : Nat) (v : α) (l : List (Nat × α))
    (h : l.Pairwise (fun p q => p.1 < q.1)) (hk : ∀ p ∈ l, p.1 ≠ k) :
    (insertAscending k v l).Pairwise (fun p q => p.1 < q.1) := by
  induction l with
  | nil => simp [insertAscending]
  | cons a l ih =>
    unfold insertAscending
    rw [List.pairwise_cons] at h
    split
    · rename_i e
      rw [List.pairwise_cons]
      refine ⟨?_, List.pairwise_cons.2 h⟩
      intro p hp
      rcases List.mem_cons.1 hp with rfl | hp
      · exact e
      · have := h.1 p hp; show k < p.1; omega
    · rename_i e
      rw [List.pairwise_cons]
      refine ⟨?_, ih h.2 (fun p hp => hk p (by simp [hp]))⟩
      intro p hp
      rw [mem_insertAscending] at hp
      have := hk a (by simp)
      rcases hp with rfl | hp
      · show a.1 < k; omega
      · exact h.1 p hp

end Sys2Proof.Machine
end

