-- ==== Sys2Proof/Laws/Tame.lean ====
section
/-! SUPPORT. What an internal operation guarantees, said once: `Tame` for every operation the commands are made of, and
`Calm` for those that neither report a fault nor free a record nor move the device state, the permit or a round. Each
operation has one lemma below and in the files after; a proof about a command cites them and unfolds no operation. -/

namespace Sys2Proof.Machine

/-- Both alert lines stand as their conditions do (R80). -/
abbrev State.AlertsFollow (s : State) : Prop := s.lines.alertA = s.alertAStands ∧ s.lines.alertB = s.alertBStands

/-- WAKE is released in RUN (R83). -/
abbrev State.WakeReleased (s : State) : Prop := s.device.state = .run → s.lines.wake = false

/-- What every internal operation keeps, but for the alert lines and the permit, which some operations set last. -/
structure Tame0 (s t : State) : Prop where
  settings : t.settings = s.settings
  time     : t.time = s.time
  port     : t.port = s.port
  pending  : t.pending = s.pending
  wake     : s.WakeReleased → t.WakeReleased
  faults   : s.FaultsLegal → t.FaultsLegal
  legal    : s.RecordsLegal → t.RecordsLegal
  agrees   : s.IndexAgrees → t.IndexAgrees
  holders  : s.HoldersBounded → t.HoldersBounded

/-- What every internal operation keeps. -/
structure Tame (s t : State) : Prop extends Tame0 s t where
  permit : s.PermitSafe → t.PermitSafe
  alerts : s.AlertsFollow → t.AlertsFollow

/-- What a calm operation keeps. -/
structure Calm0 (s t : State) : Prop where
  index    : t.index = s.index
  settings : t.settings = s.settings
  time     : t.time = s.time
  scan     : t.scan = s.scan
  blend    : t.blend = s.blend
  faults   : t.faults = s.faults
  port     : t.port = s.port
  pending  : t.pending = s.pending
  state    : t.device.state = s.device.state
  suction  : t.device.suction = s.device.suction
  owed     : t.device.owed = s.device.owed
  failures : t.seq.failures = s.seq.failures
  wake     : s.WakeReleased → t.WakeReleased
  legal    : s.RecordsLegal → t.RecordsLegal
  agrees   : s.IndexAgrees → t.IndexAgrees
  holders  : s.HoldersBounded → t.HoldersBounded

structure Calm (s t : State) : Prop extends Calm0 s t where
  alerts : s.AlertsFollow → t.AlertsFollow

theorem Tame0.trans {s t u : State} (a : Tame0 s t) (b : Tame0 t u) : Tame0 s u :=
  ⟨b.settings.trans a.settings, b.time.trans a.time, b.port.trans a.port, b.pending.trans a.pending,
    b.wake ∘ a.wake, b.faults ∘ a.faults, b.legal ∘ a.legal, b.agrees ∘ a.agrees, b.holders ∘ a.holders⟩

theorem Tame.trans {s t u : State} (a : Tame s t) (b : Tame t u) : Tame s u :=
  ⟨a.toTame0.trans b.toTame0, b.permit ∘ a.permit, b.alerts ∘ a.alerts⟩

theorem Calm0.trans {s t u : State} (a : Calm0 s t) (b : Calm0 t u) : Calm0 s u :=
  ⟨b.index.trans a.index, b.settings.trans a.settings, b.time.trans a.time, b.scan.trans a.scan,
    b.blend.trans a.blend, b.faults.trans a.faults, b.port.trans a.port, b.pending.trans a.pending,
    b.state.trans a.state, b.suction.trans a.suction, b.owed.trans a.owed, b.failures.trans a.failures, b.wake ∘ a.wake,
    b.legal ∘ a.legal, b.agrees ∘ a.agrees, b.holders ∘ a.holders⟩

theorem Calm.trans {s t u : State} (a : Calm s t) (b : Calm t u) : Calm s u :=
  ⟨a.toCalm0.trans b.toCalm0, b.alerts ∘ a.alerts⟩

theorem Tame0.refl (s : State) : Tame0 s s := ⟨rfl, rfl, rfl, rfl, id, id, id, id, id⟩

theorem Tame.refl (s : State) : Tame s s := ⟨.refl s, id, id⟩

theorem Calm0.refl (s : State) : Calm0 s s :=
  ⟨rfl, rfl, rfl, rfl, rfl, rfl, rfl, rfl, rfl, rfl, rfl, rfl, id, id, id, id⟩

theorem Calm.refl (s : State) : Calm s s := ⟨.refl s, id⟩

theorem Calm0.tame {s t : State} (c : Calm0 s t) : Tame0 s t :=
  ⟨c.settings, c.time, c.port, c.pending, c.wake,
    fun h => by simpa only [State.FaultsLegal, c.faults, c.failures] using h,
    c.legal, c.agrees, c.holders⟩

theorem Calm0.permit {s t : State} (c : Calm0 s t) (h : s.PermitSafe) : t.PermitSafe := by
  simpa only [State.PermitSafe, c.blend, c.state, c.suction, c.owed] using h

theorem Calm.tame {s t : State} (c : Calm s t) : Tame s t := ⟨c.toCalm0.tame, c.permit, c.alerts⟩

/-! ### Writes of records -/

/-- A write keeps a well's kinds and enables. -/
abbrev SameAlarm (f : WellRecord → WellRecord) : Prop :=
  ∀ r, (f r).events = r.events ∧ (f r).enableA = r.enableA ∧ (f r).enableB = r.enableB

/-- A write keeps a well's name. -/
abbrev SameTag (f : WellRecord → WellRecord) : Prop := ∀ r, (f r).tag = r.tag

theorem RecordsLegal.changeSlot {s : State} {f : Slot → Slot} {w : Well}
    (hf : ∀ x, s.well? w = some x → x.record.Legal → (f x).record.Legal) (h : s.RecordsLegal) :
    (changeSlot f w s).RecordsLegal := by
  refine ⟨SlotsOrdered.map _ (fun p => by by_cases e : isWell w p <;> simp [e]) (changeSlot_slots s f w) h.1, ?_⟩
  intro p hp
  rw [changeSlot_slots, List.mem_map] at hp
  obtain ⟨q, hq, rfl⟩ := hp
  by_cases e : isWell w q = true
  · simp only [e, if_true]
    exact hf _ (SlotsOrdered.well? h.1 hq e) (h.2 q hq)
  · simp only [e]
    exact h.2 q hq

theorem IndexAgrees.map {s t : State} (g : Nat × Slot → Nat × Slot) (hg : ∀ p, (g p).1 = p.1)
    (ht : ∀ p, (g p).2.tag = p.2.tag ∧ (g p).2.record.tag = p.2.record.tag) (e : t.slots = s.slots.map g) (i : t.index = s.index)
    (h : s.IndexAgrees) : t.IndexAgrees := by
  obtain ⟨h1, h2, h3, h4⟩ := h
  refine ⟨SlotsOrdered.map g hg e h1, by rw [i]; exact h2, ?_, ?_⟩
  · intro p hp
    rw [e, List.mem_map] at hp
    obtain ⟨q, hq, rfl⟩ := hp
    rw [i, (ht q).1, (ht q).2, hg]
    exact h3 q hq
  · intro q hq
    rw [i] at hq
    obtain ⟨p, hp, a, b⟩ := h4 q hq
    exact ⟨g p, by rw [e]; exact List.mem_map_of_mem hp, by rw [hg, a], by rw [(ht p).1, b]⟩

theorem any_map_slots {s : State} {f : Slot → Slot} {w : Well} (b : Nat × Slot → Bool)
    (hb : ∀ p, b (p.1, f p.2) = b p) : (changeSlot f w s).slots.any b = s.slots.any b := by
  rw [changeSlot_slots, List.any_map]
  congr 1
  funext p
  by_cases e : isWell w p <;> simp [e, hb]

/-- A change of a slot that keeps the tag, and a legal record legal. -/
theorem changeSlot_calm0 {f : Slot → Slot} {w : Well} {s : State} (ht : ∀ x, (f x).tag = x.tag ∧ (f x).record.tag = x.record.tag)
    (hl : ∀ x, s.well? w = some x → x.record.Legal → (f x).record.Legal) : Calm0 s (changeSlot f w s) :=
  ⟨rfl, rfl, rfl, rfl, rfl, rfl, rfl, rfl, rfl, rfl, rfl, rfl, id, RecordsLegal.changeSlot hl,
    IndexAgrees.map _ (fun p => by by_cases e : isWell w p <;> simp [e])
      (fun p => by by_cases e : isWell w p <;> simp [e, ht]) (changeSlot_slots s f w) rfl, id⟩

theorem changeSlot_calm {f : Slot → Slot} {w : Well} {s : State}
    (ht : ∀ x, (f x).record = x.record ∧ (f x).tag = x.tag) : Calm s (changeSlot f w s) :=
  ⟨changeSlot_calm0 (fun x => ⟨(ht x).2, by rw [(ht x).1]⟩) (fun x _ h => by rw [(ht x).1]; exact h), fun h => by
    simp only [State.AlertsFollow, State.alertAStands, State.alertBStands] at h ⊢
    rw [any_map_slots _ (fun p => by simp [(ht _).1]), any_map_slots _ (fun p => by simp [(ht _).1])]
    exact h⟩

/-- A write that keeps the tag, and the found record legal. -/
theorem writeRecord_calm0 {f : WellRecord → WellRecord} {w : Well} {s : State} (ht : SameTag f)
    (hl : ∀ r, s.record? w = some r → r.Legal → (f r).Legal) : Calm0 s (writeRecord f w s) :=
  changeSlot_calm0 (fun x => ⟨rfl, ht x.record⟩) fun x hx h =>
    hl x.record (by simp [State.record?, hx]) h

/-- A write that also keeps the kinds and the enables. -/
theorem writeRecord_calm {f : WellRecord → WellRecord} {w : Well} {s : State} (ht : SameTag f) (ha : SameAlarm f)
    (hl : ∀ r, s.record? w = some r → r.Legal → (f r).Legal) : Calm s (writeRecord f w s) :=
  ⟨writeRecord_calm0 ht hl, fun h => by
    have e : ∀ (b : Nat × Slot → Bool), (∀ p, b (p.1, p.2.write f) = b p) →
        (writeRecord f w s).slots.any b = s.slots.any b := fun b hb => any_map_slots b hb
    simp only [State.AlertsFollow, State.alertAStands, State.alertBStands] at h ⊢
    rw [e _ (fun p => by simp [Slot.write, ha]), e _ (fun p => by simp [Slot.write, ha])]
    exact h⟩

/-- A write of fields that no claim of legality and no alert reads. -/
theorem writeRecord_plain {f : WellRecord → WellRecord} {w : Well} {s : State} (ht : SameTag f) (ha : SameAlarm f)
    (hl : ∀ r, r.Legal → (f r).Legal) : Calm s (writeRecord f w s) := writeRecord_calm ht ha fun r _ => hl r

/-! ### Updates of the units -/

/-- An update that keeps the table, the lines, the device unit and every unit a calm operation keeps. -/
theorem calm_of_eq {s t : State} (slots : t.slots = s.slots) (index : t.index = s.index)
    (settings : t.settings = s.settings) (time : t.time = s.time) (scan : t.scan = s.scan)
    (blend : t.blend = s.blend) (faults : t.faults = s.faults) (port : t.port = s.port)
    (pending : t.pending = s.pending) (device : t.device = s.device) (lines : t.lines = s.lines)
    (failures : t.seq.failures = s.seq.failures) (holders : s.HoldersBounded → t.HoldersBounded) : Calm s t where
  index := index
  settings := settings
  time := time
  scan := scan
  blend := blend
  faults := faults
  port := port
  pending := pending
  state := by rw [device]
  suction := by rw [device]
  owed := by rw [device]
  failures := failures
  wake := fun h => by simpa only [State.WakeReleased, device, lines] using h
  legal := fun h => by simpa only [State.RecordsLegal, State.SlotsOrdered, slots] using h
  agrees := fun h => by simpa only [State.IndexAgrees, State.SlotsOrdered, slots, index] using h
  holders := holders
  alerts := fun h => by
    simpa only [State.AlertsFollow, State.alertAStands, State.alertBStands, slots, device, settings, lines] using h

theorem setQueue_calm (q : List QueueEntry) (s : State) : Calm s (setQueue q s) :=
  calm_of_eq rfl rfl rfl rfl rfl rfl rfl rfl rfl rfl rfl rfl id

theorem setPhase_calm (p : Phase) (s : State) : Calm s (setPhase p s) :=
  calm_of_eq rfl rfl rfl rfl rfl rfl rfl rfl rfl rfl rfl rfl id

theorem setBusyCount_calm (n : Nat) (s : State) : Calm s (setBusyCount n s) :=
  calm_of_eq rfl rfl rfl rfl rfl rfl rfl rfl rfl rfl rfl rfl id

theorem raiseNumber_calm (s : State) : Calm s (raiseNumber s) :=
  calm_of_eq rfl rfl rfl rfl rfl rfl rfl rfl rfl rfl rfl rfl id

theorem leaveLists_calm (w : Well) (s : State) : Calm s (leaveLists w s) :=
  calm_of_eq rfl rfl rfl rfl rfl rfl rfl rfl rfl rfl rfl rfl
    fun h => ⟨h.1, le_trans (List.length_filter_le _ _) h.2⟩

theorem restartTimer_calm (w : Well) (s : State) : Calm s (restartTimer w s) :=
  calm_of_eq rfl rfl rfl rfl rfl rfl rfl rfl rfl rfl rfl rfl fun h => ⟨h.1, by simpa using h.2⟩

theorem tickSequencer_calm (s : State) : Calm s (tickSequencer s) := setPhase_calm _ s

theorem tickMoves_calm (s : State) : Calm s (tickMoves s) :=
  calm_of_eq rfl rfl rfl rfl rfl rfl rfl rfl rfl rfl rfl rfl fun h => ⟨h.1, by simpa using h.2⟩

/-! ### The alert lines -/

theorem evalAlerts_alerts (s : State) : (evalAlerts s).AlertsFollow := ⟨rfl, rfl⟩

theorem evalAlerts_calm (s : State) : Calm s (evalAlerts s) :=
  ⟨⟨rfl, rfl, rfl, rfl, rfl, rfl, rfl, rfl, rfl, rfl, rfl, rfl, id, id, id, id⟩, fun _ => evalAlerts_alerts s⟩

theorem wakeTest_calm (k : WellEvent) (w : Well) (s : State) : Calm s (wakeTest k w s) := by
  unfold wakeTest
  split
  · exact .refl s
  · split
    · rename_i h
      exact ⟨⟨rfl, rfl, rfl, rfl, rfl, rfl, rfl, rfl, rfl, rfl, rfl, rfl, fun _ e => by simp [h.1] at e, id, id, id⟩, id⟩
    · exact .refl s

/-- A write that the evaluation of the lines follows. -/
theorem evalAlerts_after {s t : State} (h : Calm0 s t) : Calm s (evalAlerts t) :=
  ⟨h.trans (evalAlerts_calm t).toCalm0, fun _ => evalAlerts_alerts t⟩

theorem setWellEvent_calm (k : WellEvent) (w : Well) (s : State) : Calm s (setWellEvent k w s) := by
  have h : Calm0 s (writeRecord (addEvent k) w s) := writeRecord_calm0 (fun _ => rfl) (fun _ _ h => h)
  exact (evalAlerts_after h).trans (wakeTest_calm k w _)

theorem setDeviceEvent_calm (k : DeviceEvent) (s : State) : Calm s (setDeviceEvent k s) :=
  evalAlerts_after ⟨rfl, rfl, rfl, rfl, rfl, rfl, rfl, rfl, rfl, rfl, rfl, rfl, id, id, id, id⟩

theorem ackWell_calm (m : BitVec 8) (w : Well) (s : State) : Calm s (ackWell m w s) := by
  have h : Calm0 s (writeRecord (fun r => { r with events := r.events &&& ~~~m }) w s) :=
    writeRecord_calm0 (fun _ => rfl) (fun _ _ h => h)
  exact evalAlerts_after h

theorem ackDevice_calm (m : BitVec 8) (s : State) : Calm s (ackDevice m s) :=
  evalAlerts_after ⟨rfl, rfl, rfl, rfl, rfl, rfl, rfl, rfl, rfl, rfl, rfl, rfl, id, id, id, id⟩

/-- An operation that reads `record?` and is calm whatever it finds. -/
theorem forEach_calm {ws : List Well} {f : Well → State → State} (hf : ∀ w s, Calm s (f w s)) (s : State) :
    Calm s (forEach ws f s) := by
  unfold forEach
  induction ws generalizing s with
  | nil => exact .refl s
  | cons w ws ih => exact (hf w s).trans (ih (f w s))

theorem forEach_tame {ws : List Well} {f : Well → State → State} (hf : ∀ w s, Tame s (f w s)) (s : State) :
    Tame s (forEach ws f s) := by
  unfold forEach
  induction ws generalizing s with
  | nil => exact .refl s
  | cons w ws ih => exact (hf w s).trans (ih (f w s))

end Sys2Proof.Machine
end

