-- ==== Sys2Proof/Laws/Units.lean ====
section
/-! SUPPORT. Every operation of the move scheduler and of the sample queue is calm (chapters 5 and 6). -/

namespace Sys2Proof.Machine

/-! ### Moves -/

theorem setMoveState_calm (m : MoveState) (w : Well) (s : State) : Calm s (setMoveState m w s) := by
  unfold setMoveState
  exact writeRecord_plain (fun _ => rfl) (fun _ => ⟨rfl, rfl, rfl⟩) fun _ h => h

/-- A grant keeps the holder list within MOVE_SLOTS. -/
theorem grant_calm (w : Well) (rest : List Well) (s : State) (h : s.slotOpen = true) : Calm s (grant w rest s) := by
  unfold grant
  refine Calm.trans (t := { s with moves :=
    { holders := s.moves.holders ++ [{ well := w, timer := s.settings.moveTimeout }], waiting := rest } }) ?_
    (setMoveState_calm _ _ _)
  refine calm_of_eq rfl rfl rfl rfl rfl rfl rfl rfl rfl rfl rfl rfl fun hb => ⟨hb.1, ?_⟩
  simp only [State.slotOpen, Bool.and_eq_true, decide_eq_true_eq] at h
  have h2 := h.2
  have h1 := hb.1
  simp only [List.length_append, List.length_cons, List.length_nil]
  omega

theorem grantLoop_calm (ws : List Well) (s : State) : Calm s (grantLoop ws s) := by
  induction ws generalizing s with
  | nil => exact .refl s
  | cons w ws ih =>
    unfold grantLoop
    split
    · rename_i h; exact (grant_calm w ws s h).trans (ih _)
    · exact .refl s

theorem grantTest_calm (s : State) : Calm s (grantTest s) := grantLoop_calm _ s

theorem endMove_calm (o : MoveOutcome) (w : Well) (s : State) : Calm s (endMove o w s) := by
  unfold endMove
  refine ((leaveLists_calm w s).trans ?_).trans (setWellEvent_calm _ _ _)
  exact writeRecord_plain (fun _ => rfl) (fun _ => ⟨rfl, rfl, rfl⟩) fun _ h => h

theorem abandonMoves_calm (ws : List Well) (s : State) : Calm s (abandonMoves ws s) := by
  unfold abandonMoves
  apply forEach_calm
  intro w t
  split
  · exact endMove_calm _ _ _
  · exact .refl t

theorem abandonAllMoves_calm (s : State) : Calm s (abandonAllMoves s) := abandonMoves_calm _ s

theorem blockMove_calm (w : Well) (s : State) : Calm s (blockMove w s) := by
  unfold blockMove
  split
  · exact (endMove_calm _ _ _).trans (grantTest_calm _)
  · split
    · exact endMove_calm _ _ _
    · exact .refl s

theorem joinWaitList_calm (w : Well) (s : State) : Calm s (joinWaitList w s) := by
  unfold joinWaitList
  refine Calm.trans (t := { s with moves := { s.moves with waiting := s.moves.waiting ++ [w] } }) ?_
    ((setMoveState_calm _ _ _).trans (grantTest_calm _))
  exact calm_of_eq rfl rfl rfl rfl rfl rfl rfl rfl rfl rfl rfl rfl id

theorem leaveQuietly_calm (w : Well) (s : State) : Calm s (leaveQuietly w s) :=
  (leaveLists_calm w s).trans (setMoveState_calm _ _ _)

theorem findBlocked_calm (w : Well) (s : State) : Calm s (findBlocked w s) := by
  unfold findBlocked
  refine Calm.trans ?_ (setWellEvent_calm _ _ _)
  exact writeRecord_plain (fun _ => rfl) (fun _ => ⟨rfl, rfl, rfl⟩) fun _ h => h

theorem startPulse_calm (w : Well) (s : State) : Calm s (startPulse w s) := by
  unfold startPulse
  refine Calm.trans ?_ (changeSlot_calm fun _ => ⟨rfl, rfl⟩)
  exact writeRecord_plain (fun _ => rfl) (fun _ => ⟨rfl, rfl, rfl⟩) fun _ h => h

/-! ### Samples -/

theorem setQueued_calm (q : Queued) (w : Well) (s : State) : Calm s (setQueued q w s) := by
  unfold setQueued
  exact writeRecord_plain (fun _ => rfl) (fun _ => ⟨rfl, rfl, rfl⟩) fun _ h => h

theorem placeInQueue_calm (c : SampleClass) (w : Well) (s : State) : Calm s (placeInQueue c w s) :=
  (setQueue_calm _ s).trans (setQueued_calm _ _ _)

theorem removeEntry_calm (w : Well) (s : State) : Calm s (removeEntry w s) := by
  unfold removeEntry
  split
  · exact (setQueue_calm _ s).trans (setQueued_calm _ _ _)
  · exact .refl s

theorem writeOutcome_calm (o : SampleOutcome) (w : Well) (s : State) : Calm s (writeOutcome o w s) := by
  unfold writeOutcome
  refine Calm.trans ?_ (setWellEvent_calm _ _ _)
  exact writeRecord_plain (fun _ => rfl) (fun _ => ⟨rfl, rfl, rfl⟩) fun _ h => h

theorem selectWell_calm (w : Well) (s : State) : Calm s (selectWell w s) := by
  unfold selectWell
  refine Calm.trans (t := { s with seq := { s.seq with phase := .select w, busyCount := 0 } }) ?_
    (setQueued_calm _ _ _)
  exact calm_of_eq rfl rfl rfl rfl rfl rfl rfl rfl rfl rfl rfl rfl id

theorem takeHeads_calm (q : List QueueEntry) (s : State) : Calm s (takeHeads q s) := by
  induction q generalizing s with
  | nil => exact .refl s
  | cons e q ih =>
    unfold takeHeads
    refine (setQueue_calm q s).trans ?_
    dsimp only
    split
    · exact ((writeOutcome_calm _ _ _).trans (setQueued_calm _ _ _)).trans (ih _)
    · exact selectWell_calm _ _

theorem headTest_calm (s : State) : Calm s (headTest s) := by
  unfold headTest
  split
  · exact takeHeads_calm _ s
  · exact .refl s

theorem abortSample_calm (s : State) : Calm s (abortSample s) := by
  unfold abortSample
  split
  all_goals first
    | exact .refl s
    | exact (setPhase_calm _ s).trans (writeOutcome_calm _ _ _)

theorem abortSampleOf_calm (w : Well) (s : State) : Calm s (abortSampleOf w s) := by
  unfold abortSampleOf
  split
  · exact abortSample_calm s
  · exact .refl s

theorem leaveSampling_calm (w : Well) (s : State) : Calm s (leaveSampling w s) :=
  (removeEntry_calm w s).trans (abortSampleOf_calm w _)

theorem evict_calm (e : QueueEntry) (s : State) : Calm s (evict e s) := by
  unfold evict
  refine (setQueue_calm (withoutEntry e.well s.seq.queue) s).trans ?_
  exact writeRecord_plain (fun _ => rfl) (fun _ => ⟨rfl, rfl, rfl⟩) fun _ h => h

theorem dueAtOnce_calm (w : Well) (s : State) : Calm s (dueAtOnce w s) := by
  unfold dueAtOnce
  exact writeRecord_plain (fun _ => rfl) (fun _ => ⟨rfl, rfl, rfl⟩) fun _ h => h

theorem urgentEnqueue_calm (held : Bool) (w : Well) (s : State) : Calm s (urgentEnqueue held w s) := by
  have test (t : State) : Calm t (if held then t else headTest t) := by
    split
    · exact .refl t
    · exact headTest_calm t
  unfold urgentEnqueue
  dsimp only
  split
  · exact .refl s
  · split
    · exact .refl s
    · split
      · exact .refl s
      · exact (placeInQueue_calm _ _ _).trans (test _)
      · exact dueAtOnce_calm _ _
      · split
        · exact (placeInQueue_calm _ _ _).trans (test _)
        · split
          · exact ((evict_calm _ _).trans (placeInQueue_calm _ _ _)).trans (test _)
          · exact dueAtOnce_calm _ _

theorem surveyWell_calm (w : Well) (s : State) : Calm s (surveyWell w s) := by
  unfold surveyWell
  split
  · exact .refl s
  · split
    · exact .refl s
    · split
      · split
        · exact (placeInQueue_calm _ _ _).trans (headTest_calm _)
        · exact .refl s
      · exact writeRecord_plain (fun _ => rfl) (fun _ => ⟨rfl, rfl, rfl⟩) fun _ h => h

theorem survey_calm (s : State) : Calm s (survey s) := by
  unfold survey
  split
  · exact .refl s
  · exact forEach_calm surveyWell_calm s
  · exact forEach_calm surveyWell_calm s

/-- A change of every slot's record that keeps what the table's claims and the alerts read. -/
theorem changeAllSlots_calm {f : Slot → Slot} (ht : ∀ x, (f x).tag = x.tag ∧ (f x).record.tag = x.record.tag)
    (ha : ∀ x, (f x).record.events = x.record.events ∧ (f x).record.enableA = x.record.enableA ∧
      (f x).record.enableB = x.record.enableB)
    (hl : ∀ x, x.record.Legal → (f x).record.Legal) (s : State) : Calm s (changeAllSlots f s) := by
  refine ⟨⟨rfl, rfl, rfl, rfl, rfl, rfl, rfl, rfl, rfl, rfl, rfl, rfl, id, ?_, ?_, id⟩, ?_⟩
  · intro h
    refine ⟨SlotsOrdered.map (fun p => (p.1, f p.2)) (fun _ => rfl) (changeAllSlots_slots s f) h.1, ?_⟩
    intro p hp
    rw [changeAllSlots_slots, List.mem_map] at hp
    obtain ⟨q, hq, rfl⟩ := hp
    exact hl _ (h.2 q hq)
  · exact IndexAgrees.map (fun p => (p.1, f p.2)) (fun _ => rfl) (fun p => ht p.2) (changeAllSlots_slots s f) rfl
  · intro h
    simp only [State.AlertsFollow, State.alertAStands, State.alertBStands, changeAllSlots_slots,
      changeAllSlots_lines, changeAllSlots_device, changeAllSlots_settings, List.any_map] at h ⊢
    simpa only [Function.comp_def, ha] using h

theorem ageSamples_calm (s : State) : Calm s (ageSamples s) := by
  unfold ageSamples
  apply changeAllSlots_calm
  all_goals intro x; split <;> first | exact ⟨rfl, rfl⟩ | exact ⟨rfl, rfl, rfl⟩ | exact id

theorem tickPulses_calm (s : State) : Calm s (tickPulses s) := by
  unfold tickPulses
  apply changeAllSlots_calm
  all_goals intro x; unfold tickPulse; split <;> first | exact ⟨rfl, rfl⟩ | exact ⟨rfl, rfl, rfl⟩ | exact id

theorem drawMinute_legal (r : WellRecord) (h : r.Legal) : (drawMinute r).Legal := by
  unfold drawMinute
  split
  · exact h
  · obtain ⟨a, b, c, d, e, f1, f2, f3, f4⟩ := h
    exact ⟨a, b, c, d, e, f1, f2, f3, Nat.mod_lt _ (by decide)⟩

theorem cumulativeDraw_calm (s : State) : Calm s (cumulativeDraw s) := by
  unfold cumulativeDraw
  apply changeAllSlots_calm
  · intro x; split
    · unfold Slot.write drawMinute; dsimp only; split <;> exact ⟨rfl, rfl⟩
    · exact ⟨rfl, rfl⟩
  · intro x; split
    · simp only [Slot.write, drawMinute]; split <;> exact ⟨rfl, rfl, rfl⟩
    · exact ⟨rfl, rfl, rfl⟩
  · intro x; split
    · exact drawMinute_legal x.record
    · exact id

end Sys2Proof.Machine
end

