-- ==== Sys2Proof/Laws/Blocks.lean ====
section
/-! SUPPORT. Every operation of the blend unit, the scan engine's rounds and the fault unit is tame (chapters 3, 8 and
9). -/

namespace Sys2Proof.Machine

/-! ### The blend unit -/

/-- An update of the blend unit alone. -/
theorem tame_of_blend {s : State} {b : BlendUnit} (h : s.PermitSafe → State.PermitSafe { s with blend := b }) :
    Tame s { s with blend := b } :=
  ⟨⟨rfl, rfl, rfl, rfl, id, id, id, id, id⟩, h, id⟩

theorem formBlend_tame (s : State) : Tame s (formBlend s) := tame_of_blend fun h => h

theorem formBudget_tame (s : State) : Tame s (formBudget s) := by
  have h : Tame s { s with blend := { s.blend with
      fieldFlow := s.fieldFlowNow, budget := budgetOf s.fieldFlowNow s.settings.drawBudget } } :=
    tame_of_blend fun h => h
  unfold formBudget
  dsimp only
  split
  · exact h
  · exact h.trans (setDeviceEvent_calm _ _).tame

/-- What the permit, the hold timer and the device unit must say of each other, the two lines apart (R142 to R144). -/
abbrev State.PermitFits (s : State) : Prop :=
  (s.blend.holdTimer.isSome ↔ s.blend.permit = .pending) ∧
  (s.blend.permit = .granted → s.device.state = .run) ∧
  (s.blend.permit = .pending → s.device.state = .run ∨ s.device.owed.blend = true) ∧
  (s.blend.permit ≠ .withdrawn → s.device.suction = .high)

/-- The lines set from a permit that fits. -/
theorem setPermitLines_permit {s : State} (h : s.PermitFits) : (setPermitLines s).PermitSafe := by
  refine ⟨rfl, ?_, h⟩
  intro h
  simp only [setPermitLines] at h ⊢
  simp [h]

theorem withdrawn_fits (s : State) : (setPermit .withdrawn none s).PermitFits :=
  ⟨by simp [setPermit], by simp [setPermit], by simp [setPermit], fun e => absurd rfl e⟩

theorem setPermitLines_tame (s : State) : Tame s (setPermitLines s) :=
  tame_of_blend fun h => setPermitLines_permit h.2.2

theorem setPermit_tame0 (p : PermitState) (n : Option Nat) (s : State) : Tame0 s (setPermit p n s) :=
  ⟨rfl, rfl, rfl, rfl, id, id, id, id, id⟩

/-- The permit changes, and the lines follow. -/
theorem permitChange_tame {p : PermitState} {n : Option Nat} {s : State}
    (h : s.PermitSafe → (setPermit p n s).PermitFits) : Tame s (setPermitLines (setPermit p n s)) :=
  ⟨(setPermit_tame0 p n s).trans (setPermitLines_tame _).toTame0, fun hs => setPermitLines_permit (h hs), fun h => h⟩

/-- The permit changes with its event, and the lines follow. -/
theorem permitEvent_tame {p : PermitState} {n : Option Nat} {s : State}
    (h : s.PermitSafe → (setPermit p n s).PermitFits) :
    Tame s (setPermitLines (setDeviceEvent .permit (setPermit p n s))) :=
  ⟨((setPermit_tame0 p n s).trans (setDeviceEvent_calm .permit _).toCalm0.tame).trans
      (setPermitLines_tame _).toTame0,
    fun hs => setPermitLines_permit (h hs), fun _ => evalAlerts_alerts _⟩

theorem grantConditions_run {s : State} (h : s.grantConditions = true) :
    s.device.state = .run ∧ s.device.suction = .high := by
  simp only [State.grantConditions, State.permitConditions, Bool.and_eq_true, decide_eq_true_eq] at h
  exact h.1

theorem stepPermit_tame (s : State) : Tame s (setPermitLines (stepPermit s)) := by
  unfold stepPermit
  split
  · split
    · rename_i h
      exact permitChange_tame fun _ => ⟨by simp [setPermit], by simp [setPermit], fun _ => .inl (grantConditions_run h).1,
        fun _ => (grantConditions_run h).2⟩
    · exact setPermitLines_tame s
  · split
    · exact setPermitLines_tame s
    · exact permitChange_tame fun _ => withdrawn_fits _
  · split
    · exact setPermitLines_tame s
    · exact permitEvent_tame fun _ => withdrawn_fits _

theorem blendRoundEnd_tame (s : State) : Tame s (blendRoundEnd s) :=
  ((formBlend_tame s).trans (formBudget_tame _)).trans (stepPermit_tame _)

theorem withdrawPermit_tame (s : State) : Tame s (withdrawPermit s) := by
  unfold withdrawPermit
  split
  · exact setPermitLines_tame s
  · exact permitChange_tame fun _ => withdrawn_fits _
  · exact permitEvent_tame fun _ => withdrawn_fits _

theorem withdrawPermit_permitState (s : State) : (withdrawPermit s).blend.permit = .withdrawn := by
  unfold withdrawPermit
  split <;> first | assumption | rfl

/-- A withdrawal leaves a safe permit, whatever stood before it, when the hold timer fits the permit. -/
theorem withdrawPermit_permit {s : State} (h3 : s.blend.holdTimer.isSome ↔ s.blend.permit = .pending) :
    (withdrawPermit s).PermitSafe := by
  unfold withdrawPermit
  split
  · rename_i h
    exact setPermitLines_permit ⟨h3, fun e => by simp [h] at e, fun e => by simp [h] at e, fun e => absurd h e⟩
  · exact setPermitLines_permit (withdrawn_fits s)
  · exact setPermitLines_permit (withdrawn_fits s)

theorem tickHold_tame (s : State) : Tame s (tickHold s) :=
  tame_of_blend fun h => ⟨h.1, h.2.1, by simpa using h.2.2.1, h.2.2.2⟩

theorem takeHoldExpiry_tame (s : State) : Tame s (takeHoldExpiry s) := by
  unfold takeHoldExpiry
  split
  · rename_i hp
    split
    · rename_i hr
      exact permitEvent_tame fun h => ⟨by simp [setPermit], fun _ => hr, by simp [setPermit],
        fun _ => h.2.2.2.2.2 (by rw [hp]; decide)⟩
    · exact permitChange_tame fun _ => withdrawn_fits _
  · exact .refl s
  · exact .refl s

/-! ### Rounds -/

/-- An update of the scan engine alone. -/
theorem tame_of_scan (s : State) (c : ScanEngine) : Tame s { s with scan := c } :=
  ⟨⟨rfl, rfl, rfl, rfl, id, id, id, id, id⟩, id, id⟩

theorem changeStation_tame (f : StationRecord → StationRecord) (a : Nat) (s : State) : Tame s (changeStation f a s) :=
  tame_of_scan s _

theorem sendTo_tame (st : StationRecord) (s : State) : Tame s (sendTo st s) := tame_of_scan s _

theorem enrolStation_tame (a c : Nat) (s : State) : Tame s (enrolStation a c s) := by
  unfold enrolStation
  split
  · exact changeStation_tame _ _ s
  · exact tame_of_scan s _

theorem foldl_calm {α : Type} {l : List α} {f : State → α → State} (hf : ∀ t a, Calm t (f t a)) (s : State) :
    Calm s (l.foldl f s) := by
  induction l generalizing s with
  | nil => exact .refl s
  | cons a l ih => exact (hf s a).trans (ih _)

theorem foldl_tame {α : Type} {l : List α} {f : State → α → State} (hf : ∀ t a, Tame t (f t a)) (s : State) :
    Tame s (l.foldl f s) := by
  induction l generalizing s with
  | nil => exact .refl s
  | cons a l ih => exact (hf s a).trans (ih _)

theorem detectLevels_calm (w : Well) (s : State) : Calm s (detectLevels w s) := by
  unfold detectLevels
  split
  · exact .refl s
  · split
    · exact .refl s
    · apply foldl_calm
      intro t i
      split
      · exact setWellEvent_calm _ _ _
      · exact .refl t

theorem levelDetection_calm (s : State) : Calm s (levelDetection s) := by
  unfold levelDetection
  split
  · exact .refl s
  · exact forEach_calm detectLevels_calm s
  · exact forEach_calm detectLevels_calm s

theorem roundEnd_tame (s : State) : Tame s (roundEnd s) := (levelDetection_calm s).tame.trans (blendRoundEnd_tame _)

theorem finishRound_tame (s : State) : Tame s (finishRound s) :=
  (tame_of_scan s { s.scan with inFlight := none, round := .idle }).trans (roundEnd_tame _)

theorem beginRound_tame (s : State) : Tame s (beginRound s) := by
  unfold beginRound
  split
  · exact finishRound_tame s
  · exact sendTo_tame _ s

theorem visitNext_tame (s : State) : Tame s (visitNext s) := by
  unfold visitNext
  split
  · exact .refl s
  · split
    · exact sendTo_tame _ s
    · dsimp only
      split
      · exact (finishRound_tame s).trans (beginRound_tame _)
      · exact finishRound_tame s

theorem beginRoundIfIdle_tame (s : State) : Tame s (beginRoundIfIdle s) := by
  unfold beginRoundIfIdle
  split
  · exact beginRound_tame s
  · exact .refl s

theorem dropStationChannel_tame (a c : Nat) (s : State) : Tame s (dropStationChannel a c s) := by
  have h := changeStation_tame (StationRecord.dropped c) a s
  unfold dropStationChannel
  dsimp only
  split
  · exact h
  · split
    · refine h.trans ?_
      split
      · exact tame_of_scan _ _
      · split
        · exact (tame_of_scan _ _).trans (visitNext_tame _)
        · exact tame_of_scan _ _
    · exact h

/-! ### The fault unit -/

theorem recordFault_tame (k : FaultKind) (n : Nat) (d : Half) (s : State) : Tame s (recordFault k n d s) := by
  refine ⟨⟨rfl, rfl, rfl, rfl, id, ?_, id, id, id⟩, id, id⟩
  intro h
  refine ⟨?_, h.2⟩
  simp only [recordFault, FaultUnit.written]
  split
  · intro e; simp at e
  · rename_i e; intro e'; simp [e] at e'

theorem setDeviceState_safe_tame0 (s : State) : Tame0 s (setDeviceState .safe s) :=
  ⟨rfl, rfl, rfl, rfl, fun _ h => by simp [setDeviceState] at h, id, id, id, id⟩

/-! ### A change of the device state reaches the blocks -/

theorem setOwed_tame0 (h : Handover) (s : State) : Tame0 s (setOwed h s) := ⟨rfl, rfl, rfl, rfl, id, id, id, id, id⟩

theorem takeIf_tame {f : State → State} (b : Bool) (hf : ∀ t, Tame t (f t)) (s : State) : Tame s (takeIf b f s) := by
  cases b
  · exact .refl s
  · exact hf s

theorem takeIf_calm {f : State → State} (b : Bool) (hf : ∀ t, Calm t (f t)) (s : State) : Calm s (takeIf b f s) := by
  cases b
  · exact .refl s
  · exact hf s

/-- The taking by the move scheduler and the sequencer is calm. -/
theorem takeBefore_calm (h : Handover) (s : State) :
    Calm s (takeIf h.sequencer abortSample (takeIf h.moves abandonAllMoves s)) :=
  (takeIf_calm _ abandonAllMoves_calm s).trans (takeIf_calm _ abortSample_calm _)

/-- Whatever blocks take a change, the taking is tame. -/
theorem takeChange_tame (h : Handover) (s : State) : Tame s (takeChange h s) :=
  ((takeBefore_calm h s).tame.trans (takeIf_tame _ withdrawPermit_tame _)).trans
    (takeIf_tame _ beginRoundIfIdle_tame _)

/-- The blend unit's taking leaves a safe permit, whatever the state of the part. -/
theorem takeChange_permit {h : Handover} {s : State} (hb : h.blend = true)
    (h3 : s.blend.holdTimer.isSome ↔ s.blend.permit = .pending) : (takeChange h s).PermitSafe := by
  refine (takeIf_tame _ beginRoundIfIdle_tame _).permit ?_
  rw [hb]
  exact withdrawPermit_permit (by rw [(takeBefore_calm h s).blend]; exact h3)

/-- What the lines, the timer and the suction say of the permit, whatever the state of the part. -/
abbrev State.PermitHeld (s : State) : Prop :=
  s.blend.enginePermit = decide (s.blend.permit = .granted) ∧
  (s.blend.permit ≠ .granted → s.blend.flareDemand = true) ∧
  (s.blend.holdTimer.isSome ↔ s.blend.permit = .pending) ∧
  (s.blend.permit ≠ .withdrawn → s.device.suction = .high)

theorem PermitSafe.held {s : State} (h : s.PermitSafe) : s.PermitHeld := ⟨h.1, h.2.1, h.2.2.1, h.2.2.2.2.2⟩

theorem handChange_tame0 (h : Handover) (s : State) : Tame0 s (handChange h s) :=
  (setOwed_tame0 _ s).trans (takeChange_tame _ _).toTame0

/-- A change handed to the blend unit leaves a safe permit: a GRANTED one is withdrawn, and a PENDING one is withdrawn or
its withdrawal is owed (R142 to R144, log 15). -/
theorem handChange_permit {h : Handover} {s : State} (hb : h.blend = true) (hp : s.PermitHeld) :
    (handChange h s).PermitSafe := by
  unfold handChange
  by_cases e : s.lateBlocks.blend = true
  · refine (takeChange_tame _ _).permit ?_
    have ng : s.blend.permit ≠ .granted := by
      simp only [State.lateBlocks, Bool.and_eq_true, decide_eq_true_eq] at e
      exact e.2
    refine ⟨hp.1, hp.2.1, hp.2.2.1, fun g => absurd g ng, fun _ => .inr ?_, hp.2.2.2⟩
    simp [Handover.map₂, hb, e]
  · refine takeChange_permit ?_ hp.2.2.1
    simp [Handover.map₂, hb, e]

/-- A change handed on keeps the alert lines following. -/
theorem handChange_alerts {h : Handover} {s : State} (ha : s.AlertsFollow) : (handChange h s).AlertsFollow :=
  (takeChange_tame _ _).alerts ha

/-- The taking of what is owed is tame. -/
theorem takeOwed_tame (s : State) : Tame s (takeOwed s) := by
  refine ⟨(setOwed_tame0 _ s).trans (takeChange_tame _ _).toTame0, fun hp => ?_,
    fun ha => (takeChange_tame s.device.owed (setOwed .none s)).alerts ha⟩
  unfold takeOwed
  by_cases e : s.device.owed.blend = true
  · exact takeChange_permit e hp.2.2.1
  · refine (takeChange_tame _ _).permit ⟨hp.1, hp.2.1, hp.2.2.1, hp.2.2.2.1, fun h => ?_, hp.2.2.2.2.2⟩
    exact .inl ((hp.2.2.2.2.1 h).resolve_right e)

theorem enterSafe_tame (s : State) : Tame s (enterSafe s) := by
  have h0 : Tame0 s (setDeviceEvent .state (setDeviceState .safe s)) :=
    (setDeviceState_safe_tame0 s).trans (setDeviceEvent_calm _ _).toCalm0.tame
  have hh : s.PermitSafe → (setDeviceEvent .state (setDeviceState .safe s)).PermitHeld :=
    fun h => ⟨h.1, h.2.1, h.2.2.1, h.2.2.2.2.2⟩
  unfold enterSafe
  split
  · exact .refl s
  all_goals exact ⟨h0.trans (handChange_tame0 _ _), fun h => handChange_permit rfl (hh h),
    fun _ => handChange_alerts (evalAlerts_alerts _)⟩

theorem reportFault_tame (k : FaultKind) (n : Nat) (d : Half) (s : State) : Tame s (reportFault k n d s) := by
  unfold reportFault
  split
  · exact .refl s
  · exact recordFault_tame k n d s
  · exact (recordFault_tame k n d s).trans (setDeviceEvent_calm _ _).tame
  · exact ((recordFault_tame k n d s).trans (setDeviceEvent_calm _ _).tame).trans (enterSafe_tame _)

end Sys2Proof.Machine
end

