-- ==== Sys2Proof/Laws/Lives.lean ====
section
/-! SUPPORT. Every operation on one well's life is tame: leaving a sample, freeing, needs, mode changes, the loss and
finding of a station, and the tuning of a sample (chapters 1, 2, 3, 5 and 7). -/

namespace Sys2Proof.Machine

/-! ### Leaving a sample -/

theorem enterIdle_calm (s : State) : Calm s (enterIdle s) := (setPhase_calm .idle s).trans (headTest_calm _)

theorem enterOffline_tame (f : FailureRun) (s : State) : Tame s (enterOffline f s) :=
  ((setPhase_calm _ s).tame.trans (reportFault_tame _ _ _ _)).trans (setDeviceEvent_calm _ _).tame

theorem leaveSample_tame (s : State) : Tame s (leaveSample s) := by
  unfold leaveSample
  split
  · exact (enterIdle_calm s).tame
  · split
    · exact enterOffline_tame _ s
    · exact (enterIdle_calm s).tame

/-! ### Freeing -/

theorem RecordsLegal.remove {s : State} {w : Well} (h : s.RecordsLegal) : (removeRecord w s).RecordsLegal :=
  ⟨SlotsOrdered.filter _ (removeRecord_slots s w) h.1, fun p hp => h.2 p (List.mem_of_mem_filter hp)⟩

theorem IndexAgrees.remove {s : State} {w : Well} (h : s.IndexAgrees) : (removeRecord w s).IndexAgrees := by
  obtain ⟨h1, h2, h3, h4⟩ := h
  refine ⟨SlotsOrdered.filter _ (removeRecord_slots s w) h1, ?_, ?_, ?_⟩
  · exact h2.filter _
  · intro p hp
    rw [removeRecord_slots, List.mem_filter] at hp
    rw [removeRecord_index, List.mem_filter]
    refine ⟨⟨(h3 p hp.1).1, ?_⟩, (h3 p hp.1).2⟩
    have := hp.2
    simp only [isWell, Bool.not_eq_true', Bool.and_eq_false_iff, beq_eq_false_iff_ne] at this ⊢
    exact this.symm
  · intro q hq
    rw [removeRecord_index, List.mem_filter] at hq
    obtain ⟨p, hp, a, b⟩ := h4 q hq.1
    refine ⟨p, ?_, a, b⟩
    rw [removeRecord_slots, List.mem_filter]
    refine ⟨hp, ?_⟩
    have := hq.2
    simp only [isWell, Bool.not_eq_true', Bool.and_eq_false_iff, beq_eq_false_iff_ne] at this ⊢
    rw [a, b]; exact this.symm

theorem removeRecord_tame0 (w : Well) (s : State) : Tame0 s (removeRecord w s) :=
  ⟨rfl, rfl, rfl, rfl, id, id, RecordsLegal.remove, IndexAgrees.remove, id⟩

theorem sequencerDrops_tame (w : Well) (s : State) : Tame s (sequencerDrops w s) := by
  have h := (setQueue_calm (withoutEntry w s.seq.queue) s).tame
  unfold sequencerDrops
  dsimp only
  split
  · exact h.trans (leaveSample_tame _)
  · exact h

theorem schedulerDrops_calm (w : Well) (s : State) : Calm s (schedulerDrops w s) := by
  unfold schedulerDrops
  split
  · exact (leaveLists_calm w s).trans (grantTest_calm _)
  · exact leaveLists_calm w s

theorem freeWell_tame (w : Well) (s : State) : Tame s (freeWell w s) := by
  unfold freeWell
  split
  · exact .refl s
  · have h := ((sequencerDrops_tame w (removeRecord w s)).trans (schedulerDrops_calm w _).tame).trans
      (dropStationChannel_tame (‹Slot›.address) (‹Slot›.channel) _)
    exact ⟨((removeRecord_tame0 w s).trans h.toTame0).trans (evalAlerts_calm _).toCalm0.tame,
      fun hp => (evalAlerts_calm _).permit (h.permit hp), fun _ => evalAlerts_alerts _⟩

theorem freeDamaged_tame (w : Well) (s : State) : Tame s (freeDamaged w s) :=
  (freeWell_tame w s).trans (reportFault_tame _ _ _ _)

/-! ### Need and targets -/

theorem evalNeed_tame (w : Well) (s : State) : Tame s (evalNeed w s) := by
  unfold evalNeed
  repeat' split
  all_goals first
    | exact .refl s
    | exact (blockMove_calm w s).tame
    | exact freeWell_tame w s
    | exact (leaveQuietly_calm w s).tame
    | exact (joinWaitList_calm w s).tame
    | exact (findBlocked_calm w s).tame

theorem handTarget_tame (w : Well) (s : State) : Tame s (handTarget w s) := by
  unfold handTarget
  split
  · exact (restartTimer_calm w s).tame
  · exact evalNeed_tame w s

theorem writeAndHand_tame {f : WellRecord → WellRecord} {w : Well} {s : State}
    (hl : ∀ r, s.record? w = some r → Tame s (writeRecord f w s)) : Tame s (writeAndHand f w s) := by
  unfold writeAndHand
  split
  · exact .refl s
  · rename_i r hr
    dsimp only
    split
    · exact hl r hr
    · exact (hl r hr).trans (handTarget_tame w _)

/-! ### Mode changes -/

theorem clamp_bounds {lo hi v : Nat} (h : lo ≤ hi) : lo ≤ clamp lo hi v ∧ clamp lo hi v ≤ hi := by
  unfold clamp
  split
  · exact ⟨le_refl _, h⟩
  · split <;> omega

theorem departed_legal {r : WellRecord} (h : r.Legal) :
    r.departed.Legal ∨ (r.mode = .suspect ∧ { r with excursions := 0, clean := 0 }.Legal) := by
  unfold WellRecord.departed
  by_cases e : r.mode = .suspect
  · obtain ⟨a, b, c, d, f, g1, g2, g3, g4⟩ := h
    exact .inr ⟨e, a, b, c, d, f, Nat.zero_le _, Nat.zero_le _, fun _ => rfl, g4⟩
  · simp only [e, if_false]
    exact .inl h

/-- The counts after a departure are those of a record in any mode. -/
theorem departed_counts {r : WellRecord} (h : r.CountsLegal) :
    r.departed.excursions ≤ 3 ∧ r.departed.clean = 0 ∧ r.departed.drawRemainder < Config.drawUnit := by
  obtain ⟨g1, g2, g3, g4⟩ := h
  unfold WellRecord.departed
  split
  · exact ⟨Nat.zero_le _, rfl, g4⟩
  · rename_i e
    exact ⟨g1, g3 e, g4⟩

theorem departed_limits (r : WellRecord) : r.departed.valveMin = r.valveMin ∧ r.departed.valveMax = r.valveMax ∧
    r.departed.valveTarget = r.valveTarget ∧ r.departed.returnMode = r.returnMode ∧ r.departed.mode = r.mode ∧
    r.departed.tag = r.tag ∧ r.departed.events = r.events ∧ r.departed.enableA = r.enableA ∧
    r.departed.enableB = r.enableB := by
  unfold WellRecord.departed
  split <;> simp

/-- Entry to an active mode leaves a legal record, once RETURN_MODE is absent (R25, R28). -/
theorem entered_legal {r : WellRecord} {m : Mode} (n : Nat) (hm : m.isActive = true) (hr : r.Legal) :
    { r.entered m n with returnMode := none }.Legal := by
  obtain ⟨a, b, c, d, f, g⟩ := hr
  obtain ⟨k1, k2, k3⟩ := departed_counts g
  obtain ⟨l1, l2, l3, -⟩ := departed_limits r
  have hb := clamp_bounds (v := r.valveTarget) a
  refine ⟨by simpa [WellRecord.entered, l1, l2] using a, by simpa [WellRecord.entered, l2] using b, ?_, ?_, ?_, ?_⟩
  · cases m <;> simp only [WellRecord.entered, entryTarget, l1, l2, l3] <;> omega
  · cases m <;> simp only [WellRecord.entered, entryTarget, l1, l2, l3, WellRecord.TargetLegal] <;>
      simp <;> omega
  · cases m <;> simp_all [WellRecord.entered, Mode.isParked, Mode.isActive]
  · refine ⟨k1, ?_, ?_, k3⟩
    · simp only [WellRecord.entered]; split <;> omega
    · intro h; simp only [WellRecord.entered] at h ⊢; simp [h, k2]

theorem entered_sameTag (m : Mode) (n : Nat) : SameTag (WellRecord.entered m n) := fun r => (departed_limits r).2.2.2.2.2.1

theorem entered_sameAlarm (m : Mode) (n : Nat) : SameAlarm (WellRecord.entered m n) :=
  fun r => (departed_limits r).2.2.2.2.2.2

/-- An active record has no RETURN_MODE. -/
theorem returnMode_of_active {r : WellRecord} (h : r.Legal) (a : r.mode.isActive = true) : r.returnMode = none := by
  have := h.2.2.2.2.1
  simp only [Mode.isParked, a, Bool.not_true] at this
  cases e : r.returnMode <;> simp_all

/-- The write of a mode change of an active well is calm. -/
theorem writeEntered_calm {m : Mode} {n : Nat} {w : Well} {s : State} (hm : m.isActive = true)
    (ha : ∀ r, s.record? w = some r → r.mode.isActive = true) : Calm s (writeRecord (WellRecord.entered m n) w s) := by
  refine writeRecord_calm (entered_sameTag m n) (entered_sameAlarm m n) fun r hr hl => ?_
  have h := entered_legal n hm hl
  have e : (r.entered m n).returnMode = none :=
    (departed_limits r).2.2.2.1.trans (returnMode_of_active hl (ha r hr))
  rw [show r.entered m n = { r.entered m n with returnMode := none } by rw [← e]]
  exact h

theorem changeMode_tame {m : Mode} {always : Bool} {w : Well} {s : State} (hm : m.isActive = true)
    (ha : ∀ r, s.record? w = some r → r.mode.isActive = true) : Tame s (changeMode m always w s) := by
  unfold changeMode
  split
  · exact .refl s
  · split
    · exact .refl s
    · have h := (writeEntered_calm (n := s.settings.suspectInterval) hm ha).tame
      dsimp only
      repeat' split
      · exact (h.trans (leaveSampling_calm w _).tame).trans (handTarget_tame w _)
      · exact h.trans (handTarget_tame w _)
      · exact h.trans (leaveSampling_calm w _).tame
      · exact h

theorem active_toMode (m : ActiveMode) : m.toMode.isActive = true := by cases m <;> rfl

theorem returned_legal {r : WellRecord} (n : Nat) (h : r.Legal) : (r.returned n).Legal := by
  unfold WellRecord.returned
  split
  · exact h
  · exact entered_legal n (active_toMode _) h

theorem takeUpMode_calm (w : Well) (s : State) : Calm s (takeUpMode w s) := by
  unfold takeUpMode
  split
  · exact .refl s
  · split
    · refine Calm.trans (writeRecord_calm ?_ ?_ fun r _ => returned_legal _) (setWellEvent_calm _ _ _)
      · intro r; simp only [WellRecord.returned]; split
        · rfl
        · rename_i m _
          exact entered_sameTag m.toMode s.settings.suspectInterval r
      · intro r; simp only [WellRecord.returned]; split
        · exact ⟨rfl, rfl, rfl⟩
        · rename_i m _
          exact entered_sameAlarm m.toMode s.settings.suspectInterval r
    · exact .refl s

/-! ### Loss of a station -/

theorem lost_legal {r : WellRecord} (h : r.Legal) : r.lost.Legal := by
  obtain ⟨a, b, c, d, f, g⟩ := h
  obtain ⟨k1, k2, k3⟩ := departed_counts g
  obtain ⟨l1, l2, l3, -⟩ := departed_limits r
  unfold WellRecord.lost
  cases e : r.mode.active? with
  | none => exact ⟨a, b, c, d, f, g⟩
  | some m =>
    refine ⟨by simpa [l1, l2] using a, by simpa [l2] using b, by simpa [l3] using c,
      by simp [WellRecord.TargetLegal], by simp [Mode.isParked, Mode.isActive], k1, by simp [k2], fun _ => k2, k3⟩

theorem loseWell_calm (w : Well) (s : State) : Calm s (loseWell w s) := by
  unfold loseWell
  refine Calm.trans (writeRecord_calm ?_ ?_ fun r _ => lost_legal) (setWellEvent_calm _ _ _)
  · intro r; unfold WellRecord.lost; dsimp only; split
    · rfl
    · exact (departed_limits r).2.2.2.2.2.1
  · intro r; unfold WellRecord.lost; dsimp only; split
    · exact ⟨rfl, rfl, rfl⟩
    · exact (departed_limits r).2.2.2.2.2.2

theorem clearRuns_calm (w : Well) (s : State) : Calm s (clearRuns w s) := changeSlot_calm fun _ => ⟨rfl, rfl⟩

theorem sequencerLoses_tame (ws : List Well) (s : State) : Tame s (sequencerLoses ws s) := by
  have h := (forEach_calm (ws := ws) removeEntry_calm s).tame
  unfold sequencerLoses
  dsimp only
  split
  · exact h
  · split
    · exact ((h.trans (writeOutcome_calm _ _ _).tame).trans (setQueued_calm _ _ _).tame).trans (leaveSample_tame _)
    · exact h

theorem loseWells_tame (ws : List Well) (s : State) : Tame s (loseWells ws s) :=
  ((((forEach_calm loseWell_calm s).trans (abandonMoves_calm ws _)).trans (grantTest_calm _)).tame.trans
    (sequencerLoses_tame ws _)).trans (forEach_calm clearRuns_calm _).tame

/-! ### Tuning -/

/-- A read of the record after an event has been set. -/
theorem record?_setWellEvent (k : WellEvent) (w v : Well) (s : State) :
    (setWellEvent k w s).record? v = if v = w then (s.record? w).map (addEvent k) else s.record? v := by
  have h : (setWellEvent k w s).slots = (writeRecord (addEvent k) w s).slots := by
    unfold setWellEvent wakeTest
    split
    · rfl
    · split <;> rfl
  rw [record?_congr h, record?_writeRecord]

/-- The record a read finds after a write of it. -/
theorem of_record?_writeRecord {f : WellRecord → WellRecord} {w : Well} {s : State} {q : WellRecord}
    (h : (writeRecord f w s).record? w = some q) : ∃ r, s.record? w = some r ∧ f r = q := by
  rw [record?_writeRecord, if_pos rfl, Option.map_eq_some_iff] at h
  exact h

/-- A target aimed within the limits of a well in AUTO. -/
theorem aimed_legal {r : WellRecord} (t : Nat) (hm : r.mode = .auto) (h : r.Legal) : (r.aimed t).Legal := by
  obtain ⟨a, b, c, d, f, g⟩ := h
  have hb := clamp_bounds (v := t) a
  refine ⟨a, b, le_trans hb.2 b, ⟨fun _ => hb, ?_, ?_⟩, f, g⟩
  · intro e; rw [show (r.aimed t).mode = r.mode from rfl, hm] at e; cases e
  · intro e; rw [show (r.aimed t).mode = r.mode from rfl, hm] at e; rcases e with e | e <;> cases e

theorem excursion_legal {r : WellRecord} (h : r.Legal) : r.excursion.Legal := by
  obtain ⟨a, b, c, d, f, g1, g2, g3, g4⟩ := h
  exact ⟨a, b, c, d, f, Nat.min_le_right _ _, Nat.zero_le _, fun _ => rfl, g4⟩

/-- A write that aims the target of a well in AUTO is calm. -/
theorem writeAimed_tame {f : WellRecord → Nat} {w : Well} {s : State}
    (ha : ∀ r, s.record? w = some r → r.mode = .auto) : Tame s (writeAndHand (fun q => q.aimed (f q)) w s) :=
  writeAndHand_tame fun _ _ => Calm.tame <|
    writeRecord_calm (f := fun q => q.aimed (f q)) (fun _ => rfl) (fun _ => ⟨rfl, rfl, rfl⟩)
      fun r hr => aimed_legal _ (ha r hr)

theorem tuneExcursion_tame {w : Well} {r : WellRecord} {s : State}
    (hr : ∀ q, s.record? w = some q → q.mode = .auto) : Tame s (tuneExcursion w r s) := by
  have h : Calm s (writeRecord WellRecord.excursion w s) :=
    writeRecord_calm (fun _ => rfl) (fun _ => ⟨rfl, rfl, rfl⟩) fun _ _ => excursion_legal
  have hm : ∀ q, (writeRecord WellRecord.excursion w s).record? w = some q → q.mode = .auto := by
    intro q hq
    obtain ⟨r', hr', rfl⟩ := of_record?_writeRecord hq
    exact hr r' hr'
  unfold tuneExcursion
  dsimp only
  split
  · exact (h.tame.trans (changeMode_tame rfl fun q hq => by rw [hm q hq]; rfl)).trans (reportFault_tame _ _ _ _)
  · exact h.tame.trans (writeAimed_tame hm)

theorem tuneQuiet_tame {x : Sample} {w : Well} {r : WellRecord} {s : State}
    (hr : ∀ q, s.record? w = some q → q.mode = .auto) : Tame s (tuneQuiet x w r s) := by
  have h : Calm s (writeRecord (fun q => { q with excursions := 0 }) w s) :=
    writeRecord_calm (fun _ => rfl) (fun _ => ⟨rfl, rfl, rfl⟩) fun _ _ hl =>
      ⟨hl.1, hl.2.1, hl.2.2.1, hl.2.2.2.1, hl.2.2.2.2.1, Nat.zero_le _, hl.2.2.2.2.2.2⟩
  have hm : ∀ q, (writeRecord (fun q => { q with excursions := 0 }) w s).record? w = some q → q.mode = .auto := by
    intro q hq
    obtain ⟨r', hr', rfl⟩ := of_record?_writeRecord hq
    exact hr r' hr'
  unfold tuneQuiet
  dsimp only
  split
  · exact h.tame.trans (writeAimed_tame hm)
  · split
    · exact h.tame.trans (writeAimed_tame hm)
    · exact h.tame

theorem tuneSuspect_tame {x : Sample} {w : Well} {r : WellRecord} {s : State} (hr : s.record? w = some r)
    (hm : r.mode = .suspect) : Tame s (tuneSuspect x w r s) := by
  unfold tuneSuspect
  split
  · split
    · exact changeMode_tame rfl fun q hq => by rw [hr] at hq; cases hq; rw [hm]; rfl
    · rename_i hc
      apply Calm.tame
      refine writeRecord_calm (fun _ => rfl) (fun _ => ⟨rfl, rfl, rfl⟩) fun q hq hl => ?_
      rw [hr] at hq; cases hq
      obtain ⟨h1, h2, h3, h4, h5, h6, h7, h8, h9⟩ := hl
      exact ⟨h1, h2, h3, h4, h5, h6, by show r.clean + 1 ≤ 2; omega, fun e => absurd hm e, h9⟩
  · apply Calm.tame
    refine writeRecord_calm (fun _ => rfl) (fun _ => ⟨rfl, rfl, rfl⟩) fun q _ hl => ?_
    obtain ⟨h1, h2, h3, h4, h5, h6, h7, h8, h9⟩ := hl
    exact ⟨h1, h2, h3, h4, h5, h6, Nat.zero_le _, fun _ => rfl, h9⟩

theorem tuneHot_tame {temp : Int} {w : Well} {s : State}
    (ha : ∀ r, s.record? w = some r → r.mode.isActive = true) : Tame s (tuneHot temp w s) :=
  (changeMode_tame rfl ha).trans (reportFault_tame _ _ _ _)

theorem sampled_active {m : Mode} (h : m.isSampled = true) : m.isActive = true := by
  cases m <;> first | rfl | cases h

/-- The judgment of a sample of a well in a sampled mode. An excursion is judged after its OXYGEN event. -/
theorem judge_tame {x : Sample} {w : Well} {r : WellRecord} {s : State} (hr : s.record? w = some r)
    (hm : r.mode.isSampled = true) : Tame s (judge x w r s) := by
  have ho : Calm s (setWellEvent .oxygen w s) := setWellEvent_calm _ _ _
  have he : ∀ q, (setWellEvent .oxygen w s).record? w = some q → q.mode = r.mode := by
    intro q hq
    rw [record?_setWellEvent, if_pos rfl, hr] at hq
    cases hq; rfl
  have hs : ∀ q, s.record? w = some q → q.mode = r.mode := fun q hq => by rw [hr] at hq; cases hq; rfl
  unfold judge
  by_cases hc : overCeiling x r = true
  · simp only [hc, if_true]
    refine ho.tame.trans ?_
    split
    · exact tuneHot_tame fun q hq => by rw [he q hq]; exact sampled_active hm
    · split
      · unfold tuneAdjusted
        split
        · rename_i e
          simp only [hc, if_true]
          exact tuneExcursion_tame fun q hq => (he q hq).trans e
        · rename_i e
          unfold tuneSuspect
          split
          · rename_i h2
            simp only [overCeiling, decide_eq_true_eq] at hc
            exact absurd h2 (by omega)
          · apply Calm.tame
            refine writeRecord_calm (fun _ => rfl) (fun _ => ⟨rfl, rfl, rfl⟩) fun q _ hl => ?_
            obtain ⟨h1, h2, h3, h4, h5, h6, h7, h8, h9⟩ := hl
            exact ⟨h1, h2, h3, h4, h5, h6, Nat.zero_le _, fun _ => rfl, h9⟩
        all_goals exact .refl _
      · exact .refl _
  · simp only [hc, Bool.false_eq_true, if_false]
    split
    · unfold tuneAdjusted
      split
      · rename_i e
        simp only [hc, Bool.false_eq_true, if_false]
        exact tuneQuiet_tame fun q hq => (hs q hq).trans e
      · rename_i e
        exact tuneSuspect_tame hr e
      all_goals exact .refl _
    · exact .refl _

theorem tune_tame (x : Sample) (w : Well) (s : State) : Tame s (tune x w s) := by
  unfold tune
  split
  · exact .refl s
  · rename_i r hr
    split
    · exact judge_tame hr ‹_›
    · exact .refl s

end Sys2Proof.Machine
end

