-- ==== Sys2Proof/Laws/Marks.lean ====
section
/-! SUPPORT. Which operations change no record but in its marks: EVENTS, QUEUED, SAMPLE_OUTCOME, MOVE_STATE and
MOVE_OUTCOME. `Marks s t` says that `t` has the wells of `s`, each record of `s` standing in `t` up to its marks. -/

namespace Sys2Proof.Machine

/-- Every well of `s` is in `t` with its record, up to the marks, and no other well is. -/
structure Marks (s t : State) : Prop where
  holds : ∀ v r, s.record? v = some r → t.HoldsUpToMarks v r
  gone  : ∀ v, s.record? v = none → t.record? v = none

/-- A write that changes marks only. -/
abbrev MarkOnly (f : WellRecord → WellRecord) : Prop :=
  ∀ r, f r = { r with events := (f r).events, queued := (f r).queued, sampleOutcome := (f r).sampleOutcome,
                      moveState := (f r).moveState, moveOutcome := (f r).moveOutcome }

theorem holdsUpToMarks_self {t : State} {v : Well} {r : WellRecord} (h : t.record? v = some r) :
    t.HoldsUpToMarks v r := ⟨r, h, rfl⟩

theorem Marks.refl (s : State) : Marks s s := ⟨fun _ _ => holdsUpToMarks_self, fun _ => id⟩

theorem holdsUpToMarks_trans {t u : State} {v : Well} {r : WellRecord} (h : t.HoldsUpToMarks v r) (m : Marks t u) :
    u.HoldsUpToMarks v r := by
  obtain ⟨q, hq, e⟩ := h
  obtain ⟨p, hp, e2⟩ := m.holds v q hq
  refine ⟨p, hp, ?_⟩
  rw [e2, e]

theorem Marks.trans {s t u : State} (a : Marks s t) (b : Marks t u) : Marks s u :=
  ⟨fun v r h => holdsUpToMarks_trans (a.holds v r h) b, fun v h => b.gone v (a.gone v h)⟩

theorem othersUpToMarks_trans {s t u : State} {w : Well} (a : s.OthersUpToMarks t w) (b : t.OthersUpToMarks u w) :
    s.OthersUpToMarks u w := by
  intro v r hv h
  obtain ⟨q, hq, e⟩ := a v r hv h
  obtain ⟨p, hp, e2⟩ := b v q hv hq
  exact ⟨p, hp, by rw [e2, e]⟩

theorem Marks.others {s t : State} (m : Marks s t) (w : Well) : s.OthersUpToMarks t w := fun v r _ h => m.holds v r h

theorem marks_of_slots {s t : State} (h : t.slots = s.slots) : Marks s t :=
  ⟨fun v r hr => holdsUpToMarks_self (by rw [record?_congr h]; exact hr),
    fun v hr => by rw [record?_congr h]; exact hr⟩

theorem marks_after {s t u : State} (b : Marks t u) (h : t.slots = s.slots) : Marks s u := (marks_of_slots h).trans b

theorem others_of_slots {s t : State} (h : t.slots = s.slots) (w : Well) : s.OthersUpToMarks t w :=
  (marks_of_slots h).others w

theorem writeRecord_marks {f : WellRecord → WellRecord} (hf : MarkOnly f) (w : Well) (s : State) :
    Marks s (writeRecord f w s) := by
  refine ⟨fun v r h => ?_, fun v h => ?_⟩
  · rw [State.HoldsUpToMarks, record?_writeRecord]
    split
    · rename_i e
      subst e
      exact ⟨f r, by simp [h], hf r⟩
    · exact ⟨r, h, rfl⟩
  · rw [record?_writeRecord]
    split
    · rename_i e
      subst e
      simp [h]
    · exact h

/-- A write of a well's record leaves every other well's as it stands. -/
theorem writeRecord_others (f : WellRecord → WellRecord) (w : Well) (s : State) :
    s.OthersUpToMarks (writeRecord f w s) w := by
  intro v r hv h
  refine holdsUpToMarks_self ?_
  rw [record?_writeRecord, if_neg hv]
  exact h

theorem changeSlot_marks {f : Slot → Slot} (hf : ∀ x, (f x).record = x.record ∧ (f x).tag = x.tag) (w : Well) (s : State) :
    Marks s (changeSlot f w s) :=
  ⟨fun v r h => holdsUpToMarks_self (by rw [record?_changeSlot hf]; exact h),
    fun v h => by rw [record?_changeSlot hf]; exact h⟩

theorem forEach_marks {f : Well → State → State} (hf : ∀ w s, Marks s (f w s)) (ws : List Well) (s : State) :
    Marks s (forEach ws f s) := by
  unfold forEach
  induction ws generalizing s with
  | nil => exact .refl s
  | cons w ws ih => exact (hf w s).trans (ih _)

theorem foldl_marks {α : Type} {f : State → α → State} (hf : ∀ t a, Marks t (f t a)) (l : List α) (s : State) :
    Marks s (l.foldl f s) := by
  induction l generalizing s with
  | nil => exact .refl s
  | cons a l ih => exact (hf s a).trans (ih _)

/-! ### Events -/

theorem wakeTest_slots (k : WellEvent) (w : Well) (s : State) : (wakeTest k w s).slots = s.slots := by
  unfold wakeTest
  split
  · rfl
  · split <;> rfl

theorem setWellEvent_marks (k : WellEvent) (w : Well) (s : State) : Marks s (setWellEvent k w s) :=
  (writeRecord_marks (f := addEvent k) (fun _ => rfl) w s).trans (marks_of_slots (wakeTest_slots k w _))

theorem setDeviceEvent_marks (k : DeviceEvent) (s : State) : Marks s (setDeviceEvent k s) := marks_of_slots rfl

/-! ### Moves -/

theorem setMoveState_marks (m : MoveState) (w : Well) (s : State) : Marks s (setMoveState m w s) :=
  writeRecord_marks (fun _ => rfl) w s

theorem leaveLists_marks (w : Well) (s : State) : Marks s (leaveLists w s) := marks_of_slots rfl

theorem grantLoop_marks (ws : List Well) (s : State) : Marks s (grantLoop ws s) := by
  induction ws generalizing s with
  | nil => exact .refl s
  | cons w ws ih =>
    unfold grantLoop
    split
    · exact Marks.trans (t := grant w ws s) (marks_after (setMoveState_marks .moving w _) rfl) (ih _)
    · exact .refl s

theorem grantTest_marks (s : State) : Marks s (grantTest s) := grantLoop_marks _ s

theorem endMove_marks (o : MoveOutcome) (w : Well) (s : State) : Marks s (endMove o w s) :=
  ((leaveLists_marks w s).trans (writeRecord_marks (f := moveEnded o) (fun _ => rfl) w _)).trans
    (setWellEvent_marks _ _ _)

theorem abandonMoves_marks (ws : List Well) (s : State) : Marks s (abandonMoves ws s) :=
  forEach_marks (fun w t => by
    split
    · exact endMove_marks _ _ _
    · exact .refl t) ws s

theorem abandonAllMoves_marks (s : State) : Marks s (abandonAllMoves s) := abandonMoves_marks _ s

theorem blockMove_marks (w : Well) (s : State) : Marks s (blockMove w s) := by
  unfold blockMove
  split
  · exact (endMove_marks _ _ _).trans (grantTest_marks _)
  · split
    · exact endMove_marks _ _ _
    · exact .refl s

theorem joinWaitList_marks (w : Well) (s : State) : Marks s (joinWaitList w s) :=
  marks_after ((setMoveState_marks .waiting w
    { s with moves := { s.moves with waiting := s.moves.waiting ++ [w] } }).trans (grantTest_marks _)) rfl

theorem leaveQuietly_marks (w : Well) (s : State) : Marks s (leaveQuietly w s) :=
  (leaveLists_marks w s).trans (setMoveState_marks _ _ _)

theorem findBlocked_marks (w : Well) (s : State) : Marks s (findBlocked w s) :=
  (writeRecord_marks (f := fun r => { r with moveOutcome := .blocked }) (fun _ => rfl) w s).trans
    (setWellEvent_marks _ _ _)

theorem restartTimer_marks (w : Well) (s : State) : Marks s (restartTimer w s) := marks_of_slots rfl

/-! ### Samples -/

theorem setQueue_marks (q : List QueueEntry) (s : State) : Marks s (setQueue q s) := marks_of_slots rfl

theorem setPhase_marks (p : Phase) (s : State) : Marks s (setPhase p s) := marks_of_slots rfl

theorem setQueued_marks (q : Queued) (w : Well) (s : State) : Marks s (setQueued q w s) :=
  writeRecord_marks (fun _ => rfl) w s

theorem placeInQueue_marks (c : SampleClass) (w : Well) (s : State) : Marks s (placeInQueue c w s) :=
  (setQueue_marks _ s).trans (setQueued_marks _ _ _)

theorem removeEntry_marks (w : Well) (s : State) : Marks s (removeEntry w s) := by
  unfold removeEntry
  split
  · exact (setQueue_marks _ s).trans (setQueued_marks _ _ _)
  · exact .refl s

theorem writeOutcome_marks (o : SampleOutcome) (w : Well) (s : State) : Marks s (writeOutcome o w s) :=
  (writeRecord_marks (f := fun r => { r with sampleOutcome := o }) (fun _ => rfl) w s).trans (setWellEvent_marks _ _ _)

theorem selectWell_marks (w : Well) (s : State) : Marks s (selectWell w s) :=
  marks_after (setQueued_marks .sampling w { s with seq := { s.seq with phase := .select w, busyCount := 0 } }) rfl

theorem takeHeads_marks (q : List QueueEntry) (s : State) : Marks s (takeHeads q s) := by
  induction q generalizing s with
  | nil => exact .refl s
  | cons e q ih =>
    unfold takeHeads
    refine (setQueue_marks q s).trans ?_
    dsimp only
    split
    · exact ((writeOutcome_marks _ _ _).trans (setQueued_marks _ _ _)).trans (ih _)
    · exact selectWell_marks _ _

theorem headTest_marks (s : State) : Marks s (headTest s) := by
  unfold headTest
  split
  · exact takeHeads_marks _ s
  · exact .refl s

theorem abortSample_marks (s : State) : Marks s (abortSample s) := by
  unfold abortSample
  split
  all_goals first
    | exact .refl s
    | exact (setPhase_marks _ s).trans (writeOutcome_marks _ _ _)

theorem abortSampleOf_marks (w : Well) (s : State) : Marks s (abortSampleOf w s) := by
  unfold abortSampleOf
  split
  · exact abortSample_marks s
  · exact .refl s

theorem leaveSampling_marks (w : Well) (s : State) : Marks s (leaveSampling w s) :=
  (removeEntry_marks w s).trans (abortSampleOf_marks w _)

theorem setFailures_marks (f : Option FailureRun) (s : State) : Marks s (setFailures f s) := marks_of_slots rfl

/-! ### Rounds -/

theorem detectLevels_marks (w : Well) (s : State) : Marks s (detectLevels w s) := by
  unfold detectLevels
  split
  · exact .refl s
  · split
    · exact .refl s
    · exact foldl_marks (fun t i => by
        split
        · exact setWellEvent_marks _ _ _
        · exact .refl t) _ s

theorem levelDetection_marks (s : State) : Marks s (levelDetection s) := by
  unfold levelDetection
  split
  · exact .refl s
  · exact forEach_marks detectLevels_marks _ s
  · exact forEach_marks detectLevels_marks _ s

theorem formBudget_slots (s : State) : (formBudget s).slots = s.slots := by
  unfold formBudget
  dsimp only
  split <;> rfl

theorem stepPermit_slots (s : State) : (stepPermit s).slots = s.slots := by
  unfold stepPermit
  split <;> split <;> rfl

theorem blendRoundEnd_slots (s : State) : (blendRoundEnd s).slots = s.slots :=
  (stepPermit_slots _).trans (formBudget_slots _)

theorem withdrawPermit_slots (s : State) : (withdrawPermit s).slots = s.slots := by
  unfold withdrawPermit
  show State.slots (match s.blend.permit with
    | .withdrawn => s
    | .pending => setPermit .withdrawn none s
    | .granted => setDeviceEvent .permit (setPermit .withdrawn none s)) = s.slots
  split <;> rfl

theorem roundEnd_marks (s : State) : Marks s (roundEnd s) :=
  (levelDetection_marks s).trans (marks_of_slots (blendRoundEnd_slots _))

theorem finishRound_marks (s : State) : Marks s (finishRound s) :=
  marks_after (roundEnd_marks { s with scan := { s.scan with inFlight := none, round := .idle } }) rfl

theorem beginRound_marks (s : State) : Marks s (beginRound s) := by
  unfold beginRound
  split
  · exact finishRound_marks s
  · exact marks_of_slots rfl

theorem beginRoundIfIdle_marks (s : State) : Marks s (beginRoundIfIdle s) := by
  unfold beginRoundIfIdle
  split
  · exact beginRound_marks s
  · exact .refl s

theorem visitNext_marks (s : State) : Marks s (visitNext s) := by
  unfold visitNext
  split
  · exact .refl s
  · split
    · exact marks_of_slots rfl
    · dsimp only
      split
      · exact (finishRound_marks s).trans (beginRound_marks _)
      · exact finishRound_marks s

theorem dropStationChannel_marks (a c : Nat) (s : State) : Marks s (dropStationChannel a c s) := by
  unfold dropStationChannel
  dsimp only
  split
  · exact marks_of_slots rfl
  · split
    · split
      · exact marks_of_slots rfl
      · split
        · exact marks_after (visitNext_marks _) rfl
        · exact marks_of_slots rfl
    · exact marks_of_slots rfl

/-! ### Faults, and the leaving of a sample -/

theorem takeIf_marks {f : State → State} (b : Bool) (hf : ∀ t, Marks t (f t)) (s : State) : Marks s (takeIf b f s) := by
  cases b
  · exact .refl s
  · exact hf s

/-- The taking of a change of the device state, by whatever blocks, changes no record but in its marks. -/
theorem takeChange_marks (h : Handover) (s : State) : Marks s (takeChange h s) :=
  (((takeIf_marks _ abandonAllMoves_marks s).trans (takeIf_marks _ abortSample_marks _)).trans
    (takeIf_marks _ (fun _ => marks_of_slots (withdrawPermit_slots _)) _)).trans
    (takeIf_marks _ beginRoundIfIdle_marks _)

theorem handChange_marks (h : Handover) (s : State) : Marks s (handChange h s) :=
  marks_after (takeChange_marks _ _) rfl

theorem takeOwed_marks (s : State) : Marks s (takeOwed s) := marks_after (takeChange_marks _ _) rfl

theorem enterSafe_marks (s : State) : Marks s (enterSafe s) := by
  unfold enterSafe
  split
  · exact .refl s
  all_goals exact marks_after (handChange_marks _ (setDeviceEvent .state (setDeviceState .safe s))) rfl

/-- A report frees no record and changes none but in its marks. -/
theorem reportFault_marks (k : FaultKind) (n : Nat) (d : Half) (s : State) : Marks s (reportFault k n d s) := by
  unfold reportFault
  split
  · exact .refl s
  · exact marks_of_slots rfl
  · exact marks_of_slots rfl
  · exact marks_after (enterSafe_marks (setDeviceEvent .fault (recordFault k n d s))) rfl

theorem enterIdle_marks (s : State) : Marks s (enterIdle s) := (setPhase_marks .idle s).trans (headTest_marks _)

theorem leaveSample_marks (s : State) : Marks s (leaveSample s) := by
  unfold leaveSample
  split
  · exact enterIdle_marks s
  · split
    · exact ((setPhase_marks _ s).trans (reportFault_marks _ _ _ _)).trans (setDeviceEvent_marks _ _)
    · exact enterIdle_marks s

/-! ### Freeing, need and targets -/

theorem removeRecord_others (w : Well) (s : State) : s.OthersUpToMarks (removeRecord w s) w := by
  intro v r hv hr
  refine holdsUpToMarks_self ?_
  obtain ⟨x, hx, rfl⟩ := record?_eq_some.1 hr
  have ht := (mem_of_well? hx).2
  have hk : isWell w (v.slot, x) = false := by
    cases e : isWell w (v.slot, x)
    · rfl
    · obtain ⟨a, b⟩ := (isWell_iff _ _).1 e
      exact absurd (show v = w by cases v; cases w; simp_all) hv
  have hf : s.slots.find? (fun p => p.1 == v.slot) = some (v.slot, x) := by
    have h0 : s.slot? v.slot = some x := by
      unfold State.well? at hx
      split at hx
      · cases hx
      · rename_i y hy
        split at hx
        · cases hx; exact hy
        · cases hx
    unfold State.slot? at h0
    cases e : s.slots.find? (fun p => p.1 == v.slot) with
    | none => rw [e] at h0; cases h0
    | some p =>
      rw [e] at h0
      have h1 := List.find?_some e
      have h2 : p.2 = x := by simpa using h0
      have h3 : p.1 = v.slot := by simpa using h1
      rw [← h2, ← h3]
  have hg : (removeRecord w s).slots.find? (fun p => p.1 == v.slot) = some (v.slot, x) := by
    rw [removeRecord_slots, List.find?_eq_some_iff_append]
    obtain ⟨h1, as, bs, h2, h3⟩ := List.find?_eq_some_iff_append.1 hf
    refine ⟨h1, as.filter (fun p => !isWell w p), bs.filter (fun p => !isWell w p), ?_, ?_⟩
    · rw [h2, List.filter_append, List.filter_cons]
      simp [hk]
    · intro p hp
      exact h3 p (List.mem_filter.1 hp).1
  exact record?_eq_some.2 ⟨x, well?_eq_some.2 ⟨by unfold State.slot?; rw [hg]; rfl, ht⟩, rfl⟩

/-- A freed record is in the table no more. -/
theorem removeRecord_gone (w : Well) (s : State) : (removeRecord w s).record? w = none := by
  cases e : (removeRecord w s).record? w with
  | none => rfl
  | some r =>
    obtain ⟨x, hx, rfl⟩ := record?_eq_some.1 e
    obtain ⟨m, ht⟩ := mem_of_well? hx
    rw [removeRecord_slots, List.mem_filter] at m
    simp [isWell, ht] at m

theorem sequencerDrops_marks (w : Well) (s : State) : Marks s (sequencerDrops w s) := by
  unfold sequencerDrops
  dsimp only
  split
  · exact (setQueue_marks _ s).trans (leaveSample_marks _)
  · exact setQueue_marks _ s

theorem schedulerDrops_marks (w : Well) (s : State) : Marks s (schedulerDrops w s) := by
  unfold schedulerDrops
  split
  · exact (leaveLists_marks w s).trans (grantTest_marks _)
  · exact leaveLists_marks w s

theorem freeWell_others (w : Well) (s : State) : s.OthersUpToMarks (freeWell w s) w := by
  unfold freeWell
  split
  · exact (Marks.refl s).others w
  · exact othersUpToMarks_trans (removeRecord_others w s)
      ((((sequencerDrops_marks w _).trans (schedulerDrops_marks w _)).trans
        ((dropStationChannel_marks _ _ _).trans (marks_of_slots rfl))).others w)

/-- A need evaluation changes no record but in its marks, unless it frees a closed RETIRING well. -/
theorem evalNeed_marks (w : Well) (s : State) (h : ∀ r, s.record? w = some r → r.mode ≠ .retiring) :
    Marks s (evalNeed w s) := by
  unfold evalNeed
  split
  · exact .refl s
  · rename_i r hr
    split
    · exact .refl s
    · split
      · exact blockMove_marks w s
      · split
        · exact .refl s
        · rw [if_neg (fun e => h r hr e.1)]
          split
          · split
            · exact .refl s
            · exact leaveQuietly_marks w s
          · split
            · exact joinWaitList_marks w s
            · split
              · exact findBlocked_marks w s
              · exact .refl s

theorem evalNeed_others (w : Well) (s : State) : s.OthersUpToMarks (evalNeed w s) w := by
  by_cases h : ∀ r, s.record? w = some r → r.mode ≠ .retiring
  · exact (evalNeed_marks w s h).others w
  · unfold evalNeed
    split
    · exact (Marks.refl s).others w
    · split
      · exact (Marks.refl s).others w
      · split
        · exact (blockMove_marks w s).others w
        · split
          · exact (Marks.refl s).others w
          · split
            · exact freeWell_others w s
            · split
              · split
                · exact (Marks.refl s).others w
                · exact (leaveQuietly_marks w s).others w
              · split
                · exact (joinWaitList_marks w s).others w
                · split
                  · exact (findBlocked_marks w s).others w
                  · exact (Marks.refl s).others w

theorem handTarget_marks (w : Well) (s : State) (h : ∀ r, s.record? w = some r → r.mode ≠ .retiring) :
    Marks s (handTarget w s) := by
  unfold handTarget
  split
  · exact restartTimer_marks w s
  · exact evalNeed_marks w s h

/-- A change of target hands the well on: the record written stands up to its marks, and every other one too. -/
theorem writeAndHand_marks {f : WellRecord → WellRecord} {w : Well} {s : State} {r : WellRecord}
    (hr : s.record? w = some r) (hm : (f r).mode ≠ .retiring) :
    (writeAndHand f w s).HoldsUpToMarks w (f r) ∧ s.OthersUpToMarks (writeAndHand f w s) w := by
  have h1 : (writeRecord f w s).record? w = some (f r) := by
    rw [record?_writeRecord, if_pos rfl, hr]; rfl
  have h2 := writeRecord_others f w s
  unfold writeAndHand
  rw [hr]
  dsimp only
  split
  · exact ⟨holdsUpToMarks_self h1, h2⟩
  · have m : Marks (writeRecord f w s) (handTarget w (writeRecord f w s)) :=
      handTarget_marks w _ fun q hq => by rw [h1] at hq; cases hq; exact hm
    exact ⟨holdsUpToMarks_trans (holdsUpToMarks_self h1) m, othersUpToMarks_trans h2 (m.others w)⟩

end Sys2Proof.Machine
end

