-- ==== Sys2Proof/Laws/Held.lean ====
section
/-! SUPPORT. What operations leave of the queue, the current well, the two lists of the move scheduler and the tag
index: `Apart s t` says that all of them stand in `t` as they stood in `s`. -/

namespace Sys2Proof.Machine

/-- The sequencer, the move scheduler, the index, the device state and the fault record are as they were. -/
structure Apart (s t : State) : Prop where
  seq    : t.seq = s.seq
  moves  : t.moves = s.moves
  index  : t.index = s.index
  state  : t.device.state = s.device.state
  faults : t.faults = s.faults

theorem Apart.refl (s : State) : Apart s s := ⟨rfl, rfl, rfl, rfl, rfl⟩

theorem Apart.trans {s t u : State} (a : Apart s t) (b : Apart t u) : Apart s u :=
  ⟨b.seq.trans a.seq, b.moves.trans a.moves, b.index.trans a.index, b.state.trans a.state, b.faults.trans a.faults⟩

theorem forEach_apart {f : Well → State → State} (hf : ∀ w s, Apart s (f w s)) (ws : List Well) (s : State) :
    Apart s (forEach ws f s) := by
  unfold forEach
  induction ws generalizing s with
  | nil => exact .refl s
  | cons w ws ih => exact (hf w s).trans (ih _)

theorem foldl_apart {α : Type} {f : State → α → State} (hf : ∀ t a, Apart t (f t a)) (l : List α) (s : State) :
    Apart s (l.foldl f s) := by
  induction l generalizing s with
  | nil => exact .refl s
  | cons a l ih => exact (hf s a).trans (ih _)

theorem wakeTest_apart (k : WellEvent) (w : Well) (s : State) : Apart s (wakeTest k w s) := by
  unfold wakeTest
  split
  · exact .refl s
  · split <;> exact ⟨rfl, rfl, rfl, rfl, rfl⟩

theorem setWellEvent_apart (k : WellEvent) (w : Well) (s : State) : Apart s (setWellEvent k w s) :=
  Apart.trans (t := evalAlerts (writeRecord (addEvent k) w s)) ⟨rfl, rfl, rfl, rfl, rfl⟩ (wakeTest_apart k w _)

theorem setDeviceEvent_apart (k : DeviceEvent) (s : State) : Apart s (setDeviceEvent k s) := ⟨rfl, rfl, rfl, rfl, rfl⟩

theorem detectLevels_apart (w : Well) (s : State) : Apart s (detectLevels w s) := by
  unfold detectLevels
  split
  · exact .refl s
  · split
    · exact .refl s
    · exact foldl_apart (fun t i => by
        split
        · exact setWellEvent_apart _ _ _
        · exact .refl t) _ s

theorem levelDetection_apart (s : State) : Apart s (levelDetection s) := by
  unfold levelDetection
  split
  · exact .refl s
  · exact forEach_apart detectLevels_apart _ s
  · exact forEach_apart detectLevels_apart _ s

theorem formBudget_apart (s : State) : Apart s (formBudget s) := by
  unfold formBudget
  dsimp only
  split <;> exact ⟨rfl, rfl, rfl, rfl, rfl⟩

theorem stepPermit_apart (s : State) : Apart s (stepPermit s) := by
  unfold stepPermit
  split <;> split <;> exact ⟨rfl, rfl, rfl, rfl, rfl⟩

theorem setPermitLines_apart (s : State) : Apart s (setPermitLines s) := ⟨rfl, rfl, rfl, rfl, rfl⟩

theorem blendRoundEnd_apart (s : State) : Apart s (blendRoundEnd s) :=
  (Apart.trans (s := s) (t := formBlend s) ⟨rfl, rfl, rfl, rfl, rfl⟩ (formBudget_apart _)).trans
    ((stepPermit_apart _).trans (setPermitLines_apart _))

theorem withdrawPermit_apart (s : State) : Apart s (withdrawPermit s) := by
  unfold withdrawPermit
  refine Apart.trans ?_ (setPermitLines_apart _)
  split <;> exact ⟨rfl, rfl, rfl, rfl, rfl⟩

theorem roundEnd_apart (s : State) : Apart s (roundEnd s) := (levelDetection_apart s).trans (blendRoundEnd_apart _)

theorem finishRound_apart (s : State) : Apart s (finishRound s) :=
  Apart.trans (t := { s with scan := { s.scan with inFlight := none, round := .idle } }) ⟨rfl, rfl, rfl, rfl, rfl⟩
    (roundEnd_apart _)

theorem beginRound_apart (s : State) : Apart s (beginRound s) := by
  unfold beginRound
  split
  · exact finishRound_apart s
  · exact ⟨rfl, rfl, rfl, rfl, rfl⟩

theorem beginRoundIfIdle_apart (s : State) : Apart s (beginRoundIfIdle s) := by
  unfold beginRoundIfIdle
  split
  · exact beginRound_apart s
  · exact .refl s

theorem visitNext_apart (s : State) : Apart s (visitNext s) := by
  unfold visitNext
  split
  · exact .refl s
  · split
    · exact ⟨rfl, rfl, rfl, rfl, rfl⟩
    · dsimp only
      split
      · exact (finishRound_apart s).trans (beginRound_apart _)
      · exact finishRound_apart s

theorem dropStationChannel_apart (a c : Nat) (s : State) : Apart s (dropStationChannel a c s) := by
  unfold dropStationChannel
  dsimp only
  split
  · exact ⟨rfl, rfl, rfl, rfl, rfl⟩
  · split
    · split
      · exact ⟨rfl, rfl, rfl, rfl, rfl⟩
      · split
        · refine Apart.trans ?_ (visitNext_apart _)
          exact ⟨rfl, rfl, rfl, rfl, rfl⟩
        · exact ⟨rfl, rfl, rfl, rfl, rfl⟩
    · exact ⟨rfl, rfl, rfl, rfl, rfl⟩

/-! ### Moves leave the sequencer, and samples leave the move scheduler -/

/-- The sequencer, the index and the device state are as they were. -/
structure SeqApart (s t : State) : Prop where
  seq    : t.seq = s.seq
  index  : t.index = s.index
  state  : t.device.state = s.device.state

theorem SeqApart.refl (s : State) : SeqApart s s := ⟨rfl, rfl, rfl⟩

theorem SeqApart.trans {s t u : State} (a : SeqApart s t) (b : SeqApart t u) : SeqApart s u :=
  ⟨b.seq.trans a.seq, b.index.trans a.index, b.state.trans a.state⟩

theorem Apart.seqApart {s t : State} (a : Apart s t) : SeqApart s t := ⟨a.seq, a.index, a.state⟩

theorem grantLoop_seqApart (ws : List Well) (s : State) : SeqApart s (grantLoop ws s) := by
  induction ws generalizing s with
  | nil => exact .refl s
  | cons w ws ih =>
    unfold grantLoop
    split
    · exact SeqApart.trans (t := grant w ws s) ⟨rfl, rfl, rfl⟩ (ih _)
    · exact .refl s

theorem grantTest_seqApart (s : State) : SeqApart s (grantTest s) := grantLoop_seqApart _ s

theorem endMove_seqApart (o : MoveOutcome) (w : Well) (s : State) : SeqApart s (endMove o w s) :=
  SeqApart.trans (t := writeRecord (moveEnded o) w (leaveLists w s)) ⟨rfl, rfl, rfl⟩ (setWellEvent_apart _ _ _).seqApart

theorem forEach_seqApart {f : Well → State → State} (hf : ∀ w s, SeqApart s (f w s)) (ws : List Well) (s : State) :
    SeqApart s (forEach ws f s) := by
  unfold forEach
  induction ws generalizing s with
  | nil => exact .refl s
  | cons w ws ih => exact (hf w s).trans (ih _)

theorem abandonMoves_seqApart (ws : List Well) (s : State) : SeqApart s (abandonMoves ws s) :=
  forEach_seqApart (fun w t => by
    split
    · exact endMove_seqApart _ _ _
    · exact .refl t) ws s

theorem blockMove_seqApart (w : Well) (s : State) : SeqApart s (blockMove w s) := by
  unfold blockMove
  split
  · exact (endMove_seqApart _ _ _).trans (grantTest_seqApart _)
  · split
    · exact endMove_seqApart _ _ _
    · exact .refl s

theorem joinWaitList_seqApart (w : Well) (s : State) : SeqApart s (joinWaitList w s) := by
  unfold joinWaitList
  refine SeqApart.trans ?_ (grantTest_seqApart _)
  exact ⟨rfl, rfl, rfl⟩

theorem findBlocked_seqApart (w : Well) (s : State) : SeqApart s (findBlocked w s) := by
  unfold findBlocked
  refine SeqApart.trans ?_ (setWellEvent_apart _ _ _).seqApart
  exact ⟨rfl, rfl, rfl⟩

/-- An evaluation of need that frees no well leaves the sequencer. -/
theorem evalNeed_seqApart (w : Well) (s : State)
    (h : ∀ r, s.record? w = some r → r.mode = .retiring → r.closed s.settings.moveBand = false) :
    SeqApart s (evalNeed w s) := by
  unfold evalNeed
  split
  · exact .refl s
  · rename_i r hr
    split
    · exact .refl s
    · split
      · exact blockMove_seqApart w s
      · split
        · exact .refl s
        · rw [if_neg (fun e => by rw [h r hr e.1] at e; exact absurd e.2 (by simp))]
          split
          · split
            · exact .refl s
            · exact ⟨rfl, rfl, rfl⟩
          · split
            · exact joinWaitList_seqApart w s
            · split
              · exact findBlocked_seqApart w s
              · exact .refl s

theorem handTarget_seqApart (w : Well) (s : State)
    (h : ∀ r, s.record? w = some r → r.mode = .retiring → r.closed s.settings.moveBand = false) :
    SeqApart s (handTarget w s) := by
  unfold handTarget
  split
  · exact ⟨rfl, rfl, rfl⟩
  · exact evalNeed_seqApart w s h

theorem abandonAllMoves_seqApart (s : State) : SeqApart s (abandonAllMoves s) := abandonMoves_seqApart _ s

theorem writeOutcome_apart (o : SampleOutcome) (w : Well) (s : State) : Apart s (writeOutcome o w s) := by
  unfold writeOutcome
  refine Apart.trans ?_ (setWellEvent_apart _ _ _)
  exact ⟨rfl, rfl, rfl, rfl, rfl⟩

theorem takeHeads_moves (q : List QueueEntry) (s : State) :
    (takeHeads q s).moves = s.moves ∧ (takeHeads q s).index = s.index := by
  induction q generalizing s with
  | nil => exact ⟨rfl, rfl⟩
  | cons e q ih =>
    unfold takeHeads
    dsimp only
    split
    · have a := writeOutcome_apart .blocked e.well (setQueue q s)
      have b := ih (setQueued .no e.well (writeOutcome .blocked e.well (setQueue q s)))
      exact ⟨b.1.trans a.moves, b.2.trans a.index⟩
    · exact ⟨rfl, rfl⟩

theorem headTest_moves (s : State) : (headTest s).moves = s.moves ∧ (headTest s).index = s.index := by
  unfold headTest
  split
  · exact takeHeads_moves _ s
  · exact ⟨rfl, rfl⟩

theorem abortSample_moves (s : State) : (abortSample s).moves = s.moves ∧ (abortSample s).index = s.index := by
  unfold abortSample
  split
  all_goals first
    | exact ⟨rfl, rfl⟩
    | exact ⟨(writeOutcome_apart _ _ _).moves, (writeOutcome_apart _ _ _).index⟩

/-! ### A well out of the queue -/

/-- The well has no entry in the queue. -/
abbrev State.Unqueued (s : State) (w : Well) : Prop := ∀ e ∈ s.seq.queue, e.well ≠ w

theorem withoutEntry_unqueued (w : Well) (q : List QueueEntry) : ∀ e ∈ withoutEntry w q, e.well ≠ w := by
  intro e he
  have := (List.mem_filter.1 he).2
  simpa using this

theorem takeHeads_unqueued {w : Well} (q : List QueueEntry) (s : State) (hq : s.seq.queue = q)
    (h : ∀ e ∈ q, e.well ≠ w) (hp : s.seq.phase.current? ≠ some w) :
    (takeHeads q s).Unqueued w ∧ (takeHeads q s).seq.phase.current? ≠ some w := by
  induction q generalizing s with
  | nil => exact ⟨by show ∀ e ∈ s.seq.queue, _; rw [hq]; exact h, hp⟩
  | cons e q ih =>
    unfold takeHeads
    dsimp only
    split
    · have a := writeOutcome_apart .blocked e.well (setQueue q s)
      refine ih _ ?_ (fun x hx => h x (List.mem_cons_of_mem _ hx)) ?_
      · show (writeOutcome .blocked e.well (setQueue q s)).seq.queue = q
        rw [a.seq]; rfl
      · show (writeOutcome .blocked e.well (setQueue q s)).seq.phase.current? ≠ some w
        rw [a.seq]; exact hp
    · refine ⟨fun x hx => h x (List.mem_cons_of_mem _ hx), ?_⟩
      show some e.well ≠ some w
      intro e2
      exact h e (List.mem_cons_self ..) (by simpa using e2)

theorem headTest_unqueued {w : Well} {s : State} (h : s.Unqueued w) (hp : s.seq.phase.current? ≠ some w) :
    (headTest s).Unqueued w ∧ (headTest s).seq.phase.current? ≠ some w := by
  unfold headTest
  split
  · exact takeHeads_unqueued _ s rfl h hp
  · exact ⟨h, hp⟩

theorem abortSample_queue (s : State) : (abortSample s).seq.queue = s.seq.queue ∧
    (abortSample s).seq.phase.current? = s.seq.phase.current? := by
  unfold abortSample
  split
  all_goals first
    | exact ⟨rfl, rfl⟩
    | (rename_i e; simp only [(writeOutcome_apart _ _ _).seq, e]; exact ⟨rfl, rfl⟩)

theorem takeIf_apart {f : State → State} (b : Bool) (hf : ∀ t, Apart t (f t)) (s : State) : Apart s (takeIf b f s) := by
  cases b
  · exact .refl s
  · exact hf s

/-- What the taking of a change of the device state, by whatever blocks, leaves as it was; the lists are those the move
scheduler's taking leaves. -/
theorem takeChange_queue (h : Handover) (s : State) : (takeChange h s).seq.queue = s.seq.queue ∧
    (takeChange h s).seq.phase.current? = s.seq.phase.current? ∧ (takeChange h s).index = s.index ∧
    (takeChange h s).moves = (takeIf h.moves abandonAllMoves s).moves ∧
    (takeChange h s).device.state = s.device.state ∧ (takeChange h s).faults = s.faults := by
  have a : SeqApart s (takeIf h.moves abandonAllMoves s) := by
    unfold takeIf
    split
    · exact abandonAllMoves_seqApart s
    · exact .refl s
  have b : ∀ t : State, (takeIf h.sequencer abortSample t).seq.queue = t.seq.queue ∧
      (takeIf h.sequencer abortSample t).seq.phase.current? = t.seq.phase.current? ∧
      (takeIf h.sequencer abortSample t).moves = t.moves ∧ (takeIf h.sequencer abortSample t).index = t.index := by
    intro t
    unfold takeIf
    split
    · exact ⟨(abortSample_queue t).1, (abortSample_queue t).2, abortSample_moves t⟩
    · exact ⟨rfl, rfl, rfl, rfl⟩
  have c := takeBefore_calm h s
  have d : ∀ t : State, Apart t (takeIf h.scan beginRoundIfIdle (takeIf h.blend withdrawPermit t)) := fun t =>
    (takeIf_apart _ withdrawPermit_apart t).trans (takeIf_apart _ beginRoundIfIdle_apart _)
  have k := d (takeIf h.sequencer abortSample (takeIf h.moves abandonAllMoves s))
  have e := b (takeIf h.moves abandonAllMoves s)
  refine ⟨?_, ?_, ?_, ?_, ?_, ?_⟩
  · exact (congrArg (·.queue) k.seq).trans (e.1.trans (congrArg (·.queue) a.seq))
  · exact (congrArg (·.phase.current?) k.seq).trans (e.2.1.trans (congrArg (·.phase.current?) a.seq))
  · exact k.index.trans (e.2.2.2.trans a.index)
  · exact k.moves.trans e.2.2.1
  · exact k.state.trans c.state
  · exact k.faults.trans c.faults

/-- What handing a change of the device state to the blocks leaves as it was, whichever of them are late. -/
theorem handChange_queue (h : Handover) (s : State) : (handChange h s).seq.queue = s.seq.queue ∧
    (handChange h s).seq.phase.current? = s.seq.phase.current? ∧ (handChange h s).index = s.index ∧
    (handChange h s).device.state = s.device.state ∧ (handChange h s).faults = s.faults := by
  have := takeChange_queue (h.map₂ (fun a late => a && !late) s.lateBlocks)
    (setOwed (s.device.owed.map₂ or (h.map₂ and s.lateBlocks)) s)
  exact ⟨this.1, this.2.1, this.2.2.1, this.2.2.2.2⟩

/-- A report touches neither the queue, nor which well is current, nor the index. -/
theorem reportFault_queue (k : FaultKind) (n : Nat) (d : Half) (s : State) :
    (reportFault k n d s).seq.queue = s.seq.queue ∧
    (reportFault k n d s).seq.phase.current? = s.seq.phase.current? ∧ (reportFault k n d s).index = s.index := by
  unfold reportFault
  split
  · exact ⟨rfl, rfl, rfl⟩
  · exact ⟨rfl, rfl, rfl⟩
  · exact ⟨rfl, rfl, rfl⟩
  · unfold enterSafe
    split
    · exact ⟨rfl, rfl, rfl⟩
    all_goals
      have := handChange_queue
      refine ⟨(this _ _).1.trans rfl, (this _ _).2.1.trans rfl, (this _ _).2.2.1.trans rfl⟩

/-- A report that is not ignored stands in the fault record (R151). -/
theorem reportFault_faults (k : FaultKind) (n : Nat) (d : Half) (s : State)
    (h : severityOf s.settings.severity k ≠ .ignored) : (reportFault k n d s).faults = s.faults.written k n d := by
  unfold reportFault
  split
  · rename_i e
    exact absurd e h
  · rfl
  · rfl
  · unfold enterSafe
    split
    · rfl
    all_goals exact (handChange_queue _ _).2.2.2.2

/-- After a FATAL report the part is in SAFE (R154). -/
theorem reportFault_fatal (k : FaultKind) (n : Nat) (d : Half) (s : State)
    (h : severityOf s.settings.severity k = .fatal) : (reportFault k n d s).device.state = .safe := by
  unfold reportFault
  rw [h]
  dsimp only
  unfold enterSafe
  split
  · rename_i e
    exact e
  all_goals exact (handChange_queue _ _).2.2.2.1

/-- A report that is not FATAL leaves the device state. -/
theorem reportFault_state (k : FaultKind) (n : Nat) (d : Half) (s : State)
    (h : severityOf s.settings.severity k ≠ .fatal) : (reportFault k n d s).device.state = s.device.state := by
  unfold reportFault
  split
  · rfl
  · rfl
  · rfl
  · rename_i e
    exact absurd e h

/-- After the sequencer has left a sample, no well out of the queue is current. -/
theorem leaveSample_unqueued {w : Well} {s : State} (h : s.Unqueued w) :
    (leaveSample s).Unqueued w ∧ (leaveSample s).seq.phase.current? ≠ some w ∧ (leaveSample s).index = s.index := by
  have idle : (enterIdle s).Unqueued w ∧ (enterIdle s).seq.phase.current? ≠ some w ∧ (enterIdle s).index = s.index := by
    have a := headTest_unqueued (s := setPhase .idle s) h (fun e => nomatch e)
    exact ⟨a.1, a.2, (headTest_moves (setPhase .idle s)).2⟩
  unfold leaveSample
  split
  · exact idle
  · split
    · rename_i f _ _
      have b := reportFault_queue .analyserOffline f.tag (outcomeDetail f.outcome.toOutcome)
        (setPhase (.offline Config.probeSeconds false) s)
      refine ⟨?_, ?_, b.2.2⟩
      · show ∀ e ∈ (reportFault _ _ _ _).seq.queue, _
        rw [b.1]; exact h
      · show (reportFault _ _ _ _).seq.phase.current? ≠ _
        rw [b.2.1]; exact fun e => nomatch e
    · exact idle

theorem sequencerDrops_unqueued (w : Well) (s : State) : (sequencerDrops w s).Unqueued w ∧
    (sequencerDrops w s).seq.phase.current? ≠ some w ∧ (sequencerDrops w s).index = s.index := by
  have q : (setQueue (withoutEntry w s.seq.queue) s).Unqueued w := withoutEntry_unqueued w s.seq.queue
  unfold sequencerDrops
  dsimp only
  split
  · exact leaveSample_unqueued q
  · rename_i h
    exact ⟨q, h, rfl⟩

/-! ### A well out of the lists -/

/-- The well neither holds a slot nor waits for one. -/
abbrev State.Still (s : State) (w : Well) : Prop := s.moves.holds w = false ∧ s.moves.waits w = false

theorem leaveLists_still (w : Well) (s : State) : (leaveLists w s).Still w := by
  refine ⟨?_, ?_⟩
  · show (s.moves.holders.filter fun h => !(h.well == w)).any _ = false
    rw [List.any_eq_false]
    intro h hh
    have := (List.mem_filter.1 hh).2
    simpa using this
  · show (s.moves.waiting.filter fun v => !(v == w)).contains w = false
    rw [List.contains_eq_any_beq, List.any_eq_false]
    intro v hv
    have := (List.mem_filter.1 hv).2
    have h2 : v ≠ w := by simpa using this
    simpa using fun e => h2 e.symm

theorem grantLoop_still {w : Well} (ws : List Well) (s : State) (hw : s.moves.waiting = ws) (h : s.Still w) :
    (grantLoop ws s).Still w := by
  induction ws generalizing s with
  | nil => exact h
  | cons v ws ih =>
    unfold grantLoop
    split
    · refine ih _ rfl ⟨?_, ?_⟩
      · have h1 := h.1
        have h2 := h.2
        unfold MoveScheduler.waits at h2
        rw [hw] at h2
        have hv : v ≠ w := by
          intro e; subst e; simp at h2
        show (s.moves.holders ++ [{ well := v, timer := s.settings.moveTimeout : Holder }]).any _ = false
        rw [List.any_append]
        simp [MoveScheduler.holds] at h1
        simp [hv]
        exact h1
      · have h2 := h.2
        unfold MoveScheduler.waits at h2
        rw [hw] at h2
        show ws.contains w = false
        simp at h2 ⊢
        exact h2.2
    · exact h

theorem schedulerDrops_still (w : Well) (s : State) : (schedulerDrops w s).Still w ∧ SeqApart s (schedulerDrops w s) := by
  unfold schedulerDrops
  split
  · exact ⟨grantLoop_still _ _ rfl (leaveLists_still w s),
      SeqApart.trans (t := leaveLists w s) ⟨rfl, rfl, rfl⟩ (grantTest_seqApart _)⟩
  · exact ⟨leaveLists_still w s, ⟨rfl, rfl, rfl⟩⟩

/-- A freed well is in no slot, in no pair of the index, in no list and in no sample (R20). -/
theorem freeWell_gone {w : Well} {s : State} {x : Slot} (hx : s.well? w = some x) :
    (freeWell w s).record? w = none ∧ (∀ p ∈ (freeWell w s).index, p ≠ (w.tag, w.slot)) ∧ (freeWell w s).Still w ∧
    (freeWell w s).Unqueued w ∧ (freeWell w s).seq.phase.current? ≠ some w := by
  unfold freeWell
  rw [hx]
  dsimp only
  have q := sequencerDrops_unqueued w (removeRecord w s)
  have m := schedulerDrops_still w (sequencerDrops w (removeRecord w s))
  have d := dropStationChannel_apart x.address x.channel (schedulerDrops w (sequencerDrops w (removeRecord w s)))
  have g := ((((sequencerDrops_marks w (removeRecord w s)).trans (schedulerDrops_marks w _)).trans
    (dropStationChannel_marks x.address x.channel _))).gone w (removeRecord_gone w s)
  refine ⟨g, ?_, ?_, ?_, ?_⟩
  · show ∀ p ∈ (dropStationChannel _ _ _).index, _
    rw [d.index, m.2.index, q.2.2]
    intro p hp e
    rw [removeRecord_index, List.mem_filter] at hp
    subst e
    simp at hp
  · show (dropStationChannel _ _ _).moves.holds w = false ∧ (dropStationChannel _ _ _).moves.waits w = false
    rw [d.moves]; exact m.1
  · show ∀ e ∈ (dropStationChannel _ _ _).seq.queue, _
    rw [d.seq, m.2.seq]; exact q.1
  · show (dropStationChannel _ _ _).seq.phase.current? ≠ _
    rw [d.seq, m.2.seq]; exact q.2.1

/-- A well that leaves sampling has no entry (R27). -/
theorem leaveSampling_unqueued (w : Well) (s : State) : (leaveSampling w s).Unqueued w := by
  have h : (removeEntry w s).Unqueued w := by
    unfold removeEntry
    split
    · exact withoutEntry_unqueued w s.seq.queue
    · rename_i h
      intro e he hw
      exact h (List.any_eq_true.2 ⟨e, he, by simp [hw]⟩)
  unfold leaveSampling abortSampleOf
  split
  · show ∀ e ∈ (abortSample (removeEntry w s)).seq.queue, _
    rw [(abortSample_queue _).1]; exact h
  · exact h

/-- A sample outcome written stands, with its SAMPLE event (R76). -/
theorem writeOutcome_written {o : SampleOutcome} {w : Well} {s : State} {q : WellRecord}
    (h : (writeOutcome o w s).record? w = some q) : q.sampleOutcome = o ∧ q.events.getLsbD 7 = true := by
  unfold writeOutcome at h
  rw [record?_setWellEvent, if_pos rfl, record?_writeRecord, if_pos rfl, Option.map_map, Option.map_eq_some_iff] at h
  obtain ⟨r, _, rfl⟩ := h
  exact ⟨rfl, by simp [addEvent, WellEvent.bit]⟩

theorem abortSample_of_open {w : Well} {s : State} (h : s.SampleOpen w) :
    abortSample s = writeOutcome .aborted w (setPhase (.release w) s) := by
  obtain ⟨ho, hc⟩ := h
  unfold abortSample
  split <;> simp_all [Phase.isOpen, Phase.current?]

/-- An abort of a well's sample in SELECT, PURGE or READ changes the sequencer's state alone, and marks the record (R104). -/
theorem abortSample_aborted {w : Well} {s : State} (h : s.SampleOpen w) :
    (abortSample s).seq = { s.seq with phase := .release w } ∧ (abortSample s).SampleAborted w := by
  have a := abortSample_of_open h
  have e : (abortSample s).seq = { s.seq with phase := .release w } := by
    rw [a, (writeOutcome_apart _ _ _).seq]; rfl
  refine ⟨e, by rw [e], fun q hq => ?_⟩
  rw [a] at hq
  exact writeOutcome_written hq

/-- In any other phase nothing is aborted (R104). -/
theorem abortSample_of_shut {s : State} (h : s.seq.phase.isOpen = false) : abortSample s = s := by
  unfold abortSample
  split <;> simp_all [Phase.isOpen]

/-- An entry removed leaves the queue, QUEUED being NO, and the sequencer is otherwise as it was (R88). -/
theorem removeEntry_left (w : Well) (s : State) :
    (removeEntry w s).seq = { s.seq with queue := s.seq.queue.filter fun e => !(e.well == w) } ∧
    ((∃ e ∈ s.seq.queue, e.well = w) → ∀ q, (removeEntry w s).record? w = some q → q.queued = .no) := by
  unfold removeEntry
  split
  · refine ⟨rfl, fun _ q hq => ?_⟩
    unfold setQueued at hq
    obtain ⟨r, _, rfl⟩ := of_record?_writeRecord hq
    rfl
  · rename_i h
    have n : ∀ e ∈ s.seq.queue, e.well ≠ w := fun e he hw => h (List.any_eq_true.2 ⟨e, he, by simp [hw]⟩)
    refine ⟨?_, fun ⟨e, he, hw⟩ => absurd hw (n e he)⟩
    rw [List.filter_eq_self.2 fun e he => by simpa using n e he]

/-- A write of a sample outcome leaves QUEUED. -/
theorem writeOutcome_queued {o : SampleOutcome} {v w : Well} {s : State} {q : WellRecord}
    (h : (writeOutcome o v s).record? w = some q) : ∃ r, s.record? w = some r ∧ q.queued = r.queued := by
  unfold writeOutcome at h
  rw [record?_setWellEvent, record?_writeRecord, record?_writeRecord, if_pos rfl] at h
  split at h
  · rename_i e; subst e
    rw [Option.map_map, Option.map_eq_some_iff] at h
    obtain ⟨r, hr, rfl⟩ := h
    exact ⟨r, hr, rfl⟩
  · exact ⟨q, h, rfl⟩

/-- All that leaving sampling does to the sequencer and to the well's marks (R27, R104). -/
theorem leaveSampling_left (w : Well) (s : State) : s.SamplingLeft (leaveSampling w s) w := by
  obtain ⟨hs, hq⟩ := removeEntry_left w s
  have hp : (removeEntry w s).seq.phase = s.seq.phase := by rw [hs]
  have open_iff : (removeEntry w s).SampleOpen w ↔ s.SampleOpen w := by unfold State.SampleOpen; rw [hp]
  by_cases h : s.SampleOpen w
  · have a := abortSample_aborted (open_iff.2 h)
    have l : leaveSampling w s = abortSample (removeEntry w s) := by
      unfold leaveSampling abortSampleOf
      rw [hp, if_pos h.2]
    rw [l]
    refine ⟨by rw [a.1, hs], fun he q hr => ?_, fun _ => a.2, fun n => absurd h n⟩
    rw [abortSample_of_open (open_iff.2 h)] at hr
    obtain ⟨r, hr, hk⟩ := writeOutcome_queued hr
    exact hk.trans (hq he r hr)
  · have l : leaveSampling w s = removeEntry w s := by
      unfold leaveSampling abortSampleOf
      split
      · rename_i c
        rw [hp] at c
        exact abortSample_of_shut (by
          rw [hp]
          cases b : s.seq.phase.isOpen
          · rfl
          · exact absurd ⟨b, c⟩ h)
      · rfl
    rw [l]
    exact ⟨by rw [hp, hs], hq, fun c => absurd c h, fun _ => hp⟩

end Sys2Proof.Machine
end

