-- ==== Sys2Proof/Laws/Links.lean ====
section
/-! SUPPORT. Every operation of the two links and of the sequencer's timers is tame (chapters 3, 4 and 5). -/

namespace Sys2Proof.Machine

/-! ### Endings of a read -/

theorem setFailures_tame {f : Option FailureRun} {s : State}
    (h : ∀ x ∈ f, 1 ≤ x.count ∧ x.count ≤ Config.offlineCount) : Tame s (setFailures f s) :=
  ⟨⟨rfl, rfl, rfl, rfl, id, fun hs => ⟨hs.1, h⟩, id, id, id⟩, id, id⟩

theorem raiseFailures_tame (o : FailOutcome) (w : Well) (s : State) : Tame s (raiseFailures o w s) :=
  setFailures_tame fun x hx => by
    simp only [Option.mem_def, Option.some.injEq] at hx
    subst hx
    simp only [Config.offlineCount]
    omega

theorem resetSurvey_calm (w : Well) (s : State) : Calm s (resetSurvey w s) := by
  unfold resetSurvey
  exact writeRecord_plain (fun _ => rfl) (fun _ => ⟨rfl, rfl, rfl⟩) fun _ h => h

theorem endOk_tame (x : Sample) (w : Well) (s : State) : Tame s (endOk x w s) := by
  have h : Calm (setPhase (.release w) s)
      (writeRecord (WellRecord.sampled x s.settings.suspectInterval) w (setPhase (.release w) s)) :=
    writeRecord_plain (fun _ => rfl) (fun _ => ⟨rfl, rfl, rfl⟩) fun _ h => h
  unfold endOk
  exact (((((setPhase_calm _ s).trans h).trans (setWellEvent_calm _ _ _)).tame).trans
    (setFailures_tame fun _ h => by cases h)).trans (tune_tame _ _ _)

theorem endFailed_tame (o : FailOutcome) (w : Well) (s : State) : Tame s (endFailed o w s) :=
  ((((setPhase_calm _ s).trans (writeOutcome_calm _ _ _)).trans (resetSurvey_calm _ _)).tame.trans
    (raiseFailures_tame _ _ _)).trans (reportFault_tame _ _ _ _)

theorem endNotReady_calm (w : Well) (s : State) : Calm s (endNotReady w s) :=
  ((setPhase_calm _ s).trans (writeOutcome_calm _ _ _)).trans (resetSurvey_calm _ _)

theorem takeBusy_calm (w : Well) (s : State) : Calm s (takeBusy w s) := by
  unfold takeBusy
  dsimp only
  split
  · exact (setBusyCount_calm _ s).trans (endNotReady_calm _ _)
  · exact (setBusyCount_calm _ s).trans (setPhase_calm _ _)

theorem takeValues_tame (a b c : Half) (w : Well) (s : State) : Tame s (takeValues a b c w s) := by
  unfold takeValues
  split
  · exact endOk_tame _ _ _
  · exact endFailed_tame _ _ _

theorem takeLiveProbe_tame (s : State) : Tame s (takeLiveProbe s) :=
  ((setFailures_tame fun _ h => by cases h).trans (setDeviceEvent_calm _ _).tame).trans (enterIdle_calm _).tame

theorem takeReadReply_tame (x : AnalyserReply) (w : Well) (s : State) : Tame s (takeReadReply x w s) := by
  unfold takeReadReply
  split
  · exact takeValues_tame _ _ _ _ _
  · exact (takeBusy_calm _ _).tame
  · exact endFailed_tame _ _ _

theorem takeProbeReply_tame (x : AnalyserReply) (n : Nat) (s : State) : Tame s (takeProbeReply x n s) := by
  unfold takeProbeReply
  split
  · exact takeLiveProbe_tame _
  · exact takeLiveProbe_tame _
  · exact (setPhase_calm _ _).tame

theorem takeAnalyserFrame_tame (n : Byte) (x : AnalyserReply) (s : State) : Tame s (takeAnalyserFrame n x s) := by
  unfold takeAnalyserFrame
  split
  · split
    all_goals first
      | exact .refl s
      | exact takeReadReply_tame _ _ _
      | exact takeProbeReply_tame _ _ _
  · exact .refl s

theorem sendMeasure_calm (w : Well) (s : State) : Calm s (sendMeasure w s) :=
  (raiseNumber_calm s).trans (setPhase_calm _ _)

theorem afterPurgeTimer_calm (s : State) : Calm s (afterPurgeTimer s) := by
  unfold afterPurgeTimer
  repeat' split
  all_goals first | exact .refl s | exact sendMeasure_calm _ _

theorem afterBusyWait_calm (s : State) : Calm s (afterBusyWait s) := by
  unfold afterBusyWait
  repeat' split
  all_goals first | exact .refl s | exact sendMeasure_calm _ _

theorem afterProbeTimer_calm (s : State) : Calm s (afterProbeTimer s) := by
  unfold afterProbeTimer
  repeat' split
  all_goals first | exact .refl s | exact (raiseNumber_calm s).trans (setPhase_calm _ _)

theorem afterAnalyserTimer_tame (s : State) : Tame s (afterAnalyserTimer s) := by
  unfold afterAnalyserTimer
  repeat' split
  all_goals first | exact .refl s | exact endFailed_tame _ _ _

/-! ### Moves' timers -/

theorem endTimeout_tame (w : Well) (s : State) : Tame s (endTimeout w s) :=
  ((endMove_calm _ _ s).tame.trans (reportFault_tame _ _ _ _)).trans (grantTest_calm _).tame

/-! ### Transactions -/

theorem endTransaction_tame {act : Transaction → State → State} (h : ∀ t s, Tame s (act t s)) (s : State) :
    Tame s (endTransaction act s) := by
  unfold endTransaction
  split
  · exact .refl s
  · exact ((tame_of_scan s { s.scan with inFlight := none }).trans (h _ _)).trans (visitNext_tame _)

theorem loseStation_tame (a : Nat) (s : State) : Tame s (loseStation a s) :=
  ((changeStation_tame _ a s).trans (reportFault_tame _ _ _ _)).trans (loseWells_tame _ _)

theorem failTransaction_tame (a : Nat) (s : State) : Tame s (failTransaction a s) := by
  have h := changeStation_tame (fun x => { x with failures := min (x.failures + 1) Config.maxFailures }) a s
  unfold failTransaction
  dsimp only
  split
  · exact h
  · split
    · exact (h.trans (reportFault_tame _ _ _ _)).trans (loseStation_tame _ _)
    · exact h.trans (reportFault_tame _ _ _ _)

/-- A judged reply: a bad check fails the transaction, and otherwise the judgment acts (R51). -/
theorem judgeFrame_tame {frame : LinkFrame} {judge : Transaction → State → State} (h : ∀ t s, Tame s (judge t s))
    (t : Transaction) (s : State) : Tame s (judgeFrame frame judge t s) := by
  unfold judgeFrame
  split
  · exact h t s
  · exact failTransaction_tame _ s

theorem judgeAccept_tame (a : Nat) (t : Transaction) (s : State) : Tame s (judgeAccept a t s) := by
  unfold judgeAccept
  split
  · split
    · exact (changeStation_tame _ _ s).trans (forEach_calm takeUpMode_calm _).tame
    · exact failTransaction_tame _ s
  · exact failTransaction_tame _ s

theorem judgeRefused_tame (a : Nat) (t : Transaction) (s : State) : Tame s (judgeRefused a t s) := by
  unfold judgeRefused
  split
  · split
    · unfold refusePoll
      have h := ((changeStation_tame (fun x => { x with failures := 0 }) a s).trans
        (changeStation_tame (fun x => { x with state := .setupDue }) a _)).trans
        (reportFault_tame .stationRefused noTag (addressDetail a) _)
      dsimp only
      split
      · exact h.trans (abortSample_calm _).tame
      · exact h
    · exact failTransaction_tame _ s
  · exact failTransaction_tame _ s

/-! ### Arrivals -/

theorem buttonIsolate_tame (w : Well) (s : State) : Tame s (buttonIsolate w s) := by
  unfold buttonIsolate
  split
  · exact .refl s
  · rename_i r hr
    split
    · rename_i h
      exact changeMode_tame rfl fun q hq => by
        rw [hr] at hq; cases hq
        exact sampled_active (Bool.and_eq_true_iff.1 h).1
    · exact .refl s

theorem capEnqueue_calm (later : List Handed) (w : Well) (s : State) : Calm s (capEnqueue later w s) := by
  unfold capEnqueue
  split
  · exact .refl s
  · exact urgentEnqueue_calm _ w s

theorem checkMove_tame (w : Well) (s : State) : Tame s (checkMove w s) := by
  unfold checkMove
  repeat' split
  all_goals first
    | exact .refl s
    | exact freeWell_tame w s
    | exact ((endMove_calm _ w s).trans (grantTest_calm _)).tame

theorem takeFeedback_tame (b : Bool) (w : Well) (s : State) : Tame s (takeFeedback b w s) := by
  unfold takeFeedback
  split
  · exact (evalNeed_tame w s).trans (checkMove_tame w _)
  · exact checkMove_tame w s

theorem takeConfirmation_tame (v : Bool) (w : Well) (s : State) : Tame s (takeConfirmation v w s) := by
  unfold takeConfirmation
  repeat' split
  all_goals first
    | exact .refl s
    | exact (setPhase_calm _ s).tame
    | exact (setQueued_calm _ _ s).tame.trans (leaveSample_tame _)

theorem liquidPurge_calm (w : Well) (s : State) : Calm s (liquidPurge w s) := by
  unfold liquidPurge
  repeat' split
  all_goals first | exact .refl s | exact startPulse_calm w s

theorem takeHanded_tame (later : List Handed) (w : Well) (h : Handed) (s : State) :
    Tame s (takeHanded later w h s) := by
  unfold takeHanded
  split
  · exact buttonIsolate_tame w s
  · exact (abortSampleOf_calm w s).tame
  · exact (capEnqueue_calm later w s).tame
  · exact (blockMove_calm w s).tame
  · exact reportFault_tame _ _ _ s
  · exact evalNeed_tame w s
  · exact (liquidPurge_calm w s).tame
  · exact takeFeedback_tame _ w s
  · exact takeConfirmation_tame _ w s

theorem takeAllHanded_tame (w : Well) (hs : List Handed) (s : State) : Tame s (takeAllHanded w hs s) := by
  induction hs generalizing s with
  | nil => exact .refl s
  | cons h later ih => exact (takeHanded_tame later w h s).trans (ih _)

theorem setInputs_calm (p : PerInput Level) (w : Well) (s : State) : Calm s (setInputs p w s) := by
  unfold setInputs
  exact writeRecord_plain (fun _ => rfl) (fun _ => ⟨rfl, rfl, rfl⟩) fun _ h => h

theorem setRuns_calm (q : PerInput Run) (w : Well) (s : State) : Calm s (setRuns q w s) := by
  unfold setRuns
  exact changeSlot_calm fun _ => ⟨rfl, rfl⟩

theorem takeBaseline_tame (a : Nat) (c : ChannelReading) (w : Well) (s : State) : Tame s (takeBaseline a c w s) :=
  ((setInputs_calm _ w s).trans (setRuns_calm _ _ _)).tame.trans (changeStation_tame _ _ _)

theorem takeLevels_calm (c : ChannelReading) (b : PerInput Level) (x : Slot) (w : Well) (s : State) :
    Calm s (takeLevels c b x w s) := by
  unfold takeLevels
  dsimp only
  refine Calm.trans ((setInputs_calm (debounceAll x.record.debounce c.raw b x.runs).1 w s).trans
    (setRuns_calm (debounceAll x.record.debounce c.raw b x.runs).2 w _)) ?_
  unfold setEdgeEvents
  apply foldl_calm
  intro t i
  split
  · exact setWellEvent_calm _ _ _
  · exact .refl t

theorem takeArrival_tame (a : Nat) (p : PollChannel) (c : ChannelReading) (o : List Nat) (x : Slot) (s : State) :
    Tame s (takeArrival a p c o x s) := by
  unfold takeArrival
  split
  · exact (takeBaseline_tame _ _ _ s).trans (takeAllHanded_tame _ _ _)
  · split
    · exact (takeBaseline_tame _ _ _ s).trans (takeAllHanded_tame _ _ _)
    · exact (takeLevels_calm _ _ _ _ s).tame.trans (takeAllHanded_tame _ _ _)

theorem takeChannel_tame (a : Nat) (p : PollChannel) (c : ChannelReading) (o : List Nat) (s : State) :
    Tame s (takeChannel a p c o s) := by
  unfold takeChannel
  split
  · exact .refl s
  · split
    · refine Tame.trans (Calm.tame ?_) (takeArrival_tame _ _ _ _ _ _)
      exact writeRecord_plain (fun _ => rfl) (fun _ => ⟨rfl, rfl, rfl⟩) fun _ h => h
    · exact freeDamaged_tame _ s

theorem takeChannels_tame (a : Nat) (ps : List PollChannel) (cs : List ChannelReading) (os : List (List Nat))
    (s : State) : Tame s (takeChannels a ps cs os s) := by
  induction ps generalizing cs os s with
  | nil => exact .refl s
  | cons p ps ih =>
    cases cs with
    | nil => exact .refl s
    | cons c cs => exact (takeChannel_tame a p c _ s).trans (ih cs os.tail _)

theorem judgeReadings_tame (a : Nat) (cs : List ChannelReading) (os : List (List Nat)) (t : Transaction) (s : State) :
    Tame s (judgeReadings a cs os t s) := by
  unfold judgeReadings
  split
  · split
    · exact (changeStation_tame _ _ s).trans (takeChannels_tame _ _ _ _ _)
    · exact failTransaction_tame _ s
  · exact failTransaction_tame _ s

end Sys2Proof.Machine
end

