-- ==== Sys2Proof/Laws/PerInstr.lean ====
section
/-! SUPPORT. The CODE of each request names it: what the classing of an exchange (R172, R179) makes of the code and the
fields of a command is that command. One lemma for each command. -/

namespace Sys2Proof.Laws.CodeNames

/-- A well-formed command that is an addressed exchange is what its CODE and its fields name (R172, R179). -/
def Statement (i : Instr) : Prop :=
  ∀ straps p, i.wellFormed = true → i.codeAndRequest = some p → requestOfCode (i.strapsOr straps) p.1 p.2 = i

theorem powerOn (a : Straps) (b : Level) : Statement (.powerOn a b) := by rintro s p - ⟨⟩

theorem resetLine (a : Straps) : Statement (.resetLine a) := by rintro s p - ⟨⟩

theorem secondTick (a : Handover) : Statement (.secondTick a) := by rintro s p - ⟨⟩

theorem minuteTick : Statement .minuteTick := by rintro s p - ⟨⟩

theorem purgePulseEnd (a : Nat) : Statement (.purgePulseEnd a) := by rintro s p - ⟨⟩

theorem moveTimerExpiry (a : Nat) : Statement (.moveTimerExpiry a) := by rintro s p - ⟨⟩

theorem purgeTimerExpiry : Statement .purgeTimerExpiry := by rintro s p - ⟨⟩

theorem analyserTimerExpiry : Statement .analyserTimerExpiry := by rintro s p - ⟨⟩

theorem busyWaitExpiry : Statement .busyWaitExpiry := by rintro s p - ⟨⟩

theorem probeTimerExpiry : Statement .probeTimerExpiry := by rintro s p - ⟨⟩

theorem holdTimerExpiry : Statement .holdTimerExpiry := by rintro s p - ⟨⟩

theorem suctionChange (a : Level) : Statement (.suctionChange a) := by rintro s p - ⟨⟩

theorem holdExchange : Statement .holdExchange := by rintro s p - ⟨⟩

theorem deselect (a : DeselectCause) : Statement (.deselect a) := by rintro s p - ⟨⟩

theorem nop (a : Request) : Statement (.nop a) := by rintro s p - ⟨⟩; rfl

theorem enrol (a : Request) : Statement (.enrol a) := by rintro s p - ⟨⟩; rfl

theorem retire (a : Request) : Statement (.retire a) := by rintro s p - ⟨⟩; rfl

theorem lookup (a : Request) : Statement (.lookup a) := by rintro s p - ⟨⟩; rfl

theorem amend (a : Request) : Statement (.amend a) := by rintro s p - ⟨⟩; rfl

theorem setMembers (a : Request) : Statement (.setMembers a) := by rintro s p - ⟨⟩; rfl

theorem clearMembers (a : Request) : Statement (.clearMembers a) := by rintro s p - ⟨⟩; rfl

theorem ack (a : Request) : Statement (.ack a) := by rintro s p - ⟨⟩; rfl

theorem claim (a : Request) : Statement (.claim a) := by rintro s p - ⟨⟩; rfl

theorem release (a : Request) : Statement (.release a) := by rintro s p - ⟨⟩; rfl

theorem modeRequest (a : Request) : Statement (.modeRequest a) := by rintro s p - ⟨⟩; rfl

theorem sample (a : Request) : Statement (.sample a) := by rintro s p - ⟨⟩; rfl

theorem purge (a : Request) : Statement (.purge a) := by rintro s p - ⟨⟩; rfl

theorem find (a : Request) : Statement (.find a) := by rintro s p - ⟨⟩; rfl

theorem groupLook (a : Request) : Statement (.groupLook a) := by rintro s p - ⟨⟩; rfl

theorem groupAmend (a : Request) : Statement (.groupAmend a) := by rintro s p - ⟨⟩; rfl

theorem continueGroup (a : Request) : Statement (.continueGroup a) := by rintro s p - ⟨⟩; rfl

theorem extend (a : Request) : Statement (.extend a) := by rintro s p - ⟨⟩; rfl

theorem standby (a : Request) : Statement (.standby a) := by rintro s p - ⟨⟩; rfl

theorem resume (a : Request) : Statement (.resume a) := by rintro s p - ⟨⟩; rfl

theorem clearFaults (a : Request) : Statement (.clearFaults a) := by rintro s p - ⟨⟩; rfl

theorem reset (a : Request) (b : Straps) : Statement (.reset a b) := by rintro s p - ⟨⟩; rfl

theorem accept (a : StationReply) : Statement (.accept a) := by rintro s p - ⟨⟩

theorem readings (a : StationReply) (b : List ChannelReading) (c : List (List Nat)) : Statement (.readings a b c) := by rintro s p - ⟨⟩

theorem refused (a : StationReply) : Statement (.refused a) := by rintro s p - ⟨⟩

theorem transactionFailure : Statement .transactionFailure := by rintro s p - ⟨⟩

theorem values (a : Byte) (b c d : Half) : Statement (.values a b c d) := by rintro s p - ⟨⟩

theorem analyserFaultReply (a : Byte) : Statement (.analyserFaultReply a) := by rintro s p - ⟨⟩

theorem busy (a : Byte) : Statement (.busy a) := by rintro s p - ⟨⟩

theorem probeReply (a : Byte) (b : LiveReply) : Statement (.probeReply a b) := by rintro s p - ⟨⟩

theorem analyserFrameDiscard : Statement .analyserFrameDiscard := by rintro s p - ⟨⟩

theorem unknownRequest (a : Request) (b : Byte) : Statement (.unknownRequest a b) := by
  rintro s p h ⟨⟩
  have h' : 22 ≤ b.toNat := of_decide_eq_true h
  simp only [requestOfCode]
  split <;> first | omega | rfl

theorem scanFrameDiscard : Statement .scanFrameDiscard := by rintro s p - ⟨⟩

theorem probeFaultReply (a : Byte) : Statement (.probeFaultReply a) := by rintro s p - ⟨⟩

end Sys2Proof.Laws.CodeNames
end

