-- ==== Sys2Proof/Laws/Requests.lean ====
section
/-! SUPPORT. What the port and the checks of R5 do, said once: the taking of a request, the resolution of a tag, and the
writes a request makes (chapters 1 and 11). -/

namespace Sys2Proof.Machine

/-! ### The port -/

/-- The port of an exchange that advances, by the parts a claim names. -/
theorem afterExchange_eq (p : Port) (a : Answer) (ws : List Half) (g : Option Group) :
    { p.advanced with newer := some a, words := ws, group := g } = p.afterExchange (some a) ws g := rfl

/-- A plain request with no word held acts on the advanced, closed port, and its answer is owed. -/
theorem plainRequest_next (r : Request) (act : State → State × Reply) (s : State) (h : s.port.words = []) :
    plainRequest r act s =
      .next (fill (answerTo r (act (closePort (advance s))).2) (act (closePort (advance s))).1) := by
  simp [plainRequest, takeRequest, Port.advanced, h]

/-- A plain request with words held changes nothing but the port (R176). -/
theorem plainRequest_words (r : Request) (act : State → State × Reply) (s : State) (h : s.port.words ≠ []) :
    plainRequest r act s = .next (s.answered r .extUnusable r.tag 0) := by
  simp [plainRequest, takeRequest, Port.advanced, h, refuse, answerTo]
  rfl

/-- A reply that leaves the state as it stands is an answered state. -/
theorem fill_closePort (r : Request) (x : Reply) (s : State) :
    fill (answerTo r x) (closePort (advance s)) = s.answered r x.status x.tag x.value := rfl

theorem closed_slots (s : State) : (closePort (advance s)).slots = s.slots := rfl

/-! ### The plain requests

Each plain request with no word held, as its act on the advanced, closed port; with words held, as a refusal. -/

theorem exec_nop (r : Request) (s : State) : exec (.nop r) s = plainRequest r (fun t => (t, done r.tag 0)) s := rfl
theorem exec_enrol (r : Request) (s : State) : exec (.enrol r) s = plainRequest r (enrol r) s := rfl
theorem exec_retire (r : Request) (s : State) : exec (.retire r) s = plainRequest r (onWell true r.tag r.arg (retireWell r)) s := rfl
theorem exec_lookup (r : Request) (s : State) : exec (.lookup r) s = plainRequest r (lookup r) s := rfl
theorem exec_setMembers (r : Request) (s : State) : exec (.setMembers r) s = plainRequest r (changeMembers true r) s := rfl
theorem exec_clearMembers (r : Request) (s : State) : exec (.clearMembers r) s = plainRequest r (changeMembers false r) s := rfl
theorem exec_ack (r : Request) (s : State) : exec (.ack r) s = plainRequest r (acknowledge r) s := rfl
theorem exec_claim (r : Request) (s : State) : exec (.claim r) s = plainRequest r (onWell false r.tag r.arg (claimWell r)) s := rfl
theorem exec_release (r : Request) (s : State) : exec (.release r) s = plainRequest r (onWell false r.tag r.arg (releaseWell r)) s := rfl
theorem exec_modeRequest (r : Request) (s : State) : exec (.modeRequest r) s = plainRequest r (onWell true r.tag r.arg (modeWell r)) s := rfl
theorem exec_sample (r : Request) (s : State) : exec (.sample r) s = plainRequest r (onWell true r.tag r.arg (sampleWell r)) s := rfl
theorem exec_purge (r : Request) (s : State) : exec (.purge r) s = plainRequest r (onWell true r.tag r.arg (purgeWell r)) s := rfl
theorem exec_find (r : Request) (s : State) : exec (.find r) s = plainRequest r (find r) s := rfl
theorem exec_groupLook (r : Request) (s : State) : exec (.groupLook r) s = plainRequest r (openGroup .look r) s := rfl
theorem exec_groupAmend (r : Request) (s : State) : exec (.groupAmend r) s = plainRequest r (groupAmend r) s := rfl
theorem exec_standby (r : Request) (s : State) : exec (.standby r) s = plainRequest r (standby r) s := rfl
theorem exec_resume (r : Request) (s : State) : exec (.resume r) s = plainRequest r (resume r) s := rfl
theorem exec_clearFaults (r : Request) (s : State) : exec (.clearFaults r) s = plainRequest r (fun t => (clearFaultRecord t, done r.tag 0)) s := rfl
theorem exec_reset (r : Request) (straps : Straps) (s : State) :
    exec (.reset r straps) s = plainRequest r (fun t => (deviceReset straps t, done r.tag 0)) s := rfl

/-- The extension check of an AMEND by the code of its field (R176, R179). -/
theorem amendWordsRefusal_eq (field : Byte) (n : Nat) :
    amendWordsRefusal field n =
      if field = 17 then (if n = 1 then none else some .extCount)
      else if field = 18 then (if n = 2 then none else some .extCount)
      else if n = 0 then none else some .extUnusable := by
  have other : ∀ f : Byte, f ≠ 17 → f ≠ 18 →
      fieldOfCode f ≠ some (.well .totalDraw) ∧ fieldOfCode f ≠ some (.well .location) := by decide
  by_cases h : field = 17
  · subst h; rfl
  by_cases h2 : field = 18
  · subst h2; rfl
  unfold amendWordsRefusal
  simp only [h, h2, if_false]
  have := other field h h2
  split <;> simp_all

/-- An AMEND of a field that is not wide, with no word held, acts on the advanced, closed port. -/
theorem exec_amend_noWords (r : Request) (s : State) (h : s.port.words = []) (hn : ¬ NamesWide r) :
    exec (.amend r) s =
      .next (fill (answerTo r (amend r [] (closePort (advance s))).2) (amend r [] (closePort (advance s))).1) := by
  have e : amendWordsRefusal r.field 0 = none := by
    simp only [NamesWide, not_or] at hn
    rw [amendWordsRefusal_eq, if_neg hn.1, if_neg hn.2, if_pos rfl]
  simp only [exec, execAmend, takeRequest]
  rw [show (advance s).port.words = s.port.words from rfl, h]
  simp [e]

/-! ### Resolution -/

theorem resolveWell_congr {s t : State} (h : t.index = s.index) (tag : Half) : resolveWell tag t = resolveWell tag s := by
  simp [resolveWell, State.indexed?, h]

theorem Reaches.congr {s t : State} (hs : t.slots = s.slots) (hi : t.index = s.index) {tag : Half} {w : Well}
    {x : Slot} (h : s.Reaches tag w x) : t.Reaches tag w x :=
  ⟨by rw [resolveWell_congr hi, h.1], by rw [well?_congr hs, h.2.1], h.2.2⟩

theorem Reaches.record? {s : State} {tag : Half} {w : Well} {x : Slot} (h : s.Reaches tag w x) :
    s.record? w = some x.record := by simp [State.record?, h.2.1]

theorem claimPasses_iff (arg : Half) (r : WellRecord) : claimPasses arg r = true ↔ r.Admits arg := by
  unfold claimPasses
  cases h : r.claim <;> simp [WellRecord.Admits, h]

/-- A request that reaches a well, and passes its claim when it is a changing request, acts on it. -/
theorem onWell_reaches {changing : Bool} {tag arg : Half} {act : Well → WellRecord → State → State × Reply} {s : State}
    {w : Well} {x : Slot} (h : s.Reaches tag w x) (hc : changing = true → x.record.Admits arg) :
    onWell changing tag arg act s = act w x.record s := by
  obtain ⟨a, b, c⟩ := h
  unfold onWell
  simp only [a, b, c, Bool.true_eq_false, if_false]
  rw [if_neg]
  rintro ⟨d, e⟩
  rw [(claimPasses_iff arg x.record).2 (hc d)] at e
  cases e

/-- A changing request that reaches a well claimed by another holder is refused (R21). -/
theorem onWell_claimed {tag arg : Half} {act : Well → WellRecord → State → State × Reply} {s : State}
    {w : Well} {x : Slot} (h : s.Reaches tag w x) (hc : ¬ x.record.Admits arg) :
    onWell true tag arg act s = (s, { status := .claimed, tag := tag, value := claimHolder x.record }) := by
  obtain ⟨a, b, c⟩ := h
  have e : claimPasses arg x.record = false := by
    cases f : claimPasses arg x.record
    · rfl
    · exact absurd ((claimPasses_iff _ _).1 f) hc
  unfold onWell
  simp [a, b, c, e]

/-- A tag that the index holds no pair with resolves to no well record (R4). -/
theorem resolveWell_unresolved {s : State} {tag : Half} (h : s.Unresolved tag) : resolveWell tag s = none := by
  unfold resolveWell State.indexed?
  split
  · rfl
  · rename_i hn
    rcases h with h | h | h
    · exact absurd (.inl h) hn
    · exact absurd (.inr h) hn
    · rw [List.find?_eq_none.2]
      · rfl
      · intro p hp
        simpa using h p hp

/-- A write of a found well's record puts the written slot in its place, and changes nothing else. -/
theorem writeRecord_withSlot {s : State} {w : Well} {x : Slot} (h : s.SlotsOrdered) (hx : s.well? w = some x)
    (f : WellRecord → WellRecord) : writeRecord f w s = s.withSlot w (x.write f) := by
  unfold writeRecord changeSlot State.withSlot
  congr 1
  apply List.map_congr_left
  intro p hp
  by_cases e : p.1 = w.slot
  · obtain ⟨m, ht⟩ := mem_of_well? hx
    have := SlotsOrdered.unique h hp m e
    subst this
    simp [isWell, ht]
  · simp [isWell, e]

/-- A tag that resolves to no well record is refused (R4). -/
theorem onWell_notFound {changing : Bool} {tag arg : Half} {act : Well → WellRecord → State → State × Reply} {s : State}
    (h : resolveWell tag s = none) : onWell changing tag arg act s = (s, refuse .notFound tag) := by
  unfold onWell
  rw [h]

/-- A damaged record is freed and reported (R19). -/
theorem onWell_damaged {changing : Bool} {tag arg : Half} {act : Well → WellRecord → State → State × Reply} {s : State}
    {w : Well} {x : Slot} (h : resolveWell tag s = some w) (hx : s.well? w = some x) (hi : x.intact = false) :
    onWell changing tag arg act s = (freeDamaged w s, refuse .damaged tag) := by
  unfold onWell
  simp [h, hx, hi]

/-- A request on a well is tame when its act is. -/
theorem onWell_tame {changing : Bool} {tag arg : Half} {act : Well → WellRecord → State → State × Reply} {s : State}
    (h : ∀ w r, s.record? w = some r → Tame s (act w r s).1) : Tame s (onWell changing tag arg act s).1 := by
  unfold onWell
  split
  · exact .refl s
  · rename_i w _
    split
    · exact .refl s
    · rename_i x hx
      split
      · exact freeDamaged_tame w s
      · split
        · exact .refl s
        · exact h w x.record (by simp [State.record?, hx])

/-! ### Amended records -/

theorem inRange_ok {lo hi : Nat} {v : Half} {n : Nat} (h : inRange lo hi v = .ok n) : n = v.toNat ∧ lo ≤ n ∧ n ≤ hi := by
  unfold inRange at h
  split at h
  · cases h; exact ⟨rfl, by assumption⟩
  · cases h

/-- The limits of a legal record may move, and its target follows (R11). -/
theorem reclamped_legal {r : WellRecord} {lo hi : Nat} (h : r.Legal) (hlo : lo ≤ hi) (hhi : hi ≤ Config.fullTravel) :
    { r with valveMin := lo, valveMax := hi }.reclamped.Legal := by
  obtain ⟨a, b, c, ⟨d1, d2, d3⟩, f, g1, g2, g3, g4⟩ := h
  have hb := clamp_bounds (v := r.valveTarget) hlo
  unfold WellRecord.reclamped
  cases hm : r.mode <;> simp only <;>
    refine ⟨hlo, hhi, ?_, ⟨?_, ?_, ?_⟩, by simpa [hm] using f, g1, g2, by simp [hm] at g3 ⊢ <;> exact g3, g4⟩ <;>
    simp_all <;> omega

theorem amendedRecord_sameTag {d : DeviceState} {ws : List Half} {v : Half} {r q : WellRecord} {f : WellField}
    (h : amendedRecord d ws v r f = .ok q) : q.tag = r.tag := by
  cases f <;>
    simp only [amendedRecord, amendedValveMin, amendedValveMax, amendedTarget, amendedInterval, amendedDraw,
      amendedLocation, inRange, inSet, named, Except.bind, Except.map, WellRecord.reclamped] at h <;>
    (repeat' split at h) <;> cases h <;> rfl

/-- A set-valued field written by SET or CLEAR leaves the record's name, mode, limits and counts (R12). -/
theorem memberRecord_legal {add : Bool} {v : Half} {r q : WellRecord} {f : WellField}
    (h : memberRecord add v r f = .ok q) (hl : r.Legal) : q.Legal ∧ q.tag = r.tag := by
  cases f <;> simp only [memberRecord, inSet, Except.map] at h <;> (repeat' split at h) <;> cases h <;>
    exact ⟨hl, rfl⟩

/-- An accepted amendment leaves a legal record (R11, R25). -/
theorem amendedRecord_legal {d : DeviceState} {ws : List Half} {v : Half} {r q : WellRecord} {f : WellField}
    (h : amendedRecord d ws v r f = .ok q) (hl : r.Legal) : q.Legal := by
  cases f
  case valveMin =>
    simp only [amendedRecord, amendedValveMin] at h
    cases e : inRange 0 Config.fullTravel v with
    | error x => rw [e] at h; cases h
    | ok n =>
      rw [e] at h
      simp only [Except.bind] at h
      split at h
      · cases h
      · rename_i hn; cases h
        exact reclamped_legal (lo := n) (hi := r.valveMax) hl (by omega) hl.2.1
  case valveMax =>
    simp only [amendedRecord, amendedValveMax] at h
    cases e : inRange 0 Config.fullTravel v with
    | error x => rw [e] at h; cases h
    | ok n =>
      rw [e] at h
      simp only [Except.bind] at h
      split at h
      · cases h
      · rename_i hn; cases h
        exact reclamped_legal (lo := r.valveMin) (hi := n) hl (by omega) (inRange_ok e).2.2
  case valveTarget =>
    simp only [amendedRecord, amendedTarget] at h
    split at h
    · cases h
    · cases h
    · split at h
      · cases h
      · rename_i hm
        simp only [ne_eq, not_not] at hm
        cases e : inRange r.valveMin r.valveMax v with
        | error x => rw [e] at h; cases h
        | ok n =>
          rw [e] at h
          cases e2 : inRange 0 Config.fullTravel v with
          | error x => rw [e2] at h; cases h
          | ok k =>
            rw [e2] at h
            cases h
            obtain ⟨a, b, c, d, f, g⟩ := hl
            obtain ⟨-, i1, i2⟩ := inRange_ok e
            refine ⟨a, b, le_trans i2 b, ⟨fun _ => ⟨i1, i2⟩, ?_, ?_⟩, f, g⟩ <;> intro x <;> simp [hm] at x
  all_goals
    simp only [amendedRecord, amendedInterval, amendedDraw, amendedLocation, inRange, inSet, named,
      Except.map] at h
    (repeat' split at h) <;> cases h <;> exact hl

end Sys2Proof.Machine
end

