-- ==== Sys2Proof/Tests/Slice0.lean ====
section
/-! SUPPORT. Tests: the well-formedness checks, frames written out from R179, one-step checks of examples of the manual,
and for each obligation with hypotheses a witness that meets them. -/

namespace Sys2Proof.Tests

open Sys2Proof.Machine

/-! ### Well-formedness: an ill-formed command for each check -/

/-- A link frame that passes its check, and one that fails it. -/
def good : LinkFrame := LinkFrame.close [1]

def bad : LinkFrame := { bytes := [1], check := 0 }

theorem test_link_check : good.passes = true ∧ bad.passes = false ∧ LinkFrame.passes ⟨[0, 0], 0⟩ = false := by
  decide +kernel

def reading (channel feedback : Nat) (temp : Option Int) : ChannelReading :=
  { channel := channel, raw := ⟨.low, .low, .low, .low⟩, feedback := feedback, vacuum := none, flow := none,
    temp := temp }

theorem test_wf_pulse_tag : Instr.wellFormed (.purgePulseEnd 0) = false ∧
    Instr.wellFormed (.purgePulseEnd 65535) = false ∧ Instr.wellFormed (.purgePulseEnd 65534) = true := by decide

theorem test_wf_move_tag : Instr.wellFormed (.moveTimerExpiry 0) = false ∧
    Instr.wellFormed (.moveTimerExpiry 65535) = false ∧ Instr.wellFormed (.moveTimerExpiry 1) = true := by decide

theorem test_wf_accept_address : Instr.wellFormed (.accept ⟨0, good⟩) = false ∧ Instr.wellFormed (.accept ⟨63, good⟩) = false ∧
    Instr.wellFormed (.accept ⟨62, good⟩) = true := by decide

theorem test_wf_refused_address : Instr.wellFormed (.refused ⟨0, good⟩) = false ∧ Instr.wellFormed (.refused ⟨63, good⟩) = false ∧
    Instr.wellFormed (.refused ⟨1, good⟩) = true := by decide

theorem test_wf_readings_address : Instr.wellFormed (.readings ⟨63, good⟩ [] []) = false ∧
    Instr.wellFormed (.readings ⟨62, good⟩ [reading 0 1000 none, reading 3 1001 (some (-401))] []) = true := by decide

theorem test_wf_readings_channels :
    Instr.wellFormed (.readings ⟨1, good⟩ [reading 1 0 none, reading 1 0 none] []) = false ∧
    Instr.wellFormed (.readings ⟨1, good⟩ [reading 2 0 none, reading 0 0 none] []) = false ∧
    Instr.wellFormed (.readings ⟨1, good⟩ [reading 4 0 none] []) = false := by decide

theorem test_wf_readings_values : Instr.wellFormed (.readings ⟨1, good⟩ [reading 0 65536 none] []) = false ∧
    Instr.wellFormed (.readings ⟨1, good⟩ [reading 0 0 (some 32768)] []) = false ∧
    Instr.wellFormed (.readings ⟨1, good⟩ [reading 0 0 (some (-32769))] []) = false := by decide

def request (tag field mask value arg : Nat) : Request :=
  { seq := 9, tag := BitVec.ofNat 16 tag, field := BitVec.ofNat 8 field, mask := BitVec.ofNat 8 mask,
    value := BitVec.ofNat 16 value, arg := BitVec.ofNat 16 arg }

/-- A frame carries at least one byte before its check. -/
theorem test_wf_link_frames : Instr.wellFormed (.accept ⟨1, ⟨[], 1⟩⟩) = false ∧
    Instr.wellFormed (.refused ⟨1, ⟨[], 1⟩⟩) = false ∧ Instr.wellFormed (.readings ⟨1, ⟨[], 1⟩⟩ [] []) = false ∧
    Instr.wellFormed (.accept ⟨1, bad⟩) = true := by decide

theorem test_wf_unknown_code : Instr.wellFormed (.unknownRequest (request 1 0 0 0 0) 21) = false ∧
    Instr.wellFormed (.unknownRequest (request 1 0 0 0 0) 22) = true := by decide

/-! ### Frames -/

/-- CHECK over the nine digits "123456789" behind a zero byte: the CRC of that text is FEE8, and its lowest bit is
inverted (R170). -/
theorem test_check_of_digits : frameCheck 0x00313233343536373839#80 = 0xFEE9#16 := by decide +kernel

theorem test_idle_and_zero_frames_fail : Frame.passes 0#96 = false ∧ Frame.passes (BitVec.allOnes 96) = false := by
  decide +kernel

/-- UNIT 5, SEQ 9, CODE 3, TAG 40, FIELD 19, MASK 0, VALUE 0, ARG 0, as R179 lays the bytes out. -/
def lookupFrame : Frame := Frame.close 0x59030028130000000000#80

def strap (unit : BitVec 4) : Straps := { unit := unit, order := .linear }

/-- The classing tests of R169 in their order: HOLD, the check, UNIT, and then the CODE. -/
theorem test_exchange_classes : decodeExchange 5 (strap 5) false lookupFrame = .lookup (request 40 19 0 0 0) ∧
    decodeExchange 6 (strap 6) false lookupFrame = .deselect .otherUnit ∧
    decodeExchange 5 (strap 5) false (lookupFrame ^^^ 1#96) = .deselect .badCheck ∧
    decodeExchange 5 (strap 5) true (lookupFrame ^^^ 1#96) = .holdExchange := by decide +kernel

/-- ENROL of tag 300 at station 2, channel 1, start mode MANUAL. -/
theorem test_enrol_word : decodeExchange 5 (strap 5) false (Frame.close 0x5901012C000202010000#80) =
    .enrol (request 300 0 2 513 0) := by decide +kernel

/-- CODE 21 is RESET and CODE 22 names no request. -/
theorem test_last_codes : decodeExchange 5 (strap 3) false (Frame.close 0x59150000000000000000#80) =
      .reset (request 0 0 0 0 0) (strap 3) ∧
    decodeExchange 5 (strap 3) false (Frame.close 0x59160000000000000000#80) =
      .unknownRequest (request 0 0 0 0 0) 22 := by decide +kernel

theorem test_no_table_word : decodeTableWord 96 0 = none ∧ State.reset.withFetchWord 96 0 = State.reset := by decide

/-! ### A small world -/

/-- The well under test: tag 40, slot 0, station 1, channel 0. -/
def well : Well := { tag := 40, slot := 0 }

def lowInputs : PerInput Level := { button := .low, cap := .low, actuator := .low, liquid := .low }

/-- The slot under test: the ENROL defaults in an active mode with all inputs low, changed by `f`. -/
def slot (f : WellRecord → WellRecord) : Slot :=
  freshSlot (f { freshRecord 40 1 0 .auto with mode := .auto, returnMode := none, inputs := some lowInputs })

/-- The slot of the other well: tag 42, slot 2, station 1, channel 1. -/
def otherSlot : Slot := freshSlot { freshRecord 42 1 1 .manual with mode := .manual, returnMode := none }

def station (state : StationState) : StationRecord :=
  { address := 1, channels := [⟨0, false⟩, ⟨1, true⟩], state := state, failures := 2 }

/-- Two wells of station 1 in RUN with SUCTION high, the slot under test changed by `f`. -/
def world (f : WellRecord → WellRecord) : State :=
  { State.reset with
    slots := [(0, slot f), (2, otherSlot)], index := [(40, 0), (42, 2)],
    device := { State.reset.device with suction := .high },
    scan := { stations := [station .active], inFlight := none, round := .running (some 1) } }

def inState (d : DeviceState) (s : State) : State := { s with device := { s.device with state := d } }

def inPhase (p : Phase) (s : State) : State := { s with seq := { s.seq with phase := p } }

def holdingWords (ws : List Half) (s : State) : State := { s with port := { s.port with words := ws } }

def damaged (s : State) : State :=
  { s with slots := s.slots.map fun p => if p.1 = 0 then (p.1, { p.2 with intact := false }) else p }

theorem test_world_is_legal : (world id).RecordsLegal ∧ (world id).IndexAgrees ∧ (world id).LinesFollow ∧
    (world id).PermitSafe ∧ (world id).StationsLegal ∧ (world id).Quiet :=
  ⟨by decide, by decide, by decide, by decide, by decide, by decide⟩

/-- What the statements with `Sound` assume, as one test. -/
def sound (s : State) : Bool :=
  decide s.RecordsLegal && decide s.StationsLegal && decide s.TransactionLegal && decide s.QueueLegal &&
  decide s.MovesLegal

theorem sound_spec {s : State} (h : sound s = true) : s.Sound := by
  simp only [sound, Bool.and_eq_true, decide_eq_true_eq] at h
  exact ⟨h.1.1.1.1, h.1.1.1.2, h.1.1.2, h.1.2, h.2⟩

/-- A POLL of station 1 is in flight, with the outputs of both wells off but for the first one's SAMPLE VALVE. -/
def sentPoll (valve : Bool) : List PollChannel :=
  [⟨0, well, ⟨.off, false, valve, false, 0⟩⟩, ⟨1, ⟨42, 2⟩, ⟨.off, false, false, false, 0⟩⟩]

def pollSentWith (valve : Bool) (s : State) : State :=
  { s with scan := { s.scan with inFlight := some ⟨1, .poll (sentPoll valve)⟩ } }

def pollSent (s : State) : State := pollSentWith false s

def holding (timer : Nat) (s : State) : State := { s with moves := { holders := [⟨well, timer⟩], waiting := [] } }

def waiting (s : State) : State := { s with moves := { holders := [], waiting := [well] } }

def moving (r : WellRecord) : WellRecord := { r with moveState := .moving }

/-- The well under test holds a slot and is current in PURGE, and a POLL is in flight. -/
def busyWorld (f : WellRecord → WellRecord) : State :=
  pollSent (inPhase (.purge well 3) (holding 1 (world fun r => f { r with moveState := .moving, queued := .sampling })))

theorem test_sound_worlds : (pollSent (world id)).Sound ∧ (pollSent (holding 1 (world moving))).Sound ∧
    (pollSent (waiting (world fun r => { r with moveState := .waiting }))).Sound ∧ (busyWorld id).Sound :=
  ⟨sound_spec (by decide), sound_spec (by decide), sound_spec (by decide), sound_spec (by decide)⟩

/-- What the newest slot of the pipeline holds after one command. -/
def answerAfter (c : Instr) (s : State) : Option (Status × Half × Wide) :=
  match exec c s with
  | .next t => t.port.newer.map fun a => (a.status, a.tag, a.value)
  | _ => none

def after (c : Instr) (s : State) : State :=
  match exec c s with
  | .next t => t
  | _ => s

/-! ### One step of examples of the manual -/

/-- The first rows of the example of chapter 12. -/
theorem test_amend_target_of_auto : answerAfter (.amend (request 40 21 0 450 0)) (world id) =
    some (.wrongMode, 40, 0) := by decide

theorem test_mode_manual : answerAfter (.modeRequest (request 40 0 0 2 0)) (world id) = some (.done, 40, 2) := by decide

/-- The amendment of LOCATION at X11 of chapter 11: easting 123456, northing 654321. -/
theorem test_location_of_chapter_11 :
    ((after (.amend (request 40 18 0 64497 0)) (holdingWords [482, 16393] (world id))).record? well).map (·.location) =
      some { easting := 123456, northing := 654321 } := by decide

/-- Tag 41 in the interleaved order visits 41, 40, 43, 42 (chapter 11). -/
theorem test_interleaved_order : [1, 2, 3].map (fun k =>
    Group.nextTag .interleaved { kind := .look, field := 19, base := 40, start := 1, position := k }) =
      [40, 43, 42] := by decide

/-- Step 5 of the example of chapter 10: the entry to STANDBY withdraws the permit and sets PERMIT, which asserts
ALERT B. -/
def permitWorld : State :=
  { world id with
    settings := { Settings.default with devEnableB := 4 },
    blend := { State.reset.blend with permit := .granted, enginePermit := true, flareDemand := false } }

theorem test_standby_of_chapter_10 :
    (after (.standby (request 0 0 0 0 0)) permitWorld).lines = { alertA := false, alertB := true, wake := false } ∧
    (after (.standby (request 0 0 0 0 0)) permitWorld).blend.permit = .withdrawn := by decide

theorem test_enrol_answers_slot : answerAfter (.enrol (request 41 0 1 515 0)) (world id) = some (.done, 41, 1) := by
  decide

theorem test_find_walk : answerAfter (.find (request 40 0 0 0 0)) (world id) = some (.done, 42, 42) ∧
    answerAfter (.find (request 42 0 0 0 0)) (world id) = some (.notFound, 65535, 65535) := by decide

theorem test_minute_draw : ((after .minuteTick { world (fun r => { r with flow := some 1000, drawRemainder := 599 }) with
    time := ⟨0, true⟩ }).record? well).map (fun r => (r.totalDraw, r.drawRemainder)) = some (2, 399) := by decide

theorem test_sixtieth_second : (after (.secondTick .none) { world id with time := ⟨59, false⟩ }).time = ⟨0, true⟩ ∧
    (after (.secondTick .none) { world id with time := ⟨58, false⟩ }).time = ⟨59, false⟩ := by decide

/-- The third step toward high of an input with DEBOUNCE 2 is the first that changes it. -/
theorem test_debounce : settled 2 .high .low ⟨none, 0⟩ = (.low, ⟨some .high, 1⟩) ∧
    settled 2 .high .low ⟨some .high, 1⟩ = (.high, ⟨none, 0⟩) ∧
    settled 2 .low .low ⟨some .high, 1⟩ = (.low, ⟨none, 0⟩) := by decide

/-! ### The hypotheses of the obligations are met

One witness for each obligation that has hypotheses: a state and operands that meet them together, one part for each
clause, at the ends of the ranges the clauses name. -/

/-- What the statements on a request to the well under test, with ARG 0, assume. -/
def ready (f : WellRecord → WellRecord) (s : State) : Bool :=
  decide (s.RecordsLegal ∧ s.Reaches 40 well (slot f) ∧ (slot f).record.Admits 0 ∧ s.port.words = [])

theorem test_meets_StepRunsFrontCommand :
    ((world id).withPending [.secondTick .none]).pending = .secondTick .none :: [] ∧ (world id).pending = [] := by decide

theorem test_meets_RequestFramesDecodeBack : (encodeRequest 5 (.reset (request 0 0 0 0 0) (strap 5))).isSome = true ∧
    (encodeRequest 0 (.unknownRequest (request 65535 255 255 65535 65535) 255)).isSome = true ∧
    Instr.wellFormed (.unknownRequest (request 65535 255 255 65535 65535) 255) = true := by decide +kernel

theorem test_meets_PassingFramesHaveOddParity : lookupFrame.passes = true ∧ good.passes = true ∧
    (pollSent (world id)).linkFrame?.isSome = true ∧
    (inPhase (.read well (.reply 1)) (world id)).measureFrame?.isSome = true :=
  ⟨by decide +kernel, by decide +kernel, rfl, rfl⟩

/-- The premises of the five invariants and of the bounds, with a command in front that gives a next state. -/
theorem test_meets_invariants : ∀ s, s = (pollSent (world id)).withPending [.secondTick .none] → s.RecordsLegal ∧
    s.IndexAgrees ∧ s.LinesFollow ∧ s.PermitSafe ∧ s.PortLegal ∧ s.FaultsLegal ∧ s.settings.InRange ∧
    s.HoldersBounded ∧ s.Sound ∧ s.Quiet ∧ ∃ t, step s = .next t := by
  intro s h
  subst h
  exact ⟨by decide, by decide, by decide, by decide, ⟨by decide, by intro g h; cases h⟩,
    ⟨by decide, by intro f h; cases h⟩, by decide, by decide, sound_spec (by decide), by decide, _, rfl⟩

/-- In STANDBY with WAKE_ENABLE on, BUTTON rises for a well whose WAKE_SET holds it. -/
def wakeWorld : State :=
  (inState .standby (pollSent { world fun r => { r with debounce := 1, wakeSet := 1 } with
    settings := { Settings.default with wakeEnable := true } })).withPending
    [.readings ⟨1, good⟩ [{ reading 0 0 none with raw := { lowInputs with button := .high } }, reading 1 0 none] []]

theorem test_meets_LinesFollowConditions_wake : wakeWorld.RecordsLegal ∧ wakeWorld.device.state = .standby ∧
    wakeWorld.settings.wakeEnable = true ∧ wakeWorld.lines.wake = false ∧
    (wakeWorld.record? well).map (fun r => (r.events.getLsbD 0, r.wakeSet.getLsbD 0)) = some (false, true) ∧
    ∃ t, step wakeWorld = .next t ∧ (t.record? well).map (fun r => r.events.getLsbD 0) = some true ∧
      t.device.state = .standby ∧ t.lines.wake = true :=
  ⟨by decide, by decide, by decide, by decide, by decide, _, rfl, by decide +kernel, by decide +kernel,
    by decide +kernel⟩

/-- WAKE asserted in SAFE is released by an accepted RESUME, and stays through one that is refused (R83). -/
theorem test_wake_released : ∀ s c, s = inState .safe { world id with lines := { State.reset.lines with wake := true } } →
    c = Instr.resume (request 0 0 0 0 0) → s.ReleasesWake c ∧ (after c s).lines.wake = false ∧
    (after c (holdingWords [1] s)).lines.wake = true := by
  rintro s c rfl rfl
  exact ⟨⟨_, strap 0, .low, .inr (.inr ⟨by decide, .inr ⟨rfl, .inr ⟨rfl, rfl⟩⟩⟩)⟩, by decide +kernel, by decide +kernel⟩

/-- No words held, and words held: the resets, NOP, HeldWords, EXTEND, GROUPLOOK, CLEARFAULTS. -/
theorem test_meets_words : (world id).port.words = [] ∧ (holdingWords [1] (world id)).port.words ≠ [] ∧
    (holdingWords [1] (world id)).port.words.length = 1 ∧ (holdingWords [1, 2] (world id)).port.words.length = 2 := by
  decide

theorem test_meets_HeldWordsRefuseRequests : (request 40 17 0 0 0).field = 17 ∧
    (holdingWords [1, 2] (world id)).port.words.length ≠ 1 ∧ (request 40 18 0 0 0).field = 18 ∧
    (holdingWords [1] (world id)).port.words.length ≠ 2 ∧ ¬ NamesWide (request 40 16 0 0 0) ∧
    ¬ NamesWide (request 40 19 0 0 0) := by decide

def withSeverity (v : Severity) (s : State) : State :=
  { s with settings := { s.settings with severity :=
      { s.settings.severity with badFrame := v, recordCheck := v, stationRefused := v, stationNoReply := v } } }

theorem test_meets_DeselectAdvancesVacant :
    [Severity.ignored, .correctable, .degraded, .fatal].map (fun v =>
      (withSeverity v (world id)).settings.severity.badFrame) = [.ignored, .correctable, .degraded, .fatal] ∧
    (world id).device.state ≠ .safe := by decide

/-- A FATAL report in RUN aborts the sample in PURGE and abandons the move of the well under test (R104, R119, R156). -/
theorem test_meets_DeselectAdvancesVacant_work : (busyWorld id).SampleOpen well ∧ well ∈ (busyWorld id).inLists ∧
    (world id).seq.phase.isOpen = false ∧ (inState .standby { world id with scan := State.reset.scan }).scan.round = .idle ∧
    (inState .safe (world id)).device.state = .safe ∧ (world id).scan.stations = [station .active] ∧
    ∀ t, t = after (.deselect .badCheck) (withSeverity .fatal (busyWorld id)) → t.seq.phase = .release well ∧
      t.device.events = 0x22 ∧
      (t.record? well).map (fun r => (r.sampleOutcome, r.moveOutcome)) = some (.aborted, .abandoned) := by
  refine ⟨⟨by decide, by decide⟩, by decide, by decide, by decide, by decide, by decide, ?_⟩
  rintro t rfl
  decide +kernel

/-- The blocks of `h` are late in the second that runs. -/
def lateIn (h : Handover) (s : State) : State := { s with device := { s.device with late := h } }

/-- The blocks of `h` owe the taking of a change. -/
def owing (h : Handover) (s : State) : State := { s with device := { s.device with owed := h } }

def allLate : Handover := { moves := true, sequencer := true, blend := true, scan := true }

theorem test_meets_DeselectAdvancesVacant_late : (lateIn allLate (world id)).device.late.moves = true ∧
    (lateIn allLate (world id)).device.late.blend = true ∧ (world id).device.late.moves = false ∧
    (world id).device.late.blend = false ∧ (lateIn allLate permitWorld).blend.permit = .granted ∧
    (world id).blend.permit ≠ .granted ∧ (world id).device.state = .run := by decide

theorem test_meets_HoldExchangeRepeats (straps : Straps) (s : State) :
    (∃ t, exec (.powerOn straps .low) s = .next t) ∧ ∃ t, exec (.resetLine straps) s = .next t :=
  ⟨⟨_, rfl⟩, ⟨_, rfl⟩⟩

theorem test_meets_UnresolvedTagsNotFound : (world id).Unresolved 0 ∧ (world id).Unresolved 65535 ∧
    (world id).Unresolved 41 ∧ (world id).port.words = [] ∧ (41 : Half) ≠ 0 ∧ ¬ NamesWide (request 41 16 0 0 0) := by
  decide

theorem test_meets_DamagedRecordsAreFreed : resolveWell 40 (damaged (world id)) = some well ∧
    (damaged (world id)).well? well = some { slot id with intact := false } ∧
    (damaged (world id)).port.words = [] ∧ Instr.retire (request 40 0 0 0 0) ∈ wellRequests (request 40 0 0 0 0) ∧
    Instr.lookup (request 40 0 0 0 0) ∈ recordRequests (request 40 0 0 0 0) ∧
    (withSeverity .degraded (world id)).settings.severity.recordCheck ≠ .ignored ∧
    (world id).settings.severity.recordCheck = .fatal := by decide

/-- A damaged record whose own TAG and STATION have become another's is found under the names beside it. -/
theorem test_meets_DamagedRecordsAreFreed_tag :
    ∀ s, s = damaged (world fun r => r) →
    ∀ t, t = { s with slots := s.slots.map fun p =>
      if p.1 = 0 then (p.1, { p.2 with record := { p.2.record with tag := 42, address := 9 } }) else p } →
    resolveWell 40 t = some well ∧ (t.well? well).map (fun x => (x.intact, x.record.tag)) = some (false, 42) ∧
    (holdingWords [1] t).port.words.length = 1 ∧ (holdingWords [1, 2] t).port.words.length = 2 ∧
    answerAfter (.amend (request 40 17 0 0 0)) (holdingWords [1] t) = some (.damaged, 40, 0) ∧
    answerAfter (.amend (request 40 18 0 0 0)) (holdingWords [1, 2] t) = some (.damaged, 40, 0) := by
  rintro s rfl t rfl
  exact ⟨by decide, by decide, by decide, by decide, by decide +kernel, by decide +kernel⟩

theorem test_meets_ClaimsGuardChanges : (world fun r => { r with claim := some 7 }).Reaches 40 well
    (slot fun r => { r with claim := some 7 }) ∧ (slot fun r => { r with claim := some 7 }).record.claim = some 7 ∧
    (request 40 0 0 0 8).arg ≠ 7 := by decide

/-- The lowest and the highest tag, address and channel, and each start mode. -/
theorem test_meets_EnrolCreatesRecord : (world id).SlotsOrdered ∧ (world id).device.state = .run ∧
    (∀ r ∈ [request 1 0 1 (62 * 256) 0, request 65534 0 2 (1 * 256 + 3) 0, request 41 0 3 (1 * 256 + 2) 0],
      1 ≤ r.tag.toNat ∧ r.tag.toNat ≤ 65534 ∧ 1 ≤ r.value.toNat / 256 ∧ r.value.toNat / 256 ≤ 62 ∧
      r.value.toNat % 256 ≤ 3 ∧ (r.mask = 1 ∨ r.mask = 2 ∨ r.mask = 3) ∧
      (∀ p ∈ (world id).index, p.1 ≠ r.tag.toNat) ∧
      ∀ p ∈ (world id).slots,
        ¬ (p.2.address = r.value.toNat / 256 ∧ p.2.channel = r.value.toNat % 256)) ∧
    (∀ p ∈ (world id).slots, p.1 ≠ 1) ∧ (∀ x ∈ (world id).scan.stations, x.address ≠ 62) ∧
    ∃ x ∈ (world id).scan.stations, x.address = 1 := by decide

/-- A table with every slot occupied. -/
def fullWorld : State :=
  { State.reset with slots := (List.range 160).map fun n => (n, freshSlot (freshRecord (n + 1) 1 0 .auto)) }

theorem test_meets_EnrolIsRefusedInOrder : (world id).SlotsOrdered ∧ (inState .standby (world id)).device.state = .standby ∧
    (inState .safe (world id)).device.state = .safe ∧ (request 0 0 0 0 0).tag = 0 ∧
    (request 65535 0 0 0 0).tag = 65535 ∧ ¬ (request 41 0 1 (63 * 256) 0).value.toNat / 256 ≤ 62 ∧
    ¬ (request 41 0 1 260 0).value.toNat % 256 ≤ 3 ∧ ¬ 1 ≤ (request 41 0 1 3 0).value.toNat / 256 ∧
    (request 41 0 4 256 0).mask = 4 ∧ (request 41 0 0 256 0).mask = 0 ∧ (∃ p ∈ (world id).index, p.1 = 40) ∧
    ∃ p ∈ (world id).slots, p.2.address = 1 ∧ p.2.channel = 1 := by decide

theorem test_meets_EnrolIsRefusedInOrder_full : fullWorld.slots.length = 160 ∧
    fullWorld.slots.map (fun p => p.1) = List.range 160 ∧ fullWorld.device.state = .run ∧ fullWorld.index = [] := by
  decide +kernel

theorem test_meets_RetireFreesAtOnce : ready id (world id) = true ∧ (request 40 0 1 0 0).mask.getLsbD 0 = true ∧
    ready (fun r => { r with valveFeedback := some 10 }) (world fun r => { r with valveFeedback := some 10 }) = true ∧
    (world id).settings.moveBand = 10 := by decide

/-- The freed well is one of two of its station, and then the station's only one, with its transaction in flight. -/
def aloneWorld : State :=
  { world id with
    slots := [(0, slot id)], index := [(40, 0)],
    scan := { stations := [{ station .active with channels := [⟨0, false⟩] }],
              inFlight := some ⟨1, .poll [⟨0, well, ⟨.off, false, false, false, 0⟩⟩]⟩, round := .running (some 1) } }

theorem test_meets_RetireFreesAtOnce_station : (pollSent (world id)).Sound ∧ aloneWorld.Sound ∧
    station .active ∈ (pollSent (world id)).scan.stations ∧
    (∃ c ∈ (station .active).channels, c.channel ≠ (slot id).channel) ∧
    (∀ x ∈ aloneWorld.scan.stations, x.address = (slot id).address ∧ ∀ c ∈ x.channels, c.channel = (slot id).channel) ∧
    aloneWorld.scan.inFlight.map (fun t => t.address) = some (slot id).address ∧
    (pollSent (world id)).scan.inFlight.isSome = true :=
  ⟨sound_spec (by decide), sound_spec (by decide), by decide, by decide, by decide, by decide, by decide⟩

/-- A well that holds a slot, waits, or does neither; ACTUATOR high and low; the feedback in the band of the target, one
past it, and absent. -/
theorem test_meets_TargetTaken : (holding 1 (world moving)).moves.holds well = true ∧
    (waiting (world id)).moves.waits well = true ∧ (waiting (world id)).moves.holds well = false ∧
    (world id).moves.holds well = false ∧ (world id).moves.waits well = false ∧
    (slot fun r => { r with inputs := some { lowInputs with actuator := .high } }).record.ActuatorHigh ∧
    ¬ (slot id).record.ActuatorHigh ∧ (slot id).record.OffTarget 0 10 ∧
    (slot fun r => { r with valveFeedback := some 11 }).record.OffTarget 0 10 ∧
    ¬ (slot fun r => { r with valveFeedback := some 10 }).record.OffTarget 0 10 ∧
    max (request 40 2 0 1 0).value.toNat (min (slot id).record.valveTarget 1000) ≠ (slot id).record.valveTarget := by
  refine ⟨by decide, by decide, by decide, by decide, by decide, ⟨_, rfl, rfl⟩, ?_, ?_, ?_, ?_, by decide⟩
  · rintro ⟨p, h, e⟩; cases h; cases e
  · intro f h; cases h
  · intro f h; cases h; decide
  · intro h; exact absurd (h 10 rfl) (by decide)

theorem test_meets_RetireClosesFirst : (request 40 0 2 0 0).mask.getLsbD 0 = false ∧
    ready id (inState .safe (world id)) = true ∧ ready id (world id) = true ∧ (slot id).record.valveFeedback = none ∧
    ready (fun r => { r with valveFeedback := some 11 }) (world fun r => { r with valveFeedback := some 11 }) = true ∧
    ready (fun r => { r with mode := .retiring }) (world fun r => { r with mode := .retiring }) = true ∧
    ready (fun r => { r with mode := .staging, returnMode := some .auto })
      (world fun r => { r with mode := .staging, returnMode := some .auto }) = true := by decide

theorem test_meets_FindAnswersNextTag : (world id).index.Pairwise (fun p q => p.1 < q.1) ∧
    (∀ p ∈ (world id).index, p.1 ≤ 42) ∧ ((42, 2) : Nat × Nat) ∈ (world id).index ∧ 40 < 42 ∧
    (∀ q ∈ (world id).index, 40 < q.1 → 42 ≤ q.1) ∧ ((40, 0) : Nat × Nat) ∈ (world id).index ∧
    ∀ q ∈ (world id).index, 0 < q.1 → 40 ≤ q.1 := by decide

/-- LOOKUP of a well record: every kind of field, present and absent, and the first code past them. -/
theorem test_meets_LookupAnswersWellFields : ready id (world id) = true ∧ (fieldValue (slot id).record 0).isSome = true ∧
    fieldValue (slot id).record 38 = some none ∧ fieldValue (slot id).record 39 = none := by decide

theorem test_meets_LookupAnswersDeviceFields : (request 0 65 0 0 4).tag = 0 ∧ (world id).port.words = [] ∧
    (deviceValue (world id) 11 56).isOk = true ∧ (deviceValue (world id) 12 56).isOk = false ∧
    (deviceValue (world id) 4 65).isOk = true ∧ (deviceValue (world id) 5 65).isOk = false ∧
    (deviceValue (world id) 0 38).isOk = false ∧ (deviceValue (world id) 0 70).isOk = false := by decide

theorem test_meets_AmendWritesPlainFields : ready id (world id) = true ∧
    (∀ k ∈ [4, 5, 6, 7, 8, 9, 10, 11, 12, 13, 16], (plainField k).isSome = true) ∧
    (request 40 14 0 255 0).value.toNat < 256 ∧ 256 ≤ (request 40 15 0 256 0).value.toNat ∧
    (request 40 4 0 200 0).value.toNat ≤ 200 ∧ ¬ (request 40 4 0 201 0).value.toNat ≤ 200 ∧
    22 ≤ (request 40 22 0 0 0).field.toNat := by decide

def manual (f : WellRecord → WellRecord) (r : WellRecord) : WellRecord := f { r with mode := .manual }

theorem test_meets_AmendMovesLimitsAndTarget : ready id (world id) = true ∧ ready (manual id) (world (manual id)) = true ∧
    (request 40 2 0 1000 0).value.toNat ≤ (slot id).record.valveMax ∧
    (slot id).record.valveMax < (request 40 2 0 1001 0).value.toNat ∧
    (slot id).record.valveMin ≤ (request 40 3 0 0 0).value.toNat ∧ 1000 < (request 40 3 0 1001 0).value.toNat ∧
    (request 40 21 0 1000 0).value.toNat ≤ (slot (manual id)).record.valveMax ∧
    (inState .standby (world id)).Reaches 40 well (slot id) ∧ (inState .safe (world id)).Reaches 40 well (slot id) := by
  decide

theorem test_meets_AmendWritesWideFields : (world id).SlotsOrdered ∧ (slot id).record.Admits 0 ∧
    (holdingWords [1] (world id)).Reaches 40 well (slot id) ∧ (holdingWords [1] (world id)).port.words = [1] ∧
    (holdingWords [1, 2] (world id)).Reaches 40 well (slot id) ∧
    (holdingWords [1, 2] (world id)).port.words = [1, 2] := by decide

theorem test_meets_AmendWritesSettings : (world id).port.words = [] ∧ ¬ NamesWide (request 0 56 0 3 11) ∧
    (∀ k ∈ [39, 40, 41, 42, 43, 44, 45, 46, 47, 48, 50, 51, 52, 53], (plainSetting k).isSome = true) ∧
    (request 0 54 0 63 0).value.toNat < 64 ∧ 64 ≤ (request 0 55 0 64 0).value.toNat ∧
    faultKinds[(request 0 56 0 3 11).arg.toNat]? = some .suctionLost ∧
    severityOfCode (request 0 56 0 3 11).value.toNat = some .fatal ∧ 12 ≤ (request 0 56 0 3 12).arg.toNat ∧
    4 ≤ (request 0 56 0 4 11).value.toNat ∧ (request 0 49 0 4 0).value.toNat ≤ 4 ∧
    4 < (request 0 49 0 5 0).value.toNat ∧ (request 0 38 0 0 0).field.toNat < 39 ∧
    57 ≤ (request 0 57 0 0 0).field.toNat := by decide

theorem test_meets_SetAndClearChangeMembers : ready id (world id) = true ∧ (request 40 13 0 15 0).value.toNat < 16 ∧
    16 ≤ (request 40 13 0 16 0).value.toNat ∧ (request 40 16 0 255 0).value.toNat < 256 ∧
    256 ≤ (request 40 14 0 256 0).value.toNat ∧ (request 40 11 0 0 0).field.toNat < 12 ∧
    16 < (request 40 17 0 0 0).field.toNat ∧ (request 0 54 0 63 0).value.toNat < 64 := by decide

theorem test_meets_AckRemovesKinds : ready (fun r => { r with claim := some 0, events := 255 })
    (world fun r => { r with claim := some 0, events := 255 }) = true ∧ (request 0 0 255 0 0).tag = 0 := by decide

theorem test_meets_ClaimTestsAndSets : ready id (world id) = true ∧ (slot id).record.claim = none ∧
    (world fun r => { r with claim := some 65535 }).Reaches 40 well (slot fun r => { r with claim := some 65535 }) ∧
    (request 40 0 0 0 65535).arg = 65535 ∧ (request 40 0 0 0 0).arg ≠ 65535 := by decide

theorem test_meets_ReleaseClearsClaim : (request 40 0 1 0 0).mask.getLsbD 0 = true ∧ (request 40 0 1 0 0).arg = 0 ∧
    (request 40 0 1 0 65535).arg ≠ 0 ∧ (request 40 0 2 0 7).mask.getLsbD 0 = false ∧
    ready id (world id) = true ∧
    (world fun r => { r with claim := some 7 }).Reaches 40 well (slot fun r => { r with claim := some 7 }) := by decide

theorem test_meets_ModeRequestActsByMode : ready id (world id) = true ∧ ready id (inState .safe (world id)) = true ∧
    ready (manual id) (world (manual id)) = true ∧ requestedMode 1 = some .auto ∧ requestedMode 3 = some .isolated ∧
    ¬ (1 ≤ (request 40 0 0 0 0).value.toNat ∧ (request 40 0 0 0 0).value.toNat ≤ 3) ∧
    ¬ (1 ≤ (request 40 0 0 4 0).value.toNat ∧ (request 40 0 0 4 0).value.toNat ≤ 3) ∧
    ready (fun r => { r with mode := .retiring }) (world fun r => { r with mode := .retiring }) = true ∧
    ready (fun r => { r with mode := .unreachable, returnMode := some .suspect })
      (world fun r => { r with mode := .unreachable, returnMode := some .suspect }) = true := by decide

/-- MODE to ISOLATED and RETIRE abort the sample in PURGE; in RELEASE nothing is aborted (R27, R104). -/
theorem test_isolated_sample : ∀ c ∈ [Instr.modeRequest (request 40 0 0 3 0), .retire (request 40 0 0 0 0)],
    (busyWorld id).SampleOpen well ∧ ¬ (inPhase (.release well) (busyWorld id)).SampleOpen well ∧
    (after c (busyWorld id)).seq.phase = .release well ∧
    ((after c (busyWorld id)).record? well).map (fun r => r.sampleOutcome) = some .aborted ∧
    ((after c (inPhase (.release well) (busyWorld id))).record? well).map (fun r => r.sampleOutcome) = some .none := by
  decide +kernel

def queueOf (n : Nat) (s : State) : State :=
  { s with seq := { s.seq with queue := List.replicate n { well := { tag := 42, slot := 2 }, cls := .routine } } }

theorem test_meets_SampleRequestQueuesWell : ready id (world id) = true ∧ ready id (inState .standby (world id)) = true ∧
    (slot id).record.inputHigh .cap = false ∧ (slot id).record.queued = .no ∧
    (queueOf 15 (world id)).seq.queue.length < 16 ∧ 16 ≤ (queueOf 16 (world id)).seq.queue.length ∧
    (request 40 0 0 2 0).value.toNat = 2 ∧ (inPhase (.select well) (world id)).seq.phase ≠ .idle ∧
    (world id).seq.phase = .idle ∧ (world id).device.suction = .high ∧ (world id).seq.queue = [] ∧
    ready (fun r => { r with queued := .routine }) (queueOf 16 (world fun r => { r with queued := .routine })) = true ∧
    (slot fun r => { r with inputs := some { lowInputs with cap := .high } }).record.inputHigh .cap = true := by decide

theorem test_meets_PurgeRequestStartsPulse : ready id (world id) = true ∧ ready id (inState .standby (world id)) = true ∧
    ready id (inState .safe (world id)) = true ∧ ready (fun r => { r with mode := .staging, returnMode := some .auto })
      (world fun r => { r with mode := .staging, returnMode := some .auto }) = true := by decide

theorem test_meets_GroupsOpenAtPositionOne : (world id).Unresolved 41 ∧ ¬ NamesWide (request 41 16 0 0 0) ∧
    NamesWide (request 41 17 0 0 0) ∧ NamesWide (request 41 18 0 0 0) ∧ ready id (world id) = true ∧
    (world fun r => { r with claim := some 7 }).Reaches 40 well (slot fun r => { r with claim := some 7 }) ∧
    (plainField 4).isSome = true ∧ (request 40 2 0 2000 0).tag ≠ 0 ∧ ¬ NamesWide (request 40 2 0 2000 0) := by decide

/-- A group whose last position names the well under test, and one whose second position names no well. -/
def lastGroup (kind : GroupKind) : Group := { kind := kind, field := 4, base := 40, start := 1, position := 3 }

theorem test_meets_ContinueStepsGroup : (lastGroup .look).Legal ∧ (lastGroup .amend).Legal ∧
    (lastGroup .look).nextTag .linear = 40 ∧ ({ lastGroup .look with start := 0, position := 1 }).Legal ∧
    ({ lastGroup .look with start := 0, position := 1 }).nextTag .linear = 41 ∧ (world id).Unresolved 41 ∧
    ready id (world id) = true ∧ (world id).port.group = none ∧ (holdingWords [1] (world id)).port.words ≠ [] ∧
    (lastGroup .amend).nextTag .linear ≠ 0 ∧ ¬ NamesWide { request 0 0 0 2000 0 with tag := 40, field := 2 } := by
  decide

theorem test_meets_StandbyEntersOrRefuses : (world id).PermitSafe ∧ permitWorld.PermitSafe ∧
    (world id).alertAStands = false ∧ (world id).alertBStands = false ∧ (world id).moves.holders = [] ∧
    (world id).moves.waiting = [] ∧ (world id).seq.phase.current? = none ∧ permitWorld.blend.permit = .granted ∧
    (world fun r => { r with events := 1, enableA := 1 }).alertAStands = true ∧
    (inPhase (.release well) (world id)).seq.phase.current? ≠ none ∧ (inState .safe (world id)).PermitSafe := by decide

theorem test_meets_StandbyEntersOrRefuses_late : (lateIn allLate (world id)).PermitSafe ∧
    (lateIn allLate (world id)).device.late.blend = true ∧ (world id).device.late.blend = false ∧
    (world id).blend.permit ≠ .granted ∧ (lateIn allLate (world id)).seq.phase.current? = none := by decide

def faulted (s : State) : State :=
  { s with faults := { first := some { kind := .badFrame, tag := 65535, detail := 0 }, further := 0 } }

def inRound (r : Round) (s : State) : State := { s with scan := { s.scan with round := r } }

theorem test_meets_ResumeReturnsToRun : (world id).device.state = .run ∧ (faulted (inState .safe (world id))).faults.first ≠ none ∧
    (inState .safe (world id)).faults.first = none ∧ (inState .safe (world id)).device.state = .safe ∧
    (inRound .idle (inState .standby (world id))).scan.stations ≠ [] ∧
    (inRound .idle (inState .standby (world id))).scan.round = .idle ∧
    (inState .standby (world id)).record? well = some (slot id).record ∧
    ∀ p ∈ (world id).slots, p.2.record.mode ≠ .retiring := by decide

/-- From SAFE with the well under test waiting: out of band, in band, with ACTUATOR high, and RETIRING and closed. -/
def safeWaiting (f : WellRecord → WellRecord) : State :=
  inState .safe (pollSent (waiting (world fun r => f { r with moveState := .waiting })))

theorem test_meets_ResumeReturnsToRun_needs :
    (∀ f ∈ [none, some 0, some 10, some 11], sound (safeWaiting fun r => { r with valveFeedback := f }) = true ∧
      (after (.resume (request 0 0 0 0 0)) (safeWaiting fun r => { r with valveFeedback := f })).device.state = .run) ∧
    sound (inState .safe (pollSent (world fun r => { r with mode := .retiring, valveFeedback := some 10 }))) = true ∧
    sound (safeWaiting fun r => { r with inputs := some { lowInputs with actuator := .high } }) = true ∧
    (safeWaiting id).device.owed.moves = false ∧ (safeWaiting id).faults.first = none ∧
    (safeWaiting id).port.words = [] ∧ (slot id).record.mode.isActive = true := by decide +kernel

/-! ### The blend unit, the ticks and the timers -/

def sampled (r : WellRecord) : WellRecord :=
  { r with flow := some 3000, sample := some { ch4 := 4200, co2 := 0, o2 := 300 } }

def permitted (p : PermitState) (s : State) : State := { s with blend := { s.blend with permit := p } }

/-- At exactly the floor with the margin the grant conditions hold; at the floor only the hold conditions do. -/
theorem test_meets_RoundEndFormsBlend :
    (world sampled).PermitAllowed (blendRoundEnd (world sampled)).blend.blend (4000 + 200) ∧
    ¬ (world id).PermitAllowed (blendRoundEnd (world id)).blend.blend (4000 + 200) ∧
    (blendRoundEnd (world id)).blend.contributing = 0 ∧ 0 < (blendRoundEnd (world sampled)).blend.contributing ∧
    [PermitState.withdrawn, .pending, .granted].map (fun p => (permitted p (world id)).blend.permit) =
      [.withdrawn, .pending, .granted] := by
  refine ⟨⟨by decide, by decide, { ch4 := 4200, o2 := 300, flow := 300 }, by decide, by decide, by decide⟩, ?_,
    by decide, by decide, by decide⟩
  rintro ⟨_, _, x, h, _⟩
  have e : (blendRoundEnd (world id)).blend.blend = none := by decide
  rw [e] at h
  cases h

/-- Level detection outside STANDBY, with a level that stands and is selected, and one that is not. -/
theorem test_meets_RoundEndFormsBlend_levels : (world id).device.state ≠ .standby ∧ (world id).SlotsOrdered ∧
    (world id).StationsOrdered ∧ (world id).well? well = some (slot id) ∧
    (inState .standby (world id)).device.state = .standby ∧ (slot id).record.mode.isActive = true ∧
    (world id).BaselineDue 1 0 = false ∧ (world id).BaselineDue 1 1 = true ∧
    (slot id).record.inputs = some lowInputs ∧ (0x8888 : BitVec 16).getLsbD (4 * 3 + 3) = true := by decide

/-- A change is owed by each block, at a listed well, in an open sample and with a PENDING permit in SAFE; and none is. -/
theorem test_meets_SecondTickCountsTimers_owed : ∀ s, s = inState .safe (owing allLate (busyWorld id)) →
    s.device.owed.moves = true ∧ well ∈ s.inLists ∧ s.device.owed.sequencer = true ∧ s.seq.phase.isOpen = true ∧
    s.seq.phase.current? = some well ∧ s.device.owed.blend = true ∧ s.device.state ≠ .run ∧
    (owing allLate (inRound .idle (world id))).device.owed.scan = true ∧ (world id).device.owed = Handover.none ∧
    (inRound .idle (world id)).StationsLegal := by
  rintro s rfl
  exact ⟨by decide, by decide, by decide, by decide, by decide, by decide, by decide, by decide, by decide, by decide⟩

/-- Every phase, a round in progress, and the round that a second tick begins. -/
theorem test_meets_SecondTickCountsTimers : (inPhase (.purge well 1) (world id)).seq.phase = .purge well 1 ∧
    (inPhase (.read well (.reply 1)) (world id)).seq.phase = .read well (.reply 1) ∧
    (inPhase (.read well (.busyWait 10)) (world id)).seq.phase = .read well (.busyWait 10) ∧
    (inPhase (.offline 60 true) (world id)).seq.phase = .offline 60 true ∧ (world id).seq.phase = .idle ∧
    (world id).scan.round ≠ .idle ∧ (inRound .idle (world id)).scan.round = .idle ∧
    (inRound .idle (world id)).device.state ≠ .standby ∧
    (inRound .idle (world id)).scan.stations = station .active :: [] ∧
    (world id).record? well = some (slot id).record := by decide

def minuteDue (s : State) : State := { s with time := { second := 0, minuteDue := true } }

theorem test_meets_MinuteTickAgesAndDraws : (minuteDue (world id)).time.minuteDue = true ∧
    (world id).time.minuteDue = false ∧ (minuteDue (world id)).SlotsOrdered ∧
    (minuteDue (world id)).record? well = some (slot id).record ∧
    (minuteDue (inRound .idle (inState .standby (world id)))).device.state = .standby ∧
    (minuteDue (inRound .idle (inState .standby (world id)))).scan.round = .idle ∧
    (minuteDue (inRound .idle (inState .standby (world id)))).scan.stations = station .active :: [] ∧
    (minuteDue (world id)).device.state ≠ .standby := by decide

/-- A minute tick is due in PURGE, with `n` entries in the queue, all of the other well. -/
def surveyWorld (n : Nat) : State :=
  minuteDue (inPhase (.purge well 3) (queueOf n { world id with
    slots := [(0, slot id), (2, { otherSlot with record := { otherSlot.record with queued := .routine } })] }))

/-- Room for the due well, and a full queue. -/
theorem test_meets_SurveyQueuesDueWells : ∀ n ∈ [15, 16],
    (surveyWorld n).time.minuteDue = true ∧ (surveyWorld n).SlotsOrdered ∧
    (surveyWorld n).seq.phase ≠ .idle ∧ (surveyWorld n).device.state ≠ .standby ∧
    (∀ e ∈ (surveyWorld n).seq.queue, ∀ r ∈ (surveyWorld n).record? e.well, r.queued ≠ .no) ∧
    (slot id).record.surveyDue = 0 ∧ (surveyWorld n).seq.queue.length = n := by decide

theorem test_survey_fills_queue : (after .minuteTick (surveyWorld 15)).seq.queue.getLast? = some ⟨well, .routine⟩ ∧
    (after .minuteTick (surveyWorld 16)).seq.queue = (surveyWorld 16).seq.queue := by decide

theorem test_meets_TimersActWhenDue : (inPhase (.purge well 0) (world id)).seq.phase = .purge well 0 ∧
    (inPhase (.read well (.busyWait 0)) (world id)).seq.phase = .read well (.busyWait 0) ∧
    (inPhase (.offline 0 false) (world id)).seq.phase = .offline 0 false ∧ (world id).SlotsOrdered ∧
    (world id).index.Pairwise (fun p q => p.1 < q.1) ∧ (well.tag, well.slot) ∈ (world id).index ∧
    (world id).well? well = some (slot id) ∧ (∀ p ∈ (world id).index, p.1 ≠ 41) ∧ (world id).seq.phase = .idle := by
  decide

theorem test_meets_MoveTimerEndsTimeout : (∀ h ∈ (holding 1 (world id)).moves.holders, h.well.tag = 40 → h.timer ≠ 0) ∧
    ({ well := well, timer := 0 } : Holder) ∈ (holding 0 (world id)).moves.holders ∧ well.tag = 40 ∧
    (∀ h ∈ (holding 0 (world id)).moves.holders, h.well.tag = 40 → h = { well := well, timer := 0 }) ∧
    (holding 0 (world id)).record? well = some (slot id).record ∧
    (world id).settings.severity.moveTimeout ≠ .fatal := by decide

/-! ### The analyser link -/

def inRead (s : State) : State := inPhase (.read well (.reply 0)) s

/-- A sum of gas values at full scale is plausible, and one above it is not. -/
theorem test_meets_PlausibleValues : PlausibleValues 9000 900 100 ∧ ¬ PlausibleValues 9000 900 101 := by decide

theorem test_meets_FailedReadsCount : (inRead (world id)).record? well = some (slot id).record ∧
    (inRead (world id)).seq.phase = .read well (.reply 0) ∧ (inRead (world id)).AwaitsReply well 0 ∧
    (world id).settings.severity.analyserFail ≠ .fatal :=
  ⟨by decide, by decide, ⟨⟨0, by decide⟩, by decide⟩, by decide⟩

/-- At the ceiling, and above it with LIQUID high, or of a MANUAL well: moves nothing more. -/
theorem test_meets_OkValuesWriteSample : (inRead (world id)).SlotsOrdered ∧
    (inRead (world id)).well? well = some (slot id) ∧ (inRead (world id)).AwaitsReply well 0 ∧
    (world id).device.state ≠ .standby ∧ ¬ (slot id).record.Hot 201 ∧ ¬ (slot id).record.Hot 200 ∧
    (∀ p, p = ({ lowInputs with liquid := .high } : PerInput Level) →
      ¬ (world id).Adjusts (slot fun r => { r with inputs := some p }).record) ∧
    (slot (manual id)).record.mode = .manual ∧ (slot id).record.o2Ceiling = 200 := by
  refine ⟨by decide, by decide, ⟨⟨0, by decide⟩, by decide⟩, by decide, ?_, ?_, ?_, by decide, by decide⟩
  · rintro ⟨_, t, h, _⟩; cases h
  · rintro ⟨_, t, h, _⟩; cases h
  · rintro p rfl ⟨_, _, h⟩
    exact absurd (h _ rfl).1 (by decide)

theorem test_meets_Adjusts (m : Mode) (n : Nat) :
    (inRead (world id)).Adjusts (slot fun r => { r with mode := m, excursions := n, clean := n }).record :=
  ⟨by decide, by decide, by intro p h; cases h; decide⟩

theorem test_meets_TuningAdjustsAutoWells :
    (inRead (world fun r => { r with excursions := 1 })).RecordsLegal ∧
    (inRead (world fun r => { r with excursions := 2 })).RecordsLegal ∧
    (slot fun r => { r with excursions := 2 }).record.mode = .auto ∧
    (∀ n, ¬ (slot fun r => { r with excursions := n }).record.Hot 201) ∧
    PlausibleValues 5000 100 200 ∧ PlausibleValues 4499 100 200 ∧ PlausibleValues 5000 100 201 := by
  refine ⟨by decide, by decide, by decide, ?_, by decide, by decide, by decide⟩
  rintro n ⟨_, t, h, _⟩
  cases h

def suspect (clean : Nat) (r : WellRecord) : WellRecord :=
  { r with mode := .suspect, valveTarget := 0, excursions := 3, clean := clean }

theorem test_meets_TuningSuspectAndHotWells : (inRead (world (suspect 1))).RecordsLegal ∧
    (inRead (world (suspect 2))).RecordsLegal ∧ (slot (suspect 2)).record.mode = .suspect ∧
    PlausibleValues 5000 100 100 ∧ PlausibleValues 5000 100 101 ∧
    (inRead (world fun r => { r with temp := some 550 })).RecordsLegal ∧
    (slot fun r => { r with temp := some 550 }).record.Hot 201 := by
  refine ⟨by decide, by decide, by decide, by decide, by decide, by decide, by decide, 550, rfl, by decide⟩

def busyCount (n : Nat) (s : State) : State := { s with seq := { s.seq with busyCount := n } }

theorem test_meets_BusyAndProbeReplies : (inRead (busyCount 1 (world id))).SlotsOrdered ∧
    (inRead (busyCount 1 (world id))).well? well = some (slot id) ∧
    (inRead (busyCount 1 (world id))).AwaitsReply well 0 ∧ (inRead (busyCount 1 (world id))).seq.busyCount < 2 ∧
    (inRead (busyCount 2 (world id))).AwaitsReply well 0 ∧ 2 ≤ (inRead (busyCount 2 (world id))).seq.busyCount ∧
    (world id).device.state ≠ .standby ∧ (inPhase (.offline 1 true) (world id)).seq.phase = .offline 1 true ∧
    (world id).seq.queue = [] ∧ (world id).seq.number = 0 :=
  ⟨by decide, by decide, ⟨⟨0, by decide⟩, by decide⟩, by decide, ⟨⟨0, by decide⟩, by decide⟩, by decide, by decide,
    by decide, by decide, by decide⟩

/-! ### The permit, SUCTION and the field scan link -/

def pendingPermit (timer : Nat) (s : State) : State :=
  { s with blend := { s.blend with permit := .pending, holdTimer := some timer } }

def suctionLow (s : State) : State := { s with device := { s.device with suction := .low } }

theorem test_meets_PermitAndSuctionEvents : (pendingPermit 0 (world id)).blend.holdTimer = some 0 ∧
    (pendingPermit 0 (world id)).blend.permit = .pending ∧ (world id).device.state = .run ∧
    (inState .safe (pendingPermit 0 (world id))).device.state ≠ .run ∧
    (pendingPermit 1 (world id)).blend.holdTimer ≠ some 0 ∧ (suctionLow (world id)).device.suction = .low ∧
    (suctionLow (world id)).seq.queue = [] ∧ (world id).device.suction = .high ∧
    (pendingPermit 1 (world id)).PermitSafe ∧ permitWorld.PermitSafe ∧ (inState .safe (world id)).PermitSafe := by
  decide

theorem test_meets_DiscardsChangeNothing : (world id).scan.inFlight = none ∧ (1 : Byte) ≠ (world id).seq.number ∧
    (∀ w n, (world id).seq.phase ≠ .read w (.reply n)) ∧ ∀ n, (world id).seq.phase ≠ .offline n true :=
  ⟨by decide, by decide, (by intro w n h; cases h), (by intro n h; cases h)⟩

/-- A SETUP to station 1 is in flight, sent before channel 1 joined. -/
def setupSent (s : State) : State :=
  { s with scan := { s.scan with
      stations := [station .setupDue], inFlight := some ⟨1, .setup [⟨0, well⟩]⟩ } }

def parked (m : ActiveMode) (r : WellRecord) : WellRecord := { r with mode := .unreachable, returnMode := some m }

/-- A parked well of the station, whatever well the SETUP named, and a channel that joined since. -/
theorem test_meets_AcceptTakesUpModes : ∀ m ∈ [ActiveMode.auto, .manual, .isolated, .suspect, .retiring],
    sound (setupSent (world (parked m))) = true ∧
    (setupSent (world (parked m))).well? well = some (slot (parked m)) ∧
    (slot (parked m)).record.returnMode = some m ∧ (slot (parked m)).address = 1 ∧ (slot (parked m)).channel ∈ [0] := by
  decide

theorem test_meets_AcceptTakesUpModes_scan :
    (setupSent (world id)).scan.inFlight = some ⟨1, .setup [⟨0, well⟩]⟩ ∧
    station .setupDue ∈ (setupSent (world id)).scan.stations ∧ (station .setupDue).address = 1 ∧
    otherSlot.channel ∉ [0] ∧ otherSlot.record.returnMode = none ∧ (1 : Nat) ≠ 2 ∧ [0] = [0].map id := by decide

/-! ### Readings -/

/-- Values at the ends of the ranges of R51, and one past each. -/
theorem test_meets_ReadingsAreTaken :
    (∀ c ∈ [reading 0 1000 (some 1200), reading 1 0 (some (-400))],
      c.feedback ≤ 1000 ∧ ∀ t ∈ c.temp, -400 ≤ t ∧ t ≤ 1200) ∧
    [reading 0 1000 (some 1200), reading 1 0 (some (-400))].map (fun c => c.channel) = [0, 1] ∧
    1000 < (reading 0 1001 none).feedback ∧ (∃ t ∈ (reading 0 0 (some 1201)).temp, t < -400 ∨ 1200 < t) ∧
    ∃ t ∈ (reading 0 0 (some (-401))).temp, t < -400 ∨ 1200 < t := by decide

def levels (b c a l : Level) : PerInput Level := { button := b, cap := c, actuator := a, liquid := l }

def quick (f : WellRecord → WellRecord) (r : WellRecord) : WellRecord := f { r with debounce := 1, options := 3 }

def allHigh (r : WellRecord) : WellRecord := { r with inputs := some (levels .high .high .high .high) }

/-- The arrival at the well under test of these raw levels and this feedback, the levels before being all low. -/
def arrivalOf (raw : PerInput Level) (feedback : Nat) (valve : Bool) : Arrival :=
  { well := well, slot := slot (quick id), reading := { reading 0 feedback none with raw := raw }, valve := valve,
    baseline := false, before := lowInputs, after := raw }

def replyOf (raw : PerInput Level) (feedback : Nat) : List ChannelReading :=
  [{ reading 0 feedback none with raw := raw }, reading 1 0 none]

/-- Each input rising, one past the band and in it, with the valve sent on and off. -/
theorem test_meets_ReadingsAreTaken_arrival (valve : Bool) (feedback : Nat) :
    ∀ raw ∈ [levels .high .low .low .low, levels .low .high .low .low, levels .low .low .high .low,
      levels .low .low .low .high], (pollSentWith valve (world (quick id))).Arrives 1 (sentPoll valve)
        (replyOf raw feedback) (arrivalOf raw feedback valve) := by
  intro raw h
  refine ⟨⟨_, List.mem_cons_self .., rfl, rfl⟩, rfl, rfl, ?_, ?_, rfl⟩
  · show false = true ↔ false = true ∨ some lowInputs = none
    simp
  · simp only [List.mem_cons, List.not_mem_nil, or_false] at h
    rcases h with rfl | rfl | rfl | rfl <;> rfl

/-- Each input falling, and a baseline: the other channel's. -/
theorem test_meets_ReadingsAreTaken_falls (valve : Bool) (feedback : Nat) :
    (pollSentWith valve (world (quick allHigh))).Arrives 1 (sentPoll valve) (replyOf lowInputs feedback)
      { arrivalOf lowInputs feedback valve with
        slot := slot (quick allHigh), before := levels .high .high .high .high } ∧
    (pollSentWith valve (world id)).Arrives 1 (sentPoll valve) (replyOf lowInputs feedback)
      { well := ⟨42, 2⟩, slot := otherSlot, reading := reading 1 0 none, valve := false, baseline := true,
        before := lowInputs, after := lowInputs } := by
  refine ⟨⟨⟨_, List.mem_cons_self .., rfl, rfl⟩, rfl, rfl, ?_, rfl, rfl⟩,
    ⟨_, List.mem_cons_of_mem _ (List.mem_cons_self ..), rfl, rfl⟩, rfl, rfl, ?_, rfl, rfl⟩
  · show false = true ↔ false = true ∨ some (levels .high .high .high .high) = none
    simp
  · show true = true ↔ true = true ∨ (none : Option (PerInput Level)) = none
    simp

/-- The reply completes, and the worlds of its clauses are sound: an idle well, a holder, a waiting well, one in SELECT,
PURGE and RELEASE, a RETIRING one. -/
theorem test_meets_ReadingsAreTaken_worlds (raw : PerInput Level) (feedback : Nat) (orders : List (List Nat)) :
    (∀ s ∈ [pollSent (world (quick id)), pollSent (world (quick allHigh)), busyWorld (quick id),
        pollSent (waiting (world fun r => quick id { r with moveState := .waiting })),
        pollSent (inPhase (.select well) (world fun r => quick id { r with queued := .sampling })),
        pollSent (inPhase (.release well) (world fun r => quick id { r with queued := .sampling })),
        pollSent (world fun r => { r with mode := .retiring })], sound s = true) ∧
    (∃ t, exec (.readings ⟨1, good⟩ (replyOf raw feedback) orders) (pollSent (world id)) = .next t) ∧
    (∀ n ∈ [10, 11], ((arrivalOf lowInputs n false).Off 10 ↔ n = 11)) ∧
    (arrivalOf (levels .high .low .low .low) 0 true).Isolates ∧
    (∀ l, ({ arrivalOf lowInputs 10 false with slot := slot fun r => { r with mode := .retiring } } : Arrival).ShowsClosed
      (l + 10)) :=
  ⟨by decide, ⟨_, rfl⟩, by decide, by decide, fun l => ⟨rfl, Nat.le_add_left 10 l⟩⟩

/-- A damaged record first in the reply, with no mark in any list. -/
theorem test_meets_ReadingsAreTaken_damaged : sound (damaged (pollSent (world id))) = true ∧
    (damaged (pollSent (world id))).well? well = some { slot id with intact := false } ∧
    (sentPoll false).head?.map (fun p => p.well) = some well ∧ (slot id).record.queued = .no ∧
    (slot id).record.moveState = .none ∧ (world id).settings.severity.recordCheck ≠ .ignored := by decide

/-- BUTTON isolates a holder whose feedback is in the band of the new target. With the isolation and the feedback before
the ACTUATOR rise the move is DONE, the isolation only restarting it; with the rise second it is BLOCKED (R73, R116). -/
theorem test_isolation_restarts_move :
    ∀ s, s = pollSent (holding 1 (world fun r => quick id { r with moveState := .moving, valveTarget := 500 })) →
    [[0, 2], [0]].map (fun picks =>
      ((after (.readings ⟨1, good⟩ (replyOf (levels .high .low .high .low) 5) [picks]) s).record? well).map
        fun r => (r.mode, r.moveOutcome)) = [some (.isolated, .done), some (.isolated, .blocked)] := by
  rintro s rfl
  decide +kernel

/-- BUTTON isolates a SUSPECT well: both counts are 0 and the target stays 0 (R28, R36). -/
theorem test_suspect_isolated :
    ((after (.readings ⟨1, good⟩ (replyOf (levels .high .low .low .low) 0) [])
      (pollSent (world fun r => quick id (suspect 2 r)))).record? well).map
        (fun r => (r.mode, r.valveTarget, r.excursions, r.clean)) = some (.isolated, 0, 0, 0) := by decide +kernel

/-- CAP falls with the sequencer IDLE. With a BUTTON rise that isolates, in either order, the well is not sampled; with one
that does not isolate it is taken as head (R72, R73, R93, log 34). -/
theorem test_cap_fall_and_isolation :
    [(3, [1]), (3, [0]), (1, [1]), (1, [0])].map (fun p : BitVec 4 × List Nat =>
      ((after (.readings ⟨1, good⟩ (replyOf (levels .high .low .low .low) 0) [p.2])
        (pollSent (world fun r =>
          { r with debounce := 1, options := p.1, inputs := some (levels .low .high .low .low) }))).record? well).map
          fun r => (r.mode, r.queued, r.sampleOutcome)) =
      [some (.isolated, .no, .none), some (.isolated, .no, .none), some (.auto, .sampling, .none),
       some (.auto, .sampling, .none)] := by
  decide +kernel

/-- A channel whose baseline is pending. -/
def baselinePending (s : State) : State :=
  { s with scan := { s.scan with stations := [{ station .active with channels := [⟨0, true⟩, ⟨1, true⟩] }] } }

/-- A baseline that finds ACTUATOR high, the flag pending or INPUTS absent: a holder ends BLOCKED in band of its target and
one past it (R62, R69, R111, log 12). -/
theorem test_meets_ReadingsAreTaken_baseline (b : Bool) (feedback : Nat) :
    (baselinePending (pollSent (world id))).Arrives 1 (sentPoll false) (replyOf (levels .low .low .high .low) feedback)
      { arrivalOf (levels .low .low .high .low) feedback false with
        slot := slot id, baseline := true, before := levels .low .low .high .low } ∧
    sound (baselinePending (pollSent (holding 1 (world moving)))) = true ∧ (slot id).record.mode.isActive = true ∧
    ∀ s ∈ [baselinePending (pollSent (holding 1 (world moving))),
        pollSent (holding 1 (world fun r => { r with moveState := .moving, inputs := none }))],
      ((after (.readings ⟨1, good⟩ (replyOf (levels .low .low .high .low) (if b then 10 else 11)) []) s).record? well).map
        (fun r => (r.moveState, r.moveOutcome)) = some (.none, .blocked) := by
  refine ⟨⟨⟨_, List.mem_cons_self .., rfl, rfl⟩, rfl, rfl, ?_, rfl, rfl⟩, by decide, by decide, ?_⟩
  · show true = true ↔ true = true ∨ some lowInputs = none
    simp
  · cases b <;> decide +kernel

/-- Both channels answer, the second as its baseline: the readings stand in both records. -/
theorem test_readings_written :
    ((after (.readings ⟨1, good⟩ [reading 0 1000 (some 1200), reading 1 0 (some (-400))] []) (pollSent (world id))).records.map
      fun r => (r.valveFeedback, r.temp, r.inputs)) =
      [(some 1000, some 1200, some lowInputs), (some 0, some (-400), some lowInputs)] := by decide

/-- A baseline clears its flag, and a first differing level begins a debounce run (R62, R70). -/
theorem test_arrival_runs : ∀ t, t = after (.readings ⟨1, good⟩ (replyOf { lowInputs with button := .high } 0) [])
      (pollSent (world id)) →
    (t.well? well).map (fun x => x.runs.button) = some ⟨some .high, 1⟩ ∧
    arrivedRuns false (slot id) { lowInputs with button := .high } =
      { button := ⟨some .high, 1⟩, cap := ⟨none, 0⟩, actuator := ⟨none, 0⟩, liquid := ⟨none, 0⟩ } ∧
    t.scan.stations.map (fun st => st.channels.map fun c => c.baselinePending) = [[false, false]] ∧
    (pollSent (world id)).BaselineDue 1 1 = true := by
  rintro t rfl
  decide +kernel

/-- The station holds a failure count of 2: with LOSS_THRESHOLD 3 the next failure loses it, with 4 it does not. -/
theorem test_meets_RefusalsAndFailures : (pollSent (world id)).StationsOrdered ∧
    station .active ∈ (pollSent (world id)).scan.stations ∧ (station .active).address = 1 ∧
    min ((station .active).failures + 1) 8 = 3 ∧ (world id).settings.lossThreshold = 3 ∧ (3 : Nat) < 4 ∧
    (station .active).state ≠ .lost ∧ (station .lost).state = .lost ∧
    (busyWorld id).seq.phase.current? = some well ∧ (busyWorld id).seq.phase ≠ .release well ∧
    ((busyWorld id).well? well).map (fun x => x.address) = some 1 ∧ well ∈ (busyWorld id).inLists ∧
    (busyWorld id).seq.failures = none ∧ (∀ k m, (busyWorld id).seq.phase ≠ .offline k m) :=
  ⟨by decide, by decide, by decide, by decide, by decide, by decide, by decide, by decide, by decide, by decide,
    by decide, by decide, by decide, by intro k m h; cases h⟩

/-- The loss takes the current well at a failure count of 3: its sample ends LOST, its move ABANDONED, and the sequencer is
in OFFLINE. -/
theorem test_station_lost :
    ∀ s, s = { busyWorld id with seq := { (busyWorld id).seq with failures := some ⟨3, 40, .fault⟩ } } →
    (after .transactionFailure s).scan.stations.map (fun x => (x.state, x.failures)) = [(.lost, 3)] ∧
    (after .transactionFailure s).records.map (fun r => (r.mode, r.returnMode, r.sampleOutcome, r.moveOutcome)) =
      [(.unreachable, some .auto, .lost, .abandoned), (.unreachable, some .manual, .none, .none)] ∧
    (after .transactionFailure s).seq.phase = .offline 60 false := by
  rintro s rfl
  decide +kernel

theorem test_refused_poll :
    (after (.refused ⟨1, good⟩) (inPhase (.purge well 3) (pollSent (world id)))).seq.phase = .release well ∧
    (after (.refused ⟨1, good⟩) (pollSent (world id))).scan.stations.map (fun x => (x.state, x.failures)) =
      [(.setupDue, 0)] ∧
    (after (.refused ⟨1, bad⟩) (pollSent (world id))).scan.stations.map (fun x => (x.state, x.failures)) =
      [(.lost, 3)] := by decide +kernel

/-! ### A late block -/

/-- The sequencer is late: an OK read after the entry to SAFE and before its abort ends the sample OK (R136). -/
theorem test_late_sequencer : ∀ s, s = inRead (withSeverity .fatal (lateIn allLate (world id))) →
    (after (.deselect .badCheck) s).device.state = .safe ∧
    ((after (.values 0 5000 100 100) (after (.deselect .badCheck) s)).record? well).map (fun r => r.sampleOutcome) =
      some .ok ∧
    ((after (.secondTick .none) (after (.deselect .badCheck) s)).record? well).map (fun r => r.sampleOutcome) =
      some .aborted := by
  rintro s rfl
  decide +kernel

/-- The blend unit is late: the hold timer of a PENDING permit expires outside RUN and withdraws it with no event (R142). -/
theorem test_late_blend : ∀ s, s = pendingPermit 0 (withSeverity .fatal (lateIn allLate (world id))) →
    (after (.deselect .badCheck) s).blend.permit = .pending ∧
    (after .holdTimerExpiry (after (.deselect .badCheck) s)).blend.permit = .withdrawn ∧
    (after .holdTimerExpiry (after (.deselect .badCheck) s)).device.events.getLsbD 2 = false := by
  rintro s rfl
  decide +kernel

end Sys2Proof.Tests
end

section
/-! SUPPORT. What operations on wells and rounds leave of the device unit and of a record: `EventsGrow s t` says that
nothing of a record of `t` and nothing of its device unit differs from `s` but the events, and that no well has lost an
event kind; `Shows s w P` says that the record of `w`, when it stands, has the property `P`. -/

namespace Sys2Proof.Machine

/-! ### The device unit -/

@[simp] theorem setWellEvent_device (k : WellEvent) (w : Well) (s : State) :
    (setWellEvent k w s).device = s.device := by
  unfold setWellEvent wakeTest
  split
  · rfl
  · split <;> rfl

/-- What each step over a list of wells leaves as it was, all of them leave. -/
theorem forEach_same {α : Type} (g : State → α) {f : Well → State → State} (hf : ∀ w s, g (f w s) = g s)
    (ws : List Well) (s : State) : g (forEach ws f s) = g s := by
  unfold forEach
  induction ws generalizing s with
  | nil => rfl
  | cons w ws ih => exact (ih (f w s)).trans (hf w s)

@[simp] theorem writeOutcome_device (o : SampleOutcome) (w : Well) (s : State) :
    (writeOutcome o w s).device = s.device := setWellEvent_device _ _ _

@[simp] theorem endMove_device (o : MoveOutcome) (w : Well) (s : State) : (endMove o w s).device = s.device :=
  setWellEvent_device _ _ _

theorem abandonAllMoves_device (s : State) : (abandonAllMoves s).device = s.device :=
  forEach_same State.device (fun w t => by split <;> simp) _ s

theorem abortSample_device (s : State) : (abortSample s).device = s.device := by
  unfold abortSample
  split <;> simp

theorem takeHeads_device (q : List QueueEntry) (s : State) : (takeHeads q s).device = s.device := by
  induction q generalizing s with
  | nil => rfl
  | cons e q ih =>
    unfold takeHeads
    dsimp only
    split
    · exact (ih _).trans (writeOutcome_device .blocked e.well (setQueue q s))
    · rfl

theorem headTest_device (s : State) : (headTest s).device = s.device := by
  unfold headTest
  split
  · exact takeHeads_device _ s
  · rfl

/-! ### Reading a record through a change of every slot -/

theorem well?_changeAllSlots {f : Slot → Slot} (hf : ∀ x, (f x).tag = x.tag) (v : Well) (s : State) :
    (changeAllSlots f s).well? v = (s.well? v).map f := by
  have key : (changeAllSlots f s).slot? v.slot = (s.slot? v.slot).map f := by
    unfold State.slot?
    rw [changeAllSlots_slots, find?_map_key (fun p => (p.1, f p.2)) (fun _ => rfl), Option.map_map, Option.map_map]
    rfl
  unfold State.well?
  rw [key]
  cases s.slot? v.slot with
  | none => rfl
  | some x =>
    by_cases e : x.tag = v.tag
    · simp [hf, e]
    · simp [hf, e]

/-- A change of every slot whose part in a record is `g` is seen by every read of a record as `g`. -/
theorem record?_changeAllSlots {f : Slot → Slot} {g : WellRecord → WellRecord}
    (hf : ∀ x, (f x).tag = x.tag ∧ (f x).record = g x.record) (v : Well) (s : State) :
    (changeAllSlots f s).record? v = (s.record? v).map g := by
  unfold State.record?
  rw [well?_changeAllSlots (fun x => (hf x).1), Option.map_map, Option.map_map]
  exact congrArg (Option.map · (s.well? v)) (funext fun x => (hf x).2)

/-! ### Events alone -/

/-- Nothing but EVENTS of the records and DEVICE_EVENTS has changed in the records and in the device unit, and no well
has lost an event kind. -/
structure EventsGrow (s t : State) : Prop where
  record : ∀ v q, t.record? v = some q → ∃ r, s.record? v = some r ∧ q = { r with events := q.events } ∧
    ∀ i, r.events.getLsbD i = true → q.events.getLsbD i = true
  device : t.device = { s.device with events := t.device.events }

theorem eventsGrow_of_slots {s t : State} (h : t.slots = s.slots)
    (hd : t.device = { s.device with events := t.device.events }) : EventsGrow s t :=
  ⟨fun v q hq => ⟨q, by rw [← record?_congr h]; exact hq, rfl, fun _ => id⟩, hd⟩

theorem EventsGrow.refl (s : State) : EventsGrow s s := eventsGrow_of_slots rfl rfl

theorem EventsGrow.trans {s t u : State} (a : EventsGrow s t) (b : EventsGrow t u) : EventsGrow s u := by
  refine ⟨fun v p hp => ?_, by rw [b.device, a.device]⟩
  obtain ⟨q, hq, ep, gp⟩ := b.record v p hp
  obtain ⟨r, hr, eq, gq⟩ := a.record v q hq
  exact ⟨r, hr, by rw [ep, eq], fun i h => gp i (gq i h)⟩

theorem setWellEvent_eventsGrow (k : WellEvent) (w : Well) (s : State) : EventsGrow s (setWellEvent k w s) := by
  refine ⟨fun v q hq => ?_, by rw [setWellEvent_device]⟩
  rw [record?_setWellEvent] at hq
  split at hq
  · rename_i e
    subst e
    obtain ⟨r, hr, rfl⟩ := Option.map_eq_some_iff.1 hq
    exact ⟨r, hr, rfl, fun i h => by simp [addEvent, h]⟩
  · exact ⟨q, hq, rfl, fun _ => id⟩

theorem forEach_eventsGrow {f : Well → State → State} (hf : ∀ w s, EventsGrow s (f w s)) (ws : List Well) (s : State) :
    EventsGrow s (forEach ws f s) := by
  unfold forEach
  induction ws generalizing s with
  | nil => exact .refl s
  | cons w ws ih => exact (hf w s).trans (ih _)

theorem foldl_eventsGrow {α : Type} {f : State → α → State} (hf : ∀ t a, EventsGrow t (f t a)) (l : List α)
    (s : State) : EventsGrow s (l.foldl f s) := by
  induction l generalizing s with
  | nil => exact .refl s
  | cons a l ih => exact (hf s a).trans (ih _)

theorem detectLevels_eventsGrow (w : Well) (s : State) : EventsGrow s (detectLevels w s) := by
  unfold detectLevels
  split
  · exact .refl s
  · split
    · exact .refl s
    · exact foldl_eventsGrow (fun t i => by
        split
        · exact setWellEvent_eventsGrow _ _ _
        · exact .refl t) _ s

theorem levelDetection_eventsGrow (s : State) : EventsGrow s (levelDetection s) := by
  unfold levelDetection
  split
  · exact .refl s
  · exact forEach_eventsGrow detectLevels_eventsGrow _ s
  · exact forEach_eventsGrow detectLevels_eventsGrow _ s

theorem formBudget_eventsGrow (s : State) : EventsGrow s (formBudget s) := by
  refine eventsGrow_of_slots (formBudget_slots s) ?_
  unfold formBudget
  dsimp only
  split <;> rfl

theorem stepPermit_eventsGrow (s : State) : EventsGrow s (stepPermit s) := by
  refine eventsGrow_of_slots (stepPermit_slots s) ?_
  unfold stepPermit
  split <;> split <;> rfl

theorem withdrawPermit_eventsGrow (s : State) : EventsGrow s (withdrawPermit s) := by
  refine eventsGrow_of_slots (withdrawPermit_slots s) ?_
  unfold withdrawPermit
  split <;> rfl

/-- A round end, with the level detection it brings, changes records and the device unit in their events only. -/
theorem finishRound_eventsGrow (s : State) : EventsGrow s (finishRound s) := by
  unfold finishRound roundEnd blendRoundEnd
  refine EventsGrow.trans (t := { s with scan := { s.scan with inFlight := none, round := .idle } })
    (eventsGrow_of_slots rfl rfl) ((levelDetection_eventsGrow _).trans ?_)
  refine EventsGrow.trans (t := formBlend _) (eventsGrow_of_slots rfl rfl) ((formBudget_eventsGrow _).trans ?_)
  exact EventsGrow.trans (stepPermit_eventsGrow _) (eventsGrow_of_slots rfl rfl)

theorem beginRoundIfIdle_eventsGrow (s : State) : EventsGrow s (beginRoundIfIdle s) := by
  unfold beginRoundIfIdle beginRound
  split
  · split
    · exact finishRound_eventsGrow s
    · exact eventsGrow_of_slots rfl rfl
  · exact .refl s

theorem takeIf_eventsGrow {f : State → State} (b : Bool) (hf : ∀ t, EventsGrow t (f t)) (s : State) :
    EventsGrow s (takeIf b f s) := by
  cases b
  · exact .refl s
  · exact hf s

/-! ### What a record shows -/

/-- The record of the well, when it stands, has the property. -/
def State.Shows (s : State) (w : Well) (P : WellRecord → Prop) : Prop := ∀ q, s.record? w = some q → P q

/-- A property that further event kinds leave standing. -/
abbrev EventStable (P : WellRecord → Prop) : Prop :=
  ∀ r e, P r → (∀ i, r.events.getLsbD i = true → e.getLsbD i = true) → P { r with events := e }

theorem Shows.eventsGrow {s t : State} {w : Well} {P : WellRecord → Prop} (hP : EventStable P) (h : s.Shows w P)
    (g : EventsGrow s t) : t.Shows w P := by
  intro q hq
  obtain ⟨r, hr, e, grows⟩ := g.record w q hq
  rw [e]
  exact hP r q.events (h r hr) grows

theorem Shows.writeRecord {s : State} {w : Well} {P : WellRecord → Prop} {f : WellRecord → WellRecord}
    (hf : ∀ r, P r → P (f r)) (v : Well) (h : s.Shows w P) : (writeRecord f v s).Shows w P := by
  intro q hq
  rw [record?_writeRecord] at hq
  split at hq
  · rename_i e
    subst e
    obtain ⟨r, hr, rfl⟩ := Option.map_eq_some_iff.1 hq
    exact hf r (h r hr)
  · exact h q hq

/-! ### Rounds -/

theorem beginRoundIfIdle_of_running {s : State} (h : s.scan.round ≠ .idle) : beginRoundIfIdle s = s := by
  unfold beginRoundIfIdle
  split
  · contradiction
  · rfl

/-- A round begins with the turn of the lowest station address (R52, R53). -/
theorem beginRoundIfIdle_of_stations {s : State} {x : StationRecord} {rest : List StationRecord}
    (h : s.scan.round = .idle) (hx : s.scan.stations = x :: rest) : beginRoundIfIdle s = sendTo x s := by
  simp only [beginRoundIfIdle, h, beginRound, hx]

/-! ### What is sent at a station's turn -/

/-- In an ordered table the read of an entry's well finds the entry. -/
theorem well?_wellOf {s : State} (h : s.SlotsOrdered) {p : Nat × Slot} (hp : p ∈ s.slots) :
    s.well? (wellOf p) = some p.2 := SlotsOrdered.well? h hp ((isWell_iff _ _).2 ⟨rfl, rfl⟩)

/-- The well at a station's channel stands there. -/
theorem of_wellAt? {s : State} (h : s.SlotsOrdered) {a c : Nat} {w : Well} (hw : s.wellAt? a c = some w) :
    ∃ y, s.well? w = some y ∧ y.address = a ∧ y.channel = c := by
  obtain ⟨p, hp, rfl⟩ := Option.map_eq_some_iff.1 hw
  have stands := List.find?_some hp
  simp only [Bool.and_eq_true, beq_iff_eq] at stands
  exact ⟨p.2, well?_wellOf h (List.mem_of_find?_eq_some hp), stands⟩

/-- Every channel of a station's map holds a well (R46). -/
theorem wellAt?_of_channel {s : State} (h : s.StationsLegal) {x : StationRecord} (hx : x ∈ s.scan.stations)
    {c : StationChannel} (hc : c ∈ x.channels) : ∃ w, s.wellAt? x.address c.channel = some w := by
  obtain ⟨_, _, _, _, legal⟩ := h
  obtain ⟨_, _, held, _⟩ := legal x hx
  obtain ⟨p, hp, ha, hcc⟩ := held c hc
  unfold State.wellAt?
  cases e : s.slots.find? (fun p => p.2.address == x.address && p.2.channel == c.channel) with
  | none => exact absurd (by simp [ha, hcc]) (List.find?_eq_none.1 e p hp)
  | some q => exact ⟨wellOf q, rfl⟩

/-- A list formed from a map, with an entry for each of its members. -/
theorem map_filterMap_of_some {α β γ : Type} {f : α → Option β} {g : β → γ} {k : α → γ} {l : List α}
    (h : ∀ a ∈ l, ∃ b, f a = some b ∧ g b = k a) : (l.filterMap f).map g = l.map k := by
  induction l with
  | nil => rfl
  | cons a l ih =>
    obtain ⟨b, hb, e⟩ := h a (List.mem_cons_self ..)
    rw [List.filterMap_cons_some hb, List.map_cons, List.map_cons, e, ih fun a ha => h a (List.mem_cons_of_mem _ ha)]

theorem mem_setupChannels {s : State} {x : StationRecord} {c : SetupChannel} (h : c ∈ setupChannels s x) :
    s.wellAt? x.address c.channel = some c.well := by
  obtain ⟨d, _, hd⟩ := List.mem_filterMap.1 h
  obtain ⟨w, hw, rfl⟩ := Option.map_eq_some_iff.1 hd
  exact hw

theorem mem_pollChannels {s : State} {x : StationRecord} {c : PollChannel} (h : c ∈ pollChannels s x) :
    s.wellAt? x.address c.channel = some c.well ∧
    ∃ r, s.record? c.well = some r ∧ c.outputs = outputsOf s c.well r := by
  obtain ⟨d, _, hd⟩ := List.mem_filterMap.1 h
  split at hd
  · cases hd
  · rename_i w hw
    obtain ⟨r, hr, rfl⟩ := Option.map_eq_some_iff.1 hd
    exact ⟨hw, r, hr, rfl⟩

theorem setupChannels_map {s : State} (h : s.StationsLegal) {x : StationRecord} (hx : x ∈ s.scan.stations) :
    (setupChannels s x).map (fun c => c.channel) = x.channels.map (fun c => c.channel) :=
  map_filterMap_of_some fun c hc => by
    obtain ⟨w, hw⟩ := wellAt?_of_channel h hx hc
    exact ⟨_, by rw [hw]; rfl, rfl⟩

theorem pollChannels_map {s : State} (h : s.StationsLegal) {x : StationRecord} (hx : x ∈ s.scan.stations) :
    (pollChannels s x).map (fun c => c.channel) = x.channels.map (fun c => c.channel) :=
  map_filterMap_of_some fun c hc => by
    obtain ⟨w, hw⟩ := wellAt?_of_channel h hx hc
    obtain ⟨y, hy, _⟩ := of_wellAt? h.1 hw
    exact ⟨{ channel := c.channel, well := w, outputs := outputsOf s w y.record },
      by simp only [hw, State.record?, hy, Option.map_some], rfl⟩

/-- The SAMPLE VALVE is commanded on for the well in SELECT, PURGE or READ, and for no other (R94). -/
theorem sampleValve_iff (p : Phase) (w : Well) : (p.isOpen && decide (p.current? = some w)) = true ↔
    p = .select w ∨ (∃ n, p = .purge w n) ∨ ∃ x, p = .read w x := by
  cases p <;> simp [Phase.isOpen, Phase.current?]

theorem outputsOf_now (s : State) (w : Well) (r : WellRecord) : s.OutputsNow w r (outputsOf s w r) :=
  ⟨rfl, rfl, by simp [outputsOf], by simp [outputsOf, MoveScheduler.holds], sampleValve_iff _ w⟩

theorem transactionFor_active {s : State} {x : StationRecord} (h : x.state = .active) :
    transactionFor s x = { address := x.address, sent := .poll (pollChannels s x) } := by simp [transactionFor, h]

theorem transactionFor_inactive {s : State} {x : StationRecord} (h : x.state ≠ .active) :
    transactionFor s x = { address := x.address, sent := .setup (setupChannels s x) } := by
  cases e : x.state with
  | active => exact absurd e h
  | setupDue => simp only [transactionFor, e]
  | lost => simp only [transactionFor, e]

/-- The turn of a station has come when it has been visited (R49, R52, R55, R59). -/
theorem sendTo_turnOf {s : State} (h : s.StationsLegal) {x : StationRecord} (hx : x ∈ s.scan.stations) :
    (sendTo x s).TurnOf x := by
  by_cases e : x.state = .active
  · refine ⟨rfl, .poll (pollChannels s x), congrArg some (transactionFor_active e), ?_, ?_,
      fun _ => ⟨_, rfl, fun c hc => ?_⟩, fun n => absurd e n⟩
    · exact (List.map_map ..).trans (pollChannels_map h hx)
    · intro p hp
      obtain ⟨c, hc, rfl⟩ := List.mem_map.1 hp
      exact of_wellAt? h.1 (mem_pollChannels hc).1
    · obtain ⟨_, r, hr, ho⟩ := mem_pollChannels hc
      exact ⟨r, hr, by rw [ho]; exact outputsOf_now s c.well r⟩
  · refine ⟨rfl, .setup (setupChannels s x), congrArg some (transactionFor_inactive e), ?_, ?_,
      fun a => absurd a e, fun _ => ⟨_, rfl⟩⟩
    · exact (List.map_map ..).trans (setupChannels_map h hx)
    · intro p hp
      obtain ⟨c, hc, rfl⟩ := List.mem_map.1 hp
      exact of_wellAt? h.1 (mem_setupChannels hc)

end Sys2Proof.Machine
end

section
/-! PROOF of SecondTickCountsTimers. A second tick first takes what the blocks owe, then counts, and last begins the
round that the last one left to it; one equation says the counting, and the two others are described by what they
keep. -/

namespace Sys2Proof.Machine

/-! ### The move scheduler abandons every move -/

/-- What the end of a move ABANDONED leaves of a record (R119). -/
def WellRecord.MoveAbandoned (q : WellRecord) : Prop :=
  q.moveState = .none ∧ q.moveOutcome = .abandoned ∧ q.events.getLsbD 4 = true

theorem moveAbandoned_eventStable : EventStable WellRecord.MoveAbandoned :=
  fun _ _ h grows => ⟨h.1, h.2.1, grows 4 h.2.2⟩

theorem leaveLists_inLists (w : Well) (s : State) :
    (leaveLists w s).inLists = s.inLists.filter (fun v => !(v == w)) := by
  simp [State.inLists, List.filter_map, Function.comp_def]

theorem endMove_inLists (o : MoveOutcome) (w : Well) (s : State) :
    (endMove o w s).inLists = s.inLists.filter (fun v => !(v == w)) := by
  rw [← leaveLists_inLists]
  unfold State.inLists endMove
  rw [(setWellEvent_apart _ _ _).moves]
  rfl

theorem endMove_shows (w : Well) (s : State) : (endMove .abandoned w s).Shows w WellRecord.MoveAbandoned := by
  intro q hq
  unfold endMove at hq
  rw [record?_setWellEvent, if_pos rfl, record?_writeRecord, if_pos rfl, Option.map_map, Option.map_eq_some_iff] at hq
  obtain ⟨r, _, rfl⟩ := hq
  exact ⟨rfl, rfl, by simp [addEvent, WellEvent.bit]⟩

theorem moving_iff (s : State) (w : Well) : s.moving w = true ↔ s.Listed w := by
  simp [State.moving, MoveScheduler.holds, MoveScheduler.waits, State.Listed, State.inLists]

/-- Every listed well has its move ended, in whatever order and however often the wells are named (R119). -/
theorem abandonMoves_ends (ws : List Well) (s : State) :
    (∀ w, (abandonMoves ws s).Listed w → s.Listed w ∧ w ∉ ws) ∧
    ∀ w, s.Listed w ∨ s.Shows w WellRecord.MoveAbandoned →
      (abandonMoves ws s).Listed w ∨ (abandonMoves ws s).Shows w WellRecord.MoveAbandoned := by
  induction ws generalizing s with
  | nil => exact ⟨fun w h => ⟨h, by simp⟩, fun w h => h⟩
  | cons v ws ih =>
    have unfolded : abandonMoves (v :: ws) s =
        abandonMoves ws (if s.moving v then endMove .abandoned v s else s) := rfl
    rw [unfolded]
    split
    · obtain ⟨left, shown⟩ := ih (endMove .abandoned v s)
      have listed (w : Well) : (endMove .abandoned v s).Listed w ↔ s.Listed w ∧ w ≠ v := by
        unfold State.Listed
        rw [endMove_inLists]
        simp
      refine ⟨fun w h => ?_, fun w h => shown w ?_⟩
      · obtain ⟨h, n⟩ := left w h
        obtain ⟨h, ne⟩ := (listed w).1 h
        exact ⟨h, by simp [ne, n]⟩
      · by_cases e : w = v
        · subst e
          exact .inr (endMove_shows w s)
        · rcases h with h | h
          · exact .inl ((listed w).2 ⟨h, e⟩)
          · exact .inr (Shows.eventsGrow moveAbandoned_eventStable
              (Shows.writeRecord (s := leaveLists v s) (fun _ h => ⟨rfl, rfl, h.2.2⟩) v h)
              (setWellEvent_eventsGrow _ _ _))
    · rename_i n
      obtain ⟨left, shown⟩ := ih s
      refine ⟨fun w h => ?_, shown⟩
      obtain ⟨h, m⟩ := left w h
      have ne : w ≠ v := fun e => n ((moving_iff s v).2 (e ▸ h))
      exact ⟨h, by simp [ne, m]⟩

/-- The lists are empty, and every well that stood in them shows its move ended (R119, R156). -/
theorem abandonAllMoves_ends (s : State) : (abandonAllMoves s).inLists = [] ∧
    ∀ w, s.Listed w → (abandonAllMoves s).Shows w WellRecord.MoveAbandoned := by
  obtain ⟨left, shown⟩ := abandonMoves_ends s.inLists s
  have unlisted (w : Well) : ¬ (abandonAllMoves s).Listed w := fun h => (left w h).2 (left w h).1
  exact ⟨List.eq_nil_iff_forall_not_mem.2 unlisted, fun w h => (shown w (.inl h)).resolve_left (unlisted w)⟩

/-! ### The sequencer aborts its sample -/

/-- What an aborted sample leaves of a record (R104). -/
def WellRecord.SampleAborted (q : WellRecord) : Prop := q.sampleOutcome = .aborted ∧ q.events.getLsbD 7 = true

theorem sampleAborted_eventStable : EventStable WellRecord.SampleAborted := fun _ _ h grows => ⟨h.1, grows 7 h.2⟩

theorem writeOutcome_shows {o : SampleOutcome} {s : State} {w : Well} {P : WellRecord → Prop} (hP : EventStable P)
    (hf : ∀ r, P r → P { r with sampleOutcome := o }) (v : Well) (h : s.Shows w P) : (writeOutcome o v s).Shows w P :=
  Shows.eventsGrow hP (Shows.writeRecord hf v h) (setWellEvent_eventsGrow _ _ _)

theorem abortSample_shows {s : State} {w : Well} (h : s.Shows w WellRecord.MoveAbandoned) :
    (abortSample s).Shows w WellRecord.MoveAbandoned := by
  unfold abortSample
  split
  case h_1 | h_2 | h_3 =>
    exact writeOutcome_shows (s := setPhase _ s) moveAbandoned_eventStable (fun _ h => h) _ h
  case h_4 | h_5 | h_6 => exact h

/-! ### The permit withdrawn, and kept so outside RUN -/

/-- The permit is WITHDRAWN, and its lines say so (R144). -/
abbrev State.PermitOut (s : State) : Prop :=
  s.blend.permit = .withdrawn ∧ s.blend.enginePermit = false ∧ s.blend.flareDemand = true

theorem setPermitLines_out {s : State} (h : s.blend.permit = .withdrawn) : (setPermitLines s).PermitOut :=
  ⟨h, by simp [setPermitLines, h], by simp [setPermitLines, h]⟩

theorem withdrawPermit_out (s : State) : (withdrawPermit s).PermitOut := by
  unfold withdrawPermit
  split
  · rename_i h
    exact setPermitLines_out h
  · exact setPermitLines_out rfl
  · exact setPermitLines_out rfl

theorem formBudget_permit (s : State) : (formBudget s).blend.permit = s.blend.permit := by
  unfold formBudget
  dsimp only
  split <;> rfl

/-- Outside RUN a round end grants no permit (R141). -/
theorem blendRoundEnd_out {s : State} (hr : s.device.state ≠ .run) (h : s.blend.permit = .withdrawn) :
    (blendRoundEnd s).PermitOut := by
  have state : (formBudget (formBlend s)).device.state = s.device.state := (formBudget_apart _).state
  have permit : (formBudget (formBlend s)).blend.permit = .withdrawn := (formBudget_permit _).trans h
  have refused : ¬ (formBudget (formBlend s)).grantConditions = true := fun g =>
    hr (state ▸ (grantConditions_run g).1)
  unfold blendRoundEnd stepPermit
  rw [permit]
  simp only [refused]
  exact setPermitLines_out permit

theorem beginRoundIfIdle_out {s : State} (hr : s.device.state ≠ .run) (h : s.PermitOut) :
    (beginRoundIfIdle s).PermitOut := by
  unfold beginRoundIfIdle beginRound
  split
  · split
    · have calm := levelDetection_calm { s with scan := { s.scan with inFlight := none, round := .idle } }
      exact blendRoundEnd_out (by rw [calm.state]; exact hr) (by rw [calm.blend]; exact h.1)
    · exact h
  · exact h

/-! ### What is owed -/

/-- The move scheduler and the sequencer have taken what they owe, which they take before the blend unit and the scan
engine (R160). -/
def owedBefore (s : State) : State :=
  takeIf s.device.owed.sequencer abortSample (takeIf s.device.owed.moves abandonAllMoves (setOwed .none s))

theorem takeOwed_eq (s : State) : takeOwed s =
    takeIf s.device.owed.scan beginRoundIfIdle (takeIf s.device.owed.blend withdrawPermit (owedBefore s)) := rfl

/-- Where no block owes anything, nothing is taken. -/
theorem takeOwed_of_none {s : State} (h : s.device.owed = Handover.none) : takeOwed s = s := by
  have same : setOwed .none s = s := by rw [← h]; rfl
  rw [takeOwed_eq, owedBefore, same, h]
  rfl

theorem owedBefore_device (s : State) : (owedBefore s).device = { s.device with owed := Handover.none } := by
  have moves : (takeIf s.device.owed.moves abandonAllMoves (setOwed .none s)).device = (setOwed .none s).device := by
    cases s.device.owed.moves
    · rfl
    · exact abandonAllMoves_device _
  unfold owedBefore
  cases s.device.owed.sequencer
  · exact moves
  · exact (abortSample_device _).trans moves

theorem owedBefore_scan (s : State) : (owedBefore s).scan = s.scan :=
  (takeBefore_calm s.device.owed (setOwed .none s)).scan

/-- What the blend unit and the scan engine take changes records and the device unit in their events only. -/
theorem takeOwed_eventsGrow (s : State) : EventsGrow (owedBefore s) (takeOwed s) :=
  (takeIf_eventsGrow _ withdrawPermit_eventsGrow _).trans (takeIf_eventsGrow _ beginRoundIfIdle_eventsGrow _)

theorem takeOwed_apart (s : State) : Apart (owedBefore s) (takeOwed s) :=
  (takeIf_apart _ withdrawPermit_apart _).trans (takeIf_apart _ beginRoundIfIdle_apart _)

theorem takeOwed_device (s : State) : (takeOwed s).device.owed = Handover.none ∧
    (takeOwed s).device.state = s.device.state := by
  rw [(takeOwed_eventsGrow s).device, owedBefore_device]
  exact ⟨rfl, rfl⟩

theorem takeOwed_index (s : State) : (takeOwed s).index = s.index ∧ (takeOwed s).faults = s.faults := by
  obtain ⟨_, _, index, _, _, faults⟩ := takeChange_queue s.device.owed (setOwed .none s)
  exact ⟨index, faults⟩

/-- A move scheduler that owes the change ends every move ABANDONED (R156, R160). -/
theorem takeOwed_moves {s : State} (h : s.device.owed.moves = true) : (takeOwed s).inLists = [] ∧
    ∀ w, s.Listed w → (takeOwed s).Shows w WellRecord.MoveAbandoned := by
  obtain ⟨empty, shown⟩ := abandonAllMoves_ends (setOwed .none s)
  have before : owedBefore s = takeIf s.device.owed.sequencer abortSample (abandonAllMoves (setOwed .none s)) := by
    rw [owedBefore, h]; rfl
  have moves : (owedBefore s).moves = (abandonAllMoves (setOwed .none s)).moves := by
    rw [before]
    cases s.device.owed.sequencer
    · rfl
    · exact (abortSample_moves _).1
  refine ⟨?_, fun w hw => Shows.eventsGrow moveAbandoned_eventStable ?_ (takeOwed_eventsGrow s)⟩
  · unfold State.inLists
    rw [(takeOwed_apart s).moves, moves]
    exact empty
  · rw [before]
    cases s.device.owed.sequencer
    · exact shown w hw
    · exact abortSample_shows (shown w hw)

/-- A sequencer that owes the change aborts its open sample (R104, R160). -/
theorem takeOwed_sample {s : State} {w : Well} (h : s.device.owed.sequencer = true) (ho : s.SampleOpen w) :
    (takeOwed s).seq = { s.seq with phase := .release w } ∧ (takeOwed s).Shows w WellRecord.SampleAborted := by
  have seq : (takeIf s.device.owed.moves abandonAllMoves (setOwed .none s)).seq = s.seq := by
    cases s.device.owed.moves
    · rfl
    · exact (abandonAllMoves_seqApart _).seq
  have before : owedBefore s = abortSample (takeIf s.device.owed.moves abandonAllMoves (setOwed .none s)) := by
    rw [owedBefore, h]; rfl
  have stillOpen : (takeIf s.device.owed.moves abandonAllMoves (setOwed .none s)).SampleOpen w := by
    unfold State.SampleOpen
    rw [seq]
    exact ho
  obtain ⟨released, aborted⟩ := abortSample_aborted stillOpen
  rw [← before] at released aborted
  refine ⟨by rw [(takeOwed_apart s).seq, released, seq], ?_⟩
  exact Shows.eventsGrow sampleAborted_eventStable aborted.2 (takeOwed_eventsGrow s)

/-- A blend unit that owes the change withdraws the permit (R142, R143, R160). -/
theorem takeOwed_permit {s : State} (h : s.device.owed.blend = true) (hr : s.device.state ≠ .run) :
    (takeOwed s).PermitOut := by
  have out := withdrawPermit_out (owedBefore s)
  have state : (withdrawPermit (owedBefore s)).device.state = s.device.state := by
    rw [(withdrawPermit_apart _).state, owedBefore_device]
  rw [takeOwed_eq, h]
  cases s.device.owed.scan
  · exact out
  · exact beginRoundIfIdle_out (by rw [takeIf, if_pos rfl, state]; exact hr) out

theorem withdrawPermit_scan (s : State) : (withdrawPermit s).scan = s.scan := by
  unfold withdrawPermit
  split <;> rfl

/-- A scan engine that owes the change begins a round when none is in progress (R53, R160). -/
theorem takeOwed_round {s : State} {x : StationRecord} {rest : List StationRecord} (h : s.device.owed.scan = true)
    (hr : s.scan.round = .idle) (hx : s.scan.stations = x :: rest) :
    (takeOwed s).scan.round = .running (some x.address) := by
  have scan : (takeIf s.device.owed.blend withdrawPermit (owedBefore s)).scan = s.scan := by
    cases s.device.owed.blend
    · exact owedBefore_scan s
    · exact (withdrawPermit_scan _).trans (owedBefore_scan s)
  rw [← scan] at hr hx
  rw [takeOwed_eq, h, takeIf, if_pos rfl, beginRoundIfIdle_of_stations hr hx]
  rfl

/-! ### The counting -/

/-- What every block counts at a second tick, between the taking of what is owed and the round. -/
def counted (late : Handover) (s : State) : State :=
  tickPulses (tickHold (tickMoves (tickSequencer (countSecond (setLate late s)))))

theorem exec_secondTick (late : Handover) (s : State) :
    exec (.secondTick late) s = .next (tickRounds (counted late (takeOwed s))) := rfl

theorem tickPulse_eq (x : Slot) : tickPulse x = pulseSecond x := by
  unfold tickPulse pulseSecond
  by_cases h : x.record.purgeLeft = 0
  · simp [h]
  · rw [if_pos (Nat.pos_of_ne_zero h), if_neg h]
    rfl

/-- The counting in one equation: the time base, the running timers, PURGE_LEFT, and the blocks late in the second that
begins (R1, R96, R114, R121, R142). -/
theorem counted_eq (late : Handover) (s : State) : counted late s = { s with
    slots := s.slots.map fun p => (p.1, pulseSecond p.2),
    device := { s.device with late := late },
    time := if s.time.second = 59 then { second := 0, minuteDue := true }
      else { s.time with second := s.time.second + 1 },
    seq := { s.seq with phase := s.seq.phase.ticked },
    moves := { s.moves with holders := s.moves.holders.map fun h => { h with timer := h.timer - 1 } },
    blend := { s.blend with holdTimer := s.blend.holdTimer.map fun n => n - 1 } } := by
  have pulses : tickPulse = pulseSecond := funext tickPulse_eq
  unfold counted tickPulses countSecond
  rw [pulses]
  by_cases h : s.time.second = 59
  · simp only [setLate_time, h]
    rfl
  · have h' : ¬ s.time.second + 1 = 60 := fun e => h (Nat.succ.inj e)
    simp only [setLate_time, h, h']
    rfl

theorem counted_inLists (late : Handover) (s : State) : (counted late s).inLists = s.inLists := by
  simp [counted_eq, State.inLists]

/-- The counting lowers PURGE_LEFT in every record and changes nothing else of it (R121). -/
theorem counted_record? (late : Handover) (s : State) (v : Well) :
    (counted late s).record? v = (s.record? v).map fun r => { r with purgeLeft := r.purgeLeft - 1 } := by
  have slots : (counted late s).slots = (changeAllSlots pulseSecond s).slots := by rw [counted_eq]; rfl
  rw [record?_congr slots]
  refine record?_changeAllSlots (fun x => ?_) v s
  unfold pulseSecond
  split
  · rename_i h
    have same : x.record.purgeLeft - 1 = x.record.purgeLeft := by omega
    exact ⟨rfl, by rw [same]⟩
  · exact ⟨rfl, rfl⟩

theorem counted_shows {late : Handover} {s : State} {w : Well} {P : WellRecord → Prop}
    (hP : ∀ r, P r → P { r with purgeLeft := r.purgeLeft - 1 }) (h : s.Shows w P) : (counted late s).Shows w P := by
  intro q hq
  rw [counted_record?] at hq
  obtain ⟨r, hr, rfl⟩ := Option.map_eq_some_iff.1 hq
  exact hP r (h r hr)

theorem pulseSecond_kept (x : Slot) : (pulseSecond x).address = x.address ∧ (pulseSecond x).channel = x.channel ∧
    (pulseSecond x).record.mode = x.record.mode := by
  unfold pulseSecond
  split <;> exact ⟨rfl, rfl, rfl⟩

/-- A change of slots that keeps their places and modes keeps the station table that of the slots (R46). -/
theorem StationsLegal.map {s t : State} {f : Slot → Slot}
    (hf : ∀ x, (f x).address = x.address ∧ (f x).channel = x.channel ∧ (f x).record.mode = x.record.mode)
    (slots : t.slots = s.slots.map fun p => (p.1, f p.2)) (scan : t.scan = s.scan) (h : s.StationsLegal) :
    t.StationsLegal := by
  obtain ⟨ordered, stations, apart, covered, legal⟩ := h
  refine ⟨SlotsOrdered.map (fun p => (p.1, f p.2)) (fun _ => rfl) slots ordered,
    by rw [State.StationsOrdered, scan]; exact stations, ?_, ?_, ?_⟩
  · rw [slots, List.pairwise_map]
    exact apart.imp fun n => by simpa only [hf] using n
  · rw [slots, scan]
    simpa only [List.forall_mem_map, hf] using covered
  · rw [slots, scan]
    intro x hx
    obtain ⟨failures, ascend, held, active⟩ := legal x hx
    refine ⟨failures, ascend, fun c hc => ?_, by simpa only [List.forall_mem_map, hf] using active⟩
    obtain ⟨p, hp, place⟩ := held c hc
    exact ⟨_, List.mem_map_of_mem hp, by simpa only [hf] using place⟩

theorem counted_stationsLegal (late : Handover) {s : State} (h : s.StationsLegal) : (counted late s).StationsLegal :=
  StationsLegal.map pulseSecond_kept (by rw [counted_eq]) (by rw [counted_eq]) h

/-! ### The round that the last one left to the tick -/

/-- What holds of the state and of the state with a round begun holds after the tick's round. -/
theorem tickRounds_either {R : State → Prop} {s : State} (stays : R s) (begins : R (beginRoundIfIdle s)) :
    R (tickRounds s) := by
  unfold tickRounds
  split
  · exact begins
  · exact stays

theorem tickRounds_apart (s : State) : Apart s (tickRounds s) :=
  tickRounds_either (.refl s) (beginRoundIfIdle_apart s)

theorem tickRounds_tame (s : State) : Tame s (tickRounds s) := tickRounds_either (.refl s) (beginRoundIfIdle_tame s)

theorem tickRounds_marks (s : State) : Marks s (tickRounds s) :=
  tickRounds_either (.refl s) (beginRoundIfIdle_marks s)

theorem tickRounds_eventsGrow (s : State) : EventsGrow s (tickRounds s) :=
  tickRounds_either (.refl s) (beginRoundIfIdle_eventsGrow s)

theorem tickRounds_out {s : State} (hr : s.device.state ≠ .run) (h : s.PermitOut) : (tickRounds s).PermitOut :=
  tickRounds_either (R := State.PermitOut) h (beginRoundIfIdle_out hr h)

theorem backToBack_iff (d : DeviceState) : d.backToBack = true ↔ d ≠ .standby := by cases d <;> decide

/-- No round begins in STANDBY, nor while one is in progress (R53). -/
theorem tickRounds_none {s : State} (h : s.scan.round ≠ .idle ∨ s.device.state = .standby) : tickRounds s = s := by
  unfold tickRounds
  split
  · rename_i b
    exact beginRoundIfIdle_of_running (h.resolve_right ((backToBack_iff _).1 b))
  · rfl

/-- In RUN and SAFE the round begins from the lowest address (R52, R53). -/
theorem tickRounds_begins {s : State} {x : StationRecord} {rest : List StationRecord} (hr : s.scan.round = .idle)
    (hd : s.device.state ≠ .standby) (hx : s.scan.stations = x :: rest) : tickRounds s = sendTo x s := by
  rw [tickRounds, if_pos ((backToBack_iff _).2 hd), beginRoundIfIdle_of_stations hr hx]

/-! ### The second tick -/

/-- What the state after a second tick takes from the counting, whether a round begins in it or not. -/
theorem secondTick_frame (late : Handover) (s : State) : ∀ t, t = tickRounds (counted late s) →
    t.time = (if s.time.second = 59 then { second := 0, minuteDue := true }
      else { s.time with second := s.time.second + 1 }) ∧
    t.device = { s.device with late := late, events := t.device.events } ∧
    t.seq = { s.seq with phase := s.seq.phase.ticked } ∧
    t.moves = { s.moves with holders := s.moves.holders.map fun h => { h with timer := h.timer - 1 } } ∧
    t.index = s.index ∧ t.settings = s.settings ∧ t.faults = s.faults ∧ t.port = s.port ∧ t.pending = s.pending := by
  rintro t rfl
  have apart := tickRounds_apart (counted late s)
  have tame := tickRounds_tame (counted late s)
  have grow := tickRounds_eventsGrow (counted late s)
  refine ⟨tame.time.trans ?_, grow.device.trans ?_, apart.seq.trans ?_, apart.moves.trans ?_, apart.index.trans ?_,
    tame.settings.trans ?_, apart.faults.trans ?_, tame.port.trans ?_, tame.pending.trans ?_⟩ <;> rw [counted_eq]

/-- Where no round begins in the tick, the counting is all there is. -/
theorem secondTick_of_round {late : Handover} {s : State} (h : s.scan.round ≠ .idle ∨ s.device.state = .standby) :
    tickRounds (counted late s) = counted late s := tickRounds_none (by simpa only [counted_eq] using h)

/-- Where one begins, the turn of the lowest station has come after the counting (R53, R55, R59). -/
theorem secondTick_begins {late : Handover} {s : State} {x : StationRecord} {rest : List StationRecord}
    (hr : s.scan.round = .idle) (hd : s.device.state ≠ .standby) (hx : s.scan.stations = x :: rest) :
    tickRounds (counted late s) = sendTo x (counted late s) :=
  tickRounds_begins (rest := rest) (by simpa only [counted_eq] using hr) (by simpa only [counted_eq] using hd)
    (by simpa only [counted_eq] using hx)

theorem secondTick_shows {late : Handover} {s : State} {w : Well} {P : WellRecord → Prop} (hE : EventStable P)
    (hP : ∀ r, P r → P { r with purgeLeft := r.purgeLeft - 1 }) (h : s.Shows w P) :
    (tickRounds (counted late s)).Shows w P := Shows.eventsGrow hE (counted_shows hP h) (tickRounds_eventsGrow _)

/-- The record of every well stands after the tick, with PURGE_LEFT lowered, up to its marks (R121). -/
theorem secondTick_record (late : Handover) {s : State} {v : Well} {r : WellRecord} (h : s.record? v = some r) :
    (tickRounds (counted late (takeOwed s))).HoldsUpToMarks v { r with purgeLeft := r.purgeLeft - 1 } := by
  obtain ⟨q, hq, e⟩ := (takeOwed_marks s).holds v r h
  refine holdsUpToMarks_trans ⟨{ q with purgeLeft := q.purgeLeft - 1 }, ?_, ?_⟩ (tickRounds_marks _)
  · rw [counted_record?, hq]; rfl
  · rw [e]

/-- Settles O46: the taking of what is owed, the counting and the round are each taken from their own lemmas. -/
theorem secondTickCountsTimers : Obligations.SecondTickCountsTimers := by
  intro s late
  obtain ⟨time, device, seq, moves, index, settings, faults, port, pending⟩ := secondTick_frame late (takeOwed s) _ rfl
  obtain ⟨owed, state⟩ := takeOwed_device s
  obtain ⟨ownIndex, ownFaults⟩ := takeOwed_index s
  have tame := takeOwed_tame s
  refine ⟨_, exec_secondTick late s, by rw [time, tame.time], by rw [device],
    by rw [device]; exact owed, by rw [device]; exact state, fun nothing => ?_, fun h => ?_, fun h opened w hw => ?_,
    fun h hr => ?_, fun h idle x rest hx => ?_, fun v r hr => secondTick_record late hr, index.trans ownIndex,
    settings.trans tame.settings, faults.trans ownFaults, port.trans tame.port, pending.trans tame.pending⟩
  · rw [takeOwed_of_none nothing] at seq moves ⊢
    refine ⟨fun w n h => by rw [seq, h]; rfl, fun w n h => by rw [seq, h]; rfl, fun w n h => by rw [seq, h]; rfl,
      fun n b h => by rw [seq, h]; rfl, fun w h => ?_, moves, fun h => ?_, fun x rest idle hd hx => ?_⟩
    · have still : s.seq.phase.ticked = s.seq.phase := by rcases h with h | h | h <;> rw [h] <;> rfl
      rw [seq, still]
    · rw [secondTick_of_round h, counted_eq]
      exact ⟨rfl, rfl, rfl, rfl, rfl⟩
    · have turn (legal : s.StationsLegal) : (sendTo x (counted late s)).TurnOf x :=
        sendTo_turnOf (counted_stationsLegal late legal) (by rw [counted_eq, hx]; exact List.mem_cons_self ..)
      rw [secondTick_begins idle hd hx]
      refine ⟨?_, ?_, rfl, ⟨_, rfl⟩, turn, ?_, ?_, ?_⟩ <;> rw [counted_eq] <;> rfl
  · obtain ⟨empty, shown⟩ := takeOwed_moves h
    refine ⟨?_, fun w q hw hq => secondTick_shows moveAbandoned_eventStable (fun _ h => h) (shown w hw) q hq⟩
    rw [State.inLists, (tickRounds_apart _).moves]
    exact (counted_inLists late _).trans empty
  · obtain ⟨released, shown⟩ := takeOwed_sample h ⟨opened, hw⟩
    exact ⟨by rw [seq, released]; rfl, secondTick_shows sampleAborted_eventStable (fun _ h => h) shown⟩
  · have out := takeOwed_permit h hr
    exact tickRounds_out (by rw [counted_eq]; exact state ▸ hr) (by simpa only [State.PermitOut, counted_eq] using out)
  · have begun := takeOwed_round h idle hx
    have round : (counted late (takeOwed s)).scan.round = .running (some x.address) := by rw [counted_eq]; exact begun
    rw [tickRounds_none (.inl (by rw [round]; simp))]
    exact round

end Sys2Proof.Machine
end

section
/-! PROOF of MinuteTickAgesAndDraws. The survey lowers the SURVEY_DUE of a well it covers at most once, because it
visits each well once; what else it changes of a record are marks. The ageing and the draw are one write of every
record. -/

namespace Sys2Proof.Machine

/-! ### The survey -/

theorem surveyWell_apart (w : Well) (s : State) :
    (surveyWell w s).device = s.device ∧ (surveyWell w s).moves = s.moves := by
  unfold surveyWell
  split
  · exact ⟨rfl, rfl⟩
  · split
    · exact ⟨rfl, rfl⟩
    · split
      · split
        · exact ⟨headTest_device _, (headTest_moves _).1⟩
        · exact ⟨rfl, rfl⟩
      · exact ⟨rfl, rfl⟩

/-- The survey leaves the device unit and the move scheduler. -/
theorem survey_apart (s : State) : (survey s).device = s.device ∧ (survey s).moves = s.moves := by
  have each : (forEach s.wells surveyWell s).device = s.device ∧ (forEach s.wells surveyWell s).moves = s.moves :=
    ⟨forEach_same State.device (fun w t => (surveyWell_apart w t).1) _ s,
      forEach_same State.moves (fun w t => (surveyWell_apart w t).2) _ s⟩
  unfold survey
  split
  · exact ⟨rfl, rfl⟩
  · exact each
  · exact each

/-- SURVEY_DUE as a survey may leave it: lowered once at most, and kept for a well the survey does not cover (R89). -/
def WellRecord.DueAfterSurvey (r : WellRecord) (due : Nat) : Prop :=
  (due = r.surveyDue ∨ due + 1 = r.surveyDue) ∧
  (r.options.getLsbD 2 = true ∨ r.mode.isSampled = false → due = r.surveyDue)

theorem dueAfterSurvey_same (r : WellRecord) : r.DueAfterSurvey r.surveyDue := ⟨.inl rfl, fun _ => rfl⟩

/-- A covered well takes a place in the queue, or has its SURVEY_DUE lowered; any other is passed over (R89). -/
theorem surveyWell_record {w : Well} {s : State} {r : WellRecord} (h : s.record? w = some r) :
    ∃ due, (surveyWell w s).HoldsUpToMarks w { r with surveyDue := due } ∧ r.DueAfterSurvey due := by
  unfold surveyWell
  rw [h]
  dsimp only
  split
  · exact ⟨_, holdsUpToMarks_self h, dueAfterSurvey_same r⟩
  · rename_i covered
    split
    · split
      · exact ⟨_, ((placeInQueue_marks .routine w s).trans (headTest_marks _)).holds w r h, dueAfterSurvey_same r⟩
      · exact ⟨_, holdsUpToMarks_self h, dueAfterSurvey_same r⟩
    · rename_i positive
      refine ⟨r.surveyDue - 1, holdsUpToMarks_self ?_, .inr (by omega), fun passed => absurd ?_ covered⟩
      · rw [record?_writeRecord, if_pos rfl, h]; rfl
      · rcases passed with off | out
        · simp only [WellRecord.surveyed, WellRecord.hasOption, optionHolds, WellOption.index, off]; simp
        · simp only [WellRecord.surveyed, out]; rfl

theorem surveyWell_others (w : Well) (s : State) : s.OthersUpToMarks (surveyWell w s) w := by
  unfold surveyWell
  split
  · exact (Marks.refl s).others w
  · split
    · exact (Marks.refl s).others w
    · split
      · split
        · exact ((placeInQueue_marks .routine w s).trans (headTest_marks _)).others w
        · exact (Marks.refl s).others w
      · exact writeRecord_others _ w s

/-- A survey of wells none of which is visited twice. -/
theorem forEach_surveyWell {ws : List Well} (distinct : ws.Nodup) {s : State} {v : Well} {r : WellRecord}
    (h : s.record? v = some r) :
    ∃ due, (forEach ws surveyWell s).HoldsUpToMarks v { r with surveyDue := due } ∧ r.DueAfterSurvey due ∧
      (v ∉ ws → due = r.surveyDue) := by
  induction ws generalizing s r with
  | nil => exact ⟨_, holdsUpToMarks_self h, dueAfterSurvey_same r, fun _ => rfl⟩
  | cons w ws ih =>
    obtain ⟨new, apart⟩ := List.nodup_cons.1 distinct
    by_cases e : v = w
    · subst e
      obtain ⟨due, ⟨q, hq, eq⟩, step⟩ := surveyWell_record h
      obtain ⟨due', held, _, kept⟩ := ih apart hq
      have same : due' = due := by rw [kept new, eq]
      subst same
      obtain ⟨p, hp, ep⟩ := held
      exact ⟨due', ⟨p, hp, by rw [ep, eq]⟩, step, fun n => absurd (List.mem_cons_self ..) n⟩
    · obtain ⟨q, hq, eq⟩ := surveyWell_others w s v r e h
      obtain ⟨due, ⟨p, hp, ep⟩, step, kept⟩ := ih apart hq
      rw [eq] at step kept
      exact ⟨due, ⟨p, hp, by rw [ep, eq]⟩, step, fun n => kept fun m => n (List.mem_cons_of_mem _ m)⟩

theorem wells_nodup {s : State} (h : s.SlotsOrdered) : s.wells.Nodup := by
  unfold State.wells List.Nodup
  rw [List.pairwise_map]
  exact h.1.imp fun lt e => absurd (congrArg Well.slot e) (Nat.ne_of_lt lt)

/-- What the survey leaves of a record, in any device state (R89). -/
theorem survey_record {s : State} (ordered : s.SlotsOrdered) {v : Well} {r : WellRecord} (h : s.record? v = some r) :
    ∃ due, (survey s).HoldsUpToMarks v { r with surveyDue := due } ∧ r.DueAfterSurvey due ∧
      (s.device.state = .standby → due = r.surveyDue) := by
  obtain ⟨due, held, step, _⟩ := forEach_surveyWell (wells_nodup ordered) h
  unfold survey
  split
  · exact ⟨_, holdsUpToMarks_self h, dueAfterSurvey_same r, fun _ => rfl⟩
  all_goals
    rename_i state
    exact ⟨due, held, step, fun standby => by rw [state] at standby; cases standby⟩

/-! ### The ageing and the draw -/

theorem ageSamples_record? (s : State) (v : Well) : (ageSamples s).record? v = (s.record? v).map ageMinute := by
  refine record?_changeAllSlots (fun x => ?_) v s
  split
  · exact ⟨rfl, rfl⟩
  · rename_i h
    have absent : x.record.sampleAge = none := by simpa using h
    exact ⟨rfl, by rw [ageMinute, absent, Option.map_none, ← absent]⟩

theorem cumulativeDraw_record? (s : State) (v : Well) :
    (cumulativeDraw s).record? v = (s.record? v).map drawMinute := by
  refine record?_changeAllSlots (fun x => ?_) v s
  split
  · exact ⟨rfl, rfl⟩
  · rename_i h
    have absent : x.record.flow = none := by simpa using h
    exact ⟨rfl, by rw [drawMinute, absent]⟩

/-- A record after a minute's ageing and draw (R90, R146). -/
theorem drawMinute_ageMinute (r : WellRecord) : drawMinute (ageMinute r) = { r with
    sampleAge := r.sampleAge.map fun a => min (a + 1) 65535,
    totalDraw := match r.flow with
      | none => r.totalDraw
      | some f => r.totalDraw + BitVec.ofNat 32 ((r.drawRemainder + f) / 600),
    drawRemainder := match r.flow with
      | none => r.drawRemainder
      | some f => (r.drawRemainder + f) % 600 } := by
  unfold drawMinute ageMinute
  cases h : r.flow <;> simp [Config.drawUnit, Config.maxSampleAge]

/-! ### The round -/

theorem minuteRound_standby {s : State} (h : s.device.state = .standby) : minuteRound s = beginRoundIfIdle s := by
  simp only [minuteRound, h]

theorem minuteRound_none {s : State} (h : s.device.state ≠ .standby) : minuteRound s = s := by
  unfold minuteRound
  split
  · contradiction
  · rfl
  · rfl

/-- What holds of the state and of the state with a round begun holds after the minute tick's round. -/
theorem minuteRound_either {R : State → Prop} {s : State} (stays : R s) (begins : R (beginRoundIfIdle s)) :
    R (minuteRound s) := by
  by_cases h : s.device.state = .standby
  · rw [minuteRound_standby h]
    exact begins
  · rw [minuteRound_none h]
    exact stays

theorem minuteRound_apart (s : State) : Apart s (minuteRound s) :=
  minuteRound_either (.refl s) (beginRoundIfIdle_apart s)

theorem minuteRound_tame (s : State) : Tame s (minuteRound s) :=
  minuteRound_either (.refl s) (beginRoundIfIdle_tame s)

theorem minuteRound_marks (s : State) : Marks s (minuteRound s) :=
  minuteRound_either (.refl s) (beginRoundIfIdle_marks s)

/-! ### The minute tick -/

/-- The survey, the ageing and the draw, which come before the round (R53). -/
def minuteCounted (s : State) : State := cumulativeDraw (ageSamples (survey s))

/-- The state in which a raised minute tick is taken. -/
def minuteTaken (s : State) : State := { s with time := { s.time with minuteDue := false } }

theorem exec_minuteTick_due {s : State} (h : s.time.minuteDue = true) :
    exec .minuteTick s = .next (minuteRound (minuteCounted (minuteTaken s))) :=
  congrArg Host.Outcome.next (if_pos h)

theorem exec_minuteTick_idle {s : State} (h : s.time.minuteDue = false) : exec .minuteTick s = .next s :=
  congrArg Host.Outcome.next (if_neg (by rw [State.minuteTickDue, h]; simp))

theorem minuteCounted_calm (s : State) : Calm s (minuteCounted s) :=
  ((survey_calm s).trans (ageSamples_calm _)).trans (cumulativeDraw_calm _)

theorem minuteCounted_device (s : State) : (minuteCounted s).device = s.device := (survey_apart s).1

theorem minuteCounted_moves (s : State) : (minuteCounted s).moves = s.moves := (survey_apart s).2

theorem minuteCounted_seq {s : State} (h : s.device.state = .standby) : (minuteCounted s).seq = s.seq := by
  have skipped : survey s = s := by simp only [survey, h]
  rw [minuteCounted, skipped]
  rfl

theorem minuteCounted_record? (s : State) (v : Well) :
    (minuteCounted s).record? v = ((survey s).record? v).map fun r => drawMinute (ageMinute r) := by
  rw [minuteCounted, cumulativeDraw_record?, ageSamples_record?, Option.map_map]
  rfl

/-- A minute's ageing and draw read and write no mark. -/
theorem minuteCounted_record {s : State} {v : Well} {r : WellRecord} (h : (survey s).HoldsUpToMarks v r) :
    (minuteCounted s).HoldsUpToMarks v (drawMinute (ageMinute r)) := by
  obtain ⟨q, hq, e⟩ := h
  refine ⟨drawMinute (ageMinute q), by rw [minuteCounted_record?, hq]; rfl, ?_⟩
  rw [e]
  simp only [drawMinute_ageMinute]

/-- Settles O47: the survey, the ageing and the draw, and the round in STANDBY, each from its own lemma. -/
theorem minuteTickAgesAndDraws : Obligations.MinuteTickAgesAndDraws := by
  intro s
  refine ⟨exec_minuteTick_idle, fun due ordered => ⟨_, exec_minuteTick_due due, ?_⟩⟩
  have calm := minuteCounted_calm (minuteTaken s)
  have device := minuteCounted_device (minuteTaken s)
  have apart := minuteRound_apart (minuteCounted (minuteTaken s))
  have tame := minuteRound_tame (minuteCounted (minuteTaken s))
  refine ⟨tame.time.trans calm.time, fun v r hr => ?_, fun standby => apart.seq.trans (minuteCounted_seq standby),
    fun x rest standby idle hx => ?_, fun out => ?_, apart.index.trans calm.index, tame.settings.trans calm.settings,
    apart.moves.trans (minuteCounted_moves _), apart.faults.trans calm.faults, tame.port.trans calm.port,
    tame.pending.trans calm.pending⟩
  · obtain ⟨left, held, ⟨step, passed⟩, still⟩ := survey_record (s := minuteTaken s) ordered hr
    refine ⟨left, ?_, step, ?_⟩
    · have counted := minuteCounted_record held
      rw [drawMinute_ageMinute] at counted
      exact holdsUpToMarks_trans counted (minuteRound_marks _)
    · rintro (standby | off | out)
      · exact still standby
      · exact passed (.inl off)
      · exact passed (.inr (by cases m : r.mode <;> simp [m, Mode.isSampled] at out ⊢))
  · rw [minuteRound_standby (by rw [device]; exact standby),
      beginRoundIfIdle_of_stations (by rw [calm.scan]; exact idle) (by rw [calm.scan]; exact hx)]
    rfl
  · rw [minuteRound_none (by rw [device]; exact out)]
    exact ⟨calm.scan, calm.blend, device⟩

end Sys2Proof.Machine
end

