-- ==== Sys2Proof/Proofs/TableKept.lean ====
section
/-! PROOF of RecordsStayLegal and IndexStaysInAgreement. `KeepsTable s t` says that both invariants of the table pass
from `s` to `t`: every tame operation has it, and so has every update that leaves slots and index; the other writes of a
command are treated one by one, and `exec_keepsTable` says it of every command. -/

namespace Sys2Proof.Machine

/-- Legal records stay legal, and an index in agreement stays in agreement. -/
structure KeepsTable (s t : State) : Prop where
  legal  : s.RecordsLegal → t.RecordsLegal
  agrees : s.IndexAgrees → t.IndexAgrees

namespace KeepsTable

theorem refl (s : State) : KeepsTable s s := ⟨id, id⟩

theorem trans {s t u : State} (a : KeepsTable s t) (b : KeepsTable t u) : KeepsTable s u :=
  ⟨b.legal ∘ a.legal, b.agrees ∘ a.agrees⟩

theorem of_tame {s t : State} (h : Tame s t) : KeepsTable s t := ⟨h.legal, h.agrees⟩

theorem of_calm {s t : State} (h : Calm s t) : KeepsTable s t := of_tame h.tame

/-- An update that leaves the slots and the index. -/
theorem of_same {s t : State} (slots : t.slots = s.slots) (index : t.index = s.index) : KeepsTable s t :=
  ⟨fun h => by simpa only [State.RecordsLegal, State.SlotsOrdered, slots] using h,
    fun h => by simpa only [State.IndexAgrees, State.SlotsOrdered, slots, index] using h⟩

/-- In an ordered table, a write is the write that changes the found record and no other one. -/
theorem writeRecord_found {f : WellRecord → WellRecord} {w : Well} {s : State} (ordered : s.SlotsOrdered) :
    writeRecord f w s = writeRecord (fun r => if s.record? w = some r then f r else r) w s := by
  unfold writeRecord changeSlot
  congr 1
  refine List.map_congr_left fun p hp => ?_
  by_cases e : isWell w p = true
  · have found : s.record? w = some p.2.record := by rw [State.record?, SlotsOrdered.well? ordered hp e]; rfl
    simp only [e, if_true, Slot.write, found]
  · simp only [e, Bool.false_eq_true, if_false]

/-- A write that keeps the tag of the found record, and keeps it legal. -/
theorem of_write {f : WellRecord → WellRecord} {w : Well} {s : State}
    (h : ∀ r, s.record? w = some r → (r.Legal → (f r).Legal) ∧ (f r).tag = r.tag) :
    KeepsTable s (writeRecord f w s) := by
  have calm : Calm0 s (writeRecord (fun r => if s.record? w = some r then f r else r) w s) :=
    writeRecord_calm0 (fun r => by
        split
        · exact (h r ‹_›).2
        · rfl)
      fun r found legal => by
        simp only [found, if_true]
        exact (h r found).1 legal
  exact ⟨fun legal => writeRecord_found legal.1 ▸ calm.legal legal,
    fun agrees => writeRecord_found agrees.1 ▸ calm.agrees agrees⟩

/-- The empty table is legal, and its index agrees. -/
theorem of_empty {s t : State} (slots : t.slots = []) (index : t.index = []) : KeepsTable s t :=
  ⟨fun _ => by simp [State.RecordsLegal, State.SlotsOrdered, slots],
    fun _ => by simp [State.IndexAgrees, State.SlotsOrdered, slots, index]⟩

end KeepsTable

/-! ### Free slots -/

/-- A slot found free is the lowest that no entry occupies (R6). -/
theorem freeSlot?_spec {s : State} (ordered : s.SlotsOrdered) {n : Nat} (h : s.freeSlot? = some n) :
    n < Config.slotCount ∧ (∀ p ∈ s.slots, p.1 ≠ n) ∧ ∀ m < n, ∃ p ∈ s.slots, p.1 = m := by
  obtain ⟨_, free, below⟩ := firstFree_spec 0 s.slots ordered.1 fun _ _ => Nat.zero_le _
  simp only [State.freeSlot?, Option.ite_none_right_eq_some, Option.some.injEq] at h
  obtain ⟨bound, rfl⟩ := h
  exact ⟨bound, free, fun m => below m (Nat.zero_le m)⟩

/-! ### ENROL -/

theorem freshRecord_legal (tag address channel : Nat) (start : ActiveMode) :
    (freshRecord tag address channel start).Legal := by
  simp [freshRecord, WellRecord.Legal, WellRecord.TargetLegal, WellRecord.CountsLegal, Mode.isParked, Mode.isActive,
    Config.fullTravel, Config.drawUnit]

theorem indexed?_eq_none {s : State} {tag : Nat} : s.indexed? tag = none ↔ ∀ p ∈ s.index, p.1 ≠ tag := by
  simp [State.indexed?]

/-- A new record under a new tag in a free slot keeps the table (R3, R6). -/
theorem placeRecord_keepsTable {n tag address channel : Nat} {start : ActiveMode} {s : State}
    (free : s.freeSlot? = some n) (new : s.indexed? tag = none) :
    KeepsTable s (placeRecord n tag address channel start s) := by
  refine KeepsTable.trans ?_ (.of_tame (enrolStation_tame address channel _))
  have ordered (h : s.SlotsOrdered) :
      (insertAscending n (freshSlot (freshRecord tag address channel start)) s.slots).Pairwise
        (fun p q => p.1 < q.1) ∧
      ∀ p ∈ insertAscending n (freshSlot (freshRecord tag address channel start)) s.slots,
        p.1 < Config.slotCount := by
    obtain ⟨bound, unused, _⟩ := freeSlot?_spec h free
    refine ⟨insertAscending_ascending _ _ _ h.1 unused, fun p hp => ?_⟩
    rcases (mem_insertAscending _ _ _ _).1 hp with rfl | old
    · exact bound
    · exact h.2 p old
  refine ⟨fun ⟨slots, legal⟩ => ⟨ordered slots, fun p hp => ?_⟩, fun ⟨slots, ascending, paired, held⟩ =>
    ⟨ordered slots, insertAscending_ascending _ _ _ ascending (indexed?_eq_none.1 new), fun p hp => ?_, fun q hq => ?_⟩⟩
  · rcases (mem_insertAscending _ _ _ _).1 hp with rfl | old
    · exact freshRecord_legal tag address channel start
    · exact legal p old
  · rcases (mem_insertAscending _ _ _ _).1 hp with rfl | old
    · exact ⟨(mem_insertAscending _ _ _ _).2 (.inl rfl), rfl⟩
    · exact ⟨(mem_insertAscending _ _ _ _).2 (.inr (paired p old).1), (paired p old).2⟩
  · rcases (mem_insertAscending _ _ _ _).1 hq with rfl | old
    · exact ⟨_, (mem_insertAscending _ _ _ _).2 (.inl rfl), rfl, rfl⟩
    · obtain ⟨p, hp, same⟩ := held q old
      exact ⟨p, (mem_insertAscending _ _ _ _).2 (.inr hp), same⟩

theorem enrol_keepsTable (r : Request) (s : State) : KeepsTable s (enrol r s).1 := by
  unfold enrol
  dsimp only
  split
  · exact .refl s
  · exact .refl s
  · split
    · exact .refl s
    · split
      · exact .refl s
      · split
        · exact .refl s
        · split
          · exact .refl s
          · rename_i known
            split
            · exact .refl s
            · split
              · exact .refl s
              · rename_i free
                exact placeRecord_keepsTable free (by simpa using known)

/-! ### Requests on a well -/

/-- The four outcomes of the checks of R5: no well, a damaged record, a claim held by another, or the act. -/
theorem onWell_cases (changing : Bool) (tag arg : Half) (act : Well → WellRecord → State → State × Reply) (s : State) :
    onWell changing tag arg act s = (s, refuse .notFound tag) ∨
    (∃ w, onWell changing tag arg act s = (freeDamaged w s, refuse .damaged tag)) ∨
    (∃ x : Slot, onWell changing tag arg act s =
      (s, { status := .claimed, tag := tag, value := claimHolder x.record })) ∨
    ∃ w x, s.Reaches tag w x ∧ onWell changing tag arg act s = act w x.record s := by
  cases hw : resolveWell tag s with
  | none => exact .inl (onWell_notFound hw)
  | some w =>
    cases hx : s.well? w with
    | none => exact .inl (by simp only [onWell, hw, hx])
    | some x =>
      cases hi : x.intact with
      | false => exact .inr (.inl ⟨w, onWell_damaged hw hx hi⟩)
      | true =>
        by_cases hc : changing = true → x.record.Admits arg
        · exact .inr (.inr (.inr ⟨w, x, ⟨hw, hx, hi⟩, onWell_reaches ⟨hw, hx, hi⟩ hc⟩))
        · obtain ⟨rfl, other⟩ := Classical.not_imp.1 hc
          exact .inr (.inr (.inl ⟨x, onWell_claimed ⟨hw, hx, hi⟩ other⟩))

/-- A request on a well keeps the table when its act does. -/
theorem onWell_keepsTable {changing : Bool} {tag arg : Half} {act : Well → WellRecord → State → State × Reply}
    (h : ∀ s w r, s.record? w = some r → KeepsTable s (act w r s).1) (s : State) :
    KeepsTable s (onWell changing tag arg act s).1 := by
  rcases onWell_cases changing tag arg act s with e | ⟨w, e⟩ | ⟨x, e⟩ | ⟨w, x, reaches, e⟩ <;> rw [e]
  · exact .refl s
  · exact .of_tame (freeDamaged_tame w s)
  · exact .refl s
  · exact h s w x.record (Reaches.record? reaches)

/-- A parked record that takes another RETURN_MODE stays legal (R26). -/
theorem returnMode_legal {r : WellRecord} (m : ActiveMode) (parked : r.mode.isParked = true) (h : r.Legal) :
    { r with returnMode := some m }.Legal := by
  obtain ⟨limits, travel, target, fits, _, counts⟩ := h
  exact ⟨limits, travel, target, fits, by simpa using parked, counts⟩

theorem writeReturnMode_keepsTable {s : State} {w : Well} {r : WellRecord} (m : ActiveMode)
    (hr : s.record? w = some r) (parked : r.mode.isParked = true) :
    KeepsTable s (writeRecord (fun q => { q with returnMode := some m }) w s) :=
  .of_write fun q hq => by
    rw [hr] at hq
    cases hq
    exact ⟨returnMode_legal m parked, rfl⟩

theorem retireParked_keepsTable {s : State} {w : Well} {r : WellRecord} (hr : s.record? w = some r)
    (parked : r.mode.isParked = true) : KeepsTable s (retireParked w r s) := by
  unfold retireParked
  split
  · exact .refl s
  · exact writeReturnMode_keepsTable .retiring hr parked

theorem changeMode_keepsTable {s : State} {w : Well} {r : WellRecord} {m : Mode} (always : Bool)
    (hr : s.record? w = some r) (entry : m.isActive = true) (active : r.mode.isActive = true) :
    KeepsTable s (changeMode m always w s) :=
  .of_tame (changeMode_tame entry fun q hq => by rw [hr] at hq; cases hq; exact active)

theorem retireByMode_keepsTable {s : State} {w : Well} {r : WellRecord} (tag : Half) (hr : s.record? w = some r) :
    KeepsTable s (retireByMode tag w r s).1 := by
  unfold retireByMode
  split
  · exact .refl s
  · exact retireParked_keepsTable hr (by simp [*, Mode.isParked, Mode.isActive])
  · exact retireParked_keepsTable hr (by simp [*, Mode.isParked, Mode.isActive])
  all_goals
    split
    · exact .of_tame (freeWell_tame w s)
    · exact changeMode_keepsTable true hr rfl (by simp [*, Mode.isActive])

theorem retireWell_keepsTable {s : State} {w : Well} {q : WellRecord} (r : Request) (hq : s.record? w = some q) :
    KeepsTable s (retireWell r w q s).1 := by
  unfold retireWell
  split
  · exact .of_tame (freeWell_tame w s)
  · split
    · exact .refl s
    · exact retireByMode_keepsTable r.tag hq
    · exact retireByMode_keepsTable r.tag hq

theorem setClaim_keepsTable (c : Option Half) (w : Well) (s : State) : KeepsTable s (setClaim c w s) :=
  .of_write fun _ _ => ⟨id, rfl⟩

theorem claimWell_keepsTable (r : Request) (w : Well) (q : WellRecord) (s : State) :
    KeepsTable s (claimWell r w q s).1 := by
  unfold claimWell
  split
  · exact setClaim_keepsTable _ w s
  · split <;> exact .refl s

theorem releaseWell_keepsTable (r : Request) (w : Well) (q : WellRecord) (s : State) :
    KeepsTable s (releaseWell r w q s).1 := by
  unfold releaseWell
  split
  · exact .refl s
  · split
    · exact setClaim_keepsTable none w s
    · exact .refl s

theorem takeMode_keepsTable {s : State} {w : Well} {r : WellRecord} (m : ActiveMode) (tag : Half)
    (hr : s.record? w = some r) : KeepsTable s (takeMode m tag w r s).1 := by
  unfold takeMode setReturnMode
  split
  · rename_i parked
    dsimp only
    split
    · exact .refl s
    · exact writeReturnMode_keepsTable m hr parked
  · rename_i active
    exact changeMode_keepsTable false hr (active_toMode m) (by simpa [Mode.isParked] using active)

theorem modeWell_keepsTable {s : State} {w : Well} {q : WellRecord} (r : Request) (hq : s.record? w = some q) :
    KeepsTable s (modeWell r w q s).1 := by
  unfold modeWell
  split
  · exact .refl s
  · split
    · exact .refl s
    · split
      · exact .refl s
      · exact takeMode_keepsTable _ r.tag hq

theorem sampleInRun_keepsTable (r : Request) (w : Well) (q : WellRecord) (s : State) :
    KeepsTable s (sampleInRun r w q s).1 := by
  unfold sampleInRun
  split
  · exact .refl s
  · repeat' split
    all_goals first
      | exact .refl s
      | exact .of_calm ((placeInQueue_calm _ w s).trans (headTest_calm _))

theorem sampleWell_keepsTable (r : Request) (w : Well) (q : WellRecord) (s : State) :
    KeepsTable s (sampleWell r w q s).1 := by
  unfold sampleWell
  split
  · exact .refl s
  · exact .refl s
  · exact sampleInRun_keepsTable r w q s

theorem purgeWell_keepsTable (r : Request) (w : Well) (q : WellRecord) (s : State) :
    KeepsTable s (purgeWell r w q s).1 := by
  unfold purgeWell
  split
  · exact .refl s
  · exact .refl s
  · split
    · exact .refl s
    · exact .of_calm (startPulse_calm w s)

/-! ### Fields -/

theorem writeAndHand_keepsTable {f : WellRecord → WellRecord} {w : Well} {s : State}
    (h : KeepsTable s (writeRecord f w s)) : KeepsTable s (writeAndHand f w s) := by
  unfold writeAndHand
  split
  · exact .refl s
  · dsimp only
    split
    · exact h
    · exact h.trans (.of_tame (handTarget_tame w _))

/-- A write of a field keeps the table when the new record carries the tag of the old one and is legal with it. -/
theorem writeWellField_keepsTable {new : Except Status WellRecord} {s : State} {w : Well} {r : WellRecord}
    (f : WellField) (tag : Half) (hr : s.record? w = some r)
    (h : ∀ q, new = .ok q → (r.Legal → q.Legal) ∧ q.tag = r.tag) : KeepsTable s (writeWellField new f tag w s).1 := by
  unfold writeWellField
  split
  · exact .refl s
  · rename_i q
    obtain ⟨legal, same⟩ := h q rfl
    have written : KeepsTable s (writeRecord (fun _ => q) w s) :=
      .of_write fun q' hq' => by
        rw [hr] at hq'
        cases hq'
        exact ⟨legal, same⟩
    refine (writeAndHand_keepsTable written).trans ?_
    unfold afterFieldWrite
    split
    · exact .of_calm (evalAlerts_calm _)
    · exact .refl _

theorem amendWell_keepsTable {s : State} {w : Well} {r : WellRecord} (field : Byte) (words : List Half)
    (value tag : Half) (hr : s.record? w = some r) :
    KeepsTable s (amendWell field words value tag w r s).1 := by
  unfold amendWell
  split
  · exact writeWellField_keepsTable _ tag hr fun q e => ⟨amendedRecord_legal e, amendedRecord_sameTag e⟩
  · exact .refl s
  · exact .refl s

theorem memberRecord_sameTag {add : Bool} {v : Half} {r q : WellRecord} {f : WellField}
    (h : memberRecord add v r f = .ok q) : q.tag = r.tag := by
  cases f <;> simp only [memberRecord, inSet, Except.map] at h <;> (repeat' split at h) <;> cases h <;> rfl

theorem memberWell_keepsTable {s : State} {w : Well} {q : WellRecord} (add : Bool) (r : Request)
    (hq : s.record? w = some q) : KeepsTable s (memberWell add r w q s).1 := by
  unfold memberWell
  split
  · exact writeWellField_keepsTable _ r.tag hq fun q' e =>
      ⟨fun legal => (memberRecord_legal e legal).1, memberRecord_sameTag e⟩
  · exact .refl s
  · exact .refl s

theorem settingTaken_keepsTable (f : DeviceField) (s : State) : KeepsTable s (settingTaken f s) := by
  unfold settingTaken
  split
  · exact .of_calm (evalAlerts_calm s)
  · exact .of_calm (evalAlerts_calm s)
  · exact .of_calm (grantTest_calm s)
  all_goals exact .refl s

theorem writeSetting_keepsTable (new : Except Status Settings) (f : DeviceField) (arg tag : Half) (s : State) :
    KeepsTable s (writeSetting new f arg tag s).1 := by
  unfold writeSetting
  split
  · exact .refl s
  · rename_i t
    exact .trans (t := { s with settings := t }) (.of_same rfl rfl) (settingTaken_keepsTable f _)

theorem amend_keepsTable (r : Request) (words : List Half) (s : State) : KeepsTable s (amend r words s).1 := by
  unfold amend
  split
  · unfold amendDevice
    split
    · exact writeSetting_keepsTable _ _ _ _ s
    · exact .refl s
    · exact .refl s
  · exact onWell_keepsTable (fun _ _ _ => amendWell_keepsTable r.field words r.value r.tag) s

theorem changeMembers_keepsTable (add : Bool) (r : Request) (s : State) : KeepsTable s (changeMembers add r s).1 := by
  unfold changeMembers
  split
  · unfold memberDevice
    split
    · exact writeSetting_keepsTable _ _ _ _ s
    · exact .refl s
    · exact .refl s
  · exact onWell_keepsTable (fun _ _ _ => memberWell_keepsTable add r) s

theorem acknowledge_keepsTable (r : Request) (s : State) : KeepsTable s (acknowledge r s).1 := by
  unfold acknowledge
  split
  · exact .of_calm (ackDevice_calm r.mask s)
  · exact onWell_keepsTable (fun t w _ _ => .of_calm (ackWell_calm r.mask w t)) s

theorem lookup_keepsTable (r : Request) (s : State) : KeepsTable s (lookup r s).1 := by
  unfold lookup
  split
  · exact .refl s
  · exact onWell_keepsTable (fun t _ _ _ => .refl t) s

theorem actAt_keepsTable (kind : GroupKind) (field : Byte) (tag value arg : Half) (s : State) :
    KeepsTable s (actAt kind field tag value arg s).1 := by
  unfold actAt
  split
  · exact onWell_keepsTable (fun t _ _ _ => .refl t) s
  · exact onWell_keepsTable (fun _ _ _ => amendWell_keepsTable field [] value tag) s

theorem openGroup_keepsTable (kind : GroupKind) (r : Request) (s : State) : KeepsTable s (openGroup kind r s).1 :=
  .trans (t := setGroup (some (openedGroup kind r)) s) (.of_same rfl rfl) (actAt_keepsTable _ _ _ _ _ _)

theorem groupAmend_keepsTable (r : Request) (s : State) : KeepsTable s (groupAmend r s).1 := by
  unfold groupAmend
  split
  · exact .refl s
  · exact openGroup_keepsTable .amend r s

theorem continueWith_keepsTable (words : List Half) (r : Request) (s : State) :
    KeepsTable s (continueWith words r s).1 := by
  unfold continueWith
  split
  · exact .refl s
  · rename_i g _
    refine .trans (t := setGroup g.stepped s) (.of_same rfl rfl) ?_
    dsimp only
    split
    · exact actAt_keepsTable _ _ _ _ _ _
    · exact .refl _

/-! ### Device reset and the commands to the part -/

/-- Device reset parks every record, and keeps in RETURN_MODE what it leaves (R15, R26, R43). -/
theorem afterReset_legal {r : WellRecord} (h : r.Legal) : r.afterReset.Legal := by
  obtain ⟨limits, travel, target, _, parked, _, _, _, draw⟩ := h
  refine ⟨limits, travel, target, ?_, ?_, Nat.zero_le _, Nat.zero_le _, fun _ => rfl, draw⟩
  · simp [WellRecord.afterReset, WellRecord.TargetLegal]
  · cases m : r.mode <;>
      simp_all [WellRecord.afterReset, Mode.active?, Mode.isParked, Mode.isActive]

theorem resetBlocks_keepsTable (s : State) : KeepsTable s (resetBlocks s) := by
  refine ⟨fun ⟨ordered, legal⟩ => ⟨SlotsOrdered.map (fun p => (p.1, p.2.afterReset)) (fun _ => rfl) rfl ordered,
      fun p hp => ?_⟩,
    IndexAgrees.map (fun p => (p.1, p.2.afterReset)) (fun _ => rfl) (fun _ => ⟨rfl, rfl⟩) rfl rfl⟩
  obtain ⟨q, hq, rfl⟩ := List.mem_map.1 hp
  exact afterReset_legal (legal q hq)

theorem deviceReset_keepsTable (straps : Straps) (s : State) : KeepsTable s (deviceReset straps s) :=
  .trans (t := resetPort straps s) (.of_same rfl rfl)
    ((resetBlocks_keepsTable _).trans (.of_tame (beginRound_tame _)))

theorem handChange_keepsTable (h : Handover) (s : State) : KeepsTable s (handChange h s) :=
  have tame := handChange_tame0 h s
  ⟨tame.legal, tame.agrees⟩

theorem standby_keepsTable (r : Request) (s : State) : KeepsTable s (standby r s).1 := by
  unfold standby
  split
  · exact .refl s
  · exact .refl s
  · split
    · exact .refl s
    · split
      · exact .refl s
      · exact .trans (t := setDeviceState .standby s) (.of_same rfl rfl) (handChange_keepsTable standbyEntry _)

theorem enterRun_keepsTable (s : State) : KeepsTable s (enterRun s) := by
  refine (KeepsTable.of_tame (takeOwed_tame s)).trans ?_
  refine .trans (t := setDeviceState .run
    { takeOwed s with lines := { (takeOwed s).lines with wake := false } }) (.of_same rfl rfl) (.of_tame ?_)
  exact ((grantTest_calm _).tame.trans (forEach_tame evalNeed_tame _)).trans (headTest_calm _).tame

theorem resume_keepsTable (r : Request) (s : State) : KeepsTable s (resume r s).1 := by
  unfold resume
  split
  · exact .refl s
  · split
    · exact .refl s
    · exact enterRun_keepsTable s
  · exact (enterRun_keepsTable s).trans (.of_tame (beginRoundIfIdle_tame _))

theorem suctionFalls_tame (s : State) : Tame s (suctionFalls s) := by
  unfold suctionFalls
  split
  · exact (reportFault_tame _ _ _ s).trans (withdrawPermit_tame _)
  · exact withdrawPermit_tame s
  · exact withdrawPermit_tame s

theorem find_keepsTable (r : Request) (s : State) : KeepsTable s (find r s).1 := by
  unfold find
  split <;> exact .refl s

theorem extendPort_keepsTable (r : Request) (s : State) : KeepsTable s (extendPort r s).1 := by
  unfold extendPort
  split <;> exact .of_same rfl rfl

/-! ### The ticks and the timers -/

theorem countSecond_keepsTable (s : State) : KeepsTable s (countSecond s) := by
  unfold countSecond
  split <;> exact .of_same rfl rfl

theorem takeMinute_tame (s : State) : Tame s (takeMinute s) :=
  (((survey_calm s).trans (ageSamples_calm _)).trans (cumulativeDraw_calm _)).tame.trans (minuteRound_tame _)

/-! ### Every command -/

/-- The command answers a next state, and keeps the table. -/
def NextKeepsTable (s : State) (o : Host.Outcome State Fault Refusal) : Prop := ∃ t, o = .next t ∧ KeepsTable s t

theorem nextKeepsTable_of_tame {s t : State} (h : Tame s t) : NextKeepsTable s (.next t) := ⟨t, rfl, .of_tame h⟩

theorem nextKeepsTable_of_calm {s t : State} (h : Calm s t) : NextKeepsTable s (.next t) := ⟨t, rfl, .of_calm h⟩

/-- A request keeps the table when its act does. -/
theorem takeRequest_keepsTable {r : Request} {act : State → State × Reply} (h : ∀ s, KeepsTable s (act s).1)
    (s : State) : NextKeepsTable s (takeRequest r act s) :=
  ⟨_, rfl, .trans (t := advance s) (.of_same rfl rfl) ((h _).trans (.of_same rfl rfl))⟩

theorem plainRequest_keepsTable {r : Request} {act : State → State × Reply} (h : ∀ s, KeepsTable s (act s).1)
    (s : State) : NextKeepsTable s (plainRequest r act s) :=
  takeRequest_keepsTable (fun t => by
    split
    · exact .trans (t := closePort t) (.of_same rfl rfl) (h _)
    · exact .of_same rfl rfl) s

theorem onWellRequest_keepsTable {r : Request} {changing : Bool} {act : Well → WellRecord → State → State × Reply}
    (h : ∀ s w q, s.record? w = some q → KeepsTable s (act w q s).1) (s : State) :
    NextKeepsTable s (plainRequest r (onWell changing r.tag r.arg act) s) :=
  plainRequest_keepsTable (onWell_keepsTable h) s

theorem execAmend_keepsTable (r : Request) (s : State) : NextKeepsTable s (execAmend r s) :=
  takeRequest_keepsTable (fun t => by
    split
    · exact .of_same rfl rfl
    · exact .trans (t := closePort t) (.of_same rfl rfl) (amend_keepsTable r _ _)) s

theorem exec_keepsTable (c : Instr) (s : State) : NextKeepsTable s (exec c s) := by
  cases c with
  | powerOn straps suction =>
    exact ⟨_, rfl, .trans (t := { State.poweredUp straps suction with pending := s.pending })
      (.of_empty rfl rfl) (.of_tame (beginRound_tame _))⟩
  | resetLine straps => exact ⟨_, rfl, (deviceReset_keepsTable straps s).trans (.of_same rfl rfl)⟩
  | secondTick late =>
    refine ⟨_, rfl, (KeepsTable.of_tame (takeOwed_tame s)).trans
      (.trans (t := setLate late (takeOwed s)) (.of_same rfl rfl) ((countSecond_keepsTable _).trans (.of_tame ?_)))⟩
    exact ((((tickSequencer_calm _).trans (tickMoves_calm _)).tame.trans (tickHold_tame _)).trans
      (tickPulses_calm _).tame).trans (tickRounds_tame _)
  | minuteTick =>
    refine ⟨_, rfl, ?_⟩
    split
    · exact .trans (t := { s with time := { s.time with minuteDue := false } }) (.of_same rfl rfl)
        (.of_tame (takeMinute_tame _))
    · exact .refl s
  | purgePulseEnd tag =>
    refine ⟨_, rfl, ?_⟩
    split
    · exact .refl s
    · exact .of_calm (changeSlot_calm fun _ => ⟨rfl, rfl⟩)
  | moveTimerExpiry tag =>
    refine ⟨_, rfl, ?_⟩
    split
    · exact .refl s
    · split
      · exact .of_tame (endTimeout_tame _ s)
      · exact .refl s
  | purgeTimerExpiry => exact nextKeepsTable_of_calm (afterPurgeTimer_calm s)
  | analyserTimerExpiry => exact nextKeepsTable_of_tame (afterAnalyserTimer_tame s)
  | busyWaitExpiry => exact nextKeepsTable_of_calm (afterBusyWait_calm s)
  | probeTimerExpiry => exact nextKeepsTable_of_calm (afterProbeTimer_calm s)
  | holdTimerExpiry =>
    refine ⟨_, rfl, ?_⟩
    split
    · exact .refl s
    · split
      · exact .of_tame (takeHoldExpiry_tame s)
      · exact .refl s
  | suctionChange level =>
    refine ⟨_, rfl, ?_⟩
    split
    · exact .refl s
    · refine .trans (t := setSuction level s) (.of_same rfl rfl)
        ((KeepsTable.of_calm (setDeviceEvent_calm .suction _)).trans ?_)
      cases level with
      | low => exact .of_tame (suctionFalls_tame _)
      | high => exact .of_calm (headTest_calm _)
  | holdExchange => exact ⟨_, rfl, .of_same rfl rfl⟩
  | deselect cause =>
    refine ⟨_, rfl, .trans (t := deselectPort s) (.of_same rfl rfl) ?_⟩
    cases cause with
    | otherUnit => exact .refl _
    | badCheck => exact .of_tame (reportFault_tame _ _ _ _)
  | nop r => rw [exec_nop]; exact plainRequest_keepsTable (fun _ => .refl _) s
  | enrol r => exact plainRequest_keepsTable (enrol_keepsTable r) s
  | retire r => exact onWellRequest_keepsTable (fun _ _ _ => retireWell_keepsTable r) s
  | lookup r => exact plainRequest_keepsTable (lookup_keepsTable r) s
  | amend r => exact execAmend_keepsTable r s
  | setMembers r => exact plainRequest_keepsTable (changeMembers_keepsTable true r) s
  | clearMembers r => exact plainRequest_keepsTable (changeMembers_keepsTable false r) s
  | ack r => exact plainRequest_keepsTable (acknowledge_keepsTable r) s
  | claim r => exact onWellRequest_keepsTable (fun t w q _ => claimWell_keepsTable r w q t) s
  | release r => exact onWellRequest_keepsTable (fun t w q _ => releaseWell_keepsTable r w q t) s
  | modeRequest r => exact onWellRequest_keepsTable (fun _ _ _ => modeWell_keepsTable r) s
  | sample r => exact onWellRequest_keepsTable (fun t w q _ => sampleWell_keepsTable r w q t) s
  | purge r => exact onWellRequest_keepsTable (fun t w q _ => purgeWell_keepsTable r w q t) s
  | find r => exact plainRequest_keepsTable (find_keepsTable r) s
  | groupLook r => exact plainRequest_keepsTable (openGroup_keepsTable .look r) s
  | groupAmend r => exact plainRequest_keepsTable (groupAmend_keepsTable r) s
  | continueGroup r =>
    exact takeRequest_keepsTable (fun t => .trans (t := setWords [] t) (.of_same rfl rfl)
      (continueWith_keepsTable _ r _)) s
  | extend r => exact takeRequest_keepsTable (extendPort_keepsTable r) s
  | standby r => exact plainRequest_keepsTable (standby_keepsTable r) s
  | resume r => exact plainRequest_keepsTable (resume_keepsTable r) s
  | clearFaults r => rw [exec_clearFaults]; exact plainRequest_keepsTable (fun _ => .of_same rfl rfl) s
  | reset r straps => rw [exec_reset]; exact plainRequest_keepsTable (deviceReset_keepsTable straps) s
  | accept reply =>
    exact nextKeepsTable_of_tame (endTransaction_tame (judgeFrame_tame (judgeAccept_tame reply.address)) s)
  | readings reply channels orders =>
    exact nextKeepsTable_of_tame
      (endTransaction_tame (judgeFrame_tame (judgeReadings_tame reply.address channels orders)) s)
  | refused reply =>
    exact nextKeepsTable_of_tame (endTransaction_tame (judgeFrame_tame (judgeRefused_tame reply.address)) s)
  | transactionFailure => exact nextKeepsTable_of_tame (endTransaction_tame (fun t => failTransaction_tame t.address) s)
  | values number ch4 co2 o2 => exact nextKeepsTable_of_tame (takeAnalyserFrame_tame number _ s)
  | analyserFaultReply number => exact nextKeepsTable_of_tame (takeAnalyserFrame_tame number _ s)
  | busy number => exact nextKeepsTable_of_tame (takeAnalyserFrame_tame number _ s)
  | probeReply number reply => exact nextKeepsTable_of_tame (takeAnalyserFrame_tame number _ s)
  | analyserFrameDiscard => exact nextKeepsTable_of_tame (.refl s)
  | unknownRequest r code =>
    exact takeRequest_keepsTable (act := fun t => (closePort t, refuse .unknownRequest r.tag))
      (fun _ => .of_same rfl rfl) s
  | scanFrameDiscard => exact nextKeepsTable_of_tame (.refl s)
  | probeFaultReply number => exact nextKeepsTable_of_tame (takeAnalyserFrame_tame number _ s)

theorem step_keepsTable {s t : State} (h : step s = .next t) : KeepsTable s t := by
  unfold step at h
  split at h
  · cases h
    exact .refl s
  · rename_i c rest _
    obtain ⟨u, hu, keeps⟩ := exec_keepsTable c (s.withPending rest)
    rw [hu] at h
    cases h
    exact .trans (t := s.withPending rest) (.of_same rfl rfl) keeps

/-- Settles O4, through the invariant that every command keeps. -/
theorem recordsStayLegal : Obligations.RecordsStayLegal := fun _ _ legal run => (step_keepsTable run).legal legal

/-- Settles O5, through the invariant that every command keeps. -/
theorem indexStaysInAgreement : Obligations.IndexStaysInAgreement :=
  fun _ _ agrees run => (step_keepsTable run).agrees agrees

end Sys2Proof.Machine
end

