-- ==== Sys2Proof/Proofs/Resets.lean ====
section
/-! PROOF of DeviceResetTreatsRecords and ResetMeetsInvariants. The round that a device reset begins may end at once;
its level detection then finds no record in an active mode, so the records stand as the reset has left them. -/

namespace Sys2Proof.Machine

/-! ### Level detection over parked records -/

theorem detectLevels_parked {w : Well} {s : State} (h : ∀ x, s.well? w = some x → x.record.mode.isActive = false) :
    detectLevels w s = s := by
  unfold detectLevels
  split
  · rfl
  · rename_i x hx
    have none : s.levelsRead x = none := by simp [State.levelsRead, h x hx]
    rw [none]

theorem forEach_fixed {f : Well → State → State} {s : State} (ws : List Well) (h : ∀ w, f w s = s) :
    forEach ws f s = s := by
  unfold forEach
  induction ws with
  | nil => rfl
  | cons w ws ih => rw [List.foldl_cons, h w, ih]

theorem levelDetection_parked {s : State} (h : ∀ p ∈ s.slots, p.2.record.mode.isActive = false) :
    levelDetection s = s := by
  have each (w : Well) : detectLevels w s = s :=
    detectLevels_parked fun _ hx => h _ (mem_of_well? hx).1
  unfold levelDetection
  split
  · rfl
  · exact forEach_fixed _ each
  · exact forEach_fixed _ each

/-- A round begun over parked records leaves every slot as it stands. -/
theorem beginRound_slots_parked {s : State} (h : ∀ p ∈ s.slots, p.2.record.mode.isActive = false) :
    (beginRound s).slots = s.slots := by
  unfold beginRound
  split
  · have still := levelDetection_parked (s := { s with scan := { s.scan with inFlight := none, round := .idle } }) h
    exact (blendRoundEnd_slots _).trans (congrArg State.slots still :)
  · rfl

/-! ### Device reset -/

theorem afterReset_eq (x : Slot) : x.afterReset = resetSlot x := by
  cases m : x.record.mode <;> simp [Slot.afterReset, Slot.write, WellRecord.afterReset, resetSlot, m, Mode.active?,
    noRuns, Run.none]

theorem deviceReset_slots (straps : Straps) (s : State) :
    (deviceReset straps s).slots = s.slots.map fun p => (p.1, resetSlot p.2) := by
  have slots : (resetBlocks (resetPort straps s)).slots = s.slots.map fun p => (p.1, resetSlot p.2) :=
    List.map_congr_left fun p _ => by rw [← afterReset_eq]
  unfold deviceReset
  rw [beginRound_slots_parked, slots]
  rw [slots]
  intro p hp
  obtain ⟨q, _, rfl⟩ := List.mem_map.1 hp
  rfl

theorem deviceReset_index (straps : Straps) (s : State) : (deviceReset straps s).index = s.index :=
  (beginRound_apart _).index

/-- Settles O11: both sources of a device reset run `deviceReset`, and differ in the port alone. -/
theorem deviceResetTreatsRecords : Obligations.DeviceResetTreatsRecords := by
  intro straps s
  refine ⟨⟨_, rfl, deviceReset_slots straps s, deviceReset_index straps s⟩, fun r words => ?_⟩
  rw [exec_reset, plainRequest_next _ _ _ words]
  exact ⟨_, rfl, deviceReset_slots straps (closePort (advance s)), deviceReset_index straps (closePort (advance s))⟩

/-! ### Power-on -/

/-- Settles O9: the empty table, the empty lists and the default settings meet each invariant. -/
theorem resetMeetsInvariants : Obligations.ResetMeetsInvariants := by
  have ordered : State.reset.SlotsOrdered := by simp [State.SlotsOrdered, State.reset]
  refine ⟨⟨ordered, by simp [State.reset]⟩, ⟨ordered, by simp [State.reset]⟩, ?_, ?_, ?_, ?_, by decide, by decide,
    ⟨⟨ordered, by simp [State.reset]⟩, ?_, ?_, ?_, ?_⟩, fun h => absurd rfl h⟩
  · simp [State.LinesFollow, State.reset, State.alertAStands, State.alertBStands, meets]
  · simp [State.PermitSafe, State.reset]
  · simp [State.PortLegal, State.reset]
  · simp [State.FaultsLegal, State.reset]
  · exact ⟨ordered, by simp [State.StationsOrdered, State.reset]⟩
  · simp [State.TransactionLegal, State.reset]
  · exact ⟨ordered, by simp [State.reset, Phase.current?]⟩
  · exact ⟨ordered, by simp [State.reset, State.inLists]⟩

end Sys2Proof.Machine
end

