-- ==== Sys2Proof/Proofs/Enrolments.lean ====
section
/-! PROOF of EnrolCreatesRecord and EnrolIsRefusedInOrder. Each check of ENROL is read as what it says of the table, and
the record placed is described part by part: the slots, the index and the station table. -/

namespace Sys2Proof.Machine

/-! ### The checks -/

theorem requestedMode_eq_none {mask : Byte} (h : ¬ (mask = 1 ∨ mask = 2 ∨ mask = 3)) :
    requestedMode mask.toNat = none := by
  simp only [not_or, ← BitVec.toNat_inj] at h
  obtain ⟨auto, manual, isolated⟩ := h
  unfold requestedMode
  split
  · contradiction
  · contradiction
  · contradiction
  · rfl

theorem stationInRange_iff (address channel : Nat) :
    stationInRange address channel = true ↔ 1 ≤ address ∧ address ≤ 62 ∧ channel ≤ 3 := by
  simp only [stationInRange, Bool.and_eq_true, decide_eq_true_eq, and_assoc]
  rfl

theorem indexed?_isSome {s : State} {tag : Nat} : (s.indexed? tag).isSome = true ↔ ∃ p ∈ s.index, p.1 = tag := by
  simp [State.indexed?]

theorem wellAt?_isSome {s : State} {address channel : Nat} : (s.wellAt? address channel).isSome = true ↔
    ∃ p ∈ s.slots, p.2.address = address ∧ p.2.channel = channel := by
  simp [State.wellAt?]

/-- A mask that names a start mode (R6). -/
theorem requestedMode_some {mask : Byte} (h : mask = 1 ∨ mask = 2 ∨ mask = 3) :
    ∃ start, requestedMode mask.toNat = some start := by
  rcases h with rfl | rfl | rfl
  · exact ⟨.auto, rfl⟩
  · exact ⟨.manual, rfl⟩
  · exact ⟨.isolated, rfl⟩

/-- With a slot free, one is found (R6). -/
theorem freeSlot?_of_free {s : State} (ordered : s.SlotsOrdered) (h : ∃ n < Config.slotCount, ∀ p ∈ s.slots, p.1 ≠ n) :
    ∃ n, s.freeSlot? = some n := by
  obtain ⟨n, bound, free⟩ := h
  obtain ⟨_, _, below⟩ := firstFree_spec 0 s.slots ordered.1 fun _ _ => Nat.zero_le _
  have le : firstFree 0 s.slots ≤ n := Nat.le_of_not_lt fun lt => by
    obtain ⟨p, hp, e⟩ := below n (Nat.zero_le n) lt
    exact free p hp e
  exact ⟨firstFree 0 s.slots, if_pos (Nat.lt_of_le_of_lt le bound)⟩

/-- A full table has no free slot (R2, R6). -/
theorem freeSlot?_of_full {s : State} (ordered : s.SlotsOrdered) (full : Config.slotCount ≤ s.slots.length) :
    s.freeSlot? = none := by
  cases h : s.freeSlot? with
  | none => rfl
  | some n =>
    obtain ⟨bound, free, _⟩ := freeSlot?_spec ordered h
    have distinct : (s.slots.map Prod.fst).Nodup :=
      List.pairwise_map.2 (ordered.1.imp fun lt => Nat.ne_of_lt lt)
    have others : s.slots.map Prod.fst ⊆ (List.range Config.slotCount).erase n := by
      intro k hk
      obtain ⟨p, hp, rfl⟩ := List.mem_map.1 hk
      exact (List.mem_erase_of_ne (free p hp)).2 (List.mem_range.2 (ordered.2 p hp))
    have count := (List.subperm_of_subset distinct others).length_le
    rw [List.length_map, List.length_erase_of_mem (List.mem_range.2 bound), List.length_range] at count
    simp only [Config.slotCount] at full count
    omega

theorem wellTag_iff (tag : Half) : (tag.toNat = 0 ∨ tag.toNat = 65535) ↔ (tag = 0 ∨ tag = 65535) := by
  simp only [← BitVec.toNat_inj]
  rfl

/-- Settles O23: the checks before the failing one pass, and so are passed over, in the order of R6. -/
theorem enrolIsRefusedInOrder : Obligations.EnrolIsRefusedInOrder := by
  intro r s e ordered words h
  suffices refused : enrol r (closePort (advance s)) = (closePort (advance s), refuse e r.tag) by
    rw [exec_enrol, plainRequest_next _ _ _ words, refused]
    rfl
  simp only [← stationInRange_iff, Bool.not_eq_true, ← indexed?_isSome, ← wellAt?_isSome] at h
  have same : (closePort (advance s)).device.state = s.device.state := rfl
  have known (tag : Nat) : (closePort (advance s)).indexed? tag = s.indexed? tag := rfl
  have taken (a c : Nat) : (closePort (advance s)).wellAt? a c = s.wellAt? a c := rfl
  have free : (closePort (advance s)).freeSlot? = s.freeSlot? := rfl
  simp only [enrol, same, known, taken, free, wellTag_iff]
  cases state : s.device.state with
  | standby => simp_all
  | safe => simp_all
  | run =>
    rw [state] at h
    simp only [reduceCtorEq, if_false] at h
    split_ifs at h with tag station mask old used full <;> cases h
    · rw [if_pos tag]
    · rw [if_neg tag, if_pos station]
    all_goals rw [if_neg tag, if_neg station]
    · obtain ⟨start, named⟩ := requestedMode_some mask
      simp only [named, old, if_true]
    · obtain ⟨start, named⟩ := requestedMode_some mask
      simp only [named, old, used, if_true, Bool.false_eq_true, if_false]
    · obtain ⟨start, named⟩ := requestedMode_some mask
      simp only [named, old, used, Bool.false_eq_true, if_false, freeSlot?_of_full ordered full]
    · simp only [requestedMode_eq_none mask]

/-! ### The record placed -/

/-- The station table after an enrolment at this address and channel (R47). -/
def stationsEnrolled (address channel : Nat) (l : List StationRecord) : List StationRecord :=
  match l.find? (fun x => x.address == address) with
  | some _ => l.map fun x => if x.address = address then x.joined channel else x
  | none => insertStation (newStation address channel) l

/-- The record takes its slot, the index its pair, and the station table its channel; nothing else changes (R6, R47). -/
theorem placeRecord_eq (n tag address channel : Nat) (start : ActiveMode) (s : State) :
    placeRecord n tag address channel start s = { s with
      slots := insertAscending n (freshSlot (freshRecord tag address channel start)) s.slots,
      index := insertAscending tag n s.index,
      scan := { s.scan with stations := stationsEnrolled address channel s.scan.stations } } := by
  unfold placeRecord enrolStation State.station? stationsEnrolled
  dsimp only
  cases s.scan.stations.find? (fun x => x.address == address) <;> rfl

theorem mem_insertStation (st : StationRecord) (l : List StationRecord) (x : StationRecord) :
    x ∈ insertStation st l ↔ x ∈ l ∨ x = st := by
  induction l with
  | nil => simp [insertStation]
  | cons y l ih =>
    unfold insertStation
    split
    · simp [or_comm]
    · simp [ih, or_assoc]

/-- The first enrolment at an address makes its station record (R47). -/
theorem mem_stationsEnrolled_new {address : Nat} (channel : Nat) {l : List StationRecord}
    (h : ∀ x ∈ l, x.address ≠ address) (x : StationRecord) :
    x ∈ stationsEnrolled address channel l ↔ x ∈ l ∨ x = newStation address channel := by
  have none : l.find? (fun x => x.address == address) = none := by simpa using h
  rw [stationsEnrolled, none]
  exact mem_insertStation _ l x

theorem joined_eq (channel : Nat) (x : StationRecord) : x.joined channel =
    { x with channels := joinChannel channel x.channels,
             state := if x.state = .lost then .lost else .setupDue } := by
  cases h : x.state <;> simp [StationRecord.joined, h]

/-- A later enrolment at an address joins the channel to its station's map (R47). -/
theorem stationsEnrolled_old {address : Nat} (channel : Nat) {l : List StationRecord}
    (h : ∃ x ∈ l, x.address = address) : stationsEnrolled address channel l =
      l.map fun x => if x.address = address then x.joined channel else x := by
  cases found : l.find? (fun x => x.address == address) with
  | some y => rw [stationsEnrolled, found]
  | none =>
    obtain ⟨x, hx, e⟩ := h
    exact absurd (by simp [e]) (List.find?_eq_none.1 found x hx)

/-- An ENROL whose checks all pass places the record (R6). -/
theorem enrol_accepted {r : Request} {s : State} {start : ActiveMode} {n : Nat} (run : s.device.state = .run)
    (tag : ¬ (r.tag.toNat = 0 ∨ r.tag.toNat = 65535))
    (station : stationInRange (r.value.toNat / 256) (r.value.toNat % 256) = true)
    (mode : requestedMode r.mask.toNat = some start) (new : s.indexed? r.tag.toNat = none)
    (vacant : s.wellAt? (r.value.toNat / 256) (r.value.toNat % 256) = none) (free : s.freeSlot? = some n) :
    enrol r s = (placeRecord n r.tag.toNat (r.value.toNat / 256) (r.value.toNat % 256) start s,
      done r.tag (single n)) := by
  simp only [enrol, run, if_neg tag, station, mode, new, vacant, free, Option.isSome_none, Bool.true_eq_false,
    Bool.false_eq_true, if_false]

theorem single_eq {n : Nat} (h : n < 65536) : single n = BitVec.ofNat 48 n := by
  rw [single, Nat.mod_eq_of_lt h]

/-- Settles O22: the checks pass, and the record placed is read part by part. -/
theorem enrolCreatesRecord : Obligations.EnrolCreatesRecord := by
  intro r s start ordered words run tagLow tagHigh addressLow addressHigh channelHigh mode new vacant free
  obtain ⟨n, found⟩ := freeSlot?_of_free ordered free
  obtain ⟨bound, unused, lowest⟩ := freeSlot?_spec ordered found
  have named : requestedMode r.mask.toNat = some start := by
    rcases mode with ⟨e, rfl⟩ | ⟨e, rfl⟩ | ⟨e, rfl⟩ <;> rw [e] <;> rfl
  have noWell : s.wellAt? (r.value.toNat / 256) (r.value.toNat % 256) = none := by
    simpa [State.wellAt?] using vacant
  have accepted : enrol r (closePort (advance s)) = _ := enrol_accepted (s := closePort (advance s)) run (by omega)
    ((stationInRange_iff _ _).2 ⟨addressLow, addressHigh, channelHigh⟩) named (indexed?_eq_none.2 new) noWell found
  refine ⟨n,
    insertAscending n
      (freshSlot (freshRecord r.tag.toNat (r.value.toNat / 256) (r.value.toNat % 256) start)) s.slots,
    insertAscending r.tag.toNat n s.index, stationsEnrolled (r.value.toNat / 256) (r.value.toNat % 256) s.scan.stations,
    ?_, bound, unused, lowest, insertAscending_ascending _ _ _ ordered.1 unused, fun p => ?_,
    fun ascending => insertAscending_ascending _ _ _ ascending new, fun p => ?_, fun first => ?_, fun later => ?_⟩
  · rw [exec_enrol, plainRequest_next _ _ _ words, accepted, placeRecord_eq,
      single_eq (Nat.lt_trans bound (by decide))]
    rfl
  · exact (mem_insertAscending _ _ _ _).trans or_comm
  · exact (mem_insertAscending _ _ _ _).trans or_comm
  · exact mem_stationsEnrolled_new _ first
  · rw [stationsEnrolled_old _ later]
    simp only [joined_eq]

end Sys2Proof.Machine
end

