-- ==== Sys2Proof/Proofs/WellChecks.lean ====
section
/-! PROOF of UnresolvedTagsNotFound, DamagedRecordsAreFreed, ClaimsGuardChanges, ClaimTestsAndSets and
ReleaseClearsClaim. `OnWell r c s` says that the command `c` passes the port checks in `s` and goes through the checks
of R5; what those checks answer is then said once for every such command. -/

namespace Sys2Proof.Machine

/-! ### Requests past the port checks -/

/-- A request past the port checks: it acts on the advanced, closed port, and its answer is owed. -/
def requestTaken (r : Request) (act : State → State × Reply) (s : State) : State :=
  fill (answerTo r (act (closePort (advance s))).2) (act (closePort (advance s))).1

theorem plainRequest_taken {r : Request} {act : State → State × Reply} {s : State} (words : s.port.words = []) :
    plainRequest r act s = .next (requestTaken r act s) := plainRequest_next r act s words

/-- A request whose act leaves the state as it stands changes nothing but the port. -/
theorem requestTaken_answered {r : Request} {act : State → State × Reply} {s : State} {x : Reply}
    (h : act (closePort (advance s)) = (closePort (advance s), x)) :
    requestTaken r act s = s.answered r x.status x.tag x.value := by
  rw [requestTaken, h]
  rfl

/-- An AMEND whose held words fit its field (R176). -/
theorem exec_amend_taken {r : Request} {s : State} (h : amendWordsRefusal r.field s.port.words.length = none) :
    exec (.amend r) s = .next (requestTaken r (amend r s.port.words) s) := by
  simp only [exec, execAmend, takeRequest]
  rw [show (advance s).port.words = s.port.words from rfl, h]
  rfl

/-- The command passes the port checks and goes through the checks of R5, as a changing request or not. -/
def OnWell (changing : Bool) (r : Request) (c : Instr) (s : State) : Prop :=
  ∃ act, exec c s = .next (requestTaken r (onWell changing r.tag r.arg act) s)

theorem plainRequest_onWell {changing : Bool} {r : Request} {act : Well → WellRecord → State → State × Reply}
    {c : Instr} {s : State} (h : exec c s = plainRequest r (onWell changing r.tag r.arg act) s)
    (words : s.port.words = []) : OnWell changing r c s := ⟨act, h.trans (plainRequest_taken words)⟩

theorem wellRequests_onWell {r : Request} {c : Instr} {s : State} (h : c ∈ wellRequests r)
    (words : s.port.words = []) : ∃ changing, OnWell changing r c s := by
  simp only [wellRequests, List.mem_cons, List.not_mem_nil, or_false] at h
  rcases h with rfl | rfl | rfl | rfl | rfl | rfl
  · exact ⟨true, plainRequest_onWell (exec_retire r s) words⟩
  · exact ⟨false, plainRequest_onWell (exec_claim r s) words⟩
  · exact ⟨false, plainRequest_onWell (exec_release r s) words⟩
  · exact ⟨true, plainRequest_onWell (exec_modeRequest r s) words⟩
  · exact ⟨true, plainRequest_onWell (exec_sample r s) words⟩
  · exact ⟨true, plainRequest_onWell (exec_purge r s) words⟩

theorem amend_onWell {r : Request} {s : State} (tag : r.tag ≠ 0)
    (h : amendWordsRefusal r.field s.port.words.length = none) : OnWell true r (.amend r) s := by
  refine ⟨amendWell r.field s.port.words r.value r.tag, ?_⟩
  rw [exec_amend_taken h, show amend r s.port.words = _ from funext fun t => if_neg tag]

theorem amendWordsRefusal_plain {r : Request} (h : ¬ NamesWide r) : amendWordsRefusal r.field 0 = none := by
  simp only [NamesWide, not_or] at h
  rw [amendWordsRefusal_eq, if_neg h.1, if_neg h.2, if_pos rfl]

theorem members_onWell {add : Bool} {r : Request} {c : Instr} {s : State} (tag : r.tag ≠ 0)
    (words : s.port.words = []) (h : exec c s = plainRequest r (changeMembers add r) s) : OnWell true r c s := by
  refine plainRequest_onWell (act := memberWell add r) ?_ words
  rw [h, show changeMembers add r = _ from funext fun t => if_neg tag]

theorem recordRequests_onWell {r : Request} {c : Instr} {s : State} (h : c ∈ recordRequests r) (tag : r.tag ≠ 0)
    (wide : ¬ NamesWide r) (words : s.port.words = []) : ∃ changing, OnWell changing r c s := by
  simp only [recordRequests, List.mem_cons, List.not_mem_nil, or_false] at h
  rcases h with rfl | rfl | rfl | rfl | rfl
  · refine ⟨false, plainRequest_onWell (act := lookupWell r.field r.tag) ?_ words⟩
    rw [exec_lookup, show lookup r = _ from funext fun t => if_neg tag]
  · exact ⟨true, amend_onWell tag (by rw [words]; exact amendWordsRefusal_plain wide)⟩
  · exact ⟨true, members_onWell tag words (exec_setMembers r s)⟩
  · exact ⟨true, members_onWell tag words (exec_clearMembers r s)⟩
  · refine ⟨false, plainRequest_onWell (act := ackWellRequest r) ?_ words⟩
    rw [exec_ack, show acknowledge r = _ from funext fun t => if_neg tag]

/-! ### What the checks of R5 answer -/

theorem OnWell.notFound {changing : Bool} {r : Request} {c : Instr} {s : State} (h : OnWell changing r c s)
    (none : resolveWell r.tag s = none) : exec c s = .next (s.answered r .notFound r.tag 0) := by
  obtain ⟨act, e⟩ := h
  rw [e, requestTaken_answered (onWell_notFound none)]
  rfl

theorem OnWell.claimed {r : Request} {c : Instr} {s : State} {w : Well} {x : Slot} {h : Half}
    (on : OnWell true r c s) (reaches : s.Reaches r.tag w x) (held : x.record.claim = some h) (other : r.arg ≠ h) :
    exec c s = .next (s.answered r .claimed r.tag (h.setWidth 48)) := by
  obtain ⟨act, e⟩ := on
  have refused : ¬ x.record.Admits r.arg := by simp [WellRecord.Admits, held, Ne.symm other]
  rw [e, requestTaken_answered (onWell_claimed (Reaches.congr rfl rfl reaches) refused)]
  simp only [claimHolder, held, holderValue]

theorem OnWell.damaged {changing : Bool} {r : Request} {c : Instr} {s : State} {w : Well} {x : Slot}
    (on : OnWell changing r c s) (found : resolveWell r.tag s = some w) (hx : s.well? w = some x)
    (damage : x.intact = false) :
    exec c s = .next (fill (answerOf r .damaged r.tag 0) (freeDamaged w (closePort (advance s)))) := by
  obtain ⟨act, e⟩ := on
  have freed : onWell changing r.tag r.arg act (closePort (advance s)) = _ :=
    onWell_damaged (s := closePort (advance s)) found hx damage
  rw [e, requestTaken, freed]
  rfl

/-- Settles O19: every such request goes through the checks of R5, and tag 0 is refused there. -/
theorem unresolvedTagsNotFound : Obligations.UnresolvedTagsNotFound := by
  intro r s unresolved words
  have none := resolveWell_unresolved unresolved
  refine ⟨fun c hc => ?_, fun tag wide c hc => ?_⟩
  · obtain ⟨_, on⟩ := wellRequests_onWell hc words
    exact on.notFound none
  · obtain ⟨_, on⟩ := recordRequests_onWell hc tag wide words
    exact on.notFound none

/-- A tag that resolves to a well record is not 0 (R4). -/
theorem tag_ne_zero_of_resolveWell {tag : Half} {s : State} {w : Well} (h : resolveWell tag s = some w) : tag ≠ 0 := by
  rintro rfl
  cases h

/-- Settles O21: the claim is tested before the request acts. -/
theorem claimsGuardChanges : Obligations.ClaimsGuardChanges := by
  intro r s w x h reaches held other words c hc
  have tag := tag_ne_zero_of_resolveWell reaches.1
  have on : OnWell true r c s := by
    simp only [List.mem_cons, List.not_mem_nil, or_false] at hc
    rcases hc with (rfl | rfl | rfl | rfl | rfl | rfl) | ⟨wide, rfl⟩
    · exact plainRequest_onWell (exec_retire r s) words
    · exact plainRequest_onWell (exec_modeRequest r s) words
    · exact plainRequest_onWell (exec_sample r s) words
    · exact plainRequest_onWell (exec_purge r s) words
    · exact members_onWell tag words (exec_setMembers r s)
    · exact members_onWell tag words (exec_clearMembers r s)
    · exact amend_onWell tag (by rw [words]; exact amendWordsRefusal_plain wide)
  exact on.claimed reaches held other

/-! ### Damaged records -/

theorem FaultUnit.written_shows (k : FaultKind) (tag : Nat) (detail : Half) (f : FaultUnit) :
    (f.written k tag detail).first = some { kind := k, tag := tag, detail := detail } ∨
    ∀ i, k.bit.getLsbD i = true → (f.written k tag detail).further.getLsbD i = true := by
  unfold FaultUnit.written
  split
  · exact .inl rfl
  · exact .inr fun i set => by simp [set]

/-- A damaged record is gone from the table and the index, its report stands, and FATAL severity leaves SAFE (R19). -/
theorem freeDamaged_freed {w : Well} {s : State} {x : Slot} (hx : s.well? w = some x) :
    (freeDamaged w s).record? w = none ∧ (∀ p ∈ (freeDamaged w s).index, p ≠ (w.tag, w.slot)) ∧
    (s.settings.severity.recordCheck ≠ .ignored →
      (freeDamaged w s).faults.first =
        some { kind := .recordCheck, tag := w.tag, detail := BitVec.ofNat 16 w.slot } ∨
      (freeDamaged w s).faults.further.getLsbD 10 = true) ∧
    (s.settings.severity.recordCheck = .fatal → (freeDamaged w s).device.state = .safe) := by
  obtain ⟨gone, unindexed, _⟩ := freeWell_gone hx
  have settings : (freeWell w s).settings = s.settings := (freeWell_tame w s).settings
  have severity : severityOf (freeWell w s).settings.severity .recordCheck = s.settings.severity.recordCheck := by
    rw [settings]; rfl
  refine ⟨(reportFault_marks _ _ _ _).gone w gone, ?_, fun reported => ?_, fun fatal => ?_⟩
  · rw [freeDamaged, (reportFault_queue _ _ _ _).2.2]
    exact unindexed
  · rw [freeDamaged, reportFault_faults _ _ _ _ (by rw [severity]; exact reported)]
    exact (FaultUnit.written_shows _ _ _ _).imp id fun shows => shows 10 rfl
  · exact reportFault_fatal _ _ _ _ (severity.trans fatal)

/-- Settles O20: each such request finds the damage in the checks of R5. -/
theorem damagedRecordsAreFreed : Obligations.DamagedRecordsAreFreed := by
  intro r s w x c found hx damage request
  have on : ∃ changing, OnWell changing r c s := by
    rcases request with ⟨words, well | ⟨tag, wide, record⟩⟩ | ⟨tag, rfl, fits⟩
    · exact wellRequests_onWell well words
    · exact recordRequests_onWell record tag wide words
    · refine ⟨true, amend_onWell tag ?_⟩
      rcases fits with ⟨field, count⟩ | ⟨field, count⟩ <;> rw [field, count] <;> rfl
  obtain ⟨_, on⟩ := on
  obtain ⟨gone, unindexed, report, fatal⟩ := freeDamaged_freed (s := closePort (advance s)) hx
  have tame := freeDamaged_tame w (closePort (advance s))
  refine ⟨_, on.damaged found hx damage, gone, unindexed, ?_, ⟨tame.settings, tame.time, tame.pending⟩, report, fatal⟩
  rw [fill_port, tame.port]
  rfl

/-! ### Claims -/

/-- A request that reaches a well, passes its claim when it is a changing one, and acts there. -/
theorem requestTaken_reaches {changing : Bool} {r : Request} {act : Well → WellRecord → State → State × Reply}
    {s : State} {w : Well} {x : Slot} (reaches : s.Reaches r.tag w x)
    (admits : changing = true → x.record.Admits r.arg) :
    requestTaken r (onWell changing r.tag r.arg act) s = requestTaken r (act w x.record) s := by
  have acts : onWell changing r.tag r.arg act (closePort (advance s)) = _ :=
    onWell_reaches (s := closePort (advance s)) reaches admits
  rw [requestTaken, acts]
  rfl

/-- An intact record written: its slot holds the new record, and nothing else changes. -/
theorem writeRecord_intact {s : State} {w : Well} {x : Slot} (ordered : s.SlotsOrdered) (hx : s.well? w = some x)
    (intact : x.intact = true) (f : WellRecord → WellRecord) :
    writeRecord f w s = s.withSlot w { x with record := f x.record } := by
  rw [writeRecord_withSlot ordered hx, Slot.write, ← intact]

theorem setClaim_intact {c : Option Half} {s : State} {w : Well} {x : Slot} (ordered : s.SlotsOrdered)
    (hx : s.well? w = some x) (intact : x.intact = true) :
    setClaim c w s = s.withSlot w { x with record := { x.record with claim := c } } :=
  writeRecord_intact ordered hx intact _

theorem claimWell_free {q : WellRecord} (r : Request) (w : Well) (s : State) (free : q.claim = none) :
    claimWell r w q s = (setClaim (some r.arg) w s, done r.tag 0) := by
  simp only [claimWell, free]

theorem claimWell_held {q : WellRecord} {h : Half} (r : Request) (w : Well) (s : State) (held : q.claim = some h) :
    claimWell r w q s = (s,
      { status := if h = r.arg then .heldByYou else .heldByOther, tag := r.tag, value := holderValue h }) := by
  simp only [claimWell, held]
  split <;> rfl

/-- Settles O35, by the claim that stands. -/
theorem claimTestsAndSets : Obligations.ClaimTestsAndSets := by
  intro r s w x ordered reaches words
  have ⟨_, hx, intact⟩ := reaches
  have taken : exec (.claim r) s = .next (requestTaken r (claimWell r w x.record) s) := by
    rw [exec_claim, plainRequest_taken words, requestTaken_reaches reaches (fun e => by cases e)]
  rw [taken]
  refine ⟨fun free => ?_, fun h held => ⟨fun mine => ?_, fun other => ?_⟩⟩
  · rw [requestTaken, claimWell_free r w _ free, setClaim_intact (s := closePort (advance s)) ordered hx intact]
    rfl
  · rw [requestTaken_answered (claimWell_held r w _ held), if_pos mine]
    rfl
  · rw [requestTaken_answered (claimWell_held r w _ held), if_neg other]
    rfl

theorem releaseAllowed_iff (r : Request) (h : Half) :
    releaseAllowed r h = true ↔ if r.mask.getLsbD 0 then r.arg = 0 else r.arg = h := by
  unfold releaseAllowed forced
  split <;> simp

theorem releaseWell_free {q : WellRecord} (r : Request) (w : Well) (s : State) (free : q.claim = none) :
    releaseWell r w q s = (s, refuse .absent r.tag) := by
  simp only [releaseWell, free]

theorem releaseWell_held {q : WellRecord} {h : Half} (r : Request) (w : Well) (s : State) (held : q.claim = some h) :
    releaseWell r w q s = if releaseAllowed r h then (setClaim none w s, done r.tag (holderValue h))
      else (s, { status := .claimed, tag := r.tag, value := holderValue h }) := by
  simp only [releaseWell, held]

/-- Settles O36, by the claim that stands and the holder named. -/
theorem releaseClearsClaim : Obligations.ReleaseClearsClaim := by
  intro r s w x ordered reaches words
  have ⟨_, hx, intact⟩ := reaches
  have taken : exec (.release r) s = .next (requestTaken r (releaseWell r w x.record) s) := by
    rw [exec_release, plainRequest_taken words, requestTaken_reaches reaches (fun e => by cases e)]
  rw [taken]
  simp only [← releaseAllowed_iff]
  refine ⟨fun free => ?_, fun h held => ⟨fun allowed => ?_, fun refused => ?_⟩⟩
  · rw [requestTaken_answered (releaseWell_free r w _ free)]
    rfl
  · rw [requestTaken, releaseWell_held r w _ held, if_pos allowed,
      setClaim_intact (s := closePort (advance s)) ordered hx intact]
    rfl
  · rw [requestTaken_answered ((releaseWell_held r w _ held).trans (if_neg refused))]
    rfl

end Sys2Proof.Machine
end

