-- ==== Sys2Proof/Proofs/Fields.lean ====
section
/-! PROOF of LookupAnswersWellFields and LookupAnswersDeviceFields, and what every request on a field rests on: the code
of a field (R179), and the answer each code brings. -/

namespace Sys2Proof.Machine

/-! ### The codes of the fields -/

/-- The FIELD code of a field of a well record (R179). -/
def WellField.code (f : WellField) : Nat := wellFields.idxOf f

/-- The FIELD code of a field of the device record (R179). -/
def DeviceField.code (f : DeviceField) : Nat := wellFields.length + deviceFields.idxOf f

theorem fieldOfCode_well {code : Byte} {f : WellField} (h : code.toNat = f.code) :
    fieldOfCode code = some (.well f) := by
  unfold fieldOfCode
  rw [h]
  cases f <;> rfl

theorem fieldOfCode_device {code : Byte} {f : DeviceField} (h : code.toNat = f.code) :
    fieldOfCode code = some (.device f) := by
  unfold fieldOfCode
  rw [h]
  cases f <;> rfl

/-- A list without repeats holds at a place what stands first there. -/
theorem idxOf_of_getElem? {α : Type} [DecidableEq α] {l : List α} (distinct : l.Nodup) {n : Nat} {a : α}
    (h : l[n]? = some a) : l.idxOf a = n := by
  obtain ⟨bound, rfl⟩ := List.getElem?_eq_some_iff.1 h
  exact distinct.idxOf_getElem n bound

/-- Every FIELD code names a field of a well record, one of the device record, or none (R179). -/
theorem fieldOfCode_cases (code : Byte) :
    (∃ f : WellField, fieldOfCode code = some (.well f) ∧ code.toNat = f.code) ∨
    (∃ f : DeviceField, fieldOfCode code = some (.device f) ∧ code.toNat = f.code) ∨
    fieldOfCode code = none ∧ 70 ≤ code.toNat := by
  have wells : wellFields.Nodup := by decide
  have devices : deviceFields.Nodup := by decide
  unfold fieldOfCode
  cases well : wellFields[code.toNat]? with
  | some f => exact .inl ⟨f, rfl, (idxOf_of_getElem? wells well).symm⟩
  | none =>
    have above : wellFields.length ≤ code.toNat := List.getElem?_eq_none_iff.1 well
    cases device : deviceFields[code.toNat - wellFields.length]? with
    | some f =>
      refine .inr (.inl ⟨f, rfl, ?_⟩)
      rw [DeviceField.code, idxOf_of_getElem? devices device]
      omega
    | none =>
      have beyond : deviceFields.length ≤ code.toNat - wellFields.length := List.getElem?_eq_none_iff.1 device
      refine .inr (.inr ⟨rfl, ?_⟩)
      simp only [wellFields, deviceFields, List.length_append, List.length_cons, List.length_nil] at above beyond
      omega

theorem WellField.code_bound (f : WellField) : f.code < 39 := by
  cases f <;> decide

theorem DeviceField.code_bound (f : DeviceField) : 39 ≤ f.code := by
  cases f <;> decide

/-! ### LOOKUP of a well record -/

theorem fieldValue_code (q : WellRecord) (f : WellField) : fieldValue q f.code = some (wellAnswer q f) := by
  cases f <;> rfl

theorem fieldValue_none (q : WellRecord) {n : Nat} (h : 39 ≤ n) : fieldValue q n = none := by
  unfold fieldValue
  split <;> first | omega | rfl

/-- LOOKUP answers by the code of the field (R183). -/
theorem lookupField_eq (r : Request) (field : Byte) (tag : Half) (q : WellRecord) :
    answerTo r (lookupField field tag q) = fieldAnswer r tag field q := by
  unfold lookupField fieldAnswer
  rcases fieldOfCode_cases field with ⟨f, named, code⟩ | ⟨f, named, code⟩ | ⟨named, code⟩ <;> rw [named]
  · rw [code, fieldValue_code]
    dsimp only
    cases wellAnswer q f <;> rfl
  · rw [fieldValue_none q (by rw [code]; exact f.code_bound)]
    rfl
  · rw [fieldValue_none q (by omega)]
    rfl

/-- Settles O27: the request reaches the record, and answers its field by the code. -/
theorem lookupAnswersWellFields : Obligations.LookupAnswersWellFields := by
  intro r s w x reaches words
  have tag := tag_ne_zero_of_resolveWell reaches.1
  rw [exec_lookup, plainRequest_taken words, show lookup r = _ from funext fun t => if_neg tag,
    requestTaken_reaches reaches (fun e => by cases e), requestTaken, ← lookupField_eq]
  rfl

/-! ### LOOKUP of the device record -/

theorem deviceAnswer_code (s : State) (arg : Half) (f : DeviceField) :
    deviceAnswer s arg f = deviceValue s arg.toNat f.code := by
  cases f
  case wakeEnable =>
    show Except.ok (single (if s.settings.wakeEnable then 1 else 0)) =
      Except.ok (if s.settings.wakeEnable then 1 else 0)
    cases s.settings.wakeEnable <;> rfl
  case severity =>
    show deviceAnswer s arg .severity = deviceValue s arg.toNat 56
    simp only [deviceAnswer, deviceValue, faultKindOfCode]
    cases faultKinds[arg.toNat]? <;> rfl
  case blend =>
    show presentOr (s.blend.blend.map _) = deviceValue s arg.toNat 60
    simp only [deviceValue]
    cases s.blend.blend <;> rfl
  case sequencer =>
    show Except.ok (parts _ (tagOr65535 s.seq.phase.current?) _) = deviceValue s arg.toNat 64
    simp only [deviceValue]
    cases s.seq.phase.current? <;> rfl
  case moves =>
    show movesAnswer s arg.toNat = deviceValue s arg.toNat 65
    simp only [movesAnswer, deviceValue]
    cases s.moves.holders[arg.toNat - 1]? <;> rfl
  case firstFault =>
    show presentOr (s.faults.first.map _) = deviceValue s arg.toNat 66
    simp only [deviceValue]
    cases s.faults.first <;> rfl
  all_goals rfl

theorem deviceValue_none (s : State) (arg : Nat) {n : Nat} (h : n < 39 ∨ 70 ≤ n) :
    deviceValue s arg n = .error .badField := by
  unfold deviceValue
  split <;> first | omega | rfl

/-- Settles O28: the answer of a field by the name is the answer by the code. -/
theorem lookupAnswersDeviceFields : Obligations.LookupAnswersDeviceFields := by
  intro r s tag words
  have act : lookup r (closePort (advance s)) = (closePort (advance s), lookupDevice r (closePort (advance s))) :=
    if_pos tag
  have value (n : Nat) : deviceValue (closePort (advance s)) r.arg.toNat n = deviceValue s r.arg.toNat n := rfl
  rw [exec_lookup, plainRequest_taken words, requestTaken_answered act]
  unfold lookupDevice
  rcases fieldOfCode_cases r.field with ⟨f, named, code⟩ | ⟨f, named, code⟩ | ⟨named, code⟩ <;> simp only [named]
  · rw [deviceValue_none s _ (.inl (by rw [code]; exact f.code_bound)), tag]
    rfl
  · rw [deviceReply, deviceAnswer_code, value, ← code, tag]
    cases deviceValue s r.arg.toNat r.field.toNat <;> rfl
  · rw [deviceValue_none s _ (.inr code), tag]
    rfl

end Sys2Proof.Machine
end

