-- ==== Sys2Proof/Proofs/WellFieldWrites.lean ====
section
/-! PROOF of AmendWritesPlainFields and AmendWritesWideFields. A write of one field is described once, whatever request
makes it: with a new record the slot takes it and the field is answered, and with a refusal only the port changes. -/

namespace Sys2Proof.Machine

/-! ### Writes of one field -/

/-- A write that leaves the target writes the slot, and brings the alert lines with it for an enable (R12, R80). -/
theorem writeWellField_ok {s : State} {w : Well} {x : Slot} {q : WellRecord} {v : Wide} (f : WellField) (tag : Half)
    (ordered : s.SlotsOrdered) (hx : s.well? w = some x) (intact : x.intact = true)
    (target : q.valveTarget = x.record.valveTarget) (answer : wellAnswer q f = some v) :
    writeWellField (.ok q) f tag w s = (afterFieldWrite f (s.withSlot w { x with record := q }), done tag v) := by
  have found : s.record? w = some x.record := by rw [State.record?, hx]; rfl
  have written : writeAndHand (fun _ => q) w s = s.withSlot w { x with record := q } := by
    rw [writeAndHand, found]
    exact (if_pos target).trans (writeRecord_intact ordered hx intact _)
  simp only [writeWellField, written, writtenReply, answer]

/-- The state after a request that has written a field of a well. -/
theorem requestTaken_written {r : Request} {act : State → State × Reply} {s : State} {w : Well} {x : Slot}
    {q : WellRecord} {f : WellField} {v : Wide} (ordered : s.SlotsOrdered) (hx : s.well? w = some x)
    (intact : x.intact = true)
    (h : act (closePort (advance s)) = writeWellField (.ok q) f r.tag w (closePort (advance s)))
    (target : q.valveTarget = x.record.valveTarget) (answer : wellAnswer q f = some v) :
    requestTaken r act s = (afterFieldWrite f (s.withSlot w { x with record := q })).answered r .done r.tag v := by
  rw [requestTaken, h, writeWellField_ok (s := closePort (advance s)) f r.tag ordered hx intact target answer]
  unfold afterFieldWrite
  split <;> rfl

/-- The state after a request whose write of a field of a well is refused. -/
theorem requestTaken_unwritten {r : Request} {act : State → State × Reply} {s : State} {w : Well} {f : WellField}
    {e : Status} (h : act (closePort (advance s)) = writeWellField (.error e) f r.tag w (closePort (advance s))) :
    requestTaken r act s = s.answered r e r.tag 0 := requestTaken_answered h

/-! ### AMEND of a field of a well -/

/-- An AMEND that fits its words, reaches a well and passes its claim. -/
theorem exec_amend_reaches {r : Request} {s : State} {w : Well} {x : Slot} (reaches : s.Reaches r.tag w x)
    (admits : x.record.Admits r.arg) (fits : amendWordsRefusal r.field s.port.words.length = none) :
    exec (.amend r) s = .next (requestTaken r (amendWell r.field s.port.words r.value r.tag w x.record) s) := by
  have tag := tag_ne_zero_of_resolveWell reaches.1
  rw [exec_amend_taken fits, show amend r s.port.words = _ from funext fun t => if_neg tag,
    requestTaken_reaches reaches fun _ => admits]

theorem amendWell_field {field : Byte} {f : WellField} (named : fieldOfCode field = some (.well f)) (words : List Half)
    (value tag : Half) (w : Well) (r : WellRecord) (s : State) : amendWell field words value tag w r s =
      writeWellField (amendedRecord s.device.state words value r f) f tag w s := by
  simp only [amendWell, named]

theorem amendWell_noField {field : Byte} (none : ∀ f, fieldOfCode field ≠ some (.well f)) (words : List Half)
    (value tag : Half) (w : Well) (r : WellRecord) (s : State) :
    amendWell field words value tag w r s = (s, refuse .badField tag) := by
  unfold amendWell
  split
  · rename_i f named
    exact absurd named (none f)
  · rfl
  · rfl

/-- An accepted AMEND of a field that leaves the target (R184). -/
theorem exec_amend_written {r : Request} {s : State} {w : Well} {x : Slot} {f : WellField} {q : WellRecord} {v : Wide}
    (ordered : s.SlotsOrdered) (reaches : s.Reaches r.tag w x) (admits : x.record.Admits r.arg)
    (fits : amendWordsRefusal r.field s.port.words.length = none) (named : fieldOfCode r.field = some (.well f))
    (new : amendedRecord s.device.state s.port.words r.value x.record f = .ok q)
    (target : q.valveTarget = x.record.valveTarget) (answer : wellAnswer q f = some v) :
    exec (.amend r) s =
      .next ((afterFieldWrite f (s.withSlot w { x with record := q })).answered r .done r.tag v) := by
  rw [exec_amend_reaches reaches admits fits]
  refine congrArg _ (requestTaken_written ordered reaches.2.1 reaches.2.2 ?_ target answer)
  rw [← new]
  exact amendWell_field named _ _ _ _ _ _

/-- A refused AMEND of a field of a well (R184). -/
theorem exec_amend_unwritten {r : Request} {s : State} {w : Well} {x : Slot} {f : WellField} {e : Status}
    (reaches : s.Reaches r.tag w x) (admits : x.record.Admits r.arg)
    (fits : amendWordsRefusal r.field s.port.words.length = none) (named : fieldOfCode r.field = some (.well f))
    (new : amendedRecord s.device.state s.port.words r.value x.record f = .error e) :
    exec (.amend r) s = .next (s.answered r e r.tag 0) := by
  rw [exec_amend_reaches reaches admits fits]
  refine congrArg _ (requestTaken_unwritten (w := w) (f := f) ?_)
  rw [← new]
  exact amendWell_field named _ _ _ _ _ _

/-! ### Plain fields -/

theorem single_toNat (v : Half) : single v.toNat = v.setWidth 48 := by
  rw [single, Nat.mod_eq_of_lt v.isLt, BitVec.ofNat_toNat]

/-- A set operand carried back into VALUE (R179). -/
theorem setWidth_back {n : Nat} {v : Half} (h : v.toNat < 2 ^ n) : (v.setWidth n).setWidth 48 = v.setWidth 48 := by
  apply BitVec.eq_of_toNat_eq
  simp only [BitVec.toNat_setWidth, Nat.mod_eq_of_lt h]

theorem inSet_ok {n : Nat} {v : Half} (h : v.toNat < 2 ^ n) : inSet n v = .ok (v.setWidth n) := if_pos h

theorem inSet_error {n : Nat} {v : Half} (h : ¬ v.toNat < 2 ^ n) : inSet n v = .error .badValue := if_neg h

/-- What an AMEND of a plain field does: the value within the bounds is written and answered, any other is refused. -/
structure AmendsPlain (fld : WellField) (lo hi : Nat) (f : Nat → WellRecord → WellRecord) : Prop where
  quiet   : fld.isAlertEnable = false
  target  : ∀ n q, (f n q).valveTarget = q.valveTarget
  new     : ∀ d ws v q, lo ≤ v.toNat ∧ v.toNat ≤ hi → amendedRecord d ws v q fld = .ok (f v.toNat q)
  refused : ∀ d ws v q, ¬ (lo ≤ v.toNat ∧ v.toNat ≤ hi) → amendedRecord d ws v q fld = .error .badValue
  answer  : ∀ (v : Half) q, v.toNat ≤ hi → wellAnswer (f v.toNat q) fld = some (v.setWidth 48)

/-- A field whose value is a number in a range. -/
theorem amendsPlain_of_range {fld : WellField} {lo hi : Nat} {f : Nat → WellRecord → WellRecord}
    (quiet : fld.isAlertEnable = false := by rfl)
    (target : ∀ n q, (f n q).valveTarget = q.valveTarget := by intros; rfl)
    (new : ∀ d ws v q, amendedRecord d ws v q fld = (inRange lo hi v).map fun n => f n q := by intros; rfl)
    (answer : ∀ n q, wellAnswer (f n q) fld = some (single n) := by intros; rfl) : AmendsPlain fld lo hi f where
  quiet := quiet
  target := target
  new d ws v q h := by rw [new, inRange, if_pos h]; rfl
  refused d ws v q h := by rw [new, inRange, if_neg h]; rfl
  answer v q _ := by rw [answer, single_toNat]

/-- A field whose value is a set of `n` members. -/
theorem amendsPlain_of_set {fld : WellField} {n hi : Nat} {f : Nat → WellRecord → WellRecord}
    (g : BitVec n → WellRecord → WellRecord) (bound : hi + 1 = 2 ^ n := by rfl)
    (quiet : fld.isAlertEnable = false := by rfl)
    (target : ∀ k q, (f k q).valveTarget = q.valveTarget := by intros; rfl)
    (fg : ∀ k q, f k q = g (BitVec.ofNat n k) q := by intros; rfl)
    (new : ∀ d ws v q, amendedRecord d ws v q fld = (inSet n v).map fun m => g m q := by intros; rfl)
    (answer : ∀ m q, wellAnswer (g m q) fld = some (m.setWidth 48) := by intros; rfl) :
    AmendsPlain fld 0 hi f where
  quiet := quiet
  target := target
  new d ws v q h := by
    rw [new, inSet_ok (by omega), fg, BitVec.ofNat_toNat]
    rfl
  refused d ws v q h := by
    rw [new, inSet_error (by omega)]
    rfl
  answer v q h := by rw [fg, BitVec.ofNat_toNat, answer, setWidth_back (by omega)]

/-- LAMP of a code (R179). -/
theorem lampOfCode_eq {n : Nat} (h : n ≤ 2) :
    lampOfCode n = some (if n = 0 then .off else if n = 1 then .on else .blink) := by
  interval_cases n <;> rfl

theorem lamp_amendsPlain : AmendsPlain .lamp 0 2
    (fun n r => { r with lamp := if n = 0 then .off else if n = 1 then .on else .blink }) where
  quiet := rfl
  target _ _ := rfl
  new d ws v q h := by simp only [amendedRecord, lampOfCode_eq h.2, named, Except.map]
  refused d ws v q h := by
    have none : lampOfCode v.toNat = none := by
      unfold lampOfCode
      split <;> first | omega | rfl
    simp only [amendedRecord, none, named, Except.map]
  answer v q h := by
    rw [← single_toNat]
    generalize v.toNat = n at h
    interval_cases n <;> rfl

/-- Each plain field is the field of its code, and an AMEND treats it as such (R11, section 1.3). -/
theorem plainField_amends {n lo hi : Nat} {f : Nat → WellRecord → WellRecord} (h : plainField n = some (lo, hi, f)) :
    ∃ fld : WellField, fld.code = n ∧ AmendsPlain fld lo hi f := by
  unfold plainField at h
  split at h <;> cases h
  · exact ⟨.step, rfl, amendsPlain_of_range⟩
  · exact ⟨.o2Ceiling, rfl, amendsPlain_of_range⟩
  · exact ⟨.ch4Floor, rfl, amendsPlain_of_range⟩
  · exact ⟨.vacLimit, rfl, amendsPlain_of_range⟩
  · exact ⟨.tempLimit, rfl, amendsPlain_of_range⟩
  · exact ⟨.surveyInterval, rfl, amendsPlain_of_range⟩
  · exact ⟨.debounce, rfl, amendsPlain_of_range⟩
  · exact ⟨.lamp, rfl, lamp_amendsPlain⟩
  · exact ⟨.detect, rfl, amendsPlain_of_set fun m r => { r with detect := m }⟩
  · exact ⟨.options, rfl, amendsPlain_of_set fun m r => { r with options := m }⟩
  · exact ⟨.wakeSet, rfl, amendsPlain_of_set fun m r => { r with wakeSet := m }⟩

theorem plainField_not_wide {r : Request} {x : Nat × Nat × (Nat → WellRecord → WellRecord)}
    (h : plainField r.field.toNat = some x) : ¬ NamesWide r := by
  rintro (e | e) <;> rw [e] at h <;> cases h

/-- The fields of class E and L, but for the limits, the target and the wide fields, take no AMEND (R10, R11). -/
theorem amendedRecord_badField {f : WellField} (h : f.code ≤ 1 ∨ f.code = 19 ∨ f.code = 20 ∨ 22 ≤ f.code)
    (d : DeviceState) (ws : List Half) (v : Half) (r : WellRecord) :
    amendedRecord d ws v r f = .error .badField := by
  cases f <;> first | rfl | exact absurd h (by decide)

/-- Settles O29, by the field the code names. -/
theorem amendWritesPlainFields : Obligations.AmendWritesPlainFields := by
  intro r s w x ordered reaches admits words
  have fits (wide : ¬ NamesWide r) : amendWordsRefusal r.field s.port.words.length = none := by
    rw [words]
    exact amendWordsRefusal_plain wide
  refine ⟨fun lo hi f plain => ?_, fun field bound => ?_, fun field bound => ?_, fun field bound => ?_, fun field => ?_⟩
  · obtain ⟨fld, code, amends⟩ := plainField_amends plain
    have named := fieldOfCode_well code.symm
    have fit := fits (plainField_not_wide plain)
    refine ⟨fun range => ?_, fun out => exec_amend_unwritten reaches admits fit named (amends.refused _ _ _ _ out)⟩
    have written := exec_amend_written ordered reaches admits fit named (amends.new _ _ _ _ range) (amends.target _ _)
      (amends.answer _ _ range.2)
    rw [afterFieldWrite, amends.quiet] at written
    exact written
  · exact exec_amend_written (f := .enableA) ordered reaches admits (fits (by rw [NamesWide, field]; decide))
      (by rw [field]; rfl) (by rw [amendedRecord, inSet_ok (n := 8) bound]; rfl) rfl
      (congrArg some (setWidth_back bound))
  · exact exec_amend_written (f := .enableB) ordered reaches admits (fits (by rw [NamesWide, field]; decide))
      (by rw [field]; rfl) (by rw [amendedRecord, inSet_ok (n := 8) bound]; rfl) rfl
      (congrArg some (setWidth_back bound))
  · have out : ¬ r.value.toNat < 2 ^ 8 := by omega
    rcases field with field | field
    · exact exec_amend_unwritten (f := .enableA) reaches admits (fits (by rw [NamesWide, field]; decide))
        (by rw [field]; rfl) (by rw [amendedRecord, inSet_error out]; rfl)
    · exact exec_amend_unwritten (f := .enableB) reaches admits (fits (by rw [NamesWide, field]; decide))
        (by rw [field]; rfl) (by rw [amendedRecord, inSet_error out]; rfl)
  · have code : r.field.toNat ≤ 1 ∨ r.field.toNat = 19 ∨ r.field.toNat = 20 ∨ 22 ≤ r.field.toNat := by
      rcases field with low | e | e | high
      · exact .inl low
      · exact .inr (.inl (by rw [e]; rfl))
      · exact .inr (.inr (.inl (by rw [e]; rfl)))
      · exact .inr (.inr (.inr high))
    have fit := fits (by rintro (e | e) <;> rw [e] at code <;> revert code <;> decide)
    rcases fieldOfCode_cases r.field with ⟨f, named, e⟩ | ⟨f, named, _⟩ | ⟨named, _⟩
    · exact exec_amend_unwritten reaches admits fit named (amendedRecord_badField (e ▸ code) _ _ _ _)
    all_goals
      rw [exec_amend_reaches reaches admits fit]
      exact congrArg _ (requestTaken_answered (amendWell_noField (by simp [named]) _ _ _ _ _ _))

/-! ### Wide fields -/

/-- The words of LOCATION, the first taken the most significant, part into easting and northing (R11). -/
theorem location_parts (a b c : Half) :
    (a ++ b ++ c).extractLsb' 24 24 = a ++ b.extractLsb' 8 8 ∧
    (a ++ b ++ c).extractLsb' 0 24 = b.extractLsb' 0 8 ++ c := by
  constructor <;> refine BitVec.eq_of_getLsbD_eq fun i hi => ?_ <;>
    rw [BitVec.getLsbD_extractLsb', BitVec.getLsbD_append, BitVec.getLsbD_append, BitVec.getLsbD_append,
      BitVec.getLsbD_extractLsb'] <;>
    grind

/-- A 48-bit value is its two halves joined. -/
theorem halves_joined (v : Wide) : v.extractLsb' 24 24 ++ v.extractLsb' 0 24 = v :=
  (BitVec.extractLsb'_append_extractLsb'_eq_extractLsb' (x := v) (show 24 = 0 + 24 from rfl)).trans
    BitVec.extractLsb'_eq_self

/-- Settles O31: the held words fit, and are joined to VALUE. -/
theorem amendWritesWideFields : Obligations.AmendWritesWideFields := by
  intro r s w x ordered reaches admits
  refine ⟨fun upper field words => ?_, fun a b field words => ?_⟩
  · exact exec_amend_written (f := .totalDraw) ordered reaches admits (by rw [field, words]; rfl) (by rw [field]; rfl)
      (by rw [words]; rfl) rfl rfl
  · obtain ⟨easting, northing⟩ := location_parts a b r.value
    exact exec_amend_written (f := .location) ordered reaches admits (by rw [field, words]; rfl) (by rw [field]; rfl)
      (by rw [words, amendedRecord, amendedLocation]; simp only [easting, northing]) rfl
      (congrArg some (by rw [← easting, ← northing, halves_joined]))

end Sys2Proof.Machine
end

