-- ==== Sys2Proof/Proofs/SettingWrites.lean ====
section
/-! PROOF of AmendWritesSettings and SetAndClearChangeMembers. A write of one setting is described once, as the write of
one field of a well is; MOVE_SLOTS rests on what the grant rule does with the two lists of the move scheduler. -/

namespace Sys2Proof.Machine

/-! ### Grants -/

/-- What a run of the grant rule leaves: the wells keep their order over both lists, the holders stay, and in RUN it
ends with an empty wait list or no slot to grant (R113). -/
structure Granted (s t : State) : Prop where
  settings : t.settings = s.settings
  state    : t.device.state = s.device.state
  holders  : s.moves.holders <+: t.moves.holders
  inLists  : t.inLists = s.inLists
  still    : s.device.state ≠ .run → t.moves = s.moves
  ended    : s.device.state = .run → t.moves.waiting = [] ∨ s.settings.moveSlots ≤ t.moves.holders.length

theorem grantLoop_granted (ws : List Well) (s : State) (h : s.moves.waiting = ws) : Granted s (grantLoop ws s) := by
  induction ws generalizing s with
  | nil => exact ⟨rfl, rfl, List.prefix_refl _, rfl, fun _ => rfl, fun _ => .inl h⟩
  | cons w ws ih =>
    unfold grantLoop
    split
    · rename_i slot
      have run : s.device.state = .run := by
        simp only [State.slotOpen, Bool.and_eq_true, decide_eq_true_eq] at slot
        exact slot.1
      have rest := ih (grant w ws s) rfl
      refine ⟨rest.settings, rest.state, (List.prefix_append _ _).trans rest.holders, rest.inLists.trans ?_,
        fun out => absurd run out, fun _ => rest.ended run⟩
      show (s.moves.holders ++ [_]).map _ ++ ws = s.moves.holders.map _ ++ s.moves.waiting
      simp [h]
    · rename_i shut
      refine ⟨rfl, rfl, List.prefix_refl _, rfl, fun _ => rfl, fun run => .inr ?_⟩
      simpa [State.slotOpen, run] using shut

theorem grantTest_granted (s : State) : Granted s (grantTest s) := grantLoop_granted _ s rfl

/-! ### Writes of one setting -/

theorem settingTaken_settings (f : DeviceField) (s : State) : (settingTaken f s).settings = s.settings := by
  unfold settingTaken
  split
  · rfl
  · rfl
  · exact (grantTest_calm s).settings
  all_goals rfl

/-- The state after a request on tag 0 that has written a setting. -/
theorem requestTaken_setting {r : Request} {act : State → State × Reply} {s : State} {f : DeviceField} {t : Settings}
    {v : Wide} (h : act (closePort (advance s)) = writeSetting (.ok t) f r.arg 0 (closePort (advance s)))
    (answer : ∀ u : State, u.settings = t → deviceAnswer u r.arg f = .ok v) :
    requestTaken r act s =
      fill (answerOf r .done 0 v) (settingTaken f { closePort (advance s) with settings := t }) := by
  have answered : deviceAnswer (settingTaken f { closePort (advance s) with settings := t }) r.arg f = .ok v :=
    answer _ (settingTaken_settings f _)
  rw [requestTaken, h]
  simp only [writeSetting, deviceReply, answered]
  rfl

/-- A changed alert enable brings the alert lines with it (R12, R80). -/
theorem answered_deviceEnable {f : DeviceField} (enable : settingTaken f = evalAlerts) (r : Request) (v : Wide)
    (t : Settings) (s : State) :
    fill (answerOf r .done 0 v) (settingTaken f { closePort (advance s) with settings := t }) =
      (State.alertsTaken { s with settings := t }).answered r .done 0 v := by
  rw [enable]
  rfl

/-- The state after a request on tag 0 whose write is refused. -/
theorem requestTaken_noSetting {r : Request} {act : State → State × Reply} {s : State} {f : DeviceField} {e : Status}
    (h : act (closePort (advance s)) = writeSetting (.error e) f r.arg 0 (closePort (advance s))) :
    requestTaken r act s = s.answered r e 0 0 := requestTaken_answered h

/-! ### AMEND on tag 0 -/

theorem exec_amend_device {r : Request} {s : State} (tag : r.tag = 0) (wide : ¬ NamesWide r)
    (words : s.port.words = []) : exec (.amend r) s = .next (requestTaken r (amendDevice r) s) := by
  rw [exec_amend_taken (by rw [words]; exact amendWordsRefusal_plain wide),
    show amend r s.port.words = _ from funext fun t => if_pos tag]

theorem amendDevice_field {r : Request} {f : DeviceField} (tag : r.tag = 0)
    (named : fieldOfCode r.field = some (.device f)) (s : State) :
    amendDevice r s = writeSetting (amendedSettings r.arg r.value s.settings f) f r.arg 0 s := by
  simp only [amendDevice, named, tag]

theorem amendDevice_noField {r : Request} (tag : r.tag = 0) (none : ∀ f, fieldOfCode r.field ≠ some (.device f))
    (s : State) : amendDevice r s = (s, refuse .badField 0) := by
  unfold amendDevice
  split
  · rename_i f named
    exact absurd named (none f)
  · rw [tag]
  · rw [tag]

/-- An accepted AMEND of a setting (R184). -/
theorem exec_amend_setting {r : Request} {s : State} {f : DeviceField} {t : Settings} {v : Wide} (tag : r.tag = 0)
    (wide : ¬ NamesWide r) (words : s.port.words = []) (named : fieldOfCode r.field = some (.device f))
    (new : amendedSettings r.arg r.value s.settings f = .ok t)
    (answer : ∀ u : State, u.settings = t → deviceAnswer u r.arg f = .ok v) : exec (.amend r) s =
      .next (fill (answerOf r .done 0 v) (settingTaken f { closePort (advance s) with settings := t })) := by
  rw [exec_amend_device tag wide words]
  exact congrArg _ (requestTaken_setting (by rw [← new]; exact amendDevice_field tag named _) answer)

/-- A refused AMEND of a setting (R184). -/
theorem exec_amend_noSetting {r : Request} {s : State} {f : DeviceField} {e : Status} (tag : r.tag = 0)
    (wide : ¬ NamesWide r) (words : s.port.words = []) (named : fieldOfCode r.field = some (.device f))
    (new : amendedSettings r.arg r.value s.settings f = .error e) :
    exec (.amend r) s = .next (s.answered r e 0 0) := by
  rw [exec_amend_device tag wide words]
  exact congrArg _ (requestTaken_noSetting (f := f) (by rw [← new]; exact amendDevice_field tag named _))

/-! ### Plain settings -/

/-- What an AMEND of a plain setting does: the value within the bounds is written and answered, any other is refused. -/
structure SetsPlain (fld : DeviceField) (lo hi : Nat) (f : Nat → Settings → Settings) : Prop where
  quiet   : ∀ s, settingTaken fld s = s
  new     : ∀ arg v t, lo ≤ v.toNat ∧ v.toNat ≤ hi → amendedSettings arg v t fld = .ok (f v.toNat t)
  refused : ∀ arg v t, ¬ (lo ≤ v.toNat ∧ v.toNat ≤ hi) → amendedSettings arg v t fld = .error .badValue
  answer  : ∀ arg (v : Half) t (u : State), v.toNat ≤ hi → u.settings = f v.toNat t →
    deviceAnswer u arg fld = .ok (v.setWidth 48)

/-- A setting that is a number in a range. -/
theorem setsPlain_of_range {fld : DeviceField} {lo hi : Nat} {f : Nat → Settings → Settings} (get : Settings → Nat)
    (quiet : ∀ s, settingTaken fld s = s := by intros; rfl)
    (new : ∀ arg v t, amendedSettings arg v t fld = (inRange lo hi v).map fun n => f n t := by intros; rfl)
    (gets : ∀ n t, get (f n t) = n := by intros; rfl)
    (answer : ∀ u arg, deviceAnswer u arg fld = .ok (single (get u.settings)) := by intros; rfl) :
    SetsPlain fld lo hi f where
  quiet := quiet
  new arg v t h := by rw [new, inRange, if_pos h]; rfl
  refused arg v t h := by rw [new, inRange, if_neg h]; rfl
  answer arg v t u _ e := by rw [answer, e, gets, single_toNat]

theorem wakeEnable_setsPlain : SetsPlain .wakeEnable 0 1 (fun n t => { t with wakeEnable := n == 1 }) where
  quiet _ := rfl
  new arg v t h := by rw [amendedSettings, inRange, if_pos h]; rfl
  refused arg v t h := by rw [amendedSettings, inRange, if_neg h]; rfl
  answer arg v t u h e := by
    rw [deviceAnswer, e, ← single_toNat]
    generalize v.toNat = n at h
    interval_cases n <;> rfl

/-- Each plain setting is the setting of its code, and an AMEND treats it as such (R16, section 1.4). -/
theorem plainSetting_sets {n lo hi : Nat} {f : Nat → Settings → Settings} (h : plainSetting n = some (lo, hi, f)) :
    ∃ fld : DeviceField, fld.code = n ∧ SetsPlain fld lo hi f := by
  unfold plainSetting at h
  split at h <;> cases h
  · exact ⟨.engineCh4Floor, rfl, setsPlain_of_range (·.engineCh4Floor)⟩
  · exact ⟨.permitMargin, rfl, setsPlain_of_range (·.permitMargin)⟩
  · exact ⟨.engineO2Limit, rfl, setsPlain_of_range (·.engineO2Limit)⟩
  · exact ⟨.permitHold, rfl, setsPlain_of_range (·.permitHold)⟩
  · exact ⟨.drawBudget, rfl, setsPlain_of_range (·.drawBudget)⟩
  · exact ⟨.engineIntake, rfl, setsPlain_of_range (·.engineIntake)⟩
  · exact ⟨.purgeTime, rfl, setsPlain_of_range (·.purgeTime)⟩
  · exact ⟨.analyserTimeout, rfl, setsPlain_of_range (·.analyserTimeout)⟩
  · exact ⟨.moveTimeout, rfl, setsPlain_of_range (·.moveTimeout)⟩
  · exact ⟨.moveBand, rfl, setsPlain_of_range (·.moveBand)⟩
  · exact ⟨.purgePulse, rfl, setsPlain_of_range (·.purgePulse)⟩
  · exact ⟨.lossThreshold, rfl, setsPlain_of_range (·.lossThreshold)⟩
  · exact ⟨.suspectInterval, rfl, setsPlain_of_range (·.suspectInterval)⟩
  · exact ⟨.wakeEnable, rfl, wakeEnable_setsPlain⟩

/-! ### Severities -/

theorem severityOf_withSeverity (t : SeverityTable) (x : Severity) (k : FaultKind) :
    severityOf (withSeverity t x k) k = x := by
  cases k <;> rfl

theorem severityOfCode_code {n : Nat} {x : Severity} (h : severityOfCode n = some x) : x.code = n := by
  unfold severityOfCode at h
  split at h <;> cases h <;> rfl

theorem severityOfCode_none {n : Nat} (h : 4 ≤ n) : severityOfCode n = none := by
  unfold severityOfCode
  split <;> first | omega | rfl

theorem amendedSettings_severity {arg v : Half} {k : FaultKind} {x : Severity}
    (kind : faultKindOfCode arg.toNat = some k) (value : severityOfCode v.toNat = some x) (t : Settings) :
    amendedSettings arg v t .severity = .ok { t with severity := withSeverity t.severity x k } := by
  simp only [amendedSettings, kind, value, named, Except.map]

theorem amendedSettings_noSeverity {arg v : Half} (h : 12 ≤ arg.toNat ∨ 4 ≤ v.toNat) (t : Settings) :
    amendedSettings arg v t .severity = .error .badValue := by
  rcases h with h | h
  · have none : faultKindOfCode arg.toNat = none := List.getElem?_eq_none h
    simp only [amendedSettings, none]
  · simp only [amendedSettings, severityOfCode_none h, named, Except.map]
    split <;> rfl

/-- The status fields take no AMEND (R10, R17). -/
theorem amendedSettings_badField {f : DeviceField} (h : 57 ≤ f.code) (arg v : Half) (t : Settings) :
    amendedSettings arg v t f = .error .badField := by
  cases f <;> first | rfl | exact absurd h (by decide)

/-- Settles O32, by the setting the code names; MOVE_SLOTS rests on the grant rule. -/
theorem amendWritesSettings : Obligations.AmendWritesSettings := by
  intro r s tag wide words
  refine ⟨fun lo hi f plain => ?_, fun field bound => ?_, fun field bound => ?_, fun field bound => ?_,
    fun k x field kind value => ?_, fun field out => ?_, fun field low high => ?_, fun field out => ?_, fun field => ?_⟩
  · obtain ⟨fld, code, sets⟩ := plainSetting_sets plain
    have named := fieldOfCode_device code.symm
    refine ⟨fun range => ?_, fun out => exec_amend_noSetting tag wide words named (sets.refused _ _ _ out)⟩
    rw [exec_amend_setting tag wide words named (sets.new _ _ _ range) fun u => sets.answer _ _ _ u range.2, sets.quiet]
    rfl
  · rw [exec_amend_setting (f := .devEnableA) tag wide words (by rw [field]; rfl)
      (by rw [amendedSettings, inSet_ok (n := 6) bound]; rfl)
      (fun u e => by rw [deviceAnswer, e, setWidth_back (n := 6) bound]), answered_deviceEnable rfl]
  · rw [exec_amend_setting (f := .devEnableB) tag wide words (by rw [field]; rfl)
      (by rw [amendedSettings, inSet_ok (n := 6) bound]; rfl)
      (fun u e => by rw [deviceAnswer, e, setWidth_back (n := 6) bound]), answered_deviceEnable rfl]
  · have out : ¬ r.value.toNat < 2 ^ 6 := by omega
    rcases field with field | field
    · exact exec_amend_noSetting (f := .devEnableA) tag wide words (by rw [field]; rfl)
        (by rw [amendedSettings, inSet_error out]; rfl)
    · exact exec_amend_noSetting (f := .devEnableB) tag wide words (by rw [field]; rfl)
        (by rw [amendedSettings, inSet_error out]; rfl)
  · refine exec_amend_setting (f := .severity) tag wide words (by rw [field]; rfl)
      (amendedSettings_severity kind value _) fun u e => ?_
    have kind : faultKindOfCode r.arg.toNat = some k := kind
    simp only [deviceAnswer, e, kind, severityOf_withSeverity, severityOfCode_code value, single_toNat]
  · exact exec_amend_noSetting (f := .severity) tag wide words (by rw [field]; rfl) (amendedSettings_noSeverity out _)
  · have granted := grantTest_granted
      { closePort (advance s) with settings := { s.settings with moveSlots := r.value.toNat } }
    have calm := grantTest_calm
      { closePort (advance s) with settings := { s.settings with moveSlots := r.value.toNat } }
    refine ⟨_, exec_amend_setting (f := .moveSlots) tag wide words (by rw [field]; rfl)
      (by rw [amendedSettings, inRange, if_pos ⟨low, high⟩]; rfl)
      (fun u e => by rw [deviceAnswer, e, single_toNat]), granted.settings, granted.holders, granted.inLists,
      granted.still, granted.ended, ?_⟩
    exact congrArg (fun p : Port => { p with newer := some (answerOf r .done 0 (r.value.setWidth 48)) }) calm.port
  · exact exec_amend_noSetting (f := .moveSlots) tag wide words (by rw [field]; rfl)
      (by rw [amendedSettings, inRange, if_neg (by omega)]; rfl)
  · rcases fieldOfCode_cases r.field with ⟨f, named, code⟩ | ⟨f, named, code⟩ | ⟨named, _⟩
    case inr.inl =>
      have status : 57 ≤ f.code := by have := f.code_bound; omega
      exact exec_amend_noSetting tag wide words named (amendedSettings_badField status _ _ _)
    all_goals
      rw [exec_amend_device tag wide words]
      exact congrArg _ (requestTaken_answered (amendDevice_noField tag (by simp [named]) _))

/-! ### SET and CLEAR -/

/-- A SET or CLEAR that reaches a well and passes its claim. -/
theorem exec_member_reaches {add : Bool} {r : Request} {c : Instr} {s : State} {w : Well} {x : Slot}
    (is : exec c s = plainRequest r (changeMembers add r) s) (words : s.port.words = []) (reaches : s.Reaches r.tag w x)
    (admits : x.record.Admits r.arg) : exec c s = .next (requestTaken r (memberWell add r w x.record) s) := by
  have tag := tag_ne_zero_of_resolveWell reaches.1
  rw [is, plainRequest_taken words, show changeMembers add r = _ from funext fun t => if_neg tag,
    requestTaken_reaches reaches fun _ => admits]

theorem exec_member_device {add : Bool} {r : Request} {c : Instr} {s : State}
    (is : exec c s = plainRequest r (changeMembers add r) s) (words : s.port.words = []) (tag : r.tag = 0) :
    exec c s = .next (requestTaken r (memberDevice add r) s) := by
  rw [is, plainRequest_taken words, show changeMembers add r = _ from funext fun t => if_pos tag]

theorem memberWell_field {r : Request} {f : WellField} (named : fieldOfCode r.field = some (.well f)) (add : Bool)
    (w : Well) (q : WellRecord) (s : State) :
    memberWell add r w q s = writeWellField (memberRecord add r.value q f) f r.tag w s := by
  simp only [memberWell, named]

theorem memberWell_noField {r : Request} (none : ∀ f, fieldOfCode r.field ≠ some (.well f)) (add : Bool) (w : Well)
    (q : WellRecord) (s : State) : memberWell add r w q s = (s, refuse .badField r.tag) := by
  unfold memberWell
  split
  · rename_i f named
    exact absurd named (none f)
  · rfl
  · rfl

theorem memberDevice_field {r : Request} {f : DeviceField} (tag : r.tag = 0)
    (named : fieldOfCode r.field = some (.device f)) (add : Bool) (s : State) :
    memberDevice add r s = writeSetting (memberSettings add r.value s.settings f) f r.arg 0 s := by
  simp only [memberDevice, named, tag]

theorem memberDevice_noField {r : Request} (tag : r.tag = 0) (none : ∀ f, fieldOfCode r.field ≠ some (.device f))
    (add : Bool) (s : State) : memberDevice add r s = (s, refuse .badField 0) := by
  unfold memberDevice
  split
  · rename_i f named
    exact absurd named (none f)
  · rw [tag]
  · rw [tag]

/-- The fields of a well record that are no set a request may change (R12). -/
theorem memberRecord_badField {f : WellField} (h : f.code < 12 ∨ 16 < f.code) (add : Bool) (v : Half) (q : WellRecord) :
    memberRecord add v q f = .error .badField := by
  cases f <;> first | rfl | exact absurd h (by decide)

/-- The fields of the device record that are no set a request may change (R12, R17). -/
theorem memberSettings_badField {f : DeviceField} (h : f.code ≠ 54 ∧ f.code ≠ 55) (add : Bool) (v : Half)
    (t : Settings) : memberSettings add v t f = .error .badField := by
  cases f <;> first | rfl | exact absurd h (by decide)

/-- An accepted SET or CLEAR of a field of a well (R185). -/
theorem memberWell_written {add : Bool} {r : Request} {s : State} {w : Well} {x : Slot} {f : WellField} {q : WellRecord}
    {v : Wide} (ordered : s.SlotsOrdered) (reaches : s.Reaches r.tag w x) (field : r.field.toNat = f.code)
    (new : memberRecord add r.value x.record f = .ok q) (target : q.valveTarget = x.record.valveTarget)
    (answer : wellAnswer q f = some v) : requestTaken r (memberWell add r w x.record) s =
      (afterFieldWrite f (s.withSlot w { x with record := q })).answered r .done r.tag v := by
  refine requestTaken_written ordered reaches.2.1 reaches.2.2 ?_ target answer
  rw [← new]
  exact memberWell_field (fieldOfCode_well field) _ _ _ _

/-- A refused SET or CLEAR of a field of a well (R185). -/
theorem memberWell_unwritten {add : Bool} {r : Request} {q : WellRecord} {f : WellField} {e : Status}
    (field : r.field.toNat = f.code) (new : memberRecord add r.value q f = .error e) (w : Well) (s : State) :
    requestTaken r (memberWell add r w q) s = s.answered r e r.tag 0 := by
  refine requestTaken_unwritten (w := w) (f := f) ?_
  rw [← new]
  exact memberWell_field (fieldOfCode_well field) _ _ _ _

/-- An accepted SET or CLEAR of an alert enable of the device record (R185). -/
theorem memberDevice_written {add : Bool} {r : Request} {s : State} {f : DeviceField} {t : Settings} {v : Wide}
    (tag : r.tag = 0) (field : r.field.toNat = f.code) (enable : settingTaken f = evalAlerts)
    (new : memberSettings add r.value s.settings f = .ok t)
    (answer : ∀ u : State, u.settings = t → deviceAnswer u r.arg f = .ok v) :
    requestTaken r (memberDevice add r) s = (State.alertsTaken { s with settings := t }).answered r .done 0 v := by
  rw [← answered_deviceEnable enable]
  refine requestTaken_setting ?_ answer
  rw [← new]
  exact memberDevice_field tag (fieldOfCode_device field) _ _

/-- A refused SET or CLEAR of a field of the device record (R185). -/
theorem memberDevice_unwritten {add : Bool} {r : Request} {s : State} {f : DeviceField} {e : Status} (tag : r.tag = 0)
    (field : r.field.toNat = f.code) (new : memberSettings add r.value s.settings f = .error e) :
    requestTaken r (memberDevice add r) s = s.answered r e 0 0 := by
  refine requestTaken_noSetting (f := f) ?_
  rw [← new]
  exact memberDevice_field tag (fieldOfCode_device field) _ _

/-- Settles O33, by the field the code names. -/
theorem setAndClearChangeMembers : Obligations.SetAndClearChangeMembers := by
  intro r s add c which words
  have is : exec c s = plainRequest r (changeMembers add r) s := by
    rcases which with ⟨rfl, rfl⟩ | ⟨rfl, rfl⟩ <;> rfl
  refine ⟨fun w x ordered reaches admits => ?_, fun tag => ?_⟩
  · rw [exec_member_reaches is words reaches admits]
    refine ⟨fun field m is => congrArg _ ?_, fun field bound m is => congrArg _ ?_,
      fun field bound m is => congrArg _ ?_, fun field bound m is => congrArg _ ?_,
      fun field bound m is => congrArg _ ?_, fun h => congrArg _ ?_, fun field => congrArg _ ?_⟩
    · exact memberWell_written (f := .detect) ordered reaches (by rw [field]; rfl)
        (by rw [memberRecord, inSet_ok (n := 16) r.value.isLt, BitVec.setWidth_eq, is]; rfl) rfl rfl
    · exact memberWell_written (f := .options) ordered reaches (by rw [field]; rfl)
        (by rw [memberRecord, inSet_ok (n := 4) bound, is]; rfl) rfl rfl
    · exact memberWell_written (f := .enableA) ordered reaches (by rw [field]; rfl)
        (by rw [memberRecord, inSet_ok (n := 8) bound, is]; rfl) rfl rfl
    · exact memberWell_written (f := .enableB) ordered reaches (by rw [field]; rfl)
        (by rw [memberRecord, inSet_ok (n := 8) bound, is]; rfl) rfl rfl
    · exact memberWell_written (f := .wakeSet) ordered reaches (by rw [field]; rfl)
        (by rw [memberRecord, inSet_ok (n := 8) bound, is]; rfl) rfl rfl
    · rcases h with ⟨field, out⟩ | ⟨low, high, out⟩
      · exact memberWell_unwritten (f := .options) (by rw [field]; rfl)
          (by rw [memberRecord, inSet_error (Nat.not_lt.2 out)]; rfl) w s
      · have beyond : inSet 8 r.value = .error .badValue := inSet_error (Nat.not_lt.2 out)
        obtain field | field | field : r.field.toNat = 14 ∨ r.field.toNat = 15 ∨ r.field.toNat = 16 := by omega
        · exact memberWell_unwritten (f := .enableA) field (by rw [memberRecord, beyond]; rfl) w s
        · exact memberWell_unwritten (f := .enableB) field (by rw [memberRecord, beyond]; rfl) w s
        · exact memberWell_unwritten (f := .wakeSet) field (by rw [memberRecord, beyond]; rfl) w s
    · rcases fieldOfCode_cases r.field with ⟨f, _, code⟩ | ⟨f, named, _⟩ | ⟨named, _⟩
      · exact memberWell_unwritten code (memberRecord_badField (code ▸ field) _ _ _) w s
      all_goals exact requestTaken_answered (memberWell_noField (by simp [named]) _ _ _ _)
  · rw [exec_member_device is words tag]
    refine ⟨fun field bound m is => congrArg _ ?_, fun field bound m is => congrArg _ ?_,
      fun field out => congrArg _ ?_, fun field => congrArg _ ?_⟩
    · exact memberDevice_written (f := .devEnableA) tag (by rw [field]; rfl) rfl
        (by rw [memberSettings, inSet_ok (n := 6) bound, is]; rfl) fun u e => by rw [deviceAnswer, e]
    · exact memberDevice_written (f := .devEnableB) tag (by rw [field]; rfl) rfl
        (by rw [memberSettings, inSet_ok (n := 6) bound, is]; rfl) fun u e => by rw [deviceAnswer, e]
    · have beyond : inSet 6 r.value = .error .badValue := inSet_error (Nat.not_lt.2 out)
      rcases field with field | field
      · exact memberDevice_unwritten (f := .devEnableA) tag (by rw [field]; rfl) (by rw [memberSettings, beyond]; rfl)
      · exact memberDevice_unwritten (f := .devEnableB) tag (by rw [field]; rfl) (by rw [memberSettings, beyond]; rfl)
    · rcases fieldOfCode_cases r.field with ⟨f, named, _⟩ | ⟨f, _, code⟩ | ⟨named, _⟩
      case inr.inl =>
        refine memberDevice_unwritten tag code (memberSettings_badField ?_ _ _ _)
        rw [← code]
        exact ⟨fun e => field.1 (BitVec.eq_of_toNat_eq e), fun e => field.2 (BitVec.eq_of_toNat_eq e)⟩
      all_goals exact requestTaken_answered (memberDevice_noField tag (by simp [named]) _ _)

end Sys2Proof.Machine
end

