-- ==== Sys2Proof/Proofs/PortBlind.lean ====
section
/-! PROOF. What the blocks do depends in no way on the port: each operation gives the same state, but for the port,
whatever the port holds. An act on a well is therefore the same act whether a group is open or not. -/

namespace Sys2Proof.Machine

/-- The state with another port. -/
def State.withPort (p : Port) (s : State) : State := { s with port := p }

section
variable (s : State) (p : Port)

/-! ### What a block reads -/

@[simp] theorem device_withPort : (s.withPort p).device = s.device := rfl
@[simp] theorem settings_withPort : (s.withPort p).settings = s.settings := rfl
@[simp] theorem scan_withPort : (s.withPort p).scan = s.scan := rfl
@[simp] theorem seq_withPort : (s.withPort p).seq = s.seq := rfl
@[simp] theorem moves_withPort : (s.withPort p).moves = s.moves := rfl
@[simp] theorem blend_withPort : (s.withPort p).blend = s.blend := rfl
@[simp] theorem wells_withPort : (s.withPort p).wells = s.wells := rfl
@[simp] theorem well?_withPort (w : Well) : (s.withPort p).well? w = s.well? w := rfl
@[simp] theorem record?_withPort (w : Well) : (s.withPort p).record? w = s.record? w := rfl
@[simp] theorem levelsRead_withPort (x : Slot) : (s.withPort p).levelsRead x = s.levelsRead x := rfl
@[simp] theorem grantConditions_withPort : (s.withPort p).grantConditions = s.grantConditions := rfl
@[simp] theorem holdConditions_withPort : (s.withPort p).holdConditions = s.holdConditions := rfl
@[simp] theorem moving_withPort (w : Well) : (s.withPort p).moving w = s.moving w := rfl
@[simp] theorem lateBlocks_withPort : (s.withPort p).lateBlocks = s.lateBlocks := rfl
@[simp] theorem slotOpen_withPort : (s.withPort p).slotOpen = s.slotOpen := rfl
@[simp] theorem headAllowed_withPort : (s.withPort p).headAllowed = s.headAllowed := rfl
@[simp] theorem inputHigh_withPort (i : Input) (w : Well) : (s.withPort p).inputHigh i w = s.inputHigh i w := rfl
@[simp] theorem station?_withPort (a : Nat) : (s.withPort p).station? a = s.station? a := rfl
@[simp] theorem nextStation?_withPort (a : Option Nat) : (s.withPort p).nextStation? a = s.nextStation? a := rfl

theorem withPort_ite {c : Prop} [Decidable c] (t e : State) :
    (if c then t else e).withPort p = if c then t.withPort p else e.withPort p := apply_ite _ _ _ _

/-! ### Records, events and lines -/

@[simp] theorem evalAlerts_withPort : evalAlerts (s.withPort p) = (evalAlerts s).withPort p := rfl
@[simp] theorem setDeviceEvent_withPort (k : DeviceEvent) :
    setDeviceEvent k (s.withPort p) = (setDeviceEvent k s).withPort p := rfl
@[simp] theorem recordFault_withPort (k : FaultKind) (tag : Nat) (detail : Half) :
    recordFault k tag detail (s.withPort p) = (recordFault k tag detail s).withPort p := rfl
@[simp] theorem writeRecord_withPort (f : WellRecord → WellRecord) (w : Well) :
    writeRecord f w (s.withPort p) = (writeRecord f w s).withPort p := rfl

@[simp] theorem wakeTest_withPort (k : WellEvent) (w : Well) :
    wakeTest k w (s.withPort p) = (wakeTest k w s).withPort p := by
  unfold wakeTest
  rw [record?_withPort]
  cases s.record? w with
  | none => rfl
  | some r =>
    simp only [device_withPort, settings_withPort, withPort_ite]
    rfl

@[simp] theorem setWellEvent_withPort (k : WellEvent) (w : Well) :
    setWellEvent k w (s.withPort p) = (setWellEvent k w s).withPort p :=
  wakeTest_withPort (evalAlerts (writeRecord (addEvent k) w s)) p k w

@[simp] theorem writeOutcome_withPort (o : SampleOutcome) (w : Well) :
    writeOutcome o w (s.withPort p) = (writeOutcome o w s).withPort p :=
  setWellEvent_withPort (writeRecord (fun r => { r with sampleOutcome := o }) w s) p .sample w

@[simp] theorem forEach_withPort {f : Well → State → State}
    (h : ∀ w t, f w (State.withPort p t) = (f w t).withPort p) (ws : List Well) :
    forEach ws f (s.withPort p) = (forEach ws f s).withPort p := by
  induction ws generalizing s with
  | nil => rfl
  | cons w ws ih => exact (congrArg (forEach ws f) (h w s)).trans (ih (f w s))

@[simp] theorem takeIf_withPort {f : State → State} (h : ∀ t, f (State.withPort p t) = (f t).withPort p)
    (takes : Bool) : takeIf takes f (s.withPort p) = (takeIf takes f s).withPort p := by
  cases takes with
  | false => rfl
  | true => exact h s

/-! ### Blend -/

@[simp] theorem setPermitLines_withPort : setPermitLines (s.withPort p) = (setPermitLines s).withPort p := rfl
@[simp] theorem setPermit_withPort (q : PermitState) (n : Option Nat) :
    setPermit q n (s.withPort p) = (setPermit q n s).withPort p := rfl
@[simp] theorem formBlend_withPort : formBlend (s.withPort p) = (formBlend s).withPort p := rfl

@[simp] theorem stepPermit_withPort : stepPermit (s.withPort p) = (stepPermit s).withPort p := by
  unfold stepPermit
  simp only [blend_withPort, grantConditions_withPort, holdConditions_withPort]
  cases s.blend.permit <;> simp only [withPort_ite] <;> rfl

@[simp] theorem formBudget_withPort : formBudget (s.withPort p) = (formBudget s).withPort p := by
  unfold formBudget
  rw [withPort_ite]
  rfl

@[simp] theorem blendRoundEnd_withPort : blendRoundEnd (s.withPort p) = (blendRoundEnd s).withPort p := by
  simp [blendRoundEnd]

@[simp] theorem withdrawPermit_withPort : withdrawPermit (s.withPort p) = (withdrawPermit s).withPort p := by
  unfold withdrawPermit
  rw [blend_withPort]
  cases s.blend.permit <;> rfl

/-! ### Rounds -/

theorem foldl_withPort {α : Type} {f : State → α → State}
    (h : ∀ t a, f (State.withPort p t) a = (f t a).withPort p) (l : List α) :
    l.foldl f (s.withPort p) = (l.foldl f s).withPort p := by
  induction l generalizing s with
  | nil => rfl
  | cons a l ih => rw [List.foldl_cons, h, ih, List.foldl_cons]

@[simp] theorem detectLevels_withPort (w : Well) :
    detectLevels w (s.withPort p) = (detectLevels w s).withPort p := by
  unfold detectLevels
  rw [well?_withPort]
  cases s.well? w with
  | none => rfl
  | some x =>
    simp only [levelsRead_withPort]
    cases s.levelsRead x with
    | none => rfl
    | some l => exact foldl_withPort s p (fun t i => by simp [withPort_ite]) inputsInOrder

@[simp] theorem levelDetection_withPort : levelDetection (s.withPort p) = (levelDetection s).withPort p := by
  unfold levelDetection
  rw [device_withPort, wells_withPort]
  cases s.device.state with
  | standby => rfl
  | run | safe => exact forEach_withPort s p (fun w t => detectLevels_withPort t p w) _

@[simp] theorem finishRound_withPort : finishRound (s.withPort p) = (finishRound s).withPort p := by
  unfold finishRound roundEnd
  rw [← blendRoundEnd_withPort, ← levelDetection_withPort]
  rfl

@[simp] theorem sendTo_withPort (st : StationRecord) : sendTo st (s.withPort p) = (sendTo st s).withPort p := rfl

@[simp] theorem beginRound_withPort : beginRound (s.withPort p) = (beginRound s).withPort p := by
  unfold beginRound
  rw [scan_withPort]
  cases s.scan.stations with
  | nil => exact finishRound_withPort s p
  | cons st _ => rfl

@[simp] theorem beginRoundIfIdle_withPort : beginRoundIfIdle (s.withPort p) = (beginRoundIfIdle s).withPort p := by
  unfold beginRoundIfIdle
  rw [scan_withPort]
  cases s.scan.round with
  | idle => exact beginRound_withPort s p
  | running _ => rfl

@[simp] theorem visitNext_withPort : visitNext (s.withPort p) = (visitNext s).withPort p := by
  unfold visitNext
  rw [scan_withPort]
  cases s.scan.round with
  | idle => rfl
  | running position =>
    simp only [nextStation?_withPort]
    cases s.nextStation? position with
    | some st => rfl
    | none => simp [withPort_ite]

@[simp] theorem changeStation_withPort (f : StationRecord → StationRecord) (a : Nat) :
    changeStation f a (s.withPort p) = (changeStation f a s).withPort p := rfl

/-! ### Sequencer -/

@[simp] theorem setQueue_withPort (q : List QueueEntry) : setQueue q (s.withPort p) = (setQueue q s).withPort p := rfl
@[simp] theorem setPhase_withPort (q : Phase) : setPhase q (s.withPort p) = (setPhase q s).withPort p := rfl
@[simp] theorem setQueued_withPort (q : Queued) (w : Well) :
    setQueued q w (s.withPort p) = (setQueued q w s).withPort p := rfl
@[simp] theorem selectWell_withPort (w : Well) : selectWell w (s.withPort p) = (selectWell w s).withPort p := rfl

@[simp] theorem abortSample_withPort : abortSample (s.withPort p) = (abortSample s).withPort p := by
  unfold abortSample
  rw [seq_withPort]
  cases s.seq.phase <;> simp

@[simp] theorem takeHeads_withPort (q : List QueueEntry) : takeHeads q (s.withPort p) = (takeHeads q s).withPort p := by
  induction q generalizing s with
  | nil => rfl
  | cons e rest ih => simp [takeHeads, ih, withPort_ite]

@[simp] theorem headTest_withPort : headTest (s.withPort p) = (headTest s).withPort p := by
  simp [headTest, withPort_ite]

@[simp] theorem enterIdle_withPort : enterIdle (s.withPort p) = (enterIdle s).withPort p := by
  simp [enterIdle]

/-! ### Moves -/

@[simp] theorem leaveLists_withPort (w : Well) : leaveLists w (s.withPort p) = (leaveLists w s).withPort p := rfl
@[simp] theorem grant_withPort (w : Well) (ws : List Well) :
    grant w ws (s.withPort p) = (grant w ws s).withPort p := rfl
@[simp] theorem restartTimer_withPort (w : Well) :
    restartTimer w (s.withPort p) = (restartTimer w s).withPort p := rfl
@[simp] theorem leaveQuietly_withPort (w : Well) :
    leaveQuietly w (s.withPort p) = (leaveQuietly w s).withPort p := rfl

@[simp] theorem endMove_withPort (o : MoveOutcome) (w : Well) :
    endMove o w (s.withPort p) = (endMove o w s).withPort p := by
  simp [endMove]

@[simp] theorem abandonAllMoves_withPort : abandonAllMoves (s.withPort p) = (abandonAllMoves s).withPort p :=
  forEach_withPort s p (fun w t => by simp [withPort_ite]) _

@[simp] theorem grantLoop_withPort (ws : List Well) : grantLoop ws (s.withPort p) = (grantLoop ws s).withPort p := by
  induction ws generalizing s with
  | nil => rfl
  | cons w ws ih => simp [grantLoop, ih, withPort_ite]

@[simp] theorem grantTest_withPort : grantTest (s.withPort p) = (grantTest s).withPort p :=
  grantLoop_withPort s p s.moves.waiting

@[simp] theorem schedulerDrops_withPort (w : Well) :
    schedulerDrops w (s.withPort p) = (schedulerDrops w s).withPort p := by
  simp [schedulerDrops, withPort_ite]

@[simp] theorem joinWaitList_withPort (w : Well) : joinWaitList w (s.withPort p) = (joinWaitList w s).withPort p := by
  unfold joinWaitList
  rw [← grantTest_withPort]
  rfl

@[simp] theorem findBlocked_withPort (w : Well) : findBlocked w (s.withPort p) = (findBlocked w s).withPort p := by
  simp [findBlocked]

@[simp] theorem blockMove_withPort (w : Well) : blockMove w (s.withPort p) = (blockMove w s).withPort p := by
  simp [blockMove, withPort_ite]

/-! ### Device states and faults -/

@[simp] theorem setOwed_withPort (h : Handover) : setOwed h (s.withPort p) = (setOwed h s).withPort p := rfl
@[simp] theorem setDeviceState_withPort (d : DeviceState) :
    setDeviceState d (s.withPort p) = (setDeviceState d s).withPort p := rfl

@[simp] theorem takeChange_withPort (h : Handover) : takeChange h (s.withPort p) = (takeChange h s).withPort p := by
  simp [takeChange]

@[simp] theorem handChange_withPort (h : Handover) : handChange h (s.withPort p) = (handChange h s).withPort p := by
  simp [handChange]

@[simp] theorem enterSafe_withPort : enterSafe (s.withPort p) = (enterSafe s).withPort p := by
  unfold enterSafe
  rw [device_withPort]
  cases s.device.state <;> simp

@[simp] theorem reportFault_withPort (k : FaultKind) (tag : Nat) (detail : Half) :
    reportFault k tag detail (s.withPort p) = (reportFault k tag detail s).withPort p := by
  unfold reportFault
  rw [settings_withPort]
  cases severityOf s.settings.severity k <;> simp

/-! ### Removal of a well -/

@[simp] theorem removeRecord_withPort (w : Well) : removeRecord w (s.withPort p) = (removeRecord w s).withPort p := rfl

@[simp] theorem enterOffline_withPort (f : FailureRun) :
    enterOffline f (s.withPort p) = (enterOffline f s).withPort p := by
  simp [enterOffline]

@[simp] theorem leaveSample_withPort : leaveSample (s.withPort p) = (leaveSample s).withPort p := by
  unfold leaveSample
  rw [seq_withPort]
  cases s.seq.failures <;> simp [withPort_ite]

@[simp] theorem sequencerDrops_withPort (w : Well) :
    sequencerDrops w (s.withPort p) = (sequencerDrops w s).withPort p := by
  unfold sequencerDrops
  simp only [seq_withPort, setQueue_withPort, leaveSample_withPort, withPort_ite]

@[simp] theorem dropStationChannel_withPort (a c : Nat) :
    dropStationChannel a c (s.withPort p) = (dropStationChannel a c s).withPort p := by
  unfold dropStationChannel
  simp only [changeStation_withPort, station?_withPort]
  generalize changeStation _ _ s = t
  cases t.station? a with
  | none => rfl
  | some st =>
    by_cases empty : st.channels.isEmpty = true
    · simp only [empty, if_true, scan_withPort]
      cases t.scan.inFlight with
      | none => rfl
      | some x =>
        by_cases same : x.address = a
        · simp only [same, if_true, ← visitNext_withPort]
          rfl
        · simp only [same, if_false]
          rfl
    · simp only [empty]
      rfl

@[simp] theorem freeWell_withPort (w : Well) : freeWell w (s.withPort p) = (freeWell w s).withPort p := by
  unfold freeWell
  rw [well?_withPort]
  cases s.well? w <;> simp

@[simp] theorem freeDamaged_withPort (w : Well) : freeDamaged w (s.withPort p) = (freeDamaged w s).withPort p := by
  simp [freeDamaged]

/-! ### Writes -/

@[simp] theorem evalNeed_withPort (w : Well) : evalNeed w (s.withPort p) = (evalNeed w s).withPort p := by
  unfold evalNeed
  rw [record?_withPort]
  cases s.record? w with
  | none => rfl
  | some r =>
    simp only [settings_withPort, moves_withPort, moving_withPort, blockMove_withPort, freeWell_withPort,
      leaveQuietly_withPort, joinWaitList_withPort, findBlocked_withPort, withPort_ite]
    rfl

@[simp] theorem handTarget_withPort (w : Well) : handTarget w (s.withPort p) = (handTarget w s).withPort p := by
  simp [handTarget, withPort_ite]

@[simp] theorem writeAndHand_withPort (f : WellRecord → WellRecord) (w : Well) :
    writeAndHand f w (s.withPort p) = (writeAndHand f w s).withPort p := by
  unfold writeAndHand
  rw [record?_withPort]
  cases s.record? w <;> simp [withPort_ite]

@[simp] theorem afterFieldWrite_withPort (f : WellField) :
    afterFieldWrite f (s.withPort p) = (afterFieldWrite f s).withPort p := by
  simp [afterFieldWrite, withPort_ite]

end

end Sys2Proof.Machine
end

