-- ==== Sys2Proof/Proofs/Groups.lean ====
section
/-! PROOF of GroupsOpenAtPositionOne. An act on a well is blind to the port, so the request that opens a group leaves
what the LOOKUP or AMEND on its tag leaves, but for the open group. -/

namespace Sys2Proof.Machine

/-! ### Acts that are blind to the port -/

/-- The act does the same, and answers the same, whatever the port holds. -/
def PortBlind (act : State → State × Reply) : Prop :=
  ∀ s p, act (s.withPort p) = ((act s).1.withPort p, (act s).2)

theorem PortBlind.port {act : State → State × Reply} (blind : PortBlind act) (s : State) :
    (act s).1.port = s.port := by
  have same : act s = ((act s).1.withPort s.port, (act s).2) := blind s s.port
  rw [same]
  rfl

theorem onWell_portBlind (changing : Bool) (tag arg : Half) {act : Well → WellRecord → State → State × Reply}
    (h : ∀ w q, PortBlind (act w q)) : PortBlind (onWell changing tag arg act) := by
  intro s p
  unfold onWell
  rw [show resolveWell tag (s.withPort p) = resolveWell tag s from rfl]
  cases resolveWell tag s with
  | none => rfl
  | some w =>
    simp only [well?_withPort]
    cases s.well? w with
    | none => rfl
    | some x =>
      dsimp only
      split
      · rw [freeDamaged_withPort]
      · split
        · rfl
        · exact h w x.record s p

theorem lookupWell_portBlind (field : Byte) (tag : Half) (w : Well) (q : WellRecord) :
    PortBlind (lookupWell field tag w q) := fun _ _ => rfl

theorem writeWellField_portBlind (new : Except Status WellRecord) (f : WellField) (tag : Half) (w : Well) :
    PortBlind (writeWellField new f tag w) := by
  intro s p
  cases new with
  | error e => rfl
  | ok q => simp only [writeWellField, writeAndHand_withPort, afterFieldWrite_withPort]

theorem amendWell_portBlind (field : Byte) (words : List Half) (value tag : Half) (w : Well) (q : WellRecord) :
    PortBlind (amendWell field words value tag w q) := by
  intro s p
  unfold amendWell
  cases fieldOfCode field with
  | none => rfl
  | some g =>
    cases g with
    | device f => rfl
    | well f => exact writeWellField_portBlind _ f tag w s p

theorem actAt_portBlind (kind : GroupKind) (field : Byte) (tag value arg : Half) :
    PortBlind (actAt kind field tag value arg) := by
  cases kind with
  | look => exact onWell_portBlind false tag arg (lookupWell_portBlind field tag)
  | amend => exact onWell_portBlind true tag arg (amendWell_portBlind field [] value tag)

/-- A request that sets the port's group and then acts leaves what the act alone leaves, but for the group. -/
theorem requestTaken_setGroup {act : State → State × Reply} (blind : PortBlind act) (r : Request) (g : Option Group)
    (s : State) : requestTaken r (fun t => act (setGroup g t)) s = setGroup g (requestTaken r act s) := by
  have acts : act (setGroup g (closePort (advance s))) = _ := blind (closePort (advance s)) _
  have port := blind.port (closePort (advance s))
  unfold requestTaken
  beta_reduce
  rw [acts]
  simp only [fill, setGroup, State.withPort, port]

/-! ### Position 1 -/

theorem opening_eq (kind : GroupKind) (r : Request) : openedGroup kind r = Group.opening kind r := by
  have base : r.tag.toNat - r.tag.toNat % 4 = 4 * (r.tag.toNat / 4) := by omega
  rw [openedGroup, base, Group.opening]

/-- A request that opens a group is its act on its own tag, and the group stands after it (R177). -/
theorem requestTaken_openGroup (kind : GroupKind) (r : Request) (s : State) : requestTaken r (openGroup kind r) s =
    setGroup (some (Group.opening kind r)) (requestTaken r (actAt kind r.field r.tag r.value r.arg) s) := by
  rw [← opening_eq]
  exact requestTaken_setGroup (actAt_portBlind kind r.field r.tag r.value r.arg) r _ s

theorem isWide_iff (r : Request) : isWide r.field = true ↔ NamesWide r := by
  have codes : ∀ f : Byte, isWide f = true ↔ f = 17 ∨ f = 18 := by decide
  exact codes r.field

theorem exec_groupLook_taken {r : Request} {s : State} (words : s.port.words = []) : exec (.groupLook r) s =
    .next (setGroup (some (Group.opening .look r))
      (requestTaken r (actAt .look r.field r.tag r.value r.arg) s)) := by
  rw [exec_groupLook, plainRequest_taken words, requestTaken_openGroup]

theorem exec_groupAmend_taken {r : Request} {s : State} (words : s.port.words = []) (wide : ¬ NamesWide r) :
    exec (.groupAmend r) s = .next (setGroup (some (Group.opening .amend r))
      (requestTaken r (actAt .amend r.field r.tag r.value r.arg) s)) := by
  rw [exec_groupAmend, plainRequest_taken words, ← requestTaken_openGroup,
    show groupAmend r = _ from funext fun t => if_neg (mt (isWide_iff r).1 wide)]

/-- LOOKUP of a well record is the act of a group that looks. -/
theorem exec_lookup_actAt {r : Request} {s : State} (words : s.port.words = []) (tag : r.tag ≠ 0) :
    exec (.lookup r) s = .next (requestTaken r (actAt .look r.field r.tag r.value r.arg) s) := by
  rw [exec_lookup, plainRequest_taken words, show lookup r = _ from funext fun t => if_neg tag]
  rfl

/-- AMEND of a field that is not wide is the act of a group that amends. -/
theorem exec_amend_actAt {r : Request} {s : State} (words : s.port.words = []) (wide : ¬ NamesWide r)
    (tag : r.tag ≠ 0) :
    exec (.amend r) s = .next (requestTaken r (actAt .amend r.field r.tag r.value r.arg) s) := by
  rw [exec_amend_taken (by rw [words]; exact amendWordsRefusal_plain wide), words,
    show amend r [] = _ from funext fun t => if_neg tag]
  rfl

/-- GROUPLOOK after the LOOKUP on its tag. -/
theorem exec_groupLook_of_lookup {r : Request} {s t : State} (words : s.port.words = []) (tag : r.tag ≠ 0)
    (h : exec (.lookup r) s = .next t) :
    exec (.groupLook r) s = .next (setGroup (some (Group.opening .look r)) t) := by
  obtain rfl : _ = t := Host.Outcome.next.inj ((exec_lookup_actAt words tag).symm.trans h)
  exact exec_groupLook_taken words

/-- GROUPAMEND after the AMEND on its tag. -/
theorem exec_groupAmend_of_amend {r : Request} {s t : State} (words : s.port.words = []) (wide : ¬ NamesWide r)
    (tag : r.tag ≠ 0) (h : exec (.amend r) s = .next t) :
    exec (.groupAmend r) s = .next (setGroup (some (Group.opening .amend r)) t) := by
  obtain rfl : _ = t := Host.Outcome.next.inj ((exec_amend_actAt words wide tag).symm.trans h)
  exact exec_groupAmend_taken words wide

theorem requestTaken_actAt_notFound {r : Request} {s : State} (unresolved : s.Unresolved r.tag) (kind : GroupKind) :
    requestTaken r (actAt kind r.field r.tag r.value r.arg) s = s.answered r .notFound r.tag 0 := by
  have none : resolveWell r.tag (closePort (advance s)) = none := resolveWell_unresolved unresolved
  refine requestTaken_answered (x := refuse .notFound r.tag) ?_
  cases kind <;> exact onWell_notFound none

/-- Settles O40: the group aside, the opening request is the LOOKUP or AMEND on its tag. -/
theorem groupsOpenAtPositionOne : Obligations.GroupsOpenAtPositionOne := by
  intro r s words
  refine ⟨fun unresolved => ?_, fun unresolved wide => ?_, fun wide => ?_, fun tag => ?_, fun tag wide => ?_,
    fun w x ordered reaches => ?_⟩
  · rw [exec_groupLook_taken words, requestTaken_actAt_notFound unresolved]
    rfl
  · rw [exec_groupAmend_taken words wide, requestTaken_actAt_notFound unresolved]
    rfl
  · rw [exec_groupAmend, plainRequest_taken words]
    exact congrArg _ (requestTaken_answered (x := refuse .extUnusable r.tag) (if_pos ((isWide_iff r).2 wide)))
  · exact ⟨_, exec_lookup_actAt words tag, exec_groupLook_taken words⟩
  · exact ⟨_, exec_amend_actAt words wide tag, exec_groupAmend_taken words wide⟩
  · have tag := tag_ne_zero_of_resolveWell reaches.1
    refine ⟨exec_groupLook_of_lookup words tag (lookupAnswersWellFields r s w x reaches words),
      fun h held other wide => ?_, fun lo hi f admits plain low high => ?_⟩
    · exact exec_groupAmend_of_amend words wide tag
        (claimsGuardChanges r s w x h reaches held (Ne.symm other) words _ (.inr ⟨wide, rfl⟩))
    · obtain ⟨plainly, _⟩ := amendWritesPlainFields r s w x ordered reaches admits words
      exact exec_groupAmend_of_amend words (plainField_not_wide plain) tag ((plainly lo hi f plain).1 ⟨low, high⟩)

end Sys2Proof.Machine
end

