-- ==== Sys2Proof/Proofs/Targets.lean ====
section
/-! SUPPORT. What the move scheduler makes of a target handed to it, said once as `TargetTaken` (R110, R111, R113, R116).
`MarksOf moves samples s t` says which marks of a record an operation may change: the scheduler's, the sequencer's, both or
none, with EVENTS growing. -/

namespace Sys2Proof.Machine

/-! ### Which marks change -/

/-- The record `q` is `r` but for its marks; the move marks, and the sample marks, only where named; no event kind is
lost. -/
structure Marked (moves samples : Bool) (r q : WellRecord) : Prop where
  same   : q = { r with events := q.events, queued := q.queued, sampleOutcome := q.sampleOutcome,
                        moveState := q.moveState, moveOutcome := q.moveOutcome }
  grows  : ∀ i, r.events.getLsbD i = true → q.events.getLsbD i = true
  move   : moves = false → q.moveState = r.moveState ∧ q.moveOutcome = r.moveOutcome
  sample : samples = false → q.queued = r.queued ∧ q.sampleOutcome = r.sampleOutcome

/-- The wells of `s` are those of `t`, and each record is marked as named. -/
structure MarksOf (moves samples : Bool) (s t : State) : Prop where
  record : ∀ v, Option.Rel (Marked moves samples) (s.record? v) (t.record? v)

variable {m n : Bool} {s t u : State}

theorem Marked.refl (r : WellRecord) : Marked m n r r := ⟨rfl, fun _ h => h, fun _ => ⟨rfl, rfl⟩, fun _ => ⟨rfl, rfl⟩⟩

theorem Marked.trans {p q r : WellRecord} (a : Marked m n p q) (b : Marked m n q r) : Marked m n p r where
  same := by rw [b.same, a.same]
  grows i h := b.grows i (a.grows i h)
  move h := ⟨(b.move h).1.trans (a.move h).1, (b.move h).2.trans (a.move h).2⟩
  sample h := ⟨(b.sample h).1.trans (a.sample h).1, (b.sample h).2.trans (a.sample h).2⟩

theorem MarksOf.found (h : MarksOf m n s t) {v : Well} {r : WellRecord} (hr : s.record? v = some r) :
    ∃ q, t.record? v = some q ∧ Marked m n r q := by
  have rel := h.record v
  rw [hr] at rel
  cases e : t.record? v with
  | none => rw [e] at rel; cases rel
  | some q => rw [e] at rel; cases rel with | some k => exact ⟨q, rfl, k⟩

theorem MarksOf.back (h : MarksOf m n s t) {v : Well} {q : WellRecord} (hq : t.record? v = some q) :
    ∃ r, s.record? v = some r ∧ Marked m n r q := by
  have rel := h.record v
  rw [hq] at rel
  cases e : s.record? v with
  | none => rw [e] at rel; cases rel
  | some r => rw [e] at rel; cases rel with | some k => exact ⟨r, rfl, k⟩

theorem MarksOf.gone (h : MarksOf m n s t) {v : Well} (hv : s.record? v = none) : t.record? v = none := by
  have rel := h.record v
  rw [hv] at rel
  cases e : t.record? v with
  | none => rfl
  | some q => rw [e] at rel; cases rel

theorem marksOf_of_slots (h : t.slots = s.slots) : MarksOf m n s t := ⟨fun v => by
  rw [record?_congr h]
  cases s.record? v with
  | none => exact .none
  | some r => exact .some (.refl r)⟩

theorem MarksOf.refl (s : State) : MarksOf m n s s := marksOf_of_slots rfl

theorem MarksOf.trans (a : MarksOf m n s t) (b : MarksOf m n t u) : MarksOf m n s u := ⟨fun v => by
  cases e : s.record? v with
  | none => rw [b.gone (a.gone e)]; exact .none
  | some r =>
    obtain ⟨q, hq, k⟩ := a.found e
    obtain ⟨p, hp, l⟩ := b.found hq
    rw [hp]
    exact .some (k.trans l)⟩

theorem MarksOf.marks (h : MarksOf m n s t) : Marks s t :=
  ⟨fun _ _ hr => (h.found hr).imp fun _ k => ⟨k.1, k.2.same⟩, fun _ => h.gone⟩

/-- A write of marks that `Marked` allows. -/
theorem writeRecord_marksOf {f : WellRecord → WellRecord} (hf : ∀ r, Marked m n r (f r)) (w : Well) (s : State) :
    MarksOf m n s (writeRecord f w s) := ⟨fun v => by
  rw [record?_writeRecord]
  by_cases e : v = w
  · subst e
    rw [if_pos rfl]
    cases s.record? v with
    | none => exact .none
    | some r => exact .some (hf r)
  · rw [if_neg e]
    exact (MarksOf.refl s).record v⟩

theorem setWellEvent_marksOf (k : WellEvent) (w : Well) (s : State) : MarksOf m n s (setWellEvent k w s) :=
  (writeRecord_marksOf (f := addEvent k)
      (fun _ => ⟨rfl, fun _ h => by simp [addEvent, h], fun _ => ⟨rfl, rfl⟩, fun _ => ⟨rfl, rfl⟩⟩) w s).trans
    (marksOf_of_slots (wakeTest_slots k w _))

/-! ### The marks the move scheduler writes -/

/-- A write of the move marks alone. -/
theorem writeMove_marksOf {f : WellRecord → WellRecord}
    (hf : ∀ r, f r = { r with moveState := (f r).moveState, moveOutcome := (f r).moveOutcome }) (w : Well) (s : State) :
    MarksOf true n s (writeRecord f w s) :=
  writeRecord_marksOf (f := f) (fun r => ⟨by rw [hf r], fun i h => by rw [hf r]; exact h,
    fun h => absurd h (by decide), fun _ => by rw [hf r]; exact ⟨rfl, rfl⟩⟩) w s

theorem grant_marksOf (w : Well) (rest : List Well) (s : State) : MarksOf true n s (grant w rest s) :=
  MarksOf.trans (t := { s with moves :=
      { holders := s.moves.holders ++ [{ well := w, timer := s.settings.moveTimeout }], waiting := rest } })
    (marksOf_of_slots rfl) (writeMove_marksOf (fun _ => rfl) w _)

theorem grantLoop_marksOf (ws : List Well) (s : State) : MarksOf true n s (grantLoop ws s) := by
  induction ws generalizing s with
  | nil => exact .refl s
  | cons w ws ih =>
    unfold grantLoop
    split
    · exact (grant_marksOf w ws s).trans (ih _)
    · exact .refl s

theorem grantTest_marksOf (s : State) : MarksOf true n s (grantTest s) := grantLoop_marksOf _ s

theorem endMove_marksOf (o : MoveOutcome) (w : Well) (s : State) : MarksOf true n s (endMove o w s) :=
  (marksOf_of_slots (s := s) (t := leaveLists w s) rfl).trans
    ((writeMove_marksOf (f := moveEnded o) (fun _ => rfl) w _).trans (setWellEvent_marksOf _ _ _))

theorem blockMove_marksOf (w : Well) (s : State) : MarksOf true n s (blockMove w s) := by
  unfold blockMove
  split
  · exact (endMove_marksOf _ _ _).trans (grantTest_marksOf _)
  · split
    · exact endMove_marksOf _ _ _
    · exact .refl s

theorem joinWaitList_marksOf (w : Well) (s : State) : MarksOf true n s (joinWaitList w s) :=
  (marksOf_of_slots (s := s) (t := { s with moves := { s.moves with waiting := s.moves.waiting ++ [w] } }) rfl).trans
    ((writeMove_marksOf (fun _ => rfl) w _).trans (grantTest_marksOf _))

theorem leaveQuietly_marksOf (w : Well) (s : State) : MarksOf true n s (leaveQuietly w s) :=
  (marksOf_of_slots (s := s) (t := leaveLists w s) rfl).trans (writeMove_marksOf (fun _ => rfl) w _)

theorem findBlocked_marksOf (w : Well) (s : State) : MarksOf true n s (findBlocked w s) :=
  (writeMove_marksOf (f := fun r => { r with moveOutcome := .blocked }) (fun _ => rfl) w s).trans
    (setWellEvent_marksOf _ _ _)

/-! ### A need evaluation that frees no well -/

/-- The rows of R111 for a well of an active mode that is not a closed RETIRING one. -/
theorem evalNeed_eq {w : Well} {r : WellRecord} (hr : s.record? w = some r) (active : r.mode.isActive = true)
    (unclosed : r.mode = .retiring → r.closed s.settings.moveBand = false) : evalNeed w s =
    if s.moving w = true ∧ r.inputHigh .actuator = true then blockMove w s
    else if s.moves.holds w then s
    else if s.moves.waits w then if r.needsMove s.settings.moveBand then s else leaveQuietly w s
    else if r.needsMove s.settings.moveBand then joinWaitList w s
    else if r.inputHigh .actuator = true ∧ r.outOfBand s.settings.moveBand = true then findBlocked w s
    else s := by
  have stays : ¬ (r.mode = .retiring ∧ r.closed s.settings.moveBand = true) := by
    rintro ⟨h, c⟩
    rw [unclosed h] at c
    cases c
  unfold evalNeed
  simp only [hr, active, Bool.true_eq_false, if_false, stays]

theorem evalNeed_marksOf {w : Well} {r : WellRecord} (hr : s.record? w = some r) (active : r.mode.isActive = true)
    (unclosed : r.mode = .retiring → r.closed s.settings.moveBand = false) : MarksOf true n s (evalNeed w s) := by
  rw [evalNeed_eq hr active unclosed]
  split
  · exact blockMove_marksOf w s
  split
  · exact .refl s
  split
  · split
    · exact .refl s
    · exact leaveQuietly_marksOf w s
  split
  · exact joinWaitList_marksOf w s
  split
  · exact findBlocked_marksOf w s
  · exact .refl s

theorem handTarget_marksOf {w : Well} {r : WellRecord} (hr : s.record? w = some r) (active : r.mode.isActive = true)
    (unclosed : r.mode = .retiring → r.closed s.settings.moveBand = false) : MarksOf true n s (handTarget w s) := by
  unfold handTarget
  split
  · exact marksOf_of_slots rfl
  · exact evalNeed_marksOf hr active unclosed

/-! ### What the rows of R111 read -/

theorem inputHigh_actuator_iff (r : WellRecord) : r.inputHigh .actuator = true ↔ r.ActuatorHigh := by
  unfold WellRecord.inputHigh WellRecord.ActuatorHigh
  cases r.inputs <;> simp [inputValue]

theorem outOfBand_iff (r : WellRecord) (band : Nat) : r.outOfBand band = true ↔ r.OffTarget r.valveTarget band := by
  unfold WellRecord.outOfBand WellRecord.OffTarget
  cases r.valveFeedback with
  | none => simp
  | some f =>
    show decide (band < apart f r.valveTarget) = true ↔ _
    rw [decide_eq_true_iff]
    simp only [Option.some.injEq, forall_eq', apart]
    omega

theorem needsMove_iff {r : WellRecord} (active : r.mode.isActive = true) (band : Nat) :
    r.needsMove band = true ↔ ¬ r.ActuatorHigh ∧ r.OffTarget r.valveTarget band := by
  rw [← inputHigh_actuator_iff, ← outOfBand_iff]
  simp [WellRecord.needsMove, active]

/-! ### What a grant leaves -/

/-- The wells that a run of the grant rule adds to the holders start with MOVE_TIMEOUT (R113, R114). -/
theorem grantLoop_timers (ws : List Well) (s : State) : ∀ h ∈ (grantLoop ws s).moves.holders,
    h ∈ s.moves.holders ∨ h.timer = s.settings.moveTimeout := by
  induction ws generalizing s with
  | nil => exact fun h hh => .inl hh
  | cons w ws ih =>
    unfold grantLoop
    split
    · intro h hh
      rcases ih _ h hh with hh | hh
      · rcases List.mem_append.1 hh with hh | hh
        · exact .inl hh
        · exact .inr (by rw [List.mem_singleton.1 hh])
      · exact .inr hh
    · exact fun h hh => .inl hh

/-- A run of the grant rule writes MOVE_STATE of the wells it grants a slot, and nothing else (R113). -/
theorem grantLoop_record {v : Well} {r : WellRecord} (ws : List Well) (s : State) (hw : s.moves.waiting = ws)
    (hr : s.record? v = some r) (held : s.moves.holds v = true → r.moveState = .moving) :
    (grantLoop ws s).record? v = some
      { r with moveState := if (grantLoop ws s).moves.holds v then .moving else r.moveState } := by
  induction ws generalizing s r with
  | nil =>
    show s.record? v = _
    rw [hr]
    split
    · rename_i h
      have e : r.moveState = .moving := held h
      rw [← e]
    · rfl
  | cons w ws ih =>
    unfold grantLoop
    split
    · have read : (grant w ws s).record? v = if v = w then (s.record? w).map _ else s.record? v :=
        record?_writeRecord _ w v _
      by_cases e : v = w
      · subst e
        rw [if_pos rfl, hr] at read
        have stays := (grantLoop_granted ws (grant v ws s) rfl).holders
        have holds : (grantLoop ws (grant v ws s)).moves.holds v = true := by
          refine List.any_eq_true.2 ⟨⟨v, s.settings.moveTimeout⟩, stays.subset ?_, by simp⟩
          show _ ∈ s.moves.holders ++ [_]
          simp
        rw [ih _ rfl read (fun _ => rfl), holds]
        rfl
      · rw [if_neg e, hr] at read
        refine ih _ rfl read fun h => held ?_
        have append : (s.moves.holders ++ [(⟨w, s.settings.moveTimeout⟩ : Holder)]).any
            (fun h => h.well == v) = true := h
        have last : [(⟨w, s.settings.moveTimeout⟩ : Holder)].any (fun h => h.well == v) = false := by
          simp [Ne.symm e]
        rwa [List.any_append, last, Bool.or_false] at append
    · rw [hr]
      split
      · rename_i h
        have e : r.moveState = .moving := held h
        rw [← e]
      · rfl

/-- A well that joins is in the lists with MOVE_STATE saying where (R111, R113). -/
theorem joinWaitList_joined {w : Well} {r : WellRecord} (hr : s.record? w = some r) (out : s.moves.holds w = false) :
    s.Joined (joinWaitList w s) w ∧ (joinWaitList w s).record? w = some
      { r with moveState := if (joinWaitList w s).moves.holds w then .moving else .waiting } := by
  let u : State := setMoveState .waiting w { s with moves := { s.moves with waiting := s.moves.waiting ++ [w] } }
  have granted : Granted u (joinWaitList w s) := grantTest_granted u
  have read : u.record? w = some { r with moveState := .waiting } := by
    show (writeRecord _ w _).record? w = _
    rw [record?_writeRecord, if_pos rfl]
    exact congrArg (Option.map _) hr
  refine ⟨⟨granted.inLists.trans ?_, granted.holders, grantLoop_timers _ u,
    fun out => congrArg (·.holders) (granted.still out), granted.ended⟩, ?_⟩
  · show s.moves.holders.map _ ++ (s.moves.waiting ++ [w]) = s.moves.holders.map _ ++ s.moves.waiting ++ [w]
    rw [List.append_assoc]
  · exact grantLoop_record _ u rfl read fun h => absurd (out.symm.trans h) (by simp)

/-! ### A target handed -/

/-- A waiting well keeps its place, leaves quietly or ends BLOCKED (R111, R118). -/
theorem evalNeed_waiter {w : Well} {r q : WellRecord} (hr : s.record? w = some r) (active : r.mode.isActive = true)
    (unclosed : r.mode = .retiring → r.closed s.settings.moveBand = false) (holds : s.moves.holds w = false)
    (waits : s.moves.waits w = true) (hq : (evalNeed w s).record? w = some q) :
    (r.ActuatorHigh →
      (evalNeed w s).moves = { s.moves with waiting := s.moves.waiting.filter fun v => !(v == w) } ∧
      q.moveState = .none ∧ q.moveOutcome = .blocked ∧ q.events.getLsbD 4 = true) ∧
    (¬ r.ActuatorHigh → r.OffTarget r.valveTarget s.settings.moveBand → evalNeed w s = s) ∧
    (¬ r.ActuatorHigh → ¬ r.OffTarget r.valveTarget s.settings.moveBand →
      (evalNeed w s).moves = { s.moves with waiting := s.moves.waiting.filter fun v => !(v == w) } ∧
      q.moveState = .none ∧ q.moveOutcome = r.moveOutcome) := by
  have moving : s.moving w = true := by simp [State.moving, waits]
  have left : (leaveLists w s).moves = { s.moves with waiting := s.moves.waiting.filter fun v => !(v == w) } :=
    congrArg (MoveScheduler.mk · _) (List.filter_eq_self.2 fun h hh => by
      simpa [beq_eq_false_iff_ne] using List.any_eq_false.1 holds h hh)
  have rows := evalNeed_eq hr active unclosed
  rw [← inputHigh_actuator_iff]
  refine ⟨fun high => ?_, fun low off => ?_, fun low on => ?_⟩
  · have e : evalNeed w s = endMove .blocked w s := by simp [rows, moving, high, blockMove, holds, waits]
    rw [e] at hq ⊢
    refine ⟨(setWellEvent_apart _ _ _).moves.trans left, ?_⟩
    rw [endMove, record?_setWellEvent, if_pos rfl, record?_writeRecord, if_pos rfl, Option.map_map,
      Option.map_eq_some_iff] at hq
    obtain ⟨p, _, rfl⟩ := hq
    exact ⟨rfl, rfl, by simp [addEvent, WellEvent.bit]⟩
  · have needs := (needsMove_iff active _).2 ⟨low ∘ (inputHigh_actuator_iff r).2, off⟩
    simp [rows, low, holds, waits, needs]
  · have needs : ¬ r.needsMove s.settings.moveBand = true := fun h => on ((needsMove_iff active _).1 h).2
    have e : evalNeed w s = leaveQuietly w s := by simp [rows, low, holds, waits, needs]
    rw [e] at hq ⊢
    obtain ⟨p, hp, rfl⟩ := of_record?_writeRecord hq
    cases hr.symm.trans hp
    exact ⟨left, rfl, rfl⟩

/-- A well in neither list joins, is found BLOCKED, or is left as it stands (R111). -/
theorem evalNeed_other {w : Well} {r q : WellRecord} (hr : s.record? w = some r) (active : r.mode.isActive = true)
    (unclosed : r.mode = .retiring → r.closed s.settings.moveBand = false) (holds : s.moves.holds w = false)
    (waits : s.moves.waits w = false) (hq : (evalNeed w s).record? w = some q) :
    (¬ r.ActuatorHigh → r.OffTarget r.valveTarget s.settings.moveBand → s.Joined (evalNeed w s) w ∧
      q.moveOutcome = r.moveOutcome ∧ q.moveState = if (evalNeed w s).moves.holds w then .moving else .waiting) ∧
    (r.ActuatorHigh → r.OffTarget r.valveTarget s.settings.moveBand → (evalNeed w s).moves = s.moves ∧
      q.moveState = r.moveState ∧ q.moveOutcome = .blocked ∧ q.events.getLsbD 4 = true) ∧
    (¬ r.OffTarget r.valveTarget s.settings.moveBand → evalNeed w s = s) := by
  have still : s.moving w = false := by simp [State.moving, holds, waits]
  have rows := evalNeed_eq hr active unclosed
  have needs := needsMove_iff active s.settings.moveBand
  have band := outOfBand_iff r s.settings.moveBand
  have high_iff := inputHigh_actuator_iff r
  refine ⟨fun low off => ?_, fun high off => ?_, fun on => ?_⟩
  · have e : evalNeed w s = joinWaitList w s := by simp [rows, still, holds, waits, needs.2 ⟨low, off⟩]
    obtain ⟨joined, record⟩ := joinWaitList_joined hr holds
    rw [e] at hq ⊢
    cases record.symm.trans hq
    exact ⟨joined, rfl, rfl⟩
  · have stays : ¬ r.needsMove s.settings.moveBand = true := fun h => (needs.1 h).1 high
    have e : evalNeed w s = findBlocked w s := by
      simp [rows, still, holds, waits, stays, high_iff.2 high, band.2 off]
    rw [e] at hq ⊢
    refine ⟨(setWellEvent_apart _ _ _).moves, ?_⟩
    rw [findBlocked, record?_setWellEvent, if_pos rfl, record?_writeRecord, if_pos rfl, hr] at hq
    cases hq
    exact ⟨rfl, rfl, by simp [addEvent, WellEvent.bit]⟩
  · have stays : ¬ r.needsMove s.settings.moveBand = true := fun h => on (needs.1 h).2
    have inBand : ¬ r.outOfBand s.settings.moveBand = true := fun h => on (band.1 h)
    simp [rows, still, holds, waits, stays, inBand]

/-- The move scheduler takes a target handed to it as the rows of R111 and R116 say, for a record just written that no
evaluation frees. -/
theorem handTarget_taken {w : Well} {r : WellRecord} {handed : Prop} (hr : s.record? w = some r)
    (active : r.mode.isActive = true) (unclosed : r.mode = .retiring → r.closed s.settings.moveBand = false)
    (given : handed) : s.TargetTaken (handTarget w s) w handed r := by
  intro q off same hq hoff hsame
  have kept {t : State} (e : t = s) (ht : t.record? w = some q) : t.moves = s.moves ∧ same := by
    subst e
    cases hr.symm.trans ht
    exact ⟨rfl, hsame.2 ⟨rfl, rfl⟩⟩
  rw [hoff]
  refine ⟨fun no => absurd given no, fun _ holds => ?_, fun _ holds waits => ?_, fun _ holds waits => ?_⟩
  · rw [handTarget, if_pos holds] at hq ⊢
    cases hr.symm.trans hq
    exact ⟨rfl, hsame.2 ⟨rfl, rfl⟩⟩
  · rw [handTarget, if_neg (by simp [holds])] at hq ⊢
    obtain ⟨high, stays, leaves⟩ := evalNeed_waiter hr active unclosed holds waits hq
    exact ⟨high, fun low off => kept (stays low off) hq, leaves⟩
  · rw [handTarget, if_neg (by simp [holds])] at hq ⊢
    obtain ⟨joins, blocked, stays⟩ := evalNeed_other hr active unclosed holds waits hq
    exact ⟨joins, blocked, fun on => kept (stays on) hq⟩

/-- No target handed: the lists and the move marks stand. -/
theorem targetTaken_none {w : Well} {r : WellRecord} {handed : Prop} (no : ¬ handed) (moves : t.moves = s.moves)
    (same : ∀ q, t.record? w = some q → q.moveState = r.moveState ∧ q.moveOutcome = r.moveOutcome) :
    s.TargetTaken t w handed r := fun q _ _ hq _ hsame =>
  ⟨fun _ => ⟨moves, hsame.2 (same q hq)⟩, fun h => absurd h no, fun h => absurd h no, fun h => absurd h no⟩

/-- The taking of a target reads the lists, the settings, the device state, and the part of the record it names. -/
theorem TargetTaken.of_before {w : Well} {r r' : WellRecord} {handed handed' : Prop}
    (h : u.TargetTaken t w handed' r')
    (moves : u.moves = s.moves) (settings : u.settings = s.settings) (state : u.device.state = s.device.state)
    (record : r'.inputs = r.inputs ∧ r'.valveFeedback = r.valveFeedback ∧ r'.valveTarget = r.valveTarget ∧
      r'.moveState = r.moveState ∧ r'.moveOutcome = r.moveOutcome) (hand : handed' ↔ handed) :
    s.TargetTaken t w handed r := by
  obtain ⟨inputs, feedback, target, moveState, moveOutcome⟩ := record
  simpa only [State.TargetTaken, State.Joined, State.inLists, WellRecord.OffTarget, WellRecord.ActuatorHigh, hand,
    moves, settings, state, inputs, feedback, target, moveState, moveOutcome] using h

/-- What follows the taking and leaves the lists and the move marks leaves the taking as it is. -/
theorem TargetTaken.then {w : Well} {r : WellRecord} {handed : Prop} (h : s.TargetTaken t w handed r)
    (moves : u.moves = t.moves) (marks : MarksOf false n t u) : s.TargetTaken u w handed r := by
  intro q off same hq hoff hsame
  obtain ⟨p, hp, k⟩ := marks.back hq
  obtain ⟨moveState, moveOutcome⟩ := k.move rfl
  have event := k.grows 4
  have taken := h p off same hp hoff (by rw [hsame, moveState, moveOutcome])
  obtain ⟨none, holder, waiter, other⟩ := taken
  simp only [State.Joined, State.inLists, moves, moveState, moveOutcome] at *
  refine ⟨none, holder, fun a b c => ?_, fun a b c => ?_⟩
  · obtain ⟨high, stays, leaves⟩ := waiter a b c
    exact ⟨fun d => (high d).imp id (fun ⟨x, y, z⟩ => ⟨x, y, event z⟩), stays, leaves⟩
  · obtain ⟨joins, blocked, stays⟩ := other a b c
    exact ⟨joins, fun d e => (blocked d e).imp id (fun ⟨x, y, z⟩ => ⟨x, y, event z⟩), stays⟩

end Sys2Proof.Machine
end

