-- ==== Sys2Proof/Proofs/ModeChanges.lean ====
section
/-! PROOF of RetireClosesFirst and ModeRequestActsByMode. A transition of an active well is described once, by
`changeMode_entered`: the record entered, the sampling left, and the target taken by the move scheduler. -/

namespace Sys2Proof.Machine

variable {m n : Bool} {s t u : State}

/-! ### The sequencer lets a well go -/

/-- A write of the sample marks alone. -/
theorem writeSample_marksOf {f : WellRecord → WellRecord}
    (hf : ∀ r, f r = { r with queued := (f r).queued, sampleOutcome := (f r).sampleOutcome }) (w : Well) (s : State) :
    MarksOf m true s (writeRecord f w s) :=
  writeRecord_marksOf (f := f) (fun r => ⟨by rw [hf r], fun i h => by rw [hf r]; exact h,
    fun _ => by rw [hf r]; exact ⟨rfl, rfl⟩, fun h => absurd h (by decide)⟩) w s

theorem writeOutcome_marksOf (o : SampleOutcome) (w : Well) (s : State) : MarksOf m true s (writeOutcome o w s) :=
  (writeSample_marksOf (f := fun r => { r with sampleOutcome := o }) (fun _ => rfl) w s).trans
    (setWellEvent_marksOf _ _ _)

theorem abortSample_marksOf (s : State) : MarksOf m true s (abortSample s) := by
  have released (w : Well) : MarksOf m true s (writeOutcome .aborted w (setPhase (.release w) s)) :=
    MarksOf.trans (t := setPhase (.release w) s) (marksOf_of_slots rfl) (writeOutcome_marksOf _ _ _)
  unfold abortSample
  split
  case h_1 | h_2 | h_3 => exact released _
  case h_4 | h_5 | h_6 => exact .refl s

theorem leaveSampling_marksOf (w : Well) (s : State) : MarksOf m true s (leaveSampling w s) := by
  have removed : MarksOf m true s (removeEntry w s) := by
    unfold removeEntry
    split
    · exact MarksOf.trans (t := setQueue (withoutEntry w s.seq.queue) s) (marksOf_of_slots rfl)
        (writeSample_marksOf (fun _ => rfl) w _)
    · exact .refl s
  refine removed.trans ?_
  unfold leaveSampling abortSampleOf
  split
  · exact abortSample_marksOf _
  · exact .refl _

/-- What follows the leaving of sampling, and leaves the sequencer and the sample marks, leaves it as it is. -/
theorem SamplingLeft.then {w : Well} (h : s.SamplingLeft t w) (seq : u.seq = t.seq) (marks : MarksOf m false t u) :
    s.SamplingLeft u w := by
  obtain ⟨rest, queued, aborted, shut⟩ := h
  refine ⟨by rw [seq]; exact rest, fun e q hq => ?_, fun e => ⟨by rw [seq]; exact (aborted e).1, fun q hq => ?_⟩,
    fun e => by rw [seq]; exact shut e⟩
  · obtain ⟨r, hr, k⟩ := marks.back hq
    exact (k.sample rfl).1.trans (queued e r hr)
  · obtain ⟨r, hr, k⟩ := marks.back hq
    obtain ⟨outcome, event⟩ := (aborted e).2 r hr
    exact ⟨(k.sample rfl).2.trans outcome, k.grows 7 event⟩

/-! ### A transition of an active well -/

theorem handTarget_others (w : Well) (s : State) : s.OthersUpToMarks (handTarget w s) w := by
  unfold handTarget
  split
  · exact (restartTimer_marks w s).others w
  · exact evalNeed_others w s

/-- A departure and an entry leave what the move scheduler reads of a record, but for the target (R25, R28). -/
theorem entered_kept (mode : Mode) (lim : Nat) (r : WellRecord) :
    (r.entered mode lim).inputs = r.inputs ∧ (r.entered mode lim).valveFeedback = r.valveFeedback ∧
    (r.entered mode lim).moveState = r.moveState ∧ (r.entered mode lim).moveOutcome = r.moveOutcome := by
  unfold WellRecord.entered WellRecord.departed
  split <;> exact ⟨rfl, rfl, rfl, rfl⟩

/-- The part of a mode change before the target is handed. -/
def modeWritten (mode : Mode) (w : Well) (s : State) : State :=
  let t := writeRecord (WellRecord.entered mode s.settings.suspectInterval) w s
  if mode.closes then leaveSampling w t else t

theorem modeWritten_calm {mode : Mode} {w : Well} {s : State} {r : WellRecord} (hr : s.record? w = some r)
    (active : r.mode.isActive = true) (enters : mode.isActive = true) : Calm s (modeWritten mode w s) := by
  have written : Calm s (writeRecord (WellRecord.entered mode s.settings.suspectInterval) w s) :=
    writeEntered_calm enters fun q hq => by cases hr.symm.trans hq; exact active
  unfold modeWritten
  dsimp only
  split
  · exact written.trans (leaveSampling_calm w _)
  · exact written

theorem modeWritten_marksOf (mode : Mode) (w : Well) (s : State) :
    MarksOf false true (writeRecord (WellRecord.entered mode s.settings.suspectInterval) w s) (modeWritten mode w s) := by
  unfold modeWritten
  dsimp only
  split
  · exact leaveSampling_marksOf w _
  · exact .refl _

theorem modeWritten_moves (mode : Mode) (w : Well) (s : State) : (modeWritten mode w s).moves = s.moves := by
  have removed (t : State) : (removeEntry w t).moves = t.moves := by
    unfold removeEntry
    split <;> rfl
  have aborted (t : State) : (abortSampleOf w t).moves = t.moves := by
    unfold abortSampleOf
    split
    · exact (abortSample_moves t).1
    · rfl
  unfold modeWritten
  dsimp only
  split
  · exact (aborted _).trans (removed _)
  · rfl

theorem changeMode_eq {mode : Mode} {always : Bool} {w : Well} {r : WellRecord} (hr : s.record? w = some r)
    (other : r.mode ≠ mode) : changeMode mode always w s =
    if always = true ∨ (r.entered mode s.settings.suspectInterval).valveTarget ≠ r.valveTarget
      then handTarget w (modeWritten mode w s) else modeWritten mode w s := by
  unfold changeMode
  simp only [hr, other, if_false]
  rfl

/-- What a transition to `mode` leaves that writes the record `q` of an active well and hands the target or not, the well
not being a closed one that enters RETIRING. -/
structure Entered (mode : Mode) (handed : Prop) (w : Well) (q : WellRecord) (s t : State) : Prop where
  holds   : t.HoldsUpToMarks w q
  others  : s.OthersUpToMarks t w
  left    : mode.closes = true → s.SamplingLeft t w
  kept    : mode.closes = false → t.seq = s.seq
  taken   : s.TargetTaken t w handed q
  frame   : s.SameFrame t
  state   : t.device.state = s.device.state
  faults  : t.faults = s.faults

theorem evalNeed_calm {w : Well} {r : WellRecord} (hr : s.record? w = some r) (active : r.mode.isActive = true)
    (unclosed : r.mode = .retiring → r.closed s.settings.moveBand = false) : Calm s (evalNeed w s) := by
  rw [evalNeed_eq hr active unclosed]
  split
  · exact blockMove_calm w s
  split
  · exact .refl s
  split
  · split
    · exact .refl s
    · exact leaveQuietly_calm w s
  split
  · exact joinWaitList_calm w s
  split
  · exact findBlocked_calm w s
  · exact .refl s

theorem handTarget_calm {w : Well} {r : WellRecord} (hr : s.record? w = some r) (active : r.mode.isActive = true)
    (unclosed : r.mode = .retiring → r.closed s.settings.moveBand = false) : Calm s (handTarget w s) := by
  unfold handTarget
  split
  · exact restartTimer_calm w s
  · exact evalNeed_calm hr active unclosed

theorem changeMode_entered {mode : Mode} {always : Bool} {w : Well} {r : WellRecord} (hr : s.record? w = some r)
    (active : r.mode.isActive = true) (enters : mode.isActive = true) (other : r.mode ≠ mode)
    (unclosed : mode = .retiring → r.closed s.settings.moveBand = false) :
    Entered mode (always = true ∨ (r.entered mode s.settings.suspectInterval).valveTarget ≠ r.valveTarget) w
      (r.entered mode s.settings.suspectInterval) s (changeMode mode always w s) := by
  have written : (writeRecord (WellRecord.entered mode s.settings.suspectInterval) w s).record? w =
      some (r.entered mode s.settings.suspectInterval) := by rw [record?_writeRecord, if_pos rfl, hr]; rfl
  obtain ⟨q, hq, k⟩ := (modeWritten_marksOf mode w s).found written
  obtain ⟨inputs, feedback, -⟩ := entered_kept mode s.settings.suspectInterval r
  have holds : (modeWritten mode w s).HoldsUpToMarks w (r.entered mode s.settings.suspectInterval) := ⟨q, hq, k.same⟩
  have others : s.OthersUpToMarks (modeWritten mode w s) w :=
    othersUpToMarks_trans (writeRecord_others _ w s) ((modeWritten_marksOf mode w s).marks.others w)
  have left (closes : mode.closes = true) : s.SamplingLeft (modeWritten mode w s) w := by
    have e : modeWritten mode w s = leaveSampling w _ := if_pos closes
    rw [e]
    exact leaveSampling_left w (writeRecord _ w s)
  have kept (stays : mode.closes = false) : (modeWritten mode w s).seq = s.seq := by
    rw [modeWritten, if_neg (by simp [stays])]
    rfl
  have calm := modeWritten_calm hr active enters
  have moves := modeWritten_moves mode w s
  have same := k.move rfl
  have qMode : q.mode = mode := by rw [k.same]; rfl
  have qActive : q.mode.isActive = true := by rw [qMode]; exact enters
  have qUnclosed : q.mode = .retiring → q.closed (modeWritten mode w s).settings.moveBand = false := by
    rw [qMode, calm.settings]
    intro retires
    have e : q.valveFeedback = r.valveFeedback := by rw [k.same]; exact feedback
    have closed := unclosed retires
    unfold WellRecord.closed at closed ⊢
    rw [e]
    exact closed
  rw [changeMode_eq hr other]
  split
  · rename_i given
    have marks : MarksOf true false _ _ := handTarget_marksOf hq qActive qUnclosed
    have hands := handTarget_calm hq qActive qUnclosed
    have seq := (handTarget_seqApart w (modeWritten mode w s) fun p hp h => by
      cases hq.symm.trans hp
      exact qUnclosed h).seq
    exact {
      holds := holdsUpToMarks_trans holds marks.marks
      others := othersUpToMarks_trans others (marks.marks.others w)
      left := fun closes => SamplingLeft.then (left closes) seq marks
      kept := fun stays => seq.trans (kept stays)
      taken := TargetTaken.of_before (handTarget_taken hq qActive qUnclosed given) moves calm.settings calm.state
        ⟨by rw [k.same], by rw [k.same], by rw [k.same], same.1, same.2⟩ .rfl
      frame := ⟨hands.settings.trans calm.settings, hands.time.trans calm.time, hands.pending.trans calm.pending⟩
      state := hands.state.trans calm.state
      faults := hands.faults.trans calm.faults }
  · rename_i given
    exact {
      holds, others, left, kept
      taken := targetTaken_none given moves fun p hp => by cases hq.symm.trans hp; exact same
      frame := ⟨calm.settings, calm.time, calm.pending⟩
      state := calm.state
      faults := calm.faults }

/-- The port's part of the exchange leaves the transition as it is. -/
theorem Entered.answered {mode : Mode} {handed : Prop} {w : Well} {r : WellRecord} (a : Answer)
    (h : Entered mode handed w r (closePort (advance s)) u) : Entered mode handed w r s (fill a u) where
  holds := h.holds
  others := h.others
  left := h.left
  kept := h.kept
  taken := h.taken
  frame := h.frame
  state := h.state
  faults := h.faults

/-- The record entered into a mode other than SUSPECT (R25, R28). -/
theorem entered_eq {mode : Mode} (lim : Nat) (r : WellRecord) (other : mode ≠ .suspect) : r.entered mode lim =
    { r with
      mode := mode, valveTarget := entryTarget mode r,
      excursions := if r.mode = .suspect then 0 else r.excursions,
      clean := if r.mode = .suspect then 0 else r.clean } := by
  have target : entryTarget mode r.departed = entryTarget mode r := by
    obtain ⟨lo, hi, same, -⟩ := departed_limits r
    cases mode <;> simp only [entryTarget, lo, hi, same]
  unfold WellRecord.entered
  dsimp only
  rw [target, if_neg other, if_neg other]
  unfold WellRecord.departed
  split <;> rfl

/-! ### RETIRE -/

theorem exec_retire_reaches {r : Request} {s : State} {w : Well} {x : Slot} (reaches : s.Reaches r.tag w x)
    (admits : x.record.Admits r.arg) (words : s.port.words = []) :
    exec (.retire r) s = .next (requestTaken r (retireWell r w x.record) s) := by
  rw [exec_retire, plainRequest_taken words, requestTaken_reaches reaches fun _ => admits]

/-- RETIRE without FORCE acts by the mode, unless the part is in SAFE (R39, R42). -/
theorem retireWell_unforced {r : Request} (unforced : r.mask.getLsbD 0 = false) (w : Well) (q : WellRecord)
    (s : State) : retireWell r w q s =
    if s.device.state = .safe then (s, refuse .safe r.tag) else retireByMode r.tag w q s := by
  rw [retireWell, show forced r.mask = false from unforced]
  cases h : s.device.state <;> simp

theorem retireByMode_active {tag : Half} {w : Well} {q : WellRecord}
    (mode : q.mode = .auto ∨ q.mode = .manual ∨ q.mode = .isolated ∨ q.mode = .suspect)
    (unclosed : q.closed s.settings.moveBand = false) :
    retireByMode tag w q s = (changeMode .retiring true w s, done tag freedLater) := by
  rcases mode with h | h | h | h <;> simp [retireByMode, h, unclosed]

theorem unclosed_of_above {q : WellRecord} {band : Nat} (h : ∀ f, q.valveFeedback = some f → band < f) :
    q.closed band = false := by
  unfold WellRecord.closed
  split
  · rfl
  · rename_i f e
    simpa using h f e

/-- A slot written with what it holds changes nothing. -/
theorem withSlot_same {w : Well} {x : Slot} (ordered : s.SlotsOrdered) (hx : s.well? w = some x) :
    s.withSlot w x = s := by
  have same : s.slots.map (fun p => if p.1 = w.slot then (p.1, x) else p) = s.slots := by
    refine (List.map_congr_left fun p hp => ?_).trans (List.map_id _)
    split
    · rename_i e
      rw [SlotsOrdered.unique ordered hp (mem_of_well? hx).1 e, ← e]
      rfl
    · rfl
  rw [State.withSlot, same]

/-- RETURN_MODE written, or left where it holds the mode already (R35, R39). -/
theorem returnMode_written {w : Well} {x : Slot} (mode : ActiveMode) (ordered : s.SlotsOrdered)
    (hx : s.well? w = some x) (intact : x.intact = true) :
    (if x.record.returnMode = some mode then s else writeRecord (fun q => { q with returnMode := some mode }) w s) =
      s.withSlot w { x with record := { x.record with returnMode := some mode } } := by
  rw [writeRecord_intact (f := fun q => { q with returnMode := some mode }) ordered hx intact]
  split
  · rename_i h
    rw [← h]
    exact (withSlot_same ordered hx).symm
  · rfl

theorem retireByMode_parked {tag : Half} {w : Well} {x : Slot} (ordered : s.SlotsOrdered) (hx : s.well? w = some x)
    (intact : x.intact = true) (parked : x.record.mode = .staging ∨ x.record.mode = .unreachable) :
    retireByMode tag w x.record s =
      (s.withSlot w { x with record := { x.record with returnMode := some .retiring } }, done tag freedLater) := by
  rw [← returnMode_written .retiring ordered hx intact]
  rcases parked with h | h <;> simp [retireByMode, h, retireParked]

/-- Settles O25: RETIRE of an active well is the transition to RETIRING with its target handed in any case. -/
theorem retireClosesFirst : Obligations.RetireClosesFirst := by
  intro r s w x ordered reaches admits words unforced
  have ⟨_, hx, intact⟩ := reaches
  have acts := retireWell_unforced unforced w x.record (closePort (advance s))
  rw [exec_retire_reaches reaches admits words]
  refine ⟨fun safe => ?_, fun out retiring => ?_, fun out parked => ?_, fun out mode above => ?_⟩
  · rw [requestTaken_answered (acts.trans (if_pos safe))]
    rfl
  · rw [requestTaken_answered (x := done r.tag 0) ((acts.trans (if_neg out)).trans (by simp only [retireByMode, retiring]; rfl))]
    rfl
  · rw [requestTaken, acts.trans (if_neg out), retireByMode_parked (s := closePort (advance s)) ordered hx intact parked]
    rfl
  · have unclosed := unclosed_of_above above
    have active : x.record.mode.isActive = true := by rcases mode with h | h | h | h <;> rw [h] <;> rfl
    have other : x.record.mode ≠ .retiring := by rcases mode with h | h | h | h <;> rw [h] <;> decide
    have entered := changeMode_entered (s := closePort (advance s)) (always := true) (Reaches.record? reaches) active rfl
      other fun _ => unclosed
    have tame := changeMode_tame (s := closePort (advance s)) (m := .retiring) (always := true) (w := w) rfl
      fun q hq => by cases (Reaches.record? reaches).symm.trans hq; exact active
    have taken : retireWell r w x.record (closePort (advance s)) = _ :=
      (acts.trans (if_neg out)).trans (retireByMode_active (s := closePort (advance s)) mode unclosed)
    rw [requestTaken, taken]
    rw [entered_eq _ _ (by decide)] at entered
    have done := entered.answered (answerTo r (done r.tag freedLater))
    refine ⟨_, rfl, done.holds, done.left rfl, ?_, done.others, done.frame, ?_⟩
    · exact TargetTaken.of_before done.taken rfl rfl rfl ⟨rfl, rfl, rfl, rfl, rfl⟩ (by simp)
    · rw [fill_port, tame.port]
      rfl

/-! ### MODE -/

/-- A code names AUTO, MANUAL or ISOLATED, and no other mode (R33). -/
theorem requestedMode_names {code : Nat} {mode : ActiveMode} (h : requestedMode code = some mode) :
    mode.toMode.code = code ∧ (mode = .auto ∨ mode = .manual ∨ mode = .isolated) := by
  unfold requestedMode at h
  split at h
  all_goals cases h
  all_goals exact ⟨rfl, by simp⟩

theorem requestedMode_none {code : Nat} (h : ¬ (1 ≤ code ∧ code ≤ 3)) : requestedMode code = none := by
  unfold requestedMode
  split
  · omega
  · omega
  · omega
  · rfl

theorem exec_modeRequest_reaches {r : Request} {s : State} {w : Well} {x : Slot} (reaches : s.Reaches r.tag w x)
    (admits : x.record.Admits r.arg) (words : s.port.words = []) :
    exec (.modeRequest r) s = .next (requestTaken r (modeWell r w x.record) s) := by
  rw [exec_modeRequest, plainRequest_taken words, requestTaken_reaches reaches fun _ => admits]

/-- A MODE that names a mode, outside SAFE, for a well that is not leaving the table (R33). -/
theorem modeWell_takes {r : Request} {mode : ActiveMode} {q : WellRecord} (out : s.device.state ≠ .safe)
    (named : requestedMode r.value.toNat = some mode) (stays : q.isRetiring = false) (w : Well) :
    modeWell r w q s = takeMode mode r.tag w q s := by
  simp only [modeWell, out, if_false, named, stays, Bool.false_eq_true]

theorem takeMode_parked {mode : ActiveMode} {tag : Half} {w : Well} {x : Slot} (ordered : s.SlotsOrdered)
    (hx : s.well? w = some x) (intact : x.intact = true) (parked : x.record.mode.isParked = true) :
    takeMode mode tag w x.record s =
      (s.withSlot w { x with record := { x.record with returnMode := some mode } }, done tag (low x.record.mode.code)) := by
  rw [takeMode, if_pos parked, setReturnMode, returnMode_written mode ordered hx intact]
  rfl

theorem takeMode_active {mode : ActiveMode} {r : Request} {q : WellRecord} (active : q.mode.isActive = true)
    (named : requestedMode r.value.toNat = some mode) (w : Well) : takeMode mode r.tag w q s =
    (changeMode mode.toMode false w s, done r.tag (r.value.setWidth 48)) := by
  rw [takeMode, if_neg (by simp [Mode.isParked, active]), (requestedMode_names named).1, single_toNat]

theorem changeMode_same {mode : Mode} {always : Bool} {w : Well} {r : WellRecord} (hr : s.record? w = some r)
    (same : r.mode = mode) : changeMode mode always w s = s := by
  simp [changeMode, hr, same]

theorem clamp_eq {lo hi v : Nat} (h : lo ≤ hi) : clamp lo hi v = max lo (min v hi) := by
  unfold clamp
  split
  · omega
  · split <;> omega

/-- The target on entry to a mode that MODE can name (R25, R34). -/
theorem entryTarget_requested {r : WellRecord} {mode : ActiveMode} (limits : r.valveMin ≤ r.valveMax)
    (named : mode = .auto ∨ mode = .manual ∨ mode = .isolated) : entryTarget mode.toMode r =
    if mode = .isolated then 0 else max r.valveMin (min r.valveTarget r.valveMax) := by
  rcases named with rfl | rfl | rfl
  · exact clamp_eq limits
  · exact clamp_eq limits
  · rfl

/-- A legal record has a RETURN_MODE exactly when it is parked, so a well stays that is neither RETIRING nor parked to
retire (R26, R33). -/
theorem isRetiring_iff {r : WellRecord} (legal : r.Legal) :
    r.isRetiring = true ↔ r.mode = .retiring ∨ r.returnMode = some .retiring := by
  obtain ⟨_, _, _, _, parked, _⟩ := legal
  unfold WellRecord.isRetiring
  by_cases h : r.returnMode = some .retiring
  · simp [h, parked.1 (by rw [h]; rfl)]
  · simp [h]

theorem notRetiring_of_active {r : WellRecord} (legal : r.Legal) (active : r.mode.isActive = true)
    (other : r.mode ≠ .retiring) : r.isRetiring = false := Bool.eq_false_iff.2 fun h =>
  ((isRetiring_iff legal).1 h).elim other fun e => by rw [returnMode_of_active legal active] at e; cases e

/-- Settles O37: each check in its order, and then the transition to the mode named. -/
theorem modeRequestActsByMode : Obligations.ModeRequestActsByMode := by
  intro r s w x legal reaches admits words
  have ⟨_, hx, intact⟩ := reaches
  have own : x.record.Legal := legal.2 _ (mem_of_well? hx).1
  rw [exec_modeRequest_reaches reaches admits words]
  refine ⟨fun safe => ?_, fun out unnamed => ?_, fun mode out named => ⟨fun retiring => ?_, fun parked stays => ?_,
    fun same => ?_, fun active other => ?_⟩⟩
  · rw [requestTaken_answered (x := refuse .safe r.tag) (if_pos safe)]
    rfl
  · rw [requestTaken_answered (x := refuse .badValue r.tag)]
    · rfl
    · simp [modeWell, out, requestedMode_none unnamed]
  · rw [requestTaken_answered (x := refuse .wrongMode r.tag)]
    · rfl
    · simp [modeWell, out, named, (isRetiring_iff own).2 retiring]
  · have isParked : x.record.mode.isParked = true := by rcases parked with h | h <;> rw [h] <;> rfl
    have notRetiring : x.record.isRetiring = false := Bool.eq_false_iff.2 fun h =>
      ((isRetiring_iff own).1 h).elim (fun e => by rw [e] at isParked; cases isParked) stays
    rw [requestTaken, modeWell_takes (s := closePort (advance s)) out named notRetiring w,
      takeMode_parked (s := closePort (advance s)) legal.1 hx intact isParked]
    rfl
  · have active : x.record.mode.isActive = true := same ▸ active_toMode mode
    have notRetiring : x.record.isRetiring = false := notRetiring_of_active own active
      (by rw [same]; rcases (requestedMode_names named).2 with rfl | rfl | rfl <;> decide)
    have taken := (modeWell_takes (s := closePort (advance s)) out named notRetiring w).trans
      (takeMode_active active named w)
    rw [changeMode_same (Reaches.record? (s := closePort (advance s)) reaches) same] at taken
    rw [requestTaken_answered taken]
    rfl
  · have names := (requestedMode_names named).2
    have isActive : x.record.mode.isActive = true := by rcases active with h | h | h | h <;> rw [h] <;> rfl
    have notRetiring : x.record.isRetiring = false := notRetiring_of_active own isActive
      (by rcases active with h | h | h | h <;> rw [h] <;> decide)
    have entered := changeMode_entered (s := closePort (advance s)) (always := false) (Reaches.record? reaches) isActive
      (active_toMode mode) other fun e => by rcases names with rfl | rfl | rfl <;> cases e
    have tame := changeMode_tame (s := closePort (advance s)) (always := false) (w := w) (active_toMode mode)
      fun q hq => by cases (Reaches.record? reaches).symm.trans hq; exact isActive
    rw [entered_eq _ _ (by rcases names with rfl | rfl | rfl <;> decide), entryTarget_requested own.1 names] at entered
    rw [requestTaken, modeWell_takes (s := closePort (advance s)) out named notRetiring w,
      takeMode_active isActive named w]
    have done := entered.answered (answerTo r (done r.tag (r.value.setWidth 48)))
    refine ⟨_, rfl, done.holds, fun closes => done.left (by rw [closes]; rfl), fun stays => done.kept ?_, ?_,
      done.others, done.frame, ?_⟩
    · rcases names with rfl | rfl | rfl
      · rfl
      · rfl
      · exact absurd rfl stays
    · rintro target rfl
      exact TargetTaken.of_before done.taken rfl rfl rfl ⟨rfl, rfl, rfl, rfl, rfl⟩ (by simp)
    · rw [fill_port, tame.port]
      rfl

end Sys2Proof.Machine
end

