-- ==== Sys2Proof/Proofs/Tunings.lean ====
section
/-! PROOF of TuningAdjustsAutoWells and TuningSuspectAndHotWells. An OK ending writes the sample first, as `SampleWritten`
says; what tuning makes of it is then one write with its target, one transition, or one count. -/

namespace Sys2Proof.Machine

variable {s t u : State} {w : Well}

/-! ### The other wells -/

theorem changeMode_others (mode : Mode) (always : Bool) (w : Well) (s : State) :
    s.OthersUpToMarks (changeMode mode always w s) w := by
  have written : s.OthersUpToMarks (modeWritten mode w s) w :=
    othersUpToMarks_trans (writeRecord_others _ w s) ((modeWritten_marksOf mode w s).marks.others w)
  cases hr : s.record? w with
  | none =>
    simp only [changeMode, hr]
    exact (Marks.refl s).others w
  | some r =>
    by_cases same : r.mode = mode
    · rw [changeMode_same hr same]
      exact (Marks.refl s).others w
    · rw [changeMode_eq hr same]
      split
      · exact othersUpToMarks_trans written (handTarget_others w _)
      · exact written

theorem writeAndHand_others (f : WellRecord → WellRecord) (w : Well) (s : State) :
    s.OthersUpToMarks (writeAndHand f w s) w := by
  unfold writeAndHand
  split
  · exact (Marks.refl s).others w
  · dsimp only
    split
    · exact writeRecord_others f w s
    · exact othersUpToMarks_trans (writeRecord_others f w s) (handTarget_others w _)

theorem tuneExcursion_others (w : Well) (r : WellRecord) (s : State) :
    s.OthersUpToMarks (tuneExcursion w r s) w := by
  refine othersUpToMarks_trans (writeRecord_others WellRecord.excursion w s) ?_
  unfold tuneExcursion
  dsimp only
  split
  · exact othersUpToMarks_trans (changeMode_others _ _ w _) ((reportFault_marks _ _ _ _).others w)
  · exact writeAndHand_others _ w _

theorem tuneQuiet_others (x : Sample) (w : Well) (r : WellRecord) (s : State) :
    s.OthersUpToMarks (tuneQuiet x w r s) w := by
  refine othersUpToMarks_trans (writeRecord_others (fun q => { q with excursions := 0 }) w s) ?_
  unfold tuneQuiet
  dsimp only
  split
  · exact writeAndHand_others _ w _
  · split
    · exact writeAndHand_others _ w _
    · exact (Marks.refl _).others w

theorem tuneSuspect_others (x : Sample) (w : Well) (r : WellRecord) (s : State) :
    s.OthersUpToMarks (tuneSuspect x w r s) w := by
  unfold tuneSuspect
  split
  · split
    · exact changeMode_others _ _ w s
    · exact writeRecord_others _ w s
  · exact writeRecord_others _ w s

theorem tuneAdjusted_others (x : Sample) (w : Well) (r : WellRecord) (s : State) :
    s.OthersUpToMarks (tuneAdjusted x w r s) w := by
  unfold tuneAdjusted
  split
  · split
    · exact tuneExcursion_others w r s
    · exact tuneQuiet_others x w r s
  · exact tuneSuspect_others x w r s
  all_goals exact (Marks.refl s).others w

theorem tune_others (x : Sample) (w : Well) (s : State) : s.OthersUpToMarks (tune x w s) w := by
  unfold tune
  split
  · exact (Marks.refl s).others w
  · rename_i r _
    split
    · have event : Marks s (if overCeiling x r then setWellEvent .oxygen w s else s) := by
        split
        · exact setWellEvent_marks _ _ _
        · exact .refl s
      refine othersUpToMarks_trans (event.others w) ?_
      unfold judge
      dsimp only
      generalize (if overCeiling x r then setWellEvent .oxygen w s else s) = u
      generalize (if overCeiling x r then hotReading r else none) = reading
      cases reading with
      | some temp => exact othersUpToMarks_trans (changeMode_others _ _ w _) ((reportFault_marks _ _ _ _).others w)
      | none =>
        dsimp only
        split
        · exact tuneAdjusted_others x w r _
        · exact (Marks.refl _).others w
    · exact (Marks.refl s).others w

/-! ### A report, and what it leaves -/

theorem reportFault_faultsAfter (k : FaultKind) (n : Nat) (d : Half) (s : State) :
    (reportFault k n d s).faults = s.faultsAfter k n d := by
  unfold State.faultsAfter
  split
  · rename_i e
    simp only [reportFault, e]
  · rename_i e
    rw [reportFault_faults k n d s e, FaultUnit.written]
    cases s.faults.first <;> rfl

theorem reportFault_stateAfter (k : FaultKind) (n : Nat) (d : Half) (s : State) :
    (reportFault k n d s).device.state = s.stateAfter k := by
  unfold State.stateAfter
  split
  · rename_i e
    exact reportFault_fatal k n d s e
  · rename_i e
    exact reportFault_state k n d s e

/-- A report that is not FATAL leaves the table and the lists. -/
theorem reportFault_still {k : FaultKind} (h : severityOf s.settings.severity k ≠ .fatal) (n : Nat) (d : Half) :
    (reportFault k n d s).slots = s.slots ∧ (reportFault k n d s).moves = s.moves := by
  unfold reportFault
  split
  · exact ⟨rfl, rfl⟩
  · exact ⟨rfl, rfl⟩
  · exact ⟨rfl, rfl⟩
  · exact absurd ‹_› h

/-! ### The sample written -/

/-- The state that tuning finds: the record `r` of the well with some event kinds, and the units tuning reads as they
were. -/
structure SampleWritten (w : Well) (r : WellRecord) (events : BitVec 8) (s u : State) : Prop where
  record   : u.record? w = some { r with events := events }
  moves    : u.moves = s.moves
  settings : u.settings = s.settings
  device   : u.device = s.device
  blend    : u.blend = s.blend
  faults   : u.faults = s.faults

theorem SampleWritten.event {r : WellRecord} {e : BitVec 8} (h : SampleWritten w r e s u) (k : WellEvent) :
    SampleWritten w r (e ||| k.bit) s (setWellEvent k w u) where
  record := by rw [record?_setWellEvent, if_pos rfl, h.record]; rfl
  moves := (setWellEvent_apart k w u).moves.trans h.moves
  settings := (setWellEvent_calm k w u).settings.trans h.settings
  device := (setWellEvent_device k w u).trans h.device
  blend := (setWellEvent_calm k w u).blend.trans h.blend
  faults := (setWellEvent_apart k w u).faults.trans h.faults

/-- The state an OK ending hands to tuning (R99, R124). -/
def sampleTaken (x : Sample) (w : Well) (s : State) : State :=
  setFailures none (setWellEvent .sample w
    (writeRecord (WellRecord.sampled x s.settings.suspectInterval) w (setPhase (.release w) s)))

theorem sampleTaken_written {r : WellRecord} (ch4 co2 o2 : Half) (hr : s.record? w = some r) :
    ∃ e, SampleWritten w (r.withSample ch4 co2 o2 s.settings.suspectInterval) e s
      (sampleTaken ⟨ch4.toNat, co2.toNat, o2.toNat⟩ w s) := by
  have written : SampleWritten w (r.withSample ch4 co2 o2 s.settings.suspectInterval) r.events s
      (writeRecord (WellRecord.sampled ⟨ch4.toNat, co2.toNat, o2.toNat⟩ s.settings.suspectInterval) w
        (setPhase (.release w) s)) :=
    { record := by rw [record?_writeRecord, if_pos rfl]; exact congrArg (Option.map _) hr
      moves := rfl, settings := rfl, device := rfl, blend := rfl, faults := rfl }
  obtain ⟨record, moves, settings, device, blend, faults⟩ := written.event .sample
  exact ⟨_, record, moves, settings, device, blend, faults⟩

theorem exec_values_taken {number : Byte} {ch4 co2 o2 : Half} (awaits : s.AwaitsReply w number)
    (plausibly : PlausibleValues ch4 co2 o2) : exec (.values number ch4 co2 o2) s =
    .next (tune ⟨ch4.toNat, co2.toNat, o2.toNat⟩ w (sampleTaken ⟨ch4.toNat, co2.toNat, o2.toNat⟩ w s)) := by
  obtain ⟨⟨n, phase⟩, number⟩ := awaits
  have within : plausible ch4 co2 o2 = true := by
    simp only [PlausibleValues] at plausibly
    simp only [plausible, Bool.and_eq_true, decide_eq_true_eq]
    simp only [Config.fullScale]
    omega
  show Host.Outcome.next (takeAnalyserFrame _ _ s) = _
  simp only [takeAnalyserFrame, number, if_true, phase, takeReadReply, takeValues, within]
  rfl

/-! ### What tuning reads -/

theorem adjusts_iff (s : State) (r : WellRecord) : s.adjusts r = true ↔ s.Adjusts r := by
  have low (l : Level) : ¬ l = .high ↔ l = .low := by cases l <;> simp
  unfold State.adjusts State.Adjusts WellRecord.inputHigh
  cases r.inputs with
  | none => simp
  | some p => simp [inputValue, low, and_assoc]

theorem roomToOpen_iff (s : State) (x : Sample) (r : WellRecord) : s.roomToOpen x r = true ↔
    r.ch4Floor + 500 ≤ x.ch4 ∧ x.o2 ≤ r.o2Ceiling / 2 ∧ (∃ v, r.vacuum = some v ∧ v < r.vacLimit) ∧
    s.blend.budget = .under := by
  unfold State.roomToOpen
  simp only [Bool.and_eq_true, decide_eq_true_eq, and_assoc]
  cases r.vacuum <;> simp [Config.openMargin]

/-- The judgment of a sample that is not a hot-well one and is under adjustment (R126, R128). -/
theorem judge_adjusted {x : Sample} {r : WellRecord} {o2 : Half} (ox : x.o2 = o2.toNat) (cool : ¬ r.Hot o2)
    (adjusts : s.Adjusts r) : judge x w r s =
    tuneAdjusted x w r (if overCeiling x r then setWellEvent .oxygen w s else s) := by
  have reading : (if overCeiling x r then hotReading r else none) = none := by
    split
    · rename_i exceeds
      unfold hotReading
      split
      · rfl
      · rename_i temp e
        refine if_neg fun hot => cool ⟨?_, temp, e, hot⟩
        simpa [overCeiling, ox] using exceeds
    · rfl
  have device : (if overCeiling x r then setWellEvent .oxygen w s else s).device = s.device := by
    split
    · exact setWellEvent_device _ _ _
    · rfl
  have still : (if overCeiling x r then setWellEvent .oxygen w s else s).adjusts r = true := by
    rw [adjusts_iff, State.Adjusts, device]
    exact adjusts
  unfold judge
  dsimp only
  rw [reading, still]
  rfl

/-- The judgment of a hot-well sample (R126, R127). -/
theorem judge_hot {x : Sample} {r : WellRecord} {o2 : Half} {temp : Int} (ox : x.o2 = o2.toNat) (hot : r.Hot o2)
    (reads : r.temp = some temp) : judge x w r s = tuneHot temp w (setWellEvent .oxygen w s) := by
  obtain ⟨exceeds, t, e, limit⟩ := hot
  cases reads.symm.trans e
  have above : overCeiling x r = true := by simpa [overCeiling, ox] using exceeds
  simp [judge, above, hotReading, reads, limit]

/-! ### A write with its target -/

/-- A write of an active well that is not retiring, whose target is handed when it takes another value. -/
theorem writeAndHand_taken {f : WellRecord → WellRecord} {r : WellRecord} (hr : s.record? w = some r)
    (active : (f r).mode.isActive = true) (stays : (f r).mode ≠ .retiring) :
    (writeAndHand f w s).HoldsUpToMarks w (f r) ∧
    s.TargetTaken (writeAndHand f w s) w ((f r).valveTarget ≠ r.valveTarget) (f r) ∧
    (writeAndHand f w s).faults = s.faults ∧ (writeAndHand f w s).device.state = s.device.state := by
  have written : (writeRecord f w s).record? w = some (f r) := by rw [record?_writeRecord, if_pos rfl, hr]; rfl
  have calm := handTarget_calm written active fun e => absurd e stays
  refine ⟨(writeAndHand_marks hr stays).1, ?_⟩
  unfold writeAndHand
  rw [hr]
  dsimp only
  split
  · rename_i same
    exact ⟨targetTaken_none (not_not.2 same) rfl fun q hq => by cases written.symm.trans hq; exact ⟨rfl, rfl⟩, rfl, rfl⟩
  · rename_i other
    refine ⟨?_, calm.faults, calm.state⟩
    exact TargetTaken.of_before (handTarget_taken written active (fun e => absurd e stays) other) rfl rfl rfl
      ⟨rfl, rfl, rfl, rfl, rfl⟩ .rfl

theorem aimed_within {r : WellRecord} (limits : r.valveMin ≤ r.valveMax) (target : Nat) :
    r.aimed target = { r with valveTarget := r.within target } := by
  rw [WellRecord.aimed, clamp_eq limits]
  rfl

/-! ### What tuning does by the mode -/

/-- What tuning leaves of the well when it hands a target, or none, and reports nothing. -/
structure Tuned (handed : Prop) (w : Well) (r : WellRecord) (s t : State) : Prop where
  holds  : t.HoldsUpToMarks w r
  taken  : s.TargetTaken t w handed r
  faults : t.faults = s.faults
  state  : t.device.state = s.device.state

/-- A write that leaves the target and the marks is all that is done. -/
theorem writeRecord_tuned {f : WellRecord → WellRecord} {p : WellRecord} {handed : Prop}
    (hp : u.record? w = some p) (no : ¬ handed) : Tuned handed w (f p) u (writeRecord f w u) := by
  have written : (writeRecord f w u).record? w = some (f p) := by rw [record?_writeRecord, if_pos rfl, hp]; rfl
  exact ⟨holdsUpToMarks_self written,
    targetTaken_none no rfl fun q hq => by cases written.symm.trans hq; exact ⟨rfl, rfl⟩, rfl, rfl⟩

/-- A write whose target is aimed within the limits of an AUTO well, after a write that keeps the target (R132). -/
theorem aimed_tuned {f : WellRecord → WellRecord} {g : WellRecord → Nat} {p : WellRecord} (hp : u.record? w = some p)
    (kept : (f p).valveTarget = p.valveTarget) (auto : (f p).mode = .auto) (limits : (f p).valveMin ≤ (f p).valveMax) :
    Tuned ((f p).within (g (f p)) ≠ p.valveTarget) w { f p with valveTarget := (f p).within (g (f p)) } u
      (writeAndHand (fun q => q.aimed (g q)) w (writeRecord f w u)) := by
  have written : (writeRecord f w u).record? w = some (f p) := by rw [record?_writeRecord, if_pos rfl, hp]; rfl
  have mode : ((f p).aimed (g (f p))).mode = .auto := auto
  obtain ⟨holds, taken, faults, state⟩ := writeAndHand_taken (f := fun q => q.aimed (g q)) written
    (by rw [mode]; rfl) (by rw [mode]; decide)
  rw [aimed_within limits] at holds taken
  exact ⟨holds, TargetTaken.of_before taken rfl rfl rfl ⟨rfl, rfl, rfl, rfl, rfl⟩ (by rw [kept]), faults, state⟩

/-- An excursion that is not the third lowers the target (R129). -/
theorem tuneExcursion_lowers {p : WellRecord} (hp : u.record? w = some p) (auto : p.mode = .auto)
    (limits : p.valveMin ≤ p.valveMax) (few : p.excursions < 2) :
    Tuned (p.within (p.valveTarget - 2 * p.step) ≠ p.valveTarget) w
      { p with valveTarget := p.within (p.valveTarget - 2 * p.step), excursions := p.excursions + 1, clean := 0 } u
      (tuneExcursion w p u) := by
  have count : p.excursion = { p with excursions := p.excursions + 1, clean := 0 } := by
    rw [WellRecord.excursion, Nat.min_eq_left (by omega)]
  have lowers : tuneExcursion w p u = _ := if_neg (show ¬ 3 ≤ p.excursions + 1 by omega)
  have tuned := aimed_tuned (f := WellRecord.excursion) (g := fun q => q.valveTarget - 2 * q.step) hp rfl auto limits
  rw [count] at tuned
  rw [lowers]
  exact tuned

/-- A report that follows a transition leaves it as it is, unless it is FATAL (R151). -/
theorem Entered.reported {mode : Mode} {handed : Prop} {q : WellRecord} (h : Entered mode handed w q s u)
    (k : FaultKind) (n : Nat) (d : Half) : (reportFault k n d u).HoldsUpToMarks w q ∧
    (severityOf s.settings.severity k ≠ .fatal → s.TargetTaken (reportFault k n d u) w handed q) ∧
    (reportFault k n d u).faults = s.faultsAfter k n d ∧ (reportFault k n d u).device.state = s.stateAfter k := by
  have settings : u.settings = s.settings := h.frame.1
  refine ⟨holdsUpToMarks_trans h.holds (reportFault_marks k n d u), fun severe => ?_, ?_, ?_⟩
  · obtain ⟨slots, moves⟩ := reportFault_still (s := u) (by rw [settings]; exact severe) n d
    exact TargetTaken.then (n := false) h.taken moves (marksOf_of_slots slots)
  · rw [reportFault_faultsAfter, State.faultsAfter, State.faultsAfter, settings, h.faults]
  · rw [reportFault_stateAfter, State.stateAfter, State.stateAfter, settings, h.state]

/-- A write of the well's record before a transition, seen with it. -/
theorem Entered.after_write {mode : Mode} {handed handed' : Prop} {q : WellRecord} {f : WellRecord → WellRecord}
    (h : Entered mode handed' w q (writeRecord f w s) t) (hand : handed' ↔ handed) : Entered mode handed w q s t where
  holds := h.holds
  others := othersUpToMarks_trans (writeRecord_others f w s) h.others
  left := h.left
  kept := h.kept
  taken := TargetTaken.of_before h.taken rfl rfl rfl ⟨rfl, rfl, rfl, rfl, rfl⟩ hand
  frame := h.frame
  state := h.state
  faults := h.faults

/-- The third excursion takes the well into SUSPECT, and is reported (R37, R129). -/
theorem tuneExcursion_suspects {p : WellRecord} (hp : u.record? w = some p) (auto : p.mode = .auto)
    (third : 2 ≤ p.excursions) : ∃ t, tuneExcursion w p u = reportFault .oxygenSuspect w.tag 0 t ∧
    Entered .suspect (p.valveMin ≠ p.valveTarget) w
      { p with mode := .suspect, valveTarget := p.valveMin, excursions := 3, clean := 0,
               surveyDue := min p.surveyDue u.settings.suspectInterval } u t := by
  have count : p.excursion = { p with excursions := 3, clean := 0 } := by
    rw [WellRecord.excursion, Nat.min_eq_right (by omega)]
  have written : (writeRecord WellRecord.excursion w u).record? w = some p.excursion := by
    rw [record?_writeRecord, if_pos rfl, hp]; rfl
  have suspects : tuneExcursion w p u = _ := if_pos (show 3 ≤ p.excursions + 1 by omega)
  have mode : p.excursion.mode = .auto := auto
  have record : p.excursion.entered .suspect u.settings.suspectInterval =
      { p with mode := .suspect, valveTarget := p.valveMin, excursions := 3, clean := 0,
               surveyDue := min p.surveyDue u.settings.suspectInterval } := by
    rw [count, WellRecord.entered, WellRecord.departed, if_neg (by simp [auto])]
    rfl
  have entered := changeMode_entered (mode := .suspect) (always := false) written (by rw [mode]; rfl) rfl
    (by rw [mode]; decide) nofun
  rw [show (writeRecord WellRecord.excursion w u).settings = u.settings from rfl, record] at entered
  exact ⟨_, suspects, entered.after_write (by simp [WellRecord.excursion])⟩

/-- A sample of an AUTO well that is no excursion aims the target by the methane and the room to open (R130, R131). -/
theorem tuneQuiet_tuned {p : WellRecord} (x : Sample) (hp : u.record? w = some p) (auto : p.mode = .auto)
    (limits : p.valveMin ≤ p.valveMax) : ∀ target, target = (if x.ch4 < p.ch4Floor then p.within (p.valveTarget - p.step)
      else if u.roomToOpen x p then p.within (p.valveTarget + p.step) else p.valveTarget) →
    Tuned (target ≠ p.valveTarget) w { p with excursions := 0, valveTarget := target } u (tuneQuiet x w p u) := by
  rintro target rfl
  unfold tuneQuiet
  dsimp only
  split
  · exact aimed_tuned (f := fun q => { q with excursions := 0 }) (g := fun q => q.valveTarget - q.step) hp rfl auto limits
  split
  · exact aimed_tuned (f := fun q => { q with excursions := 0 }) (g := fun q => q.valveTarget + q.step) hp rfl auto limits
  · exact writeRecord_tuned (f := fun q => { q with excursions := 0 }) hp (not_not.2 rfl)

/-- A SUSPECT sample counts, clears the count, or at the third clean one returns the well to AUTO, whose target is that of
SUSPECT (R37, R133). -/
theorem tuneSuspect_tuned {p : WellRecord} (x : Sample) (hp : u.record? w = some p) (suspect : p.mode = .suspect)
    (limits : p.valveMin ≤ p.valveMax) (target : p.valveTarget = p.valveMin) : ∃ q, Tuned False w q u (tuneSuspect x w p u) ∧
    q = if x.o2 ≤ p.o2Ceiling / 2 then
        if 2 ≤ p.clean then { p with mode := .auto, valveTarget := p.valveMin, excursions := 0, clean := 0 }
        else { p with clean := p.clean + 1 }
      else { p with clean := 0 } := by
  have third : 3 ≤ p.clean + 1 ↔ 2 ≤ p.clean := by omega
  refine ⟨_, ?_, rfl⟩
  unfold tuneSuspect
  rw [if_congr third rfl rfl]
  split
  · split
    · have record : p.entered .auto u.settings.suspectInterval =
          { p with mode := .auto, valveTarget := p.valveMin, excursions := 0, clean := 0 } := by
        have aims : entryTarget .auto p = p.valveMin := by
          show clamp p.valveMin p.valveMax p.valveTarget = _
          rw [clamp_eq limits, target]
          omega
        rw [entered_eq _ _ (by decide), aims, if_pos suspect, if_pos suspect]
      have entered := changeMode_entered (mode := .auto) (always := false) hp (by rw [suspect]; rfl) rfl
        (by rw [suspect]; decide) nofun
      rw [record] at entered
      exact ⟨entered.holds, TargetTaken.of_before entered.taken rfl rfl rfl ⟨rfl, rfl, rfl, rfl, rfl⟩ (by simp [target]),
        entered.faults, entered.state⟩
    · exact writeRecord_tuned (f := fun q => { q with clean := q.clean + 1 }) hp id
  · exact writeRecord_tuned (f := fun q => { q with clean := 0 }) hp id

/-- A hot-well sample takes the well into ISOLATED, and is reported (R38, R127). -/
theorem tuneHot_isolates {p : WellRecord} (temp : Int) (hp : u.record? w = some p)
    (sampled : p.mode = .auto ∨ p.mode = .manual ∨ p.mode = .suspect) :
    ∃ t, tuneHot temp w u = reportFault .hotWell w.tag (BitVec.ofInt 16 temp) t ∧
    Entered .isolated (p.valveTarget ≠ 0) w
      { p with mode := .isolated, valveTarget := 0,
               excursions := if p.mode = .suspect then 0 else p.excursions,
               clean := if p.mode = .suspect then 0 else p.clean } u t := by
  have active : p.mode.isActive = true := by rcases sampled with h | h | h <;> rw [h] <;> rfl
  have other : p.mode ≠ .isolated := by rcases sampled with h | h | h <;> rw [h] <;> decide
  have entered := changeMode_entered (mode := .isolated) (always := false) hp active rfl other nofun
  rw [entered_eq _ _ (by decide)] at entered
  refine ⟨_, rfl, { entered with taken := ?_ }⟩
  exact TargetTaken.of_before entered.taken rfl rfl rfl ⟨rfl, rfl, rfl, rfl, rfl⟩ (by simp [entryTarget, eq_comm])

/-- The judgment reaches a well of a sampled mode (R124). -/
theorem tune_judges {p : WellRecord} (x : Sample) (hp : u.record? w = some p) (sampled : p.mode.isSampled = true) :
    tune x w u = judge x w p u := by
  simp [tune, hp, sampled]

/-- A VALUES reply changes no other well but in its marks. -/
theorem tune_sampleTaken_others (x : Sample) (w : Well) (s : State) :
    s.OthersUpToMarks (tune x w (sampleTaken x w s)) w :=
  othersUpToMarks_trans (othersUpToMarks_trans (writeRecord_others _ w (setPhase (.release w) s))
    (((setWellEvent_marks _ _ _).trans (setFailures_marks none _)).others w)) (tune_others x w _)

/-- A VALUES reply under adjustment is judged by the mode, with the OXYGEN event set over the ceiling (R126, R128). -/
theorem tune_sampleTaken_adjusted {r : WellRecord} {ch4 co2 o2 : Half} {x : Sample}
    (ex : x = ⟨ch4.toNat, co2.toNat, o2.toNat⟩) (hr : s.record? w = some r)
    (sampled : r.mode.isSampled = true) (adjusts : s.Adjusts r) (cool : ¬ r.Hot o2) : ∃ e u,
    SampleWritten w (r.withSample ch4 co2 o2 s.settings.suspectInterval) e s u ∧
    tune x w (sampleTaken x w s) =
      tuneAdjusted x w { r.withSample ch4 co2 o2 s.settings.suspectInterval with events := e } u := by
  subst ex
  obtain ⟨e, written⟩ := sampleTaken_written ch4 co2 o2 hr
  have judged := judge_adjusted (w := w) (s := sampleTaken ⟨ch4.toNat, co2.toNat, o2.toNat⟩ w s)
    (x := ⟨ch4.toNat, co2.toNat, o2.toNat⟩)
    (r := { r.withSample ch4 co2 o2 s.settings.suspectInterval with events := e }) rfl cool
    (by rw [State.Adjusts, written.device]; exact adjusts)
  rw [tune_judges _ written.record sampled, judged]
  split
  · exact ⟨_, _, written.event .oxygen, rfl⟩
  · exact ⟨e, _, written, rfl⟩

theorem overCeiling_iff (x : Sample) (r : WellRecord) : overCeiling x r = true ↔ r.o2Ceiling < x.o2 := by
  simp [overCeiling]

theorem tuneAdjusted_over {x : Sample} {p : WellRecord} (auto : p.mode = .auto) (above : p.o2Ceiling < x.o2) :
    tuneAdjusted x w p u = tuneExcursion w p u := by
  simp only [tuneAdjusted, auto, if_pos ((overCeiling_iff x p).2 above)]

theorem tuneAdjusted_quiet {x : Sample} {p : WellRecord} (auto : p.mode = .auto) (below : x.o2 ≤ p.o2Ceiling) :
    tuneAdjusted x w p u = tuneQuiet x w p u := by
  have quiet : ¬ overCeiling x p = true := fun above => absurd ((overCeiling_iff x p).1 above) (by omega)
  simp only [tuneAdjusted, auto, if_neg quiet]

theorem tuneAdjusted_suspect {x : Sample} {p : WellRecord} (suspect : p.mode = .suspect) :
    tuneAdjusted x w p u = tuneSuspect x w p u := by
  simp only [tuneAdjusted, suspect]

/-! ### From the state before the sample -/

section
variable {r p : WellRecord} {e : BitVec 8} (h : SampleWritten w p e s u)
include h

theorem SampleWritten.taken {handed handed' : Prop} {q : WellRecord} (taken : u.TargetTaken t w handed' q)
    (record : q.inputs = r.inputs ∧ q.valveFeedback = r.valveFeedback ∧ q.valveTarget = r.valveTarget ∧
      q.moveState = r.moveState ∧ q.moveOutcome = r.moveOutcome) (hand : handed' ↔ handed) :
    s.TargetTaken t w handed r :=
  TargetTaken.of_before taken h.moves h.settings (by rw [h.device]) record hand

theorem SampleWritten.faultsAfter (k : FaultKind) (n : Nat) (d : Half) : u.faultsAfter k n d = s.faultsAfter k n d := by
  rw [State.faultsAfter, State.faultsAfter, h.settings, h.faults]

theorem SampleWritten.stateAfter (k : FaultKind) : u.stateAfter k = s.stateAfter k := by
  rw [State.stateAfter, State.stateAfter, h.settings, h.device]

end

/-! ### The two statements -/

/-- Settles O53: an excursion lowers the target or suspects the well, and any other sample aims it. -/
theorem tuningAdjustsAutoWells : Obligations.TuningAdjustsAutoWells := by
  rintro s w r number ch4 co2 o2 lim legal hr awaits plausibly auto adjusts cool rfl
  obtain ⟨y, hy, own⟩ := record?_eq_some.1 hr
  have limits : r.valveMin ≤ r.valveMax := own ▸ (legal.2 _ (mem_of_well? hy).1).1
  obtain ⟨e, u, written, tuned⟩ := tune_sampleTaken_adjusted rfl hr (by rw [auto]; rfl) adjusts cool
  have running : u.device.state = .run := by rw [written.device]; exact adjusts.1
  refine ⟨_, exec_values_taken awaits plausibly, tune_sampleTaken_others _ w s, fun above few => ?_,
    fun above third => ?_, fun below => ?_⟩
  · rw [tuned.trans (tuneAdjusted_over auto above)]
    obtain ⟨holds, taken, faults, state⟩ := tuneExcursion_lowers written.record auto limits few
    refine ⟨holds, ?_, faults.trans written.faults, state.trans running⟩
    rintro target rfl
    exact written.taken taken ⟨rfl, rfl, rfl, rfl, rfl⟩ .rfl
  · rw [tuned.trans (tuneAdjusted_over auto above)]
    obtain ⟨v, suspects, entered⟩ := tuneExcursion_suspects written.record auto third
    obtain ⟨holds, taken, faults, state⟩ := entered.reported .oxygenSuspect w.tag 0
    rw [suspects]
    rw [written.faultsAfter] at faults
    rw [written.stateAfter] at state
    have due : (r.withSample ch4 co2 o2 s.settings.suspectInterval).surveyDue = r.surveyInterval :=
      if_neg (by simp [auto])
    rw [written.settings] at holds taken
    simp only [due] at holds
    exact ⟨holds, fun severe => written.taken (taken severe) ⟨rfl, rfl, rfl, rfl, rfl⟩ .rfl, faults, state⟩
  · rw [tuned.trans (tuneAdjusted_quiet auto below)]
    obtain ⟨_, _, faults, state⟩ := tuneQuiet_tuned _ written.record auto limits _ rfl
    refine ⟨faults.trans written.faults, state.trans running, fun target aimed => ?_⟩
    have room := roomToOpen_iff u ⟨ch4.toNat, co2.toNat, o2.toNat⟩ r
    rw [written.blend] at room
    obtain ⟨holds, taken, _, _⟩ := tuneQuiet_tuned ⟨ch4.toNat, co2.toNat, o2.toNat⟩ written.record auto limits target
      (aimed.trans (if_congr .rfl rfl (if_congr room.symm rfl rfl)))
    exact ⟨holds, written.taken taken ⟨rfl, rfl, rfl, rfl, rfl⟩ .rfl⟩

/-- Settles O54: a SUSPECT sample counts, clears or returns, and a hot-well sample isolates. -/
theorem tuningSuspectAndHotWells : Obligations.TuningSuspectAndHotWells := by
  rintro s w r number ch4 co2 o2 lim legal hr awaits plausibly rfl
  obtain ⟨y, hy, own⟩ := record?_eq_some.1 hr
  obtain ⟨limits, _, _, ⟨_, target, _⟩, _⟩ := own ▸ legal.2 _ (mem_of_well? hy).1
  refine ⟨_, exec_values_taken awaits plausibly, tune_sampleTaken_others _ w s, fun suspect adjusts cool => ?_,
    fun temp sampled reads hot => ?_⟩
  · obtain ⟨e, u, written, tuned⟩ := tune_sampleTaken_adjusted rfl hr (by rw [suspect]; rfl) adjusts cool
    rw [tuned.trans (tuneAdjusted_suspect suspect)]
    obtain ⟨q, ⟨holds, taken, faults, _⟩, counted⟩ := tuneSuspect_tuned ⟨ch4.toNat, co2.toNat, o2.toNat⟩
      written.record suspect limits (target suspect)
    have still : q.inputs = r.inputs ∧ q.valveFeedback = r.valveFeedback ∧ q.valveTarget = r.valveTarget ∧
        q.moveState = r.moveState ∧ q.moveOutcome = r.moveOutcome := by
      rw [counted]
      split
      · split
        · exact ⟨rfl, rfl, (target suspect).symm, rfl, rfl⟩
        · exact ⟨rfl, rfl, rfl, rfl, rfl⟩
      · exact ⟨rfl, rfl, rfl, rfl, rfl⟩
    refine ⟨faults.trans written.faults, written.taken taken still .rfl,
      fun clean third => ?_, fun clean few => ?_, fun dirty => ?_⟩
    · rw [counted.trans ((if_pos clean).trans (if_pos third))] at holds
      exact holds
    · rw [counted.trans ((if_pos clean).trans (if_neg (show ¬ 2 ≤ r.clean by omega)))] at holds
      exact holds
    · rw [counted.trans (if_neg (show ¬ o2.toNat ≤ r.o2Ceiling / 2 by omega))] at holds
      exact holds
  · have isSampled : r.mode.isSampled = true := by rcases sampled with h | h | h <;> rw [h] <;> rfl
    obtain ⟨e, sample⟩ := sampleTaken_written ch4 co2 o2 hr
    have written := sample.event .oxygen
    obtain ⟨v, isolates, entered⟩ := tuneHot_isolates temp written.record sampled
    obtain ⟨holds, taken, faults, state⟩ := entered.reported .hotWell w.tag (BitVec.ofInt 16 temp)
    have judged := tune_judges ⟨ch4.toNat, co2.toNat, o2.toNat⟩ sample.record isSampled
    rw [judged.trans ((judge_hot rfl hot reads).trans isolates)]
    rw [written.faultsAfter] at faults
    rw [written.stateAfter] at state
    rw [written.settings] at taken
    exact ⟨holds, fun severe => written.taken (taken severe) ⟨rfl, rfl, rfl, rfl, rfl⟩ .rfl, faults, state⟩

end Sys2Proof.Machine
end

