-- ==== Sys2Proof/Proofs/RoundGoesOn.lean ====
section
/-! PROOF that a round goes on as `State.SendsNext` says. The station table fits the slots as long as each slot keeps its
place, and the turn of a station comes in a state whose station table fits. -/

namespace Sys2Proof.Machine

variable {s t u : State}

/-! ### The places of the slots -/

/-- The number of an occupied slot with its tag, its station address and its channel. -/
def placeOf (p : Nat × Slot) : Nat × Nat × Nat × Nat := (p.1, p.2.tag, p.2.address, p.2.channel)

def State.places (s : State) : List (Nat × Nat × Nat × Nat) := s.slots.map placeOf

theorem changeSlot_places {f : Slot → Slot} (keeps : ∀ x, (f x).tag = x.tag ∧ (f x).address = x.address ∧
    (f x).channel = x.channel) (w : Well) (s : State) : (changeSlot f w s).places = s.places := by
  simp only [State.places, changeSlot_slots, List.map_map]
  refine List.map_congr_left fun p _ => ?_
  by_cases e : isWell w p = true
  · simp only [Function.comp, e, if_true, placeOf, keeps]
  · simp only [Function.comp, e]
    rfl

theorem writeRecord_places (f : WellRecord → WellRecord) (w : Well) (s : State) :
    (writeRecord f w s).places = s.places :=
  changeSlot_places (f := Slot.write f) (fun _ => ⟨rfl, rfl, rfl⟩) w s

theorem setWellEvent_places (k : WellEvent) (w : Well) (s : State) : (setWellEvent k w s).places = s.places := by
  have slots : (setWellEvent k w s).slots = (writeRecord (addEvent k) w s).slots := wakeTest_slots k w _
  rw [State.places, slots]
  exact writeRecord_places _ w s

theorem takeUpMode_places (w : Well) (s : State) : (takeUpMode w s).places = s.places := by
  unfold takeUpMode
  split
  · rfl
  · split
    · exact (setWellEvent_places _ w _).trans (writeRecord_places _ w s)
    · rfl

theorem detectLevels_places (w : Well) (s : State) : (detectLevels w s).places = s.places := by
  unfold detectLevels
  split
  · rfl
  · split
    · rfl
    · refine List.foldlRecOn (motive := fun t : State => t.places = s.places) _ _ rfl fun t same i _ => ?_
      split
      · exact (setWellEvent_places _ w t).trans same
      · exact same

theorem levelDetection_places (s : State) : (levelDetection s).places = s.places := by
  unfold levelDetection
  split
  · rfl
  · exact forEach_same State.places detectLevels_places _ s
  · exact forEach_same State.places detectLevels_places _ s

theorem finishRound_places (s : State) : (finishRound s).places = s.places := by
  rw [State.places, show (finishRound s).slots = (levelDetection _).slots from blendRoundEnd_slots _]
  exact levelDetection_places _

/-- A slot of the one table has a slot of the other at its place. -/
theorem place_of_places (places : t.places = s.places) {p : Nat × Slot} (hp : p ∈ t.slots) : ∃ q ∈ s.slots,
    wellOf q = wellOf p ∧ q.2.address = p.2.address ∧ q.2.channel = p.2.channel := by
  have mem : placeOf p ∈ s.places := by rw [← places]; exact List.mem_map_of_mem hp
  obtain ⟨q, hq, e⟩ := List.mem_map.1 mem
  simp only [placeOf, Prod.mk.injEq] at e
  obtain ⟨number, tag, address, channel⟩ := e
  exact ⟨q, hq, by rw [wellOf, wellOf, number, tag], address, channel⟩

theorem pairwise_of_places {R : Nat × Nat × Nat × Nat → Nat × Nat × Nat × Nat → Prop} (places : t.places = s.places)
    (h : s.slots.Pairwise fun p q => R (placeOf p) (placeOf q)) :
    t.slots.Pairwise fun p q => R (placeOf p) (placeOf q) := by
  rw [← List.pairwise_map] at h ⊢
  rw [State.places, State.places] at places
  rw [places]
  exact h

theorem slotsOrdered_of_places (places : t.places = s.places) (h : s.SlotsOrdered) : t.SlotsOrdered := by
  refine ⟨pairwise_of_places (R := fun p q => p.1 < q.1) places h.1, fun p hp => ?_⟩
  obtain ⟨q, hq, same, _⟩ := place_of_places places hp
  rw [← show q.1 = p.1 from congrArg Well.slot same]
  exact h.2 q hq

/-- While the slots keep their places and the stations their addresses and channels, the station table is that of the
slots as long as no ACTIVE station has a parked well (R46). -/
theorem StationsLegal.of_places {f : StationRecord → StationRecord} (legal : s.StationsLegal) (places : t.places = s.places)
    (stations : t.scan.stations = s.scan.stations.map f) (keeps : ∀ x ∈ s.scan.stations, (f x).address = x.address ∧
      (f x).failures ≤ Config.maxFailures ∧ (f x).channels.map (fun c => c.channel) = x.channels.map fun c => c.channel)
    (active : ∀ x ∈ s.scan.stations, (f x).state = .active → ∀ p ∈ t.slots, p.2.address = x.address →
      p.2.record.mode.isActive = true) : t.StationsLegal := by
  obtain ⟨ordered, ⟨above, nonempty⟩, apart, covered, each⟩ := legal
  refine ⟨slotsOrdered_of_places places ordered, ⟨?_, ?_⟩,
    pairwise_of_places (R := fun p q => ¬ (p.2.2.1 = q.2.2.1 ∧ p.2.2.2 = q.2.2.2)) places apart, fun p hp => ?_, ?_⟩
  · rw [stations, List.pairwise_map]
    exact above.imp_of_mem fun hx hy lt => by rw [(keeps _ hx).1, (keeps _ hy).1]; exact lt
  · rw [stations, List.forall_mem_map]
    intro x hx none
    have empty := congrArg (List.map fun c : StationChannel => c.channel) none
    rw [(keeps x hx).2.2] at empty
    exact nonempty x hx (List.map_eq_nil_iff.1 empty)
  · obtain ⟨q, hq, _, address, channel⟩ := place_of_places places hp
    obtain ⟨x, hx, hxa, c, hc, hcc⟩ := covered q hq
    obtain ⟨own, _, same⟩ := keeps x hx
    have mem : c.channel ∈ (f x).channels.map fun c => c.channel := same ▸ List.mem_map_of_mem hc
    obtain ⟨d, hd, e⟩ := List.mem_map.1 mem
    exact ⟨f x, stations ▸ List.mem_map_of_mem hx, by rw [own, hxa, address], d, hd, by rw [e, hcc, channel]⟩
  · rw [stations, List.forall_mem_map]
    intro x hx
    obtain ⟨own, failures, same⟩ := keeps x hx
    obtain ⟨_, ascends, held, _⟩ := each x hx
    refine ⟨failures, ?_, fun c hc => ?_, fun h p hp e => active x hx h p hp (e.trans own)⟩
    · rw [← List.pairwise_map (f := fun c : StationChannel => c.channel)] at ascends ⊢
      exact same ▸ ascends
    · have mem : c.channel ∈ x.channels.map fun c => c.channel := same ▸ List.mem_map_of_mem hc
      obtain ⟨d, hd, e⟩ := List.mem_map.1 mem
      obtain ⟨p, hp, address, channel⟩ := held d hd
      obtain ⟨q, hq, _, qa, qc⟩ := place_of_places places.symm hp
      exact ⟨q, hq, by rw [qa, address, own], by rw [qc, channel, e]⟩

/-! ### The end of a round -/

theorem blendRoundEnd_scan (s : State) : (blendRoundEnd s).scan = s.scan := by
  have budget (t : State) : (formBudget t).scan = t.scan := by
    unfold formBudget
    dsimp only
    split <;> rfl
  have permit (t : State) : (stepPermit t).scan = t.scan := by
    unfold stepPermit
    split <;> split <;> rfl
  exact (permit _).trans (budget _)

theorem finishRound_scan (s : State) :
    (finishRound s).scan = { s.scan with inFlight := none, round := .idle } :=
  (blendRoundEnd_scan _).trans (levelDetection_calm _).scan

/-- A round end forms FIELD_FLOW of the records as they stand (R140). -/
theorem finishRound_flow (s : State) :
    (finishRound s).blend.fieldFlow = ((finishRound s).slots.map fun p => p.2.record.flow.getD 0).sum := by
  have budget (t : State) : (formBudget t).blend.fieldFlow = t.fieldFlowNow := by
    unfold formBudget
    dsimp only
    split <;> rfl
  have permit (t : State) : (stepPermit t).blend.fieldFlow = t.blend.fieldFlow := by
    unfold stepPermit
    split <;> split <;> rfl
  have formed (t : State) : (blendRoundEnd t).blend.fieldFlow = t.fieldFlowNow := (permit _).trans (budget _)
  rw [show (finishRound s).slots = (levelDetection _).slots from blendRoundEnd_slots _]
  refine (formed _).trans ?_
  rw [State.fieldFlowNow, State.records, List.map_map]
  rfl

/-- A round end leaves the station table that of the slots. -/
theorem finishRound_stationsLegal (legal : s.StationsLegal) : (finishRound s).StationsLegal := by
  have places := finishRound_places s
  have ordered := slotsOrdered_of_places places legal.1
  obtain ⟨_, _, _, _, each⟩ := id legal
  refine StationsLegal.of_places (f := id) legal places (by rw [finishRound_scan, List.map_id]) 
    (fun x hx => ⟨rfl, (each x hx).1, rfl⟩)
    fun x hx h p hp address => ?_
  · obtain ⟨q, hq, same, address', _⟩ := place_of_places places hp
    obtain ⟨_, _, _, active⟩ := each x hx
    have before : s.record? (wellOf p) = some q.2.record := by
      rw [← same, State.record?, well?_wellOf legal.1 hq]; rfl
    obtain ⟨r, hr, e⟩ := (finishRound_marks s).holds _ _ before
    rw [State.record?, well?_wellOf ordered hp] at hr
    rw [show p.2.record = r from Option.some.inj hr, e]
    exact active h q hq (address'.trans address)

/-! ### The next station -/

/-- The first station above an address of an ascending table is the next one (R52). -/
theorem nextStation?_eq {a : Nat} {x : StationRecord} (ordered : s.StationsOrdered) (hx : x ∈ s.scan.stations)
    (above : a < x.address) (least : ∀ y ∈ s.scan.stations, a < y.address → x.address ≤ y.address) :
    s.nextStation? (some a) = some x := by
  have found : ∀ l : List StationRecord, l.Pairwise (fun x y => x.address < y.address) → x ∈ l →
      (∀ y ∈ l, a < y.address → x.address ≤ y.address) → l.find? (fun y => decide (a < y.address)) = some x := by
    intro l ascend hx least
    induction l with
    | nil => cases hx
    | cons y l ih =>
      obtain ⟨first, rest⟩ := List.pairwise_cons.1 ascend
      rcases List.mem_cons.1 hx with e | hx
      · rw [List.find?_cons_of_pos (by simpa [← e] using above), e]
      · have lt := first x hx
        rw [List.find?_cons_of_neg]
        · exact ih rest hx fun z hz => least z (List.mem_cons_of_mem _ hz)
        · simp only [decide_eq_true_eq]
          intro h
          exact absurd (least y (List.mem_cons_self ..) h) (by omega)
  exact found _ ordered.1 hx least

theorem nextStation?_none {a : Nat} (h : ∀ x ∈ s.scan.stations, x.address ≤ a) : s.nextStation? (some a) = none := by
  rw [State.nextStation?, List.find?_eq_none]
  intro x hx
  simpa using h x hx

theorem visitNext_above {a : Nat} {x : StationRecord} (round : s.scan.round = .running (some a))
    (next : s.nextStation? (some a) = some x) : visitNext s = sendTo x s := by
  simp only [visitNext, round, next]

theorem visitNext_over {a : Nat} (round : s.scan.round = .running (some a)) (next : s.nextStation? (some a) = none) :
    visitNext s = if s.device.state = .standby then finishRound s else beginRound (finishRound s) := by
  have state : (finishRound s).device.state = s.device.state := (finishRound_apart s).state
  simp only [visitNext, round, next, state]
  cases s.device.state <;> rfl

theorem beginRound_stations (s : State) : (beginRound s).scan.stations = s.scan.stations := by
  unfold beginRound
  split
  · rw [finishRound_scan]
  · rfl

theorem visitNext_stations (s : State) : (visitNext s).scan.stations = s.scan.stations := by
  have ended : (finishRound s).scan.stations = s.scan.stations := by rw [finishRound_scan]
  unfold visitNext
  split
  · rfl
  · split
    · rfl
    · dsimp only
      split
      · exact (beginRound_stations _).trans ended
      · exact ended

/-- A round begins with the turn of the lowest station; with no station record it ends at once (R52, R53). -/
theorem beginRound_begins (legal : s.StationsLegal)
    (flow : s.blend.fieldFlow = (s.slots.map fun p => p.2.record.flow.getD 0).sum) :
    (beginRound s).blend.fieldFlow = ((beginRound s).slots.map fun p => p.2.record.flow.getD 0).sum ∧
    (s.scan.stations = [] → (beginRound s).scan.inFlight = none ∧ (beginRound s).scan.round = .idle) ∧
    ∀ x rest, s.scan.stations = x :: rest → (beginRound s).TurnOf x := by
  unfold beginRound
  split
  · rename_i e
    exact ⟨finishRound_flow s, fun _ => by rw [finishRound_scan]; exact ⟨rfl, rfl⟩, fun x rest h => by rw [e] at h; cases h⟩
  · rename_i y _ e
    refine ⟨flow, fun h => by (rw [e] at h; cases h), fun x rest h => ?_⟩
    rw [e] at h
    cases h
    exact sendTo_turnOf legal (by rw [e]; exact List.mem_cons_self ..)

/-- The round goes on from a station in a state whose station table is that of the slots (R52, R53, R65, R140). -/
theorem visitNext_sendsNext {a : Nat} (legal : s.StationsLegal) (round : s.scan.round = .running (some a)) :
    (visitNext s).SendsNext a := by
  rw [State.SendsNext, visitNext_stations, (visitNext_apart s).state]
  refine ⟨fun x hx above least => ?_, fun none => ?_⟩
  · rw [visitNext_above round (nextStation?_eq legal.2.1 hx above least)]
    exact sendTo_turnOf legal hx
  · have ended : (finishRound s).scan.stations = s.scan.stations := by rw [finishRound_scan]
    rw [visitNext_over round (nextStation?_none none)]
    split
    · rename_i standby
      exact ⟨finishRound_flow s, fun _ => by rw [finishRound_scan]; exact ⟨rfl, rfl⟩, fun h => absurd standby h⟩
    · rename_i other
      obtain ⟨flow, empty, begun⟩ := beginRound_begins (finishRound_stationsLegal legal) (finishRound_flow s)
      rw [ended] at empty begun
      exact ⟨flow, fun h => empty (h.resolve_left other), fun _ => begun⟩

end Sys2Proof.Machine
end

