-- ==== Sys2Proof/Proofs/Acceptance.lean ====
section
/-! PROOF of AcceptTakesUpModes. An accepted SETUP writes each well of its channels once, and its own station; the round then
goes on, which changes no more than events. -/

namespace Sys2Proof.Machine

variable {s t u : State} {w v : Well}

/-! ### A mode taken up -/

/-- A record that a setup acceptance has taken: a parked one takes up RETURN_MODE with a STATION event (R30). -/
def WellRecord.takenUp (suspectInterval : Nat) (r : WellRecord) : WellRecord :=
  if r.mode.isParked then addEvent .station (r.returned suspectInterval) else r

theorem record?_takeUpMode (w v : Well) (s : State) : (takeUpMode w s).record? v =
    if v = w then (s.record? v).map (WellRecord.takenUp s.settings.suspectInterval) else s.record? v := by
  by_cases own : v = w
  · subst own
    rw [if_pos rfl]
    cases hr : s.record? v with
    | none => simp only [takeUpMode, hr, Option.map_none]
    | some r =>
      simp only [takeUpMode, hr, Option.map_some, WellRecord.takenUp]
      split
      · rw [record?_setWellEvent, if_pos rfl, record?_writeRecord, if_pos rfl, hr]
        rfl
      · exact hr
  · rw [if_neg own]
    unfold takeUpMode
    split
    · rfl
    · split
      · rw [record?_setWellEvent, if_neg own, record?_writeRecord, if_neg own]
      · rfl

/-- A legal record taken is active, so that it is taken once. -/
theorem takenUp_active {r : WellRecord} (n : Nat) (legal : r.Legal) : (r.takenUp n).mode.isActive = true := by
  obtain ⟨_, _, _, _, returns, _⟩ := legal
  unfold WellRecord.takenUp
  split
  · rename_i parked
    obtain ⟨m, hm⟩ := Option.isSome_iff_exists.1 (returns.2 parked)
    rw [WellRecord.returned, hm]
    exact active_toMode m
  · rename_i active
    simpa [Mode.isParked] using active

theorem takenUp_of_active {r : WellRecord} (n : Nat) (active : r.mode.isActive = true) : r.takenUp n = r :=
  if_neg (by simp [Mode.isParked, active])

theorem active_of_unparked {r : WellRecord} (legal : r.Legal) (unparked : r.returnMode = none) :
    r.mode.isActive = true := by
  obtain ⟨_, _, _, _, returns, _⟩ := legal
  simpa [unparked, Mode.isParked] using returns

theorem addEvent_station (r : WellRecord) : (addEvent .station r).events.getLsbD 5 = true := by
  have own : WellEvent.station.bit.getLsbD 5 = true := by decide
  rw [addEvent, BitVec.getLsbD_or, own, Bool.or_true]

/-- Each well listed takes up its mode, however often it is listed. -/
theorem record?_takeUpModes (ws : List Well) (legal : s.RecordsLegal) : (forEach ws takeUpMode s).record? v =
    if v ∈ ws then (s.record? v).map (WellRecord.takenUp s.settings.suspectInterval) else s.record? v := by
  unfold forEach
  induction ws generalizing s with
  | nil => rfl
  | cons w ws ih =>
    have calm := takeUpMode_calm w s
    rw [List.foldl_cons, ih (calm.legal legal), calm.settings, record?_takeUpMode]
    by_cases own : v = w
    · subst own
      rw [if_pos rfl, if_pos (List.mem_cons_self ..)]
      split
      · rw [Option.map_map]
        cases hr : s.record? v with
        | none => rfl
        | some r =>
          obtain ⟨y, hy, rfl⟩ := record?_eq_some.1 hr
          exact congrArg some (takenUp_of_active _ (takenUp_active _ (legal.2 _ (mem_of_well? hy).1)))
      · rfl
    · rw [if_neg own]
      simp only [List.mem_cons, own, false_or]

theorem takeUpMode_apart (w : Well) (s : State) : Apart s (takeUpMode w s) := by
  unfold takeUpMode
  split
  · exact .refl s
  · split
    · exact Apart.trans (t := writeRecord _ w s) ⟨rfl, rfl, rfl, rfl, rfl⟩ (setWellEvent_apart _ w _)
    · exact .refl s

/-- The mode a legal record takes up, with its entry effects (R25, R28, R30). -/
theorem returned_eq {r : WellRecord} (n : Nat) (legal : r.Legal) : ∀ m, r.returnMode = some m →
    r.returned n = { r with
      mode := m.toMode, returnMode := none,
      valveTarget := match m with
        | .auto => r.within r.valveTarget
        | .manual => r.within r.valveTarget
        | .suspect => r.valveMin
        | .isolated => 0
        | .retiring => 0,
      clean := if m = .suspect then 0 else r.clean,
      surveyDue := if m = .suspect then min r.surveyDue n else r.surveyDue } := by
  intro m returns
  obtain ⟨limits, _, _, _, parks, _⟩ := legal
  have parked : r.mode.isParked = true := parks.1 (by rw [returns]; rfl)
  have stays : r.departed = r := if_neg fun e => by rw [e] at parked; cases parked
  rw [WellRecord.returned, returns]
  dsimp only
  rw [WellRecord.entered, stays]
  cases m <;> simp only [entryTarget, ActiveMode.toMode, clamp_eq limits] <;> rfl

/-! ### The wells of the channels as sent -/

/-- No other well stands at the place of a well (R46). -/
theorem well_eq_of_place {x y : Slot} (legal : s.StationsLegal) (hv : s.well? v = some x) (hw : s.well? w = some y)
    (place : x.address = y.address ∧ x.channel = y.channel) : v = w := by
  obtain ⟨_, _, apart, _⟩ := legal
  obtain ⟨memV, tagV⟩ := mem_of_well? hv
  obtain ⟨memW, tagW⟩ := mem_of_well? hw
  have distinct : (s.slots.map fun p => (p.2.address, p.2.channel)).Nodup :=
    List.pairwise_map.2 (apart.imp fun n e => n (Prod.mk.inj e))
  have same : (v.slot, x) = (w.slot, y) :=
    List.inj_on_of_nodup_map distinct memV memW (Prod.ext place.1 place.2)
  obtain ⟨slot, rfl⟩ := Prod.mk.inj same
  cases v
  cases w
  simp_all

/-- The well at a place is the one that stands there (R46). -/
theorem wellAt?_of_well? {x : Slot} (legal : s.StationsLegal) (hv : s.well? v = some x) :
    s.wellAt? x.address x.channel = some v := by
  have found := (wellAt?_isSome (address := x.address) (channel := x.channel)).2 ⟨_, (mem_of_well? hv).1, rfl, rfl⟩
  obtain ⟨w, hw⟩ := Option.isSome_iff_exists.1 found
  obtain ⟨y, hy, place⟩ := of_wellAt? legal.1 hw
  rw [hw, well_eq_of_place legal hy hv place]

/-- The station record of an address is the one in the table (R46). -/
theorem station?_eq {st : StationRecord} (ordered : s.StationsOrdered) (mem : st ∈ s.scan.stations) :
    s.station? st.address = some st := by
  cases e : s.station? st.address with
  | none => exact absurd (List.find?_eq_none.1 e st mem) (by simp)
  | some y =>
    have address : y.address = st.address := by simpa using List.find?_some e
    have distinct : (s.scan.stations.map fun x => x.address).Nodup := List.pairwise_map.2 (ordered.1.imp Nat.ne_of_lt)
    rw [List.inj_on_of_nodup_map distinct (List.mem_of_find?_eq_some e) mem address]

/-- The wells that an acceptance takes are those that stand at the channels as sent (R55, log 29). -/
theorem mem_acceptedWells {st : StationRecord} {sent : List Nat} (legal : s.StationsLegal) (mem : st ∈ s.scan.stations) :
    v ∈ s.acceptedWells st.address sent ↔ ∃ x, s.well? v = some x ∧ x.address = st.address ∧ x.channel ∈ sent := by
  simp only [State.acceptedWells, station?_eq legal.2.1 mem, List.mem_filterMap, List.mem_filter, List.contains_iff_mem]
  constructor
  · rintro ⟨c, ⟨_, hc⟩, at_c⟩
    obtain ⟨x, hx, address, channel⟩ := of_wellAt? legal.1 at_c
    exact ⟨x, hx, address, channel ▸ hc⟩
  · rintro ⟨x, hx, address, hc⟩
    obtain ⟨_, _, _, covered, _⟩ := id legal
    obtain ⟨y, hy, own, c, inMap, channel⟩ := covered _ (mem_of_well? hx).1
    have same : y = st := by
      have found := station?_eq legal.2.1 hy
      rw [own.trans address, station?_eq legal.2.1 mem] at found
      exact (Option.some.inj found).symm
    exact ⟨c, ⟨same ▸ inMap, channel ▸ hc⟩, by rw [channel, ← address]; exact wellAt?_of_well? legal hx⟩

/-! ### The acceptance -/

theorem accepted_eq (sent : List Nat) (x : StationRecord) : x.accepted sent = { x with
    failures := 0,
    channels := x.channels.map fun c => if c.channel ∈ sent then { c with baselinePending := true } else c,
    state := if ∀ c ∈ x.channels, c.channel ∈ sent then .active else .setupDue } := by
  have flags : StationChannel.accepted sent =
      fun c => if c.channel ∈ sent then { c with baselinePending := true } else c :=
    funext fun c => by simp only [StationChannel.accepted, List.contains_iff_mem]
  simp only [StationRecord.accepted, flags, List.all_eq_true, List.contains_iff_mem]

theorem accepted_channels (sent : List Nat) (x : StationRecord) :
    (x.accepted sent).channels.map (fun c => c.channel) = x.channels.map fun c => c.channel := by
  simp only [StationRecord.accepted, List.map_map]
  refine List.map_congr_left fun c _ => ?_
  simp only [Function.comp, StationChannel.accepted]
  split <;> rfl

/-- What an acceptance at this address of these channels leaves: its station and the records of its wells written, the
units apart from those as they stood. -/
structure Accepted (a : Nat) (sent : List Nat) (s t : State) : Prop where
  stations : t.scan.stations = s.stationsWith a (StationRecord.accepted sent)
  round    : t.scan.round = s.scan.round
  taken    : ∀ v x, s.well? v = some x → x.address = a → x.channel ∈ sent →
    t.record? v = some (x.record.takenUp s.settings.suspectInterval)
  others   : ∀ v x, s.well? v = some x → x.address ≠ a ∨ x.channel ∉ sent → t.record? v = some x.record
  places   : t.places = s.places
  apart    : Apart s t
  base     : s.SameBase t

theorem acceptSetup_accepted {st : StationRecord} (l : List SetupChannel) (records : s.RecordsLegal)
    (legal : s.StationsLegal) (mem : st ∈ s.scan.stations) :
    Accepted st.address (l.map fun c => c.channel) s (acceptSetup st.address l s) := by
  have read := fun v => record?_takeUpModes (v := v) (s.acceptedWells st.address (l.map fun c => c.channel))
    (s := changeStation (StationRecord.accepted (l.map fun c => c.channel)) st.address s) records
  have calm : Calm (changeStation (StationRecord.accepted (l.map fun c => c.channel)) st.address s)
    (acceptSetup st.address l s) := forEach_calm takeUpMode_calm _
  have apart : Apart (changeStation (StationRecord.accepted (l.map fun c => c.channel)) st.address s)
    (acceptSetup st.address l s) := forEach_apart takeUpMode_apart _ _
  refine
    { stations := by rw [calm.scan]; rfl
      round := by rw [calm.scan]; rfl
      taken := fun v x hx address channel => ?_
      others := fun v x hx other => ?_
      places := forEach_same State.places takeUpMode_places _ _
      apart := ⟨apart.seq, apart.moves, apart.index, apart.state, apart.faults⟩
      base := ⟨⟨calm.settings, calm.time, calm.pending⟩, calm.port⟩ }
  · have hr : s.record? v = some x.record := by rw [State.record?, hx]; rfl
    exact (read v).trans ((if_pos ((mem_acceptedWells legal mem).2 ⟨x, hx, address, channel⟩)).trans
      (congrArg (Option.map _) hr))
  · have hr : s.record? v = some x.record := by rw [State.record?, hx]; rfl
    refine (read v).trans ((if_neg fun h => ?_).trans hr)
    obtain ⟨y, hy, address, channel⟩ := (mem_acceptedWells legal mem).1 h
    cases hx.symm.trans hy
    exact other.elim (fun n => n address) fun n => n channel

/-- After an acceptance no ACTIVE station has a parked well, because the wells of its channels have taken up their modes
(R30, R55). -/
theorem Accepted.stationsLegal {a : Nat} {sent : List Nat} (h : Accepted a sent s t) (records : s.RecordsLegal)
    (legal : s.StationsLegal) : t.StationsLegal := by
  obtain ⟨ordered, above, _, covered, each⟩ := id legal
  refine StationsLegal.of_places legal h.places h.stations (fun x hx => ?_) fun x hx active p hp address => ?_
  · split
    · exact ⟨rfl, Nat.zero_le _, accepted_channels sent x⟩
    · exact ⟨rfl, (each x hx).1, rfl⟩
  · obtain ⟨q, hq, same, address', channel'⟩ := place_of_places h.places hp
    have stands : s.well? (wellOf p) = some q.2 := same ▸ well?_wellOf ordered hq
    have read : t.record? (wellOf p) = some p.2.record := by
      rw [State.record?, well?_wellOf (slotsOrdered_of_places h.places ordered) hp]; rfl
    have legalQ := records.2 q hq
    by_cases taken : q.2.address = a ∧ q.2.channel ∈ sent
    · rw [h.taken _ _ stands taken.1 taken.2] at read
      rw [← Option.some.inj read]
      exact takenUp_active _ legalQ
    · rw [h.others _ _ stands (not_and_or.1 taken)] at read
      rw [← Option.some.inj read]
      obtain ⟨_, _, _, before⟩ := each x hx
      split at active
      · rename_i own
        obtain ⟨y, hy, hya, c, hc, hcc⟩ := covered q hq
        have all : ∀ c ∈ x.channels, c.channel ∈ sent := by
          by_contra some
          rw [accepted_eq, if_neg some] at active
          cases active
        have one : y = x := by
          have found := station?_eq above hy
          rw [hya, address', address, station?_eq above hx] at found
          exact (Option.some.inj found).symm
        exact absurd ⟨address'.trans (address.trans own), hcc ▸ all c (one ▸ hc)⟩ taken
      · exact before active q hq (address'.trans address)

theorem visitNext_eventsGrow (s : State) : EventsGrow s (visitNext s) := by
  have begins (t : State) : EventsGrow t (beginRound t) := by
    unfold beginRound
    split
    · exact finishRound_eventsGrow t
    · exact eventsGrow_of_slots rfl rfl
  unfold visitNext
  split
  · exact .refl s
  · split
    · exact eventsGrow_of_slots rfl rfl
    · dsimp only
      split
      · exact (finishRound_eventsGrow s).trans (begins _)
      · exact finishRound_eventsGrow s

/-! ### The statement -/

/-- An ACCEPT whose check is bad, or that does not fit the transaction, fails it (R51). -/
theorem judgeAccept_fails {a : Nat} {frame : LinkFrame} {tr : Transaction}
    (bad : frame.passes = false ∨ tr.address ≠ a ∨ ∀ l, tr.sent ≠ .setup l) (s : State) :
    judgeFrame frame (judgeAccept a) tr s = failTransaction tr.address s := by
  unfold judgeFrame
  split
  · rename_i passes
    unfold judgeAccept
    split
    · rename_i l sent
      have other : tr.address ≠ a := (bad.resolve_left (by simp [passes])).resolve_right fun h => h l sent
      rw [if_neg (Ne.symm other)]
    · rfl
  · rfl

/-- The state an ACCEPT that fits leaves: the acceptance taken, and the round gone on. -/
theorem exec_accept_fits {a : Nat} {frame : LinkFrame} {l : List SetupChannel} (passes : frame.passes = true)
    (flying : s.scan.inFlight = some { address := a, sent := .setup l }) : exec (.accept ⟨a, frame⟩) s =
    .next (visitNext (acceptSetup a l { s with scan := { s.scan with inFlight := none } })) := by
  show Host.Outcome.next (endTransaction _ s) = _
  simp only [endTransaction, flying, judgeFrame, passes, judgeAccept, if_true]

/-- Settles O58: an ACCEPT that does not fit fails the transaction, and one that fits is taken before the round goes on. -/
theorem acceptTakesUpModes : Obligations.AcceptTakesUpModes := by
  rintro s a frame tr flying
  refine ⟨fun bad => ?_, ?_⟩
  · show Host.Outcome.next (endTransaction _ s) = .next (endTransaction _ s)
    simp only [endTransaction, flying, judgeAccept_fails bad]
  · rintro l sent st passes rfl rfl records legal mem rfl
    have accepted : Accepted st.address (l.map fun c => c.channel) s
        (acceptSetup st.address l { s with scan := { s.scan with inFlight := none } }) := by
      obtain ⟨stations, round, taken, others, places, apart, base⟩ :=
        acceptSetup_accepted (s := { s with scan := { s.scan with inFlight := none } }) l records legal mem
      exact ⟨stations, round, taken, others, places, ⟨apart.seq, apart.moves, apart.index, apart.state, apart.faults⟩, base⟩
    refine ⟨_, exec_accept_fits passes flying, ?_⟩
    generalize acceptSetup st.address l { s with scan := { s.scan with inFlight := none } } = u at accepted
    have marks := visitNext_marks u
    have apart := accepted.apart.trans (visitNext_apart u)
    have tame := visitNext_tame u
    refine ⟨?_, fun v x m hx returns address channel => ?_, fun v x hx other => ?_, fun transactions => ?_,
      apart.seq, apart.moves, apart.faults, apart.index, apart.state, ?_⟩
    · rw [visitNext_stations, accepted.stations]
      exact congrArg (s.stationsWith st.address) (funext (accepted_eq _))
    · have legalX := records.2 _ (mem_of_well? hx).1
      have parked : x.record.mode.isParked = true := legalX.2.2.2.2.1.1 (by rw [returns]; rfl)
      have taken := accepted.taken v x hx address channel
      rw [WellRecord.takenUp, if_pos parked, returned_eq _ legalX m returns] at taken
      refine ⟨?_, ?_⟩
      · obtain ⟨q, hq, e⟩ := marks.holds v _ taken
        exact ⟨q, hq, e⟩
      · refine Shows.eventsGrow (P := fun q => q.events.getLsbD 5 = true) (fun _ _ h grows => grows 5 h) (s := u)
          (fun q hq => ?_) (visitNext_eventsGrow u)
        cases taken.symm.trans hq
        exact addEvent_station _
    · have kept : u.record? v = some x.record := by
        by_cases place : x.address = st.address ∧ x.channel ∈ l.map fun c => c.channel
        · have unparked : x.record.returnMode = none :=
            other.resolve_right fun h => h.elim (fun n => n place.1) fun n => n place.2
          have active := active_of_unparked (records.2 _ (mem_of_well? hx).1) unparked
          rw [accepted.taken v x hx place.1 place.2, takenUp_of_active _ active]
        · exact accepted.others v x hx (not_and_or.1 place)
      exact marks.holds v _ kept
    · obtain ⟨_, each⟩ := transactions
      obtain ⟨round, _⟩ := each _ flying
      exact visitNext_sendsNext (accepted.stationsLegal records legal) (accepted.round.trans round)
    · obtain ⟨⟨settings, time, pending⟩, port⟩ := accepted.base
      exact ⟨⟨tame.settings.trans settings, tame.time.trans time, tame.pending.trans pending⟩, tame.port.trans port⟩

end Sys2Proof.Machine
end

