-- ==== Sys2Proof/Proofs/ResumeShadowed.lean ====
section
/-! PROOF that ResumeReturnsToRun fails. Its clause on a RESUME that ends in SAFE is said of every table, ordered or not:
only its last clause assumes `State.Sound`. Where a slot stands twice, a read of the table finds its first entry alone, so
that the current well may have no record before RESUME; the freeing of the first entry uncovers the second, and the freeing
of that one takes the part to SAFE. No command brings an ordered table there: the clause would want `State.SlotsOrdered`. -/

namespace Sys2Proof.Machine

/-- A closed RETIRING well of station 1. -/
def closedRetiring (tag channel : Nat) : Slot :=
  freshSlot { freshRecord tag 1 channel .retiring with
    mode := .retiring, returnMode := none, valveTarget := 0, valveFeedback := some 0 }

/-- The current well of the state below: tag 2, slot 0. -/
def coveredWell : Well := { tag := 2, slot := 0 }

/-- STANDBY with slot 0 standing twice, for tag 1 and for tag 2, where the well of tag 2 is current at a failure count of 3
and ANALYSER_OFFLINE is FATAL. -/
def slotTwice : State :=
  { State.reset with
    slots := [(0, closedRetiring 1 0), (0, closedRetiring 2 1)],
    index := [(1, 0), (2, 0)],
    settings := { State.reset.settings with severity := { State.reset.settings.severity with analyserOffline := .fatal } },
    device := { State.reset.device with state := .standby },
    seq := { State.reset.seq with
      phase := .release coveredWell, failures := some { count := 3, tag := 2, outcome := .fault } } }

/-- The read of the current well finds no record, because the first entry of its slot has another tag. -/
theorem slotTwice_covered : slotTwice.record? coveredWell = none := rfl

/-- The need evaluation of the first entry frees it, and uncovers the second. -/
theorem slotTwice_uncovered : ((evalNeed { tag := 1, slot := 0 } slotTwice).record? coveredWell).isSome = true := by
  decide

/-- RESUME frees both entries and ends in SAFE. -/
theorem slotTwice_resumed (r : Request) : ∃ t, exec (.resume r) slotTwice = .next t ∧ t.device.state = .safe :=
  ⟨_, rfl, rfl⟩

/-- Refutes O43: from a table where slot 0 stands twice, RESUME ends in SAFE though the current well had no record. -/
theorem not_resumeReturnsToRun : ¬ Obligations.ResumeReturnsToRun := by
  intro h
  obtain ⟨_, _, accepted⟩ := h { seq := 0, tag := 0, field := 0, mask := 0, value := 0, arg := 0 } slotTwice rfl
  obtain ⟨t, resumed, _, state, _⟩ := accepted (.inl rfl)
  obtain ⟨u, resumed', safe⟩ := slotTwice_resumed _
  obtain rfl : t = u := Host.Outcome.next.inj (resumed.symm.trans resumed')
  rcases state with run | ⟨_, _, w, q, _, _, current, record, _⟩
  · rw [safe] at run
    cases run
  · obtain rfl : coveredWell = w := Option.some.inj current
    rw [slotTwice_covered] at record
    cases record

end Sys2Proof.Machine
end

