-- ==== Sys2Proof/Proofs/PowerOnAndDiscards.lean ====
section
/-! PROOF of PowerOnGivesFirstState and DiscardsChangeNothing. The round begun at power-on ends over an empty table, and a
round end there leaves every unit as it stands; a frame that meets no transaction is passed over by its own test. -/

namespace Sys2Proof.Machine

/-! ### Power-on -/

/-- A round end over an empty table, with the permit and the blend as power-on sets them, changes nothing (R65, R138). -/
theorem roundEnd_of_first {s : State} (empty : s.slots = []) (first : s.blend = .cleared) : roundEnd s = s := by
  have levels : levelDetection s = s := levelDetection_parked (by simp [empty])
  obtain ⟨slots, index, settings, device, lines, time, scan, seq, moves, blend, faults, port, pending⟩ := s
  subst empty first
  rw [roundEnd, levels]
  simp [blendRoundEnd, formBlend, formBudget, stepPermit, setPermitLines, State.contributions, State.records,
    State.fieldFlowNow, budgetOf, blendOf, sumFlow, BlendUnit.cleared, State.grantConditions, State.permitConditions]

/-- Settles O10: with no station record the round begun at power-on ends at once, and its end changes nothing. -/
theorem powerOnGivesFirstState : Obligations.PowerOnGivesFirstState := by
  intro straps suction s
  have ended := roundEnd_of_first (s := { State.poweredUp straps suction with pending := s.pending }) rfl rfl
  exact congrArg Host.Outcome.next ended

/-! ### Discards -/

theorem endTransaction_none {act : Transaction → State → State} {s : State} (none : s.scan.inFlight = none) :
    endTransaction act s = s := by simp only [endTransaction, none]

/-- A frame under another number, or in a phase that waits for no reply, is discarded (R98). -/
theorem takeAnalyserFrame_discards {number : Byte} {s : State} (reply : AnalyserReply)
    (discards : number ≠ s.seq.number ∨
      (∀ w n, s.seq.phase ≠ .read w (.reply n)) ∧ ∀ n, s.seq.phase ≠ .offline n true) :
    takeAnalyserFrame number reply s = s := by
  unfold takeAnalyserFrame
  split
  · rename_i own
    obtain ⟨noRead, noProbe⟩ := discards.resolve_left fun other => other own
    split
    case h_1 w n phase => exact absurd phase (noRead w n)
    case h_2 n phase => exact absurd phase (noProbe n)
    all_goals rfl
  · rfl

/-- Settles O57: a reply of the field scan link meets no transaction, one of the analyser none that it answers. -/
theorem discardsChangeNothing : Obligations.DiscardsChangeNothing := by
  intro s number ch4 co2 o2 reply
  refine ⟨rfl, rfl, fun none a channels frame orders c listed => ?_, fun discards c listed => ?_⟩
  · simp only [List.mem_cons, List.not_mem_nil, or_false] at listed
    rcases listed with rfl | rfl | rfl | rfl <;> exact congrArg Host.Outcome.next (endTransaction_none none)
  · simp only [List.mem_cons, List.not_mem_nil, or_false] at listed
    rcases listed with rfl | rfl | rfl | rfl | rfl <;>
      exact congrArg Host.Outcome.next (takeAnalyserFrame_discards _ discards)

end Sys2Proof.Machine
end

