-- ==== Sys2Proof/Proofs/RoundEnds.lean ====
section
/-! PROOF of RoundEndFormsBlend. Level detection is described by the event kinds it adds to each slot, as `SlotKinds`; the
blend unit by the blend it leaves, in one equation, and by the device event kinds it adds, as `DeviceKinds`. -/

namespace Sys2Proof.Machine

variable {s t u : State}

/-! ### Event kinds added to slots -/

/-- The slot `y` is `x` with these event kinds added to EVENTS, and its check re-formed or not. -/
structure KindsAdded (kinds : Nat → Prop) (x y : Slot) : Prop where
  same   : y = { x with record := { x.record with events := y.record.events }, intact := y.intact }
  events : ∀ i, y.record.events.getLsbD i = true ↔ x.record.events.getLsbD i = true ∨ kinds i

/-- The wells of `t` are those of `s`, each slot with the event kinds named for its well added. -/
structure SlotKinds (kinds : Well → Nat → Prop) (s t : State) : Prop where
  found : ∀ v x, s.well? v = some x → ∃ y, t.well? v = some y ∧ KindsAdded (kinds v) x y
  gone  : ∀ v, s.well? v = none → t.well? v = none

theorem slotKinds_of_slots {kinds : Well → Nat → Prop} (no : ∀ v i, ¬ kinds v i) (slots : t.slots = s.slots) :
    SlotKinds kinds s t :=
  ⟨fun v x hx => ⟨x, by rw [well?_congr slots, hx], rfl, fun i => by simp [no v i]⟩,
    fun v hv => by rw [well?_congr slots, hv]⟩

theorem SlotKinds.trans {k l m : Well → Nat → Prop} (a : SlotKinds k s t) (b : SlotKinds l t u)
    (both : ∀ v i, m v i ↔ k v i ∨ l v i) : SlotKinds m s u := by
  refine ⟨fun v x hx => ?_, fun v hv => b.gone v (a.gone v hv)⟩
  obtain ⟨y, hy, first⟩ := a.found v x hx
  obtain ⟨z, hz, second⟩ := b.found v y hy
  exact ⟨z, hz, by rw [second.same, first.same], fun i => by rw [second.events, first.events, both, or_assoc]⟩

theorem setWellEvent_kinds (k : WellEvent) (w : Well) (s : State) :
    SlotKinds (fun v i => v = w ∧ k.bit.getLsbD i = true) s (setWellEvent k w s) := by
  have read (v : Well) : (setWellEvent k w s).well? v = _ :=
    (well?_congr (wakeTest_slots k w _) v).trans (well?_writeRecord (addEvent k) w v s)
  refine ⟨fun v x hx => ?_, fun v hv => ?_⟩
  · by_cases own : v = w
    · subst own
      have read := read v
      rw [if_pos rfl, hx] at read
      exact ⟨_, read, rfl, fun i => by simp [Slot.write, addEvent]⟩
    · exact ⟨x, by rw [read, if_neg own, hx], rfl, fun i => by simp [own]⟩
  · rw [read]
    split
    · rename_i own
      rw [← own, hv, Option.map_none]
    · exact hv

/-- The inputs of a list for which `b` holds each set their event kind. -/
theorem setInputEvents_kinds (b : Input → Bool) (w : Well) (l : List Input) (s : State) :
    SlotKinds (fun v i => v = w ∧ ∃ k ∈ l, b k = true ∧ k.event.bit.getLsbD i = true) s
      (l.foldl (fun t k => if b k then setWellEvent k.event w t else t) s) := by
  induction l generalizing s with
  | nil => exact slotKinds_of_slots (by simp) rfl
  | cons k l ih =>
    rw [List.foldl_cons]
    by_cases h : b k = true
    · rw [if_pos h]
      exact (setWellEvent_kinds k.event w s).trans (ih _) fun v i => by simp [h, ← and_or_left]
    · rw [if_neg h]
      exact (slotKinds_of_slots (kinds := fun _ _ => False) (fun _ _ => id) rfl).trans (ih _) fun v i => by simp [h]

/-! ### Level detection -/

/-- The level detection of a well with this slot adds the event kind of bit `i` (R74). -/
def State.Detects (s : State) (x : Slot) (i : Nat) : Prop :=
  ∃ p, s.levelsRead x = some p ∧ ∃ k ∈ inputsInOrder,
    levelSelected x.record.detect k (inputValue p k) = true ∧ k.event.bit.getLsbD i = true

theorem detectLevels_kinds (w : Well) (s : State) :
    SlotKinds (fun v i => v = w ∧ ∃ x, s.well? v = some x ∧ s.Detects x i) s (detectLevels w s) := by
  unfold detectLevels
  split
  · rename_i none
    exact slotKinds_of_slots (by rintro v i ⟨rfl, x, hx, _⟩; rw [none] at hx; cases hx) rfl
  · rename_i x hx
    split
    · rename_i unread
      refine slotKinds_of_slots ?_ rfl
      rintro v i ⟨rfl, y, hy, p, read, _⟩
      cases hx.symm.trans hy
      rw [unread] at read
      cases read
    · rename_i p read
      have added := setInputEvents_kinds (fun k => levelSelected x.record.detect k (inputValue p k)) w inputsInOrder s
      refine added.trans (slotKinds_of_slots (kinds := fun _ _ => False) (fun _ _ => id) rfl) fun v i => ?_
      constructor
      · rintro ⟨rfl, y, hy, q, readQ, detects⟩
        cases hx.symm.trans hy
        cases read.symm.trans readQ
        exact .inl ⟨rfl, detects⟩
      · rintro (⟨rfl, detects⟩ | h)
        · exact ⟨rfl, x, hx, p, read, detects⟩
        · exact h.elim

/-- The levels read of a slot are read again after event kinds have been added, the scan engine being as it was. -/
theorem KindsAdded.detects_iff {kinds : Nat → Prop} {x y : Slot} (h : KindsAdded kinds x y) (scan : t.scan = s.scan)
    (i : Nat) : t.Detects y i ↔ s.Detects x i := by
  have pending (a c : Nat) : t.baselinePending a c = s.baselinePending a c := by
    simp only [State.baselinePending, State.station?, scan]
  rw [h.same]
  simp only [State.Detects, State.levelsRead, pending]

theorem detectAll_kinds (ws : List Well) (s : State) :
    SlotKinds (fun v i => v ∈ ws ∧ ∃ x, s.well? v = some x ∧ s.Detects x i) s (forEach ws detectLevels s) := by
  unfold forEach
  induction ws generalizing s with
  | nil => exact slotKinds_of_slots (by simp) rfl
  | cons w ws ih =>
    have first := detectLevels_kinds w s
    have again (v : Well) (i : Nat) : (∃ y, (detectLevels w s).well? v = some y ∧ (detectLevels w s).Detects y i) ↔
        ∃ x, s.well? v = some x ∧ s.Detects x i := by
      cases hx : s.well? v with
      | none => simp [first.gone v hx]
      | some x =>
        obtain ⟨y, hy, added⟩ := first.found v x hx
        simp [hy, added.detects_iff (detectLevels_calm w s).scan]
    refine first.trans (ih _) fun v i => ?_
    rw [again, List.mem_cons, or_and_right]

/-- What level detection leaves but for the slots: the lines evaluated where a kind has been set, and WAKE as it stood
outside STANDBY (R80, R82). -/
structure Evaluated (s t : State) : Prop where
  rest  : t = { s with slots := t.slots, lines := t.lines }
  wake  : s.device.state ≠ .standby → t.lines.wake = s.lines.wake
  lines : t = s ∨ t.AlertsFollow

theorem Evaluated.refl (s : State) : Evaluated s s := ⟨rfl, fun _ => rfl, .inl rfl⟩

theorem Evaluated.trans (a : Evaluated s t) (b : Evaluated t u) : Evaluated s u where
  rest := by rw [b.rest, a.rest]
  wake awake := (b.wake (by rw [a.rest]; exact awake)).trans (a.wake awake)
  lines := by
    rcases b.lines with rfl | follow
    · exact a.lines
    · exact .inr follow

theorem setWellEvent_evaluated (k : WellEvent) (w : Well) (s : State) : Evaluated s (setWellEvent k w s) where
  rest := by
    unfold setWellEvent wakeTest
    split
    · rfl
    · split <;> rfl
  wake awake := by
    unfold setWellEvent wakeTest
    split
    · rfl
    · rw [if_neg fun h => awake h.1]
      rfl
  lines := .inr ((wakeTest_calm k w _).alerts (evalAlerts_alerts _))

theorem detectLevels_evaluated (w : Well) (s : State) : Evaluated s (detectLevels w s) := by
  unfold detectLevels
  split
  · exact .refl s
  · split
    · exact .refl s
    · refine List.foldlRecOn (motive := Evaluated s) _ _ (.refl s) fun t taken k _ => ?_
      split
      · exact taken.trans (setWellEvent_evaluated _ w t)
      · exact taken

theorem forEach_evaluated {f : Well → State → State} (each : ∀ w s, Evaluated s (f w s)) (ws : List Well) (s : State) :
    Evaluated s (forEach ws f s) := by
  unfold forEach
  induction ws generalizing s with
  | nil => exact .refl s
  | cons w ws ih => exact (each w s).trans (ih _)

theorem levelDetection_standby (standby : s.device.state = .standby) : levelDetection s = s := by
  simp only [levelDetection, standby]

theorem levelDetection_awake (awake : s.device.state ≠ .standby) :
    levelDetection s = forEach s.wells detectLevels s := by
  unfold levelDetection
  split
  · contradiction
  all_goals rfl

/-! ### The condition of the level detection in the terms of the statement -/

theorem baselinePending_eq (ordered : s.StationsOrdered) (a c : Nat) : s.baselinePending a c = s.BaselineDue a c := by
  rw [Bool.eq_iff_iff]
  unfold State.baselinePending
  cases found : s.station? a with
  | none =>
    have other : ∀ x ∈ s.scan.stations, x.address ≠ a := by simpa [State.station?] using found
    simp only [Bool.false_eq_true, false_iff, List.any_eq_true, not_exists, not_and, Bool.and_eq_true, decide_eq_true_eq]
    exact fun x hx own => absurd own (other x hx)
  | some x =>
    have own : x.address = a := by simpa using List.find?_some found
    have mem : x ∈ s.scan.stations := List.mem_of_find?_eq_some found
    simp only [List.any_eq_true, Bool.and_eq_true, beq_iff_eq, decide_eq_true_eq]
    constructor
    · exact fun pending => ⟨x, mem, own, pending⟩
    · rintro ⟨y, hy, ownY, pending⟩
      have same : y = x := by
        have foundY := station?_eq ordered hy
        rw [ownY, found] at foundY
        exact (Option.some.inj foundY).symm
      exact same ▸ pending

theorem levelSelected_iff (detect : BitVec 16) (k : Input) (l : Level) : levelSelected detect k l = true ↔
    l = .high ∧ detect.getLsbD (4 * k.index + 2) = true ∨ l = .low ∧ detect.getLsbD (4 * k.index + 3) = true := by
  cases l <;> simp [levelSelected, detectHolds, Selection.index]

/-- Each input has the bit of its place (R179). -/
theorem inputEvent_bit (k : Input) (i : Nat) : k.event.bit.getLsbD i = true ↔ i = k.index := by
  have beyond (b : BitVec 8) (h : 8 ≤ i) : b.getLsbD i = false := b.getLsbD_of_ge i h
  by_cases h : i < 8
  · cases k <;> simp only [Input.event, WellEvent.bit, Input.index] <;> interval_cases i <;> decide
  · rw [beyond _ (by omega)]
    cases k <;> simp only [Input.index] <;> simp <;> omega

theorem detects_iff (ordered : s.StationsOrdered) (x : Slot) (i : Nat) : s.Detects x i ↔
    x.record.mode.isActive = true ∧ s.BaselineDue x.address x.channel = false ∧
    ∃ f p, (i, f) ∈ [(0, PerInput.button), (1, PerInput.cap), (2, PerInput.actuator), (3, PerInput.liquid)] ∧
      x.record.inputs = some p ∧
      (f p = .high ∧ x.record.detect.getLsbD (4 * i + 2) = true ∨
       f p = .low ∧ x.record.detect.getLsbD (4 * i + 3) = true) := by
  have read (p : PerInput Level) : s.levelsRead x = some p ↔
      x.record.mode.isActive = true ∧ s.BaselineDue x.address x.channel = false ∧ x.record.inputs = some p := by
    rw [State.levelsRead, baselinePending_eq ordered]
    split
    · rename_i h
      exact ⟨fun e => ⟨h.1, h.2, e⟩, fun e => e.2.2⟩
    · rename_i h
      exact ⟨fun e => (nomatch e), fun e => absurd ⟨e.1, e.2.1⟩ h⟩
  simp only [State.Detects, read, levelSelected_iff, inputEvent_bit]
  constructor
  · rintro ⟨p, ⟨active, due, inputs⟩, k, _, selected, rfl⟩
    refine ⟨active, due, (fun q => inputValue q k), p, ?_, inputs, selected⟩
    cases k <;> simp [Input.index, inputValue]
  · rintro ⟨active, due, f, p, place, inputs, selected⟩
    refine ⟨p, ⟨active, due, inputs⟩, ?_⟩
    simp only [List.mem_cons, Prod.mk.injEq, List.not_mem_nil, or_false] at place
    rcases place with ⟨rfl, rfl⟩ | ⟨rfl, rfl⟩ | ⟨rfl, rfl⟩ | ⟨rfl, rfl⟩
    · exact ⟨.button, by simp [inputsInOrder], selected, rfl⟩
    · exact ⟨.cap, by simp [inputsInOrder], selected, rfl⟩
    · exact ⟨.actuator, by simp [inputsInOrder], selected, rfl⟩
    · exact ⟨.liquid, by simp [inputsInOrder], selected, rfl⟩

theorem levelDetection_detects (awake : s.device.state ≠ .standby) : ∀ t, t = levelDetection s →
    (∃ slots, t = { s with slots := slots, lines := t.lines } ∧ t.lines.wake = s.lines.wake ∧
      (t.lines = s.lines ∨ t.lines.alertA = t.alertAStands ∧ t.lines.alertB = t.alertBStands)) ∧
    (∀ w, s.well? w = none → t.well? w = none) ∧
    ∀ w x, s.well? w = some x → ∃ y, t.well? w = some y ∧
      KindsAdded (s.Detects x) x y := by
  rintro t rfl
  rw [levelDetection_awake awake]
  have added := detectAll_kinds s.wells s
  have taken := forEach_evaluated detectLevels_evaluated s.wells s
  refine ⟨⟨_, taken.rest, taken.wake awake, taken.lines.imp (congrArg State.lines) id⟩, added.gone, fun w x hx => ?_⟩
  obtain ⟨y, hy, kinds⟩ := added.found w x hx
  have listed : w ∈ s.wells := by
    obtain ⟨mem, tag⟩ := mem_of_well? hx
    exact List.mem_map.2 ⟨_, mem, by rw [wellOf, tag]⟩
  refine ⟨y, hy, kinds.same, fun i => ?_⟩
  rw [kinds.events]
  simp [listed, hx]

/-! ### The blend unit -/

/-- What the blend unit leaves but for its own unit: the device event kinds added, and the lines as they stood, or
evaluated where a kind has been set. -/
structure DeviceKinds (kinds : Nat → Prop) (s t : State) : Prop where
  rest   : t = { s with blend := t.blend, lines := t.lines, device := { s.device with events := t.device.events } }
  events : ∀ i, t.device.events.getLsbD i = true ↔ s.device.events.getLsbD i = true ∨ kinds i
  lines  : t.device.events = s.device.events ∧ t.lines = s.lines ∨
    t.lines = { s.lines with alertA := t.alertAStands, alertB := t.alertBStands }

/-- A step of the blend unit that sets no device event. -/
theorem deviceKinds_of_blend {kinds : Nat → Prop} (no : ∀ i, ¬ kinds i) (b : BlendUnit) (s : State) :
    DeviceKinds kinds s { s with blend := b } := ⟨rfl, fun i => by simp [no i], .inl ⟨rfl, rfl⟩⟩

theorem DeviceKinds.trans {k l m : Nat → Prop} (a : DeviceKinds k s t) (b : DeviceKinds l t u)
    (both : ∀ i, m i ↔ k i ∨ l i) : DeviceKinds m s u where
  rest := by rw [b.rest, a.rest]
  events i := by rw [b.events, a.events, both, or_assoc]
  lines := by
    rcases b.lines with ⟨events, lines⟩ | lines
    · have stands : u.alertAStands = t.alertAStands ∧ u.alertBStands = t.alertBStands := by
        rw [b.rest, events]
        exact ⟨rfl, rfl⟩
      rcases a.lines with ⟨first, same⟩ | same
      · exact .inl ⟨events.trans first, lines.trans same⟩
      · exact .inr (by rw [lines, stands.1, stands.2]; exact same)
    · refine .inr (lines.trans ?_)
      rcases a.lines with ⟨_, same⟩ | same <;> rw [same]

theorem setDeviceEvent_kinds {kinds : Nat → Prop} (k : DeviceEvent) (s : State)
    (own : ∀ i, kinds i ↔ k.bit.getLsbD i = true) : DeviceKinds kinds s (setDeviceEvent k s) :=
  ⟨rfl, fun i => by simp [setDeviceEvent, own], .inr rfl⟩

/-- The kind of each event has the bit of its place, and no other (R179). -/
theorem budget_bit (i : Nat) : DeviceEvent.budget.bit.getLsbD i = true ↔ i = 3 := by
  by_cases h : i < 6
  · simp only [DeviceEvent.bit]; interval_cases i <;> decide
  · rw [BitVec.getLsbD_of_ge _ _ (by omega)]; simp; omega

theorem permit_bit (i : Nat) : DeviceEvent.permit.bit.getLsbD i = true ↔ i = 2 := by
  by_cases h : i < 6
  · simp only [DeviceEvent.bit]; interval_cases i <;> decide
  · rw [BitVec.getLsbD_of_ge _ _ (by omega)]; simp; omega

/-- The blend unit after BLEND, FIELD_FLOW and BUDGET_STATE have been formed (R139, R140). -/
def State.blendFormed (s : State) : BlendUnit :=
  { s.blend with
    blend := blendOf s.contributions, contributing := sumFlow s.contributions, fieldFlow := s.fieldFlowNow,
    budget := budgetOf s.fieldFlowNow s.settings.drawBudget }

theorem formBudget_formed (s : State) : (formBudget (formBlend s)).blend = s.blendFormed := by
  unfold formBudget
  dsimp only
  split <;> rfl

theorem formBudget_kinds (s : State) :
    DeviceKinds (fun i => i = 3 ∧ s.blendFormed.budget ≠ s.blend.budget) s (formBudget (formBlend s)) := by
  unfold formBudget
  dsimp only
  split
  · rename_i same
    exact deviceKinds_of_blend (fun i h => h.2 same) s.blendFormed s
  · rename_i other
    refine (deviceKinds_of_blend (kinds := fun _ => False) (fun _ => id) s.blendFormed s).trans
      (setDeviceEvent_kinds .budget _ fun i => Iff.rfl) fun i => ?_
    rw [budget_bit, false_or]
    exact and_iff_left other

/-- The permit and the hold timer after a round end (R141). -/
theorem stepPermit_kinds (s : State) :
    DeviceKinds (fun i => i = 2 ∧ s.blend.permit = .granted ∧ ¬ s.holdConditions = true) s (stepPermit s) := by
  have still {kinds : Nat → Prop} (no : ∀ i, ¬ kinds i) : DeviceKinds kinds s s := deviceKinds_of_blend no s.blend s
  unfold stepPermit
  split
  · rename_i permit
    split
    · exact deviceKinds_of_blend (by simp [permit]) _ s
    · exact still (by simp [permit])
  · rename_i permit
    split
    · exact still (by simp [permit])
    · exact deviceKinds_of_blend (by simp [permit]) _ s
  · rename_i permit
    split
    · rename_i holds
      exact still (by simp [holds])
    · rename_i holds
      refine (deviceKinds_of_blend (kinds := fun _ => False) (fun _ => id)
        { s.blend with permit := .withdrawn, holdTimer := none } s).trans
        (setDeviceEvent_kinds .permit _ fun i => Iff.rfl) fun i => ?_
      simp [permit_bit, permit, holds]

/-- What a permit and its hold timer become at a round end, under the grant and the hold conditions (R141). -/
def permitStepped (timer : Option Nat) (hold : Nat) (grants holds : Bool) : PermitState → PermitState × Option Nat
  | .withdrawn => if grants then (.pending, some hold) else (.withdrawn, timer)
  | .pending => if grants then (.pending, timer) else (.withdrawn, none)
  | .granted => if holds then (.granted, timer) else (.withdrawn, none)

theorem stepPermit_blend {p : PermitState × Option Nat} (s : State) (stepped : p = permitStepped s.blend.holdTimer
    s.settings.permitHold s.grantConditions s.holdConditions s.blend.permit) :
    (stepPermit s).blend = { s.blend with permit := p.1, holdTimer := p.2 } := by
  subst stepped
  cases permit : s.blend.permit with
  | withdrawn =>
    simp only [stepPermit, permit, permitStepped]
    split
    · rfl
    · rw [← permit]
  | pending =>
    simp only [stepPermit, permit, permitStepped]
    split
    · rw [← permit]
    · rfl
  | granted =>
    simp only [stepPermit, permit, permitStepped]
    split
    · rw [← permit]
    · rfl

theorem permitConditions_iff (s : State) (floor : Nat) :
    s.permitConditions floor = true ↔ s.PermitAllowed s.blend.blend floor := by
  unfold State.permitConditions State.PermitAllowed
  cases s.blend.blend <;> simp [and_assoc]

/-- The weights of the blend are the contributions of the records (R139). -/
theorem weights_eq (s : State) : s.weights = s.contributions := by
  rw [State.contributions, State.records, List.filterMap_map]
  refine List.filterMap_congr fun p _ => ?_
  have sampled : p.2.record.mode.isSampled = true ↔
      (p.2.record.mode = .auto ∨ p.2.record.mode = .manual ∨ p.2.record.mode = .suspect) := by
    cases p.2.record.mode <;> simp [Mode.isSampled]
  simp only [Function.comp, contribution, sampled]
  rfl

/-- The blend unit after a round end, and the device event kinds it has added (R138 to R141, R144). -/
theorem blendRoundEnd_formed (s : State) : ∃ grants holds : Bool,
    (grants = true ↔ s.PermitAllowed (blendOf s.weights) (s.settings.engineCh4Floor + s.settings.permitMargin)) ∧
    (holds = true ↔ s.PermitAllowed (blendOf s.weights) s.settings.engineCh4Floor) ∧
    (∀ p, p = permitStepped s.blend.holdTimer s.settings.permitHold grants holds s.blend.permit →
      (blendRoundEnd s).blend =
        { blend := blendOf s.weights, contributing := sumFlow s.weights, fieldFlow := s.fieldFlowNow,
          budget := budgetOf s.fieldFlowNow s.settings.drawBudget, permit := p.1, holdTimer := p.2,
          enginePermit := decide (p.1 = .granted),
          flareDemand := !decide (p.1 = .granted) || decide (s.settings.engineIntake < sumFlow s.weights / 10) }) ∧
    DeviceKinds (fun i => i = 3 ∧ s.blendFormed.budget ≠ s.blend.budget ∨
      i = 2 ∧ s.blend.permit = .granted ∧ ¬ holds = true) s (blendRoundEnd s) := by
  have kinds := formBudget_kinds s
  have formed := formBudget_formed s
  have unfolded : blendRoundEnd s = setPermitLines (stepPermit (formBudget (formBlend s))) := rfl
  rw [unfolded]
  generalize formBudget (formBlend s) = u at kinds formed
  have settings : u.settings = s.settings := by rw [kinds.rest]
  have state : u.device.state = s.device.state := by rw [kinds.rest]
  have suction : u.device.suction = s.device.suction := by rw [kinds.rest]
  have allowed (floor : Nat) : u.permitConditions floor = true ↔ s.PermitAllowed (blendOf s.weights) floor := by
    rw [permitConditions_iff, formed, weights_eq]
    simp only [State.PermitAllowed, settings, state, suction, State.blendFormed]
  refine ⟨u.grantConditions, u.holdConditions, ?_, ?_, fun p stepped => ?_, ?_⟩
  · rw [State.grantConditions, settings]
    exact allowed _
  · rw [State.holdConditions, settings]
    exact allowed _
  · have after := stepPermit_blend (p := p) u (by rw [formed, settings]; exact stepped)
    have same : (stepPermit u).settings = s.settings := by rw [(stepPermit_kinds u).rest, settings]
    simp only [setPermitLines, after, same, formed, State.blendFormed, weights_eq]
  · have permit : u.blend.permit = s.blend.permit := by rw [formed]; rfl
    rw [← permit]
    exact (kinds.trans (stepPermit_kinds u) fun _ => Iff.rfl).trans
      (deviceKinds_of_blend (kinds := fun _ => False) (fun _ => id) _ _) fun i => by simp

/-- Settles O45: level detection adds the kinds it detects, and the blend unit's part is one equation. -/
theorem roundEndFormsBlend : Obligations.RoundEndFormsBlend := by
  refine ⟨fun s => ⟨rfl, levelDetection_standby, fun awake _ stations t ht => ?_⟩, ?_⟩
  · obtain ⟨rest, gone, found⟩ := levelDetection_detects awake t ht
    refine ⟨rest, gone, fun w x hx => ?_⟩
    obtain ⟨y, hy, kinds⟩ := found w x hx
    exact ⟨y, hy, kinds.same, fun i => by rw [kinds.events, detects_iff stations]⟩
  · rintro s t rfl grants holds hg hh
    obtain ⟨grants', holds', grantsIff, holdsIff, formed, kinds⟩ := blendRoundEnd_formed s
    have blend := formed _ rfl
    have same : (blendRoundEnd s).blend.blend = blendOf s.weights := by rw [blend]
    rw [same, ← grantsIff] at hg
    rw [same, ← holdsIff] at hh
    have budget : (blendRoundEnd s).blend.budget = s.blendFormed.budget := by rw [blend]; rfl
    have flow : s.fieldFlowNow = (s.slots.map fun p => p.2.record.flow.getD 0).sum := by
      rw [State.fieldFlowNow, State.records, List.map_map]
      rfl
    refine ⟨by rw [blend]; rfl, fun zero => ?_, fun positive => ?_, by rw [blend]; exact flow, by rw [blend]; rfl,
      fun permit g => ?_, fun permit g => ?_, fun permit g => ?_, fun permit g => ?_, fun permit h => ?_,
      fun permit h => ?_, ?_, ?_, fun i => ?_, kinds.lines, kinds.rest⟩
    · rw [blend] at zero ⊢
      exact if_pos zero
    · rw [blend] at positive ⊢
      exact if_neg (Nat.ne_of_gt positive)
    · rw [blend, permit]
      simp [permitStepped, hg.1 g]
    · rw [blend, permit]
      simp [permitStepped, hg.not.1 g]
    · rw [blend, permit]
      simp [permitStepped, hg.1 g]
    · rw [blend, permit]
      simp [permitStepped, hg.not.1 g]
    · rw [blend, permit]
      simp [permitStepped, hh.1 h]
    · rw [blend, permit]
      simp [permitStepped, hh.not.1 h]
    · rw [blend]
      exact decide_eq_true_iff
    · rw [blend]
      simp
    · rw [kinds.events, budget, hh]

end Sys2Proof.Machine
end

