-- ==== Sys2Proof/Proofs/PlacesKept.lean ====
section
/-! SUPPORT. Which operations leave every slot at its place, with its tag, its station address and its channel: all but
ENROL and a freeing. -/

namespace Sys2Proof.Machine

/-! ### Moves -/

theorem grantLoop_places (ws : List Well) (s : State) : (grantLoop ws s).places = s.places := by
  induction ws generalizing s with
  | nil => rfl
  | cons w ws ih =>
    unfold grantLoop
    split
    · exact (ih _).trans (writeRecord_places _ w _)
    · rfl

theorem grantTest_places (s : State) : (grantTest s).places = s.places := grantLoop_places _ s

theorem endMove_places (o : MoveOutcome) (w : Well) (s : State) : (endMove o w s).places = s.places :=
  (setWellEvent_places _ w _).trans (writeRecord_places (moveEnded o) w (leaveLists w s))

theorem abandonMoves_places (ws : List Well) (s : State) : (abandonMoves ws s).places = s.places :=
  forEach_same State.places (fun w t => by
    split
    · exact endMove_places _ w t
    · rfl) ws s

theorem blockMove_places (w : Well) (s : State) : (blockMove w s).places = s.places := by
  unfold blockMove
  split
  · exact (grantTest_places _).trans (endMove_places _ w s)
  · split
    · exact endMove_places _ w s
    · rfl

theorem joinWaitList_places (w : Well) (s : State) : (joinWaitList w s).places = s.places :=
  (grantTest_places _).trans (writeRecord_places _ w _)

theorem leaveQuietly_places (w : Well) (s : State) : (leaveQuietly w s).places = s.places :=
  writeRecord_places _ w (leaveLists w s)

theorem findBlocked_places (w : Well) (s : State) : (findBlocked w s).places = s.places :=
  (setWellEvent_places _ w _).trans (writeRecord_places _ w s)

/-! ### Samples -/

theorem placeInQueue_places (c : SampleClass) (w : Well) (s : State) : (placeInQueue c w s).places = s.places :=
  writeRecord_places _ w (setQueue _ s)

theorem removeEntry_places (w : Well) (s : State) : (removeEntry w s).places = s.places := by
  unfold removeEntry
  split
  · exact writeRecord_places _ w (setQueue _ s)
  · rfl

theorem writeOutcome_places (o : SampleOutcome) (w : Well) (s : State) : (writeOutcome o w s).places = s.places :=
  (setWellEvent_places _ w _).trans (writeRecord_places _ w s)

theorem takeHeads_places (q : List QueueEntry) (s : State) : (takeHeads q s).places = s.places := by
  induction q generalizing s with
  | nil => rfl
  | cons e q ih =>
    unfold takeHeads
    dsimp only
    split
    · exact (ih _).trans ((writeRecord_places _ e.well _).trans (writeOutcome_places .blocked e.well (setQueue q s)))
    · exact writeRecord_places _ e.well _

theorem headTest_places (s : State) : (headTest s).places = s.places := by
  unfold headTest
  split
  · exact takeHeads_places _ s
  · rfl

theorem abortSample_places (s : State) : (abortSample s).places = s.places := by
  unfold abortSample
  split
  case h_1 | h_2 | h_3 => exact writeOutcome_places .aborted _ (setPhase _ s)
  case h_4 | h_5 | h_6 => rfl

theorem abortSampleOf_places (w : Well) (s : State) : (abortSampleOf w s).places = s.places := by
  unfold abortSampleOf
  split
  · exact abortSample_places s
  · rfl

theorem leaveSampling_places (w : Well) (s : State) : (leaveSampling w s).places = s.places :=
  (abortSampleOf_places w _).trans (removeEntry_places w s)

/-! ### Rounds and faults -/

theorem beginRound_places (s : State) : (beginRound s).places = s.places := by
  unfold beginRound
  split
  · exact finishRound_places s
  · rfl

theorem beginRoundIfIdle_places (s : State) : (beginRoundIfIdle s).places = s.places := by
  unfold beginRoundIfIdle
  split
  · exact beginRound_places s
  · rfl

theorem takeIf_same {α : Type} (g : State → α) {f : State → State} (b : Bool) (hf : ∀ t, g (f t) = g t) (s : State) :
    g (takeIf b f s) = g s := by
  cases b
  · rfl
  · exact hf s

theorem takeChange_places (h : Handover) (s : State) : (takeChange h s).places = s.places :=
  (takeIf_same State.places _ beginRoundIfIdle_places _).trans
    ((takeIf_same State.places _ (fun t => congrArg (List.map placeOf) (withdrawPermit_slots t)) _).trans
      ((takeIf_same State.places _ abortSample_places _).trans
        (takeIf_same State.places _ (fun t => abandonMoves_places _ t) s)))

theorem reportFault_places (k : FaultKind) (n : Nat) (d : Half) (s : State) :
    (reportFault k n d s).places = s.places := by
  unfold reportFault
  split
  · rfl
  · rfl
  · rfl
  · unfold enterSafe
    split
    · rfl
    · exact takeChange_places _ (setOwed _ (setDeviceEvent .state (setDeviceState .safe _)))
    · exact takeChange_places _ (setOwed _ (setDeviceEvent .state (setDeviceState .safe _)))

theorem leaveSample_places (s : State) : (leaveSample s).places = s.places := by
  have idle : (enterIdle s).places = s.places := headTest_places (setPhase .idle s)
  unfold leaveSample
  split
  · exact idle
  · split
    · exact reportFault_places .analyserOffline _ _ (setPhase _ s)
    · exact idle

/-! ### Freeing, once the record is removed -/

theorem schedulerDrops_places (w : Well) (s : State) : (schedulerDrops w s).places = s.places := by
  unfold schedulerDrops
  split
  · exact grantTest_places (leaveLists w s)
  · rfl

end Sys2Proof.Machine
end

