-- ==== Sys2Proof/Proofs/Freeing.lean ====
section
/-! PROOF of RetireFreesAtOnce. `Rooted s t` says what the operations of the sequencer and the move scheduler leave of the
places, the activity of the wells and the scan engine; a freeing is the removal of the record, such operations, and the
drop of its channel, which leaves a station table that is that of the slots. -/

namespace Sys2Proof.Machine

variable {s t u m : State} {w v : Well}

/-! ### Places, activity and the scan engine kept -/

/-- Each slot is at its place and no active well has been parked; the stations stand, and a round in progress has gone no
further. -/
structure Rooted (s t : State) : Prop where
  places   : t.places = s.places
  active   : ∀ v q, t.record? v = some q →
    ∃ r, s.record? v = some r ∧ (r.mode.isActive = true → q.mode.isActive = true)
  stations : t.scan.stations = s.scan.stations
  scan     : s.scan.round ≠ .idle → t.scan = s.scan

theorem Rooted.refl (s : State) : Rooted s s := ⟨rfl, fun _ q hq => ⟨q, hq, id⟩, rfl, fun _ => rfl⟩

theorem Rooted.trans (a : Rooted s t) (b : Rooted t u) : Rooted s u where
  places := b.places.trans a.places
  active v q hq := by
    obtain ⟨p, hp, second⟩ := b.active v q hq
    obtain ⟨r, hr, first⟩ := a.active v p hp
    exact ⟨r, hr, second ∘ first⟩
  stations := b.stations.trans a.stations
  scan running := (b.scan (by rw [a.scan running]; exact running)).trans (a.scan running)

/-- What changes no record but in its marks keeps each well active or parked. -/
theorem Marks.active (marks : Marks s t) (v : Well) (q : WellRecord) (hq : t.record? v = some q) :
    ∃ r, s.record? v = some r ∧ (r.mode.isActive = true → q.mode.isActive = true) := by
  cases hr : s.record? v with
  | none =>
    rw [marks.gone v hr] at hq
    cases hq
  | some r =>
    obtain ⟨p, hp, same⟩ := marks.holds v r hr
    cases hq.symm.trans hp
    exact ⟨r, rfl, fun active => by rw [same]; exact active⟩

theorem Marks.rooted (marks : Marks s t) (places : t.places = s.places) (scan : t.scan = s.scan) : Rooted s t :=
  ⟨places, marks.active, by rw [scan], fun _ => scan⟩

theorem takeIf_rooted {f : State → State} (b : Bool) (each : ∀ t, Rooted t (f t)) (s : State) :
    Rooted s (takeIf b f s) := by
  cases b
  · exact .refl s
  · exact each s

theorem beginRoundIfIdle_rooted (s : State) : Rooted s (beginRoundIfIdle s) where
  places := beginRoundIfIdle_places s
  active := (beginRoundIfIdle_marks s).active
  stations := by
    unfold beginRoundIfIdle
    split
    · exact beginRound_stations s
    · rfl
  scan running := by rw [beginRoundIfIdle_of_running running]

theorem takeChange_rooted (h : Handover) (s : State) : Rooted s (takeChange h s) := by
  have moves (t : State) : Rooted t (abandonAllMoves t) :=
    (abandonAllMoves_marks t).rooted (abandonMoves_places _ t) (abandonAllMoves_calm t).scan
  have sample (t : State) : Rooted t (abortSample t) :=
    (abortSample_marks t).rooted (abortSample_places t) (abortSample_calm t).scan
  have blend (t : State) : Rooted t (withdrawPermit t) :=
    (marks_of_slots (withdrawPermit_slots t)).rooted (congrArg (List.map placeOf) (withdrawPermit_slots t))
      (withdrawPermit_scan t)
  exact (((takeIf_rooted _ moves s).trans (takeIf_rooted _ sample _)).trans (takeIf_rooted _ blend _)).trans
    (takeIf_rooted _ beginRoundIfIdle_rooted _)

theorem rooted_after (b : Rooted t u) (slots : t.slots = s.slots) (scan : t.scan = s.scan) : Rooted s u :=
  ((marks_of_slots slots).rooted (congrArg (List.map placeOf) slots) scan).trans b

theorem handChange_rooted (h : Handover) (s : State) : Rooted s (handChange h s) :=
  rooted_after (takeChange_rooted _ _) rfl rfl

theorem enterSafe_rooted (s : State) : Rooted s (enterSafe s) := by
  unfold enterSafe
  split
  · exact .refl s
  all_goals exact rooted_after (handChange_rooted _ (setDeviceEvent .state (setDeviceState .safe s))) rfl rfl

theorem reportFault_rooted (k : FaultKind) (n : Nat) (d : Half) (s : State) : Rooted s (reportFault k n d s) := by
  unfold reportFault
  split
  · exact .refl s
  · exact rooted_after (.refl (recordFault k n d s)) rfl rfl
  · exact rooted_after (.refl (setDeviceEvent .fault (recordFault k n d s))) rfl rfl
  · exact rooted_after (enterSafe_rooted (setDeviceEvent .fault (recordFault k n d s))) rfl rfl

theorem leaveSample_rooted (s : State) : Rooted s (leaveSample s) := by
  have idle : Rooted s (enterIdle s) :=
    (enterIdle_marks s).rooted (headTest_places (setPhase .idle s)) (enterIdle_calm s).scan
  unfold leaveSample
  split
  · exact idle
  · split
    · rename_i f _ _
      have reported := reportFault_rooted .analyserOffline f.tag (outcomeDetail f.outcome.toOutcome)
        (setPhase (.offline Config.probeSeconds false) s)
      exact ⟨reported.places, reported.active, reported.stations, reported.scan⟩
    · exact idle

theorem sequencerDrops_rooted (w : Well) (s : State) : Rooted s (sequencerDrops w s) := by
  have queue : Rooted s (setQueue (withoutEntry w s.seq.queue) s) := (setQueue_marks _ s).rooted rfl rfl
  unfold sequencerDrops
  dsimp only
  split
  · exact queue.trans (leaveSample_rooted _)
  · exact queue

theorem schedulerDrops_rooted (w : Well) (s : State) : Rooted s (schedulerDrops w s) :=
  (schedulerDrops_marks w s).rooted (schedulerDrops_places w s) (schedulerDrops_calm w s).scan

/-! ### The station table when a record is freed -/

/-- The station records when a channel has left the map of one: a station without a channel is no longer there (R48). -/
def droppedStations (address channel : Nat) (l : List StationRecord) : List StationRecord :=
  (l.map fun y => if y.address = address then y.dropped channel else y).filter fun y => !y.channels.isEmpty

theorem mem_droppedStations {a c : Nat} {l : List StationRecord} {y : StationRecord} : y ∈ droppedStations a c l ↔
    (∃ z ∈ l, (if z.address = a then z.dropped c else z) = y) ∧ y.channels ≠ [] := by
  simp [droppedStations]

/-- The one station of an address in an ascending table. -/
theorem station_unique {x y : StationRecord} (ordered : s.StationsOrdered) (hx : x ∈ s.scan.stations)
    (hy : y ∈ s.scan.stations) (same : y.address = x.address) : y = x := by
  have found := station?_eq ordered hy
  rw [same, station?_eq ordered hx] at found
  exact (Option.some.inj found).symm

/-- With another channel in its map, the station keeps its record. -/
theorem droppedStations_some {st : StationRecord} {c : Nat} (ordered : s.StationsOrdered) (mem : st ∈ s.scan.stations)
    (other : ∃ d ∈ st.channels, d.channel ≠ c) :
    droppedStations st.address c s.scan.stations = s.stationsWith st.address (StationRecord.dropped c) := by
  refine List.filter_eq_self.2 fun y hy => ?_
  obtain ⟨z, hz, rfl⟩ := List.mem_map.1 hy
  split
  · rename_i own
    obtain ⟨d, hd, ne⟩ := other
    have kept : d ∈ (z.dropped c).channels := by
      rw [station_unique ordered mem hz own]
      exact List.mem_filter.2 ⟨hd, by simpa using ne⟩
    simpa using List.ne_nil_of_mem kept
  · simpa using ordered.2 z hz

/-- With its last channel the station's record leaves the table. -/
theorem droppedStations_none {st : StationRecord} {c : Nat} (ordered : s.StationsOrdered) (mem : st ∈ s.scan.stations)
    (all : ∀ d ∈ st.channels, d.channel = c) :
    droppedStations st.address c s.scan.stations = s.scan.stations.filter fun y => y.address != st.address := by
  have emptied : (st.dropped c).channels = [] := List.filter_eq_nil_iff.2 fun d hd => by simp [all d hd]
  have leaves : s.scan.stations.filter
      ((fun y => !y.channels.isEmpty) ∘ fun y => if y.address = st.address then y.dropped c else y) =
      s.scan.stations.filter fun y => y.address != st.address := by
    refine List.filter_congr fun y hy => ?_
    by_cases own : y.address = st.address
    · rw [station_unique ordered mem hy own]
      simp [emptied]
    · have other : (y.address != st.address) = true := by simpa using own
      simp [own, other, ordered.2 y hy]
  rw [droppedStations, List.filter_map, leaves]
  refine (List.map_congr_left fun y hy => ?_).trans (List.map_id _)
  have other : y.address ≠ st.address := by simpa using (List.mem_filter.1 hy).2
  exact if_neg other

/-- No other well stands at the place of a freed one. -/
theorem removeRecord_place {x : Slot} (legal : s.StationsLegal) (hx : s.well? w = some x) {q : Nat × Slot}
    (hq : q ∈ (removeRecord w s).slots) : ¬ (q.2.address = x.address ∧ q.2.channel = x.channel) := by
  intro place
  obtain ⟨mem, other⟩ := List.mem_filter.1 hq
  have same := well_eq_of_place legal (well?_wellOf legal.1 mem) hx place
  rw [(isWell_iff _ _).2 (by rw [← same]; exact ⟨rfl, rfl⟩)] at other
  cases other

/-- A slot at another place than that of a freed well stands. -/
theorem mem_removeRecord {x : Slot} (ordered : s.SlotsOrdered) (hx : s.well? w = some x) {q : Nat × Slot}
    (hq : q ∈ s.slots) (other : ¬ (q.2.address = x.address ∧ q.2.channel = x.channel)) :
    q ∈ (removeRecord w s).slots := by
  refine List.mem_filter.2 ⟨hq, ?_⟩
  cases own : isWell w q with
  | false => rfl
  | true =>
    rw [SlotsOrdered.well? ordered hq own] at hx
    cases hx
    exact absurd ⟨rfl, rfl⟩ other

/-- After the removal of a record and the drop of its channel the station table is that of the slots (R46, R48). -/
theorem StationsLegal.dropped {x : Slot} (legal : s.StationsLegal) (hx : s.well? w = some x)
    (rooted : Rooted (removeRecord w s) m)
    (slots : u.slots = m.slots) (stations : u.scan.stations = droppedStations x.address x.channel s.scan.stations) :
    u.StationsLegal := by
  obtain ⟨ordered, above, apart, covered, each⟩ := id legal
  have orderedR : (removeRecord w s).SlotsOrdered := SlotsOrdered.filter _ (removeRecord_slots s w) ordered
  have orderedM : m.SlotsOrdered := slotsOrdered_of_places rooted.places orderedR
  have dropped (y : StationRecord) : (if y.address = x.address then y.dropped x.channel else y).address = y.address := by
    split <;> rfl
  refine ⟨by rw [State.SlotsOrdered, slots]; exact orderedM, ⟨?_, fun y hy => ?_⟩, ?_, fun p hp => ?_, fun y hy => ?_⟩
  · rw [stations]
    refine List.Pairwise.filter _ (List.pairwise_map.2 (above.1.imp fun lt => ?_))
    rw [dropped, dropped]
    exact lt
  · rw [stations] at hy
    exact (mem_droppedStations.1 hy).2
  · rw [slots]
    exact pairwise_of_places (R := fun p q => ¬ (p.2.2.1 = q.2.2.1 ∧ p.2.2.2 = q.2.2.2)) rooted.places
      (List.Pairwise.filter _ apart)
  · rw [slots] at hp
    obtain ⟨q, hq, _, address, channel⟩ := place_of_places rooted.places hp
    obtain ⟨y, hy, own, c, hc, hcc⟩ := covered q (List.mem_of_mem_filter hq)
    have kept : c ∈ (if y.address = x.address then y.dropped x.channel else y).channels := by
      split
      · rename_i at_x
        refine List.mem_filter.2 ⟨hc, ?_⟩
        have ne : c.channel ≠ x.channel := fun e =>
          removeRecord_place legal hx hq ⟨own.symm.trans at_x, hcc.symm.trans e⟩
        simpa using ne
      · exact hc
    exact ⟨_, stations ▸ mem_droppedStations.2 ⟨⟨y, hy, rfl⟩, List.ne_nil_of_mem kept⟩,
      by rw [dropped, own, address], c, kept, hcc.trans channel⟩
  · rw [stations] at hy
    obtain ⟨⟨z, hz, rfl⟩, _⟩ := mem_droppedStations.1 hy
    obtain ⟨failures, ascends, held, active⟩ := each z hz
    refine ⟨by split <;> exact failures, by split; exacts [List.Pairwise.filter _ ascends, ascends], fun c hc => ?_,
      fun state p hp address => ?_⟩
    · have inMap : c ∈ z.channels ∧ ¬ (z.address = x.address ∧ c.channel = x.channel) := by
        split at hc
        · obtain ⟨mem, ne⟩ := List.mem_filter.1 hc
          exact ⟨mem, fun e => by simp [e.2] at ne⟩
        · rename_i other
          exact ⟨hc, fun e => other e.1⟩
      obtain ⟨p, hp, address, channel⟩ := held c inMap.1
      have stands : p ∈ (removeRecord w s).slots :=
        mem_removeRecord ordered hx hp (by rw [address, channel]; exact inMap.2)
      obtain ⟨q, hq, _, qa, qc⟩ := place_of_places rooted.places.symm stands
      exact ⟨q, slots ▸ hq, by rw [dropped, qa, address], by rw [qc, channel]⟩
    · rw [slots] at hp
      rw [dropped] at address
      obtain ⟨q, hq, same, qa, _⟩ := place_of_places rooted.places hp
      have read : m.record? (wellOf p) = some p.2.record := by rw [State.record?, well?_wellOf orderedM hp]; rfl
      obtain ⟨r, hr, stays⟩ := rooted.active _ _ read
      rw [← same, State.record?, well?_wellOf orderedR hq] at hr
      cases hr
      refine stays (active ?_ q (List.mem_of_mem_filter hq) (qa.trans address))
      split at state <;> exact state

/-- The station record of an address is read as it has been changed. -/
theorem station?_changeStation {f : StationRecord → StationRecord} {st : StationRecord}
    (keeps : ∀ x, (f x).address = x.address) (ordered : s.StationsOrdered) (mem : st ∈ s.scan.stations) :
    (changeStation f st.address s).station? st.address = some (f st) := by
  have read := station?_eq ordered mem
  have key : (fun x : StationRecord => x.address == st.address) ∘
      (fun x => if x.address = st.address then f x else x) = fun x => x.address == st.address := by
    funext x
    simp only [Function.comp]
    split
    · rw [keeps]
    · rfl
  unfold State.station? at read ⊢
  rw [changeStation_scan, List.find?_map, key, read]
  simp

/-- The station table without the record of an address, nothing else of the scan engine changed. -/
def withoutStation (a : Nat) (s : State) : State :=
  { s with scan := { s.scan with stations := s.scan.stations.filter fun y => y.address != a } }

/-- What the scan engine does when a channel leaves the map of a station (R48). -/
theorem dropStationChannel_eq {st : StationRecord} (ordered : s.StationsOrdered) (mem : st ∈ s.scan.stations) (c : Nat) :
    dropStationChannel st.address c s =
      if ∀ d ∈ st.channels, d.channel = c then
        match s.scan.inFlight with
        | none => withoutStation st.address s
        | some tr => if tr.address = st.address then
            visitNext { withoutStation st.address s with scan :=
              { (withoutStation st.address s).scan with inFlight := none } }
          else withoutStation st.address s
      else changeStation (StationRecord.dropped c) st.address s := by
  have found := station?_changeStation (f := StationRecord.dropped c) (fun _ => rfl) ordered mem
  have emptied : (st.dropped c).channels.isEmpty = true ↔ ∀ d ∈ st.channels, d.channel = c := by
    simp [StationRecord.dropped, List.filter_eq_nil_iff]
  have removed : ((s.scan.stations.map fun x => if x.address = st.address then x.dropped c else x).filter
      fun y => y.address != st.address) = s.scan.stations.filter fun y => y.address != st.address := by
    have key : (fun x : StationRecord => x.address != st.address) ∘
        (fun x => if x.address = st.address then x.dropped c else x) = fun x => x.address != st.address := by
      funext x
      simp only [Function.comp]
      split <;> rfl
    rw [List.filter_map, key]
    refine (List.map_congr_left fun y hy => ?_).trans (List.map_id _)
    have other : y.address ≠ st.address := by simpa using (List.mem_filter.1 hy).2
    exact if_neg other
  unfold dropStationChannel
  simp only [found, emptied, changeStation_scan, removed]
  rfl

/-! ### Freeing -/

/-- A freeing before the scan engine takes it. -/
def freedBefore (w : Well) (s : State) : State := schedulerDrops w (sequencerDrops w (removeRecord w s))

theorem freeWell_eq {x : Slot} (hx : s.well? w = some x) :
    freeWell w s = evalAlerts (dropStationChannel x.address x.channel (freedBefore w s)) := by
  simp only [freeWell, hx, freedBefore]

theorem freedBefore_rooted (w : Well) (s : State) : Rooted (removeRecord w s) (freedBefore w s) :=
  (sequencerDrops_rooted w _).trans (schedulerDrops_rooted w _)

theorem freedBefore_stations (w : Well) (s : State) : (freedBefore w s).scan.stations = s.scan.stations :=
  (freedBefore_rooted w s).stations

/-- What the freeing of a well leaves of the station of its channel, and of a transaction in flight (R48, R52). -/
theorem freeWell_station {x : Slot} {st : StationRecord} (hx : s.well? w = some x) (legal : s.StationsLegal)
    (transactions : s.TransactionLegal) (mem : st ∈ s.scan.stations) (own : st.address = x.address) :
    ((∃ c ∈ st.channels, c.channel ≠ x.channel) → (freeWell w s).scan.stations = s.stationsWith x.address fun y =>
      { y with channels := y.channels.filter fun c => c.channel != x.channel }) ∧
    ((∀ c ∈ st.channels, c.channel = x.channel) →
      (freeWell w s).scan.stations = s.scan.stations.filter (fun y => y.address != x.address) ∧
      ∀ tr, s.scan.inFlight = some tr → tr.address = x.address → (freeWell w s).SendsNext x.address) ∧
    ∀ tr, s.scan.inFlight = some tr → tr.address ≠ x.address ∨ (∃ c ∈ st.channels, c.channel ≠ x.channel) →
      (freeWell w s).scan.inFlight = some tr ∧ (freeWell w s).scan.round = s.scan.round := by
  have stations := freedBefore_stations w s
  have drops := dropStationChannel_eq (s := freedBefore w s) (st := st)
    (by rw [State.StationsOrdered, stations]; exact legal.2.1) (by rw [stations]; exact mem) x.channel
  have flying (tr : Transaction) (h : s.scan.inFlight = some tr) : (freedBefore w s).scan = s.scan ∧
      s.scan.round = .running (some tr.address) := by
    obtain ⟨_, each⟩ := transactions
    obtain ⟨round, _⟩ := each tr h
    exact ⟨(freedBefore_rooted w s).scan (by rw [removeRecord_scan, round]; exact fun e => nomatch e), round⟩
  rw [freeWell_eq hx, ← own, drops]
  by_cases all : ∀ d ∈ st.channels, d.channel = x.channel
  · rw [if_pos all]
    refine ⟨fun ⟨c, hc, ne⟩ => absurd (all c hc) ne, fun _ => ⟨?_, fun tr h at_x => ?_⟩, fun tr h other => ?_⟩
    · split
      · exact congrArg (List.filter _) stations
      · split
        · exact (visitNext_stations _).trans (congrArg (List.filter _) stations)
        · exact congrArg (List.filter _) stations
    · obtain ⟨scan, round⟩ := flying tr h
      rw [scan, h]
      simp only [at_x, if_true]
      refine visitNext_sendsNext
        (StationsLegal.dropped (m := freedBefore w s) legal hx (freedBefore_rooted w s) rfl ?_) ?_
      · rw [← own, droppedStations_none legal.2.1 mem all]
        exact congrArg (List.filter _) stations
      · show (freedBefore w s).scan.round = _
        rw [scan, round, at_x]
    · obtain ⟨scan, round⟩ := flying tr h
      have ne : tr.address ≠ st.address := other.resolve_right fun ⟨c, hc, ne⟩ => ne (all c hc)
      rw [scan, h]
      simp only [ne, if_false]
      exact ⟨(congrArg (·.inFlight) scan :).trans h, (congrArg (·.round) scan :)⟩
  · rw [if_neg all]
    refine ⟨fun _ => ?_, fun every => absurd every all, fun tr h _ => ?_⟩
    · show List.map _ (freedBefore w s).scan.stations = _
      rw [stations]
      rfl
    · obtain ⟨scan, round⟩ := flying tr h
      exact ⟨(congrArg (·.inFlight) scan :).trans h, (congrArg (·.round) scan :)⟩

/-! ### RETIRE -/

/-- RETIRE with FORCE, or outside SAFE of an active well seen closed, frees (R39, R42). -/
theorem retireWell_frees {r : Request} {q : WellRecord} (w : Well) (frees : r.mask.getLsbD 0 = true ∨
    s.device.state ≠ .safe ∧ (q.mode = .auto ∨ q.mode = .manual ∨ q.mode = .isolated ∨ q.mode = .suspect) ∧
    ∃ f, q.valveFeedback = some f ∧ f ≤ s.settings.moveBand) :
    retireWell r w q s = (freeWell w s, done r.tag freedAtOnce) := by
  cases force : r.mask.getLsbD 0 with
  | true => exact if_pos force
  | false =>
    obtain ⟨out, mode, f, feedback, low⟩ := frees.resolve_left (Bool.eq_false_iff.1 force)
    have closed : q.closed s.settings.moveBand = true := by simpa [WellRecord.closed, feedback] using low
    rw [retireWell_unforced force, if_neg out]
    rcases mode with h | h | h | h <;> simp only [retireByMode, h, closed, if_true]

/-- Settles O24: the request frees the well, and each block's part of a freeing has its own lemma. -/
theorem retireFreesAtOnce : Obligations.RetireFreesAtOnce := by
  intro r s w x _ reaches admits words frees
  have acts : retireWell r w x.record (closePort (advance s)) = _ := retireWell_frees w frees
  have hx : (closePort (advance s)).well? w = some x := reaches.2.1
  obtain ⟨record, index, still, unqueued, current⟩ := freeWell_gone hx
  have tame := freeWell_tame w (closePort (advance s))
  rw [exec_retire_reaches reaches admits words, requestTaken, acts]
  refine ⟨_, rfl, record, index, still.1, still.2, unqueued, current, fun sound st mem own => ?_,
    freeWell_others w (closePort (advance s)), ⟨tame.settings, tame.time, tame.pending⟩, ?_⟩
  · obtain ⟨_, legal, transactions, _⟩ := sound
    exact freeWell_station (s := closePort (advance s)) hx legal transactions mem own
  · rw [fill_port, tame.port]
    rfl

end Sys2Proof.Machine
end

