-- ==== Sys2Proof/Proofs/Reports.lean ====
section
/-! SUPPORT. What a report leaves of the sequencer, of the lists of the move scheduler and of a well that neither block
holds (chapter 9). -/

namespace Sys2Proof.Machine

variable {s t u : State} {w v : Well}

/-! ### The sequencer -/

/-- The sequencer is as it was, or its open sample has been aborted (R104). -/
def AbortedAtMost (s t : State) : Prop :=
  t.seq = s.seq ∨ ∃ w, s.SampleOpen w ∧ t.seq = { s.seq with phase := .release w } ∧ t.Shows w WellRecord.SampleAborted

theorem AbortedAtMost.after (h : AbortedAtMost s t) (seq : u.seq = t.seq) (grows : EventsGrow t u) :
    AbortedAtMost s u := by
  rcases h with same | ⟨w, opened, released, shown⟩
  · exact .inl (seq.trans same)
  · exact .inr ⟨w, opened, seq.trans released, Shows.eventsGrow sampleAborted_eventStable shown grows⟩

theorem current?_of_open (opened : s.seq.phase.isOpen = true) : ∃ w, s.SampleOpen w := by
  cases phase : s.seq.phase <;> simp_all [State.SampleOpen, Phase.isOpen, Phase.current?]

theorem abortSample_aborts (s : State) : AbortedAtMost s (abortSample s) := by
  cases opened : s.seq.phase.isOpen with
  | false => exact .inl (by rw [abortSample_of_shut opened])
  | true =>
    obtain ⟨w, sample⟩ := current?_of_open opened
    obtain ⟨released, aborted⟩ := abortSample_aborted sample
    exact .inr ⟨w, sample, released, aborted.2⟩

theorem takeChange_aborts (h : Handover) (s : State) : AbortedAtMost s (takeChange h s) := by
  have moves : (takeIf h.moves abandonAllMoves s).seq = s.seq :=
    takeIf_same State.seq _ (fun t => (abandonAllMoves_seqApart t).seq) s
  have sample : AbortedAtMost s (takeIf h.sequencer abortSample (takeIf h.moves abandonAllMoves s)) := by
    have aborts := abortSample_aborts (takeIf h.moves abandonAllMoves s)
    simp only [AbortedAtMost, State.SampleOpen, moves] at aborts
    cases h.sequencer with
    | false => exact .inl moves
    | true => exact aborts
  exact sample.after
    ((takeIf_apart _ withdrawPermit_apart _).trans (takeIf_apart _ beginRoundIfIdle_apart _)).seq
    ((takeIf_eventsGrow _ withdrawPermit_eventsGrow _).trans (takeIf_eventsGrow _ beginRoundIfIdle_eventsGrow _))

/-- A report aborts an open sample at most, and leaves the sequencer otherwise (R156). -/
theorem reportFault_aborts (k : FaultKind) (n : Nat) (d : Half) (s : State) :
    AbortedAtMost s (reportFault k n d s) := by
  unfold reportFault
  split
  · exact .inl rfl
  · exact .inl rfl
  · exact .inl rfl
  · unfold enterSafe
    split
    · exact .inl rfl
    all_goals exact takeChange_aborts _ (setOwed _ (setDeviceEvent .state (setDeviceState .safe
      (setDeviceEvent .fault (recordFault k n d s)))))

theorem reportFault_failures (k : FaultKind) (n : Nat) (d : Half) (s : State) :
    (reportFault k n d s).seq.failures = s.seq.failures := by
  rcases reportFault_aborts k n d s with same | ⟨_, _, released, _⟩
  · rw [same]
  · rw [released]

/-! ### The lists -/

theorem still_iff (s : State) (v : Well) : s.Still v ↔ ¬ s.Listed v := by
  rw [← moving_iff, State.moving, Bool.or_eq_true, not_or, Bool.not_eq_true, Bool.not_eq_true]

/-- The moves of other wells end, and the record of a well in neither list is left as it stands. -/
theorem abandonMoves_unlisted (ws : List Well) (unlisted : ¬ s.Listed v) :
    (abandonMoves ws s).record? v = s.record? v := by
  induction ws generalizing s with
  | nil => rfl
  | cons w ws ih =>
    have unfolded : abandonMoves (w :: ws) s =
        abandonMoves ws (if s.moving w then endMove .abandoned w s else s) := rfl
    rw [unfolded]
    split
    · rename_i moving
      have other : v ≠ w := fun e => unlisted (e ▸ (moving_iff s w).1 moving)
      have left : ¬ (endMove .abandoned w s).Listed v := by
        rw [State.Listed, endMove_inLists, List.mem_filter]
        exact fun h => unlisted h.1
      rw [ih left, endMove, record?_setWellEvent, if_neg other, record?_writeRecord, if_neg other]
      rfl
    · exact ih unlisted

/-- A well whose move is ended, or that stands in a list, is so again after the change has been taken; no well has joined
a list (R119, R156). -/
theorem takeChange_lists (h : Handover) (s : State) (v : Well) :
    ((takeChange h s).Listed v → s.Listed v) ∧
    (s.Listed v ∨ s.Shows v WellRecord.MoveAbandoned →
      (takeChange h s).Listed v ∨ (takeChange h s).Shows v WellRecord.MoveAbandoned) := by
  obtain ⟨left, shown⟩ := abandonMoves_ends s.inLists s
  have lists : (takeChange h s).inLists = (takeIf h.moves abandonAllMoves s).inLists := by
    obtain ⟨_, _, _, moves, _⟩ := takeChange_queue h s
    rw [State.inLists, moves]
    rfl
  have first : ((takeIf h.moves abandonAllMoves s).Listed v → s.Listed v) ∧
      (s.Listed v ∨ s.Shows v WellRecord.MoveAbandoned → (takeIf h.moves abandonAllMoves s).Listed v ∨
        (takeIf h.moves abandonAllMoves s).Shows v WellRecord.MoveAbandoned) := by
    cases h.moves with
    | false => exact ⟨id, id⟩
    | true => exact ⟨fun l => (left v l).1, shown v⟩
  unfold State.Listed at first ⊢
  rw [lists]
  refine ⟨first.1, fun before => (first.2 before).imp id fun ended => ?_⟩
  have sample : (takeIf h.sequencer abortSample (takeIf h.moves abandonAllMoves s)).Shows v WellRecord.MoveAbandoned := by
    cases h.sequencer with
    | false => exact ended
    | true => exact abortSample_shows ended
  exact Shows.eventsGrow moveAbandoned_eventStable sample
    ((takeIf_eventsGrow _ withdrawPermit_eventsGrow _).trans (takeIf_eventsGrow _ beginRoundIfIdle_eventsGrow _))

/-- What a report leaves of the lists (R119, R156). -/
theorem reportFault_lists (k : FaultKind) (n : Nat) (d : Half) (s : State) (v : Well) :
    ((reportFault k n d s).Listed v → s.Listed v) ∧
    (s.Listed v ∨ s.Shows v WellRecord.MoveAbandoned →
      (reportFault k n d s).Listed v ∨ (reportFault k n d s).Shows v WellRecord.MoveAbandoned) := by
  unfold reportFault
  split
  · exact ⟨id, id⟩
  · exact ⟨id, id⟩
  · exact ⟨id, id⟩
  · unfold enterSafe
    split
    · exact ⟨id, id⟩
    all_goals exact takeChange_lists _ (setOwed _ (setDeviceEvent .state (setDeviceState .safe
      (setDeviceEvent .fault (recordFault k n d s))))) v

/-- A report leaves of the record of a well in neither list more than its events, when no sample is open. -/
theorem reportFault_unlisted {P : WellRecord → Prop} (hP : EventStable P) (k : FaultKind) (n : Nat) (d : Half)
    (unlisted : ¬ s.Listed v) (shut : s.seq.phase.isOpen = false) (shows : s.Shows v P) :
    (reportFault k n d s).Shows v P := by
  have change (h : Handover) (t : State) (slots : t.slots = s.slots) (moves : t.moves = s.moves) (seq : t.seq = s.seq) :
      (takeChange h t).Shows v P := by
    have listed : ¬ t.Listed v := by rw [State.Listed, State.inLists, moves]; exact unlisted
    have first : (takeIf h.moves abandonAllMoves t).Shows v P := by
      intro q hq
      refine shows q ?_
      rw [← hq, ← record?_congr slots]
      cases h.moves with
      | false => rfl
      | true => exact (abandonMoves_unlisted _ listed).symm
    have phase : (takeIf h.moves abandonAllMoves t).seq = s.seq :=
      (takeIf_same State.seq _ (fun t => (abandonAllMoves_seqApart t).seq) t).trans seq
    have sample : (takeIf h.sequencer abortSample (takeIf h.moves abandonAllMoves t)).Shows v P := by
      have stays := abortSample_of_shut (s := takeIf h.moves abandonAllMoves t) (by rw [phase]; exact shut)
      cases h.sequencer with
      | false => exact first
      | true => rw [takeIf, if_pos rfl, stays]; exact first
    exact Shows.eventsGrow hP sample
      ((takeIf_eventsGrow _ withdrawPermit_eventsGrow _).trans (takeIf_eventsGrow _ beginRoundIfIdle_eventsGrow _))
  unfold reportFault
  split
  · exact shows
  · exact shows
  · exact shows
  · unfold enterSafe
    split
    · exact shows
    all_goals exact change _ (setOwed _ (setDeviceEvent .state (setDeviceState .safe
      (setDeviceEvent .fault (recordFault k n d s))))) rfl rfl rfl

end Sys2Proof.Machine
end

