-- ==== Sys2Proof/Proofs/Refusals.lean ====
section
/-! SUPPORT. A REFUSED reply, and a failed transaction below the threshold: the station's record written, a report, and
the round gone on (chapter 3). -/

namespace Sys2Proof.Machine

variable {s t u : State} {w v : Well} {a : Nat}

/-! ### The place of a well -/

/-- Where the table finds a well is told by the places alone. -/
theorem well?_of_places (places : t.places = s.places) (w : Well) :
    (t.well? w).map (fun x => (x.address, x.channel)) = (s.well? w).map fun x => (x.address, x.channel) := by
  have told (u : State) : (u.well? w).map (fun x => (x.address, x.channel)) =
      (u.places.find? fun p => p.1 == w.slot).bind
        fun p => if p.2.1 = w.tag then some (p.2.2.1, p.2.2.2) else none := by
    have key : (fun p : Nat × Nat × Nat × Nat => p.1 == w.slot) ∘ placeOf = fun p => p.1 == w.slot := rfl
    unfold State.well? State.slot? State.places
    rw [List.find?_map, key]
    cases u.slots.find? (fun p => p.1 == w.slot) with
    | none => rfl
    | some p =>
      simp only [Option.map_some, Option.bind_some, placeOf]
      split <;> rfl
  rw [told, told, places]

theorem address_of_places {x : Slot} (places : t.places = s.places) (hx : s.well? w = some x) :
    ∃ y, t.well? w = some y ∧ y.address = x.address := by
  have same := well?_of_places places w
  rw [hx, Option.map_some, Option.map_eq_some_iff] at same
  obtain ⟨y, hy, place⟩ := same
  exact ⟨y, hy, congrArg Prod.fst place⟩

/-! ### The station table -/

theorem stationsWith_twice {f g : StationRecord → StationRecord} (keeps : ∀ x, (f x).address = x.address) :
    (changeStation g a (changeStation f a s)).scan.stations = s.stationsWith a fun x => g (f x) := by
  simp only [changeStation_scan, State.stationsWith, List.map_map]
  refine List.map_congr_left fun x _ => ?_
  simp only [Function.comp]
  by_cases own : x.address = a
  · rw [if_pos own, if_pos ((keeps x).trans own), if_pos own]
  · rw [if_neg own, if_neg own, if_neg own]

/-- A station record rewritten leaves the station table that of the slots, when the station has not become ACTIVE and no
active well has been parked but at a station that is not ACTIVE (R46, R57). -/
theorem StationsLegal.rewritten {f : StationRecord → StationRecord} (legal : s.StationsLegal)
    (places : t.places = s.places) (stations : t.scan.stations = s.stationsWith a f)
    (keeps : ∀ x ∈ s.scan.stations, (f x).address = x.address ∧ (f x).channels = x.channels ∧
      (f x).failures ≤ Config.maxFailures ∧ ((f x).state = .active → x.state = .active))
    (active : ∀ v x q, s.well? v = some x → t.record? v = some q → x.record.mode.isActive = true →
      q.mode.isActive = true ∨ x.address = a ∧ ∀ y, (f y).state ≠ .active) : t.StationsLegal := by
  obtain ⟨ordered, _, _, _, each⟩ := id legal
  refine StationsLegal.of_places legal places stations (fun x hx => ?_) fun x hx state p hp address => ?_
  · split
    · obtain ⟨own, channels, failures, _⟩ := keeps x hx
      exact ⟨own, failures, by rw [channels]⟩
    · exact ⟨rfl, (each x hx).1, rfl⟩
  · obtain ⟨q, hq, same, qa, _⟩ := place_of_places places hp
    have stands : s.well? (wellOf p) = some q.2 := same ▸ well?_wellOf ordered hq
    have read : t.record? (wellOf p) = some p.2.record := by
      rw [State.record?, well?_wellOf (slotsOrdered_of_places places ordered) hp]; rfl
    have before : q.2.record.mode.isActive = true := by
      obtain ⟨_, _, _, wells⟩ := each x hx
      refine wells ?_ q hq (qa.trans address)
      split at state
      · exact (keeps x hx).2.2.2 state
      · exact state
    refine (active _ _ _ stands read before).resolve_right fun ⟨own, never⟩ => ?_
    rw [if_pos (address.symm.trans (qa.symm.trans own))] at state
    exact never x state

theorem Marks.keepsActive {x : Slot} {q : WellRecord} (marks : Marks s t) (hx : s.well? v = some x)
    (hq : t.record? v = some q) (active : x.record.mode.isActive = true) : q.mode.isActive = true := by
  obtain ⟨r, hr, kept⟩ := marks.active v q hq
  rw [State.record?, hx] at hr
  cases hr
  exact kept active

/-! ### The transaction over -/

/-- The state in which the outcome of the transaction in flight is taken: the transaction is over (R49). -/
def landed (s : State) : State := { s with scan := { s.scan with inFlight := none } }

theorem endTransaction_eq {act : Transaction → State → State} {tr : Transaction} (flying : s.scan.inFlight = some tr) :
    endTransaction act s = visitNext (act tr (landed s)) := by
  simp only [endTransaction, flying, landed]

/-- What the operations on a station's record and the blocks' parts leave of the frame, when the round goes on after. -/
theorem sameBase_visitNext (tame : Tame (landed s) u) : s.SameBase (visitNext u) := by
  have all := tame.trans (visitNext_tame u)
  exact ⟨⟨all.settings, all.time, all.pending⟩, all.port⟩

/-- The round goes on from a state whose station table is that of the slots and where it has gone no further. -/
theorem sendsNext_visitNext {tr : Transaction} (transactions : s.TransactionLegal) (flying : s.scan.inFlight = some tr)
    (legal : u.StationsLegal) (round : s.scan.round ≠ .idle → u.scan.round = s.scan.round) :
    (visitNext u).SendsNext tr.address := by
  obtain ⟨_, each⟩ := transactions
  obtain ⟨running, _⟩ := each tr flying
  exact visitNext_sendsNext legal ((round (by rw [running]; exact fun e => nomatch e)).trans running)

/-! ### REFUSED -/

/-- A REFUSED whose check is bad, or that does not fit the transaction, fails it (R51). -/
theorem judgeRefused_fails {frame : LinkFrame} {tr : Transaction}
    (bad : frame.passes = false ∨ tr.address ≠ a ∨ ∀ l, tr.sent ≠ .poll l) (s : State) :
    judgeFrame frame (judgeRefused a) tr s = failTransaction tr.address s := by
  unfold judgeFrame
  split
  · rename_i passes
    unfold judgeRefused
    split
    · rename_i l sent
      have other : tr.address ≠ a := (bad.resolve_left (by simp [passes])).resolve_right fun h => h l sent
      rw [if_neg (Ne.symm other)]
    · rfl
  · rfl

theorem exec_refused_fits {frame : LinkFrame} {tr : Transaction} {l : List PollChannel} (passes : frame.passes = true)
    (flying : s.scan.inFlight = some tr) (sent : tr.sent = .poll l) :
    exec (.refused ⟨tr.address, frame⟩) s = .next (visitNext (refusePoll tr.address (landed s))) := by
  show Host.Outcome.next (endTransaction _ s) = _
  rw [endTransaction_eq flying, judgeFrame, if_pos passes, judgeRefused, sent]
  simp only [if_true]

/-- An open sample is aborted by its report already, or by the abort after it (R63, R104). -/
theorem AbortedAtMost.abortSample (aborts : AbortedAtMost s t) (current : s.seq.phase.current? = some w) :
    (Machine.abortSample t).seq = { s.seq with phase := .release w } ∧
    (s.seq.phase ≠ .release w → (Machine.abortSample t).Shows w WellRecord.SampleAborted) := by
  rcases aborts with same | ⟨v, ⟨_, open_v⟩, released, shown⟩
  · cases opened : s.seq.phase.isOpen with
    | true =>
      obtain ⟨seq, aborted⟩ := abortSample_aborted (s := t) (w := w)
        (by rw [State.SampleOpen, same]; exact ⟨opened, current⟩)
      rw [same] at seq
      exact ⟨seq, fun _ => aborted.2⟩
    | false =>
      have phase : s.seq.phase = .release w := by
        cases h : s.seq.phase <;> simp_all [Phase.isOpen, Phase.current?]
      rw [abortSample_of_shut (by rw [same]; exact opened), same]
      exact ⟨by rw [← phase], fun ne => absurd phase ne⟩
  · obtain rfl : v = w := Option.some.inj (open_v.symm.trans current)
    rw [abortSample_of_shut (by rw [released]; rfl)]
    exact ⟨released, fun _ => shown⟩

/-- A REFUSED before the abort of a sample in hand at the station: its record written, and the report. -/
def refusedBefore (a : Nat) (s : State) : State :=
  reportFault .stationRefused noTag (addressDetail a) (setStationState .setupDue a (clearFailures a s))

theorem refusePoll_eq (a : Nat) (s : State) : refusePoll a s =
    if (refusedBefore a s).currentAddress? = some a then abortSample (refusedBefore a s) else refusedBefore a s := rfl

theorem currentAddress?_eq {x : Slot} (hx : s.well? w = some x) (current : t.seq.phase.current? = some w)
    (places : t.places = s.places) : t.currentAddress? = some x.address := by
  obtain ⟨y, hy, same⟩ := address_of_places places hx
  simp only [State.currentAddress?, current, hy, Option.map_some, same]

theorem AbortedAtMost.current (aborts : AbortedAtMost s t) : t.seq.phase.current? = s.seq.phase.current? := by
  rcases aborts with same | ⟨v, ⟨_, open_v⟩, released, _⟩
  · rw [same]
  · rw [released, open_v]
    rfl

/-- What a REFUSED of a POLL leaves, before the round goes on (R63). -/
structure Refuses (a : Nat) (s t : State) : Prop where
  stations : t.scan.stations = s.stationsWith a fun x => { x with failures := 0, state := .setupDue }
  round    : s.scan.round ≠ .idle → t.scan.round = s.scan.round
  faults   : t.faults = s.faultsAfter .stationRefused 65535 (BitVec.ofNat 16 a)
  state    : t.device.state = s.stateAfter .stationRefused
  current  : ∀ w x, s.seq.phase.current? = some w → s.well? w = some x → x.address = a →
    t.seq = { s.seq with phase := .release w } ∧
      (s.seq.phase ≠ .release w → t.Shows w WellRecord.SampleAborted)
  marks    : Marks s t
  places   : t.places = s.places
  index    : t.index = s.index

theorem refusePoll_refuses (a : Nat) (s : State) : Refuses a s (refusePoll a s) := by
  let written := setStationState .setupDue a (clearFailures a s)
  have reported : Rooted written (refusedBefore a s) := reportFault_rooted _ _ _ _
  have aborts : AbortedAtMost written (refusedBefore a s) := reportFault_aborts _ _ _ _
  obtain ⟨_, _, index⟩ := reportFault_queue .stationRefused noTag (addressDetail a) written
  have marks : Marks s (refusedBefore a s) :=
    (marks_of_slots (s := s) (t := written) rfl).trans (reportFault_marks _ _ _ _)
  have before : ∀ after : State, after = refusedBefore a s ∨ after = abortSample (refusedBefore a s) →
      after.scan = (refusedBefore a s).scan ∧ after.faults = (refusedBefore a s).faults ∧
      after.device = (refusedBefore a s).device ∧ Marks s after ∧ after.places = (refusedBefore a s).places ∧
      after.index = (refusedBefore a s).index := by
    rintro after (rfl | rfl)
    · exact ⟨rfl, rfl, rfl, marks, rfl, rfl⟩
    · have calm := abortSample_calm (refusedBefore a s)
      exact ⟨calm.scan, calm.faults, abortSample_device _, marks.trans (abortSample_marks _), abortSample_places _,
        (abortSample_moves _).2⟩
  obtain ⟨scan, faults, device, marks, places, index'⟩ := before (refusePoll a s) (by
    rw [refusePoll_eq]
    split
    · exact .inr rfl
    · exact .inl rfl)
  exact
    { stations := by rw [scan, reported.stations]; exact stationsWith_twice fun _ => rfl
      round := fun running => by rw [scan, reported.scan running]; rfl
      faults := by rw [faults]; exact reportFault_faultsAfter _ _ _ written
      state := by rw [device]; exact reportFault_stateAfter _ _ _ written
      current := fun w x current hx own => by
        rw [refusePoll_eq, if_pos]
        · exact AbortedAtMost.abortSample (s := written) aborts current
        · exact (currentAddress?_eq (s := written) hx (aborts.current.trans current) reported.places).trans
            (congrArg some own)
      marks := marks
      places := places.trans reported.places
      index := index'.trans index }

/-- The part of O60 about a REFUSED of the POLL in flight. -/
theorem refused_poll {frame : LinkFrame} {tr : Transaction} {l : List PollChannel} (flying : s.scan.inFlight = some tr)
    (passes : frame.passes = true) (sent : tr.sent = .poll l) : ∃ t, exec (.refused ⟨tr.address, frame⟩) s = .next t ∧
      t.scan.stations = s.stationsWith tr.address (fun x => { x with failures := 0, state := .setupDue }) ∧
      t.faults = s.faultsAfter .stationRefused 65535 (BitVec.ofNat 16 tr.address) ∧
      t.device.state = s.stateAfter .stationRefused ∧
      (∀ w x, s.seq.phase.current? = some w → s.well? w = some x → x.address = tr.address →
        t.seq = { s.seq with phase := .release w } ∧
        (s.seq.phase ≠ .release w → ∃ q, t.record? w = some q ∧ q.sampleOutcome = .aborted ∧
          q.events.getLsbD 7 = true)) ∧
      (∀ v r, s.record? v = some r → t.HoldsUpToMarks v r) ∧ (s.Sound → t.SendsNext tr.address) ∧
      t.index = s.index ∧ s.SameBase t := by
  refine ⟨_, exec_refused_fits passes flying sent, ?_⟩
  have refuses := refusePoll_refuses tr.address (landed s)
  have tame : Tame (landed s) (refusePoll tr.address (landed s)) := by
    simpa only [judgeRefused, sent, if_true] using judgeRefused_tame tr.address tr (landed s)
  generalize refusePoll tr.address (landed s) = u at refuses tame
  have apart := visitNext_apart u
  have marks : Marks (landed s) (visitNext u) := refuses.marks.trans (visitNext_marks u)
  refine ⟨(visitNext_stations u).trans refuses.stations, apart.faults.trans refuses.faults,
    apart.state.trans refuses.state, fun w x current hx own => ?_, marks.holds, fun sound => ?_, apart.index.trans refuses.index, sameBase_visitNext tame⟩
  · obtain ⟨seq, aborted⟩ := refuses.current w x current hx own
    refine ⟨apart.seq.trans seq, fun ne => ?_⟩
    obtain ⟨q, hq, _⟩ := marks.holds w x.record (congrArg (Option.map _) hx)
    exact ⟨q, hq, Shows.eventsGrow sampleAborted_eventStable (aborted ne) (visitNext_eventsGrow u) q hq⟩
  · obtain ⟨_, legal, transactions, _⟩ := sound
    exact sendsNext_visitNext transactions flying (StationsLegal.rewritten (s := landed s) legal refuses.places
      refuses.stations (fun x _ => ⟨rfl, rfl, Nat.zero_le _, fun e => nomatch e⟩) fun _ _ _ hx hq active =>
        .inl (refuses.marks.keepsActive hx hq active)) refuses.round

/-! ### A failed transaction -/

/-- A failed transaction before a loss: the count raised, and the report. -/
def failedBefore (a : Nat) (s : State) : State :=
  reportFault .stationNoReply noTag (addressDetail a) (raiseStationFailures a s)

theorem failTransaction_eq {st : StationRecord} (ordered : s.StationsOrdered) (mem : st ∈ s.scan.stations) :
    failTransaction st.address s =
      if st.state ≠ .lost ∧ s.settings.lossThreshold ≤ min (st.failures + 1) 8 then
        loseStation st.address (failedBefore st.address s)
      else failedBefore st.address s := by
  have read : (raiseStationFailures st.address s).station? st.address =
      some { st with failures := min (st.failures + 1) Config.maxFailures } :=
    station?_changeStation (fun _ => rfl) ordered mem
  simp only [failTransaction, read, lossReached, Bool.and_eq_true, decide_eq_true_eq, Bool.not_eq_true',
    beq_eq_false_iff_ne, and_comm, failedBefore, Config.maxFailures]

/-- The station table after a failure counted, the count of the one station of the address being known (R46, R56). -/
theorem raiseStationFailures_stations {st : StationRecord} (ordered : s.StationsOrdered) (mem : st ∈ s.scan.stations) :
    (raiseStationFailures st.address s).scan.stations =
      s.stationsWith st.address fun x => { x with failures := min (st.failures + 1) 8 } := by
  refine List.map_congr_left fun x hx => ?_
  by_cases own : x.address = st.address
  · rw [station_unique ordered mem hx own]
    rfl
  · rw [if_neg own, if_neg own]

/-- What a failed transaction leaves before a loss (R56). -/
structure Fails (a n : Nat) (s t : State) : Prop where
  stations : t.scan.stations = s.stationsWith a fun x => { x with failures := n }
  round    : s.scan.round ≠ .idle → t.scan.round = s.scan.round
  faults   : t.faults = s.faultsAfter .stationNoReply 65535 (BitVec.ofNat 16 a)
  state    : t.device.state = s.stateAfter .stationNoReply
  marks    : Marks s t
  places   : t.places = s.places
  index    : t.index = s.index
  tame     : Tame s t

theorem failedBefore_fails {st : StationRecord} (ordered : s.StationsOrdered) (mem : st ∈ s.scan.stations) :
    Fails st.address (min (st.failures + 1) 8) s (failedBefore st.address s) := by
  let raised := raiseStationFailures st.address s
  have reported : Rooted raised (failedBefore st.address s) := reportFault_rooted _ _ _ _
  obtain ⟨_, _, index⟩ := reportFault_queue .stationNoReply noTag (addressDetail st.address) raised
  exact
    { stations := reported.stations.trans (raiseStationFailures_stations ordered mem)
      round := fun running => by rw [reported.scan running]; rfl
      faults := reportFault_faultsAfter _ _ _ raised
      state := reportFault_stateAfter _ _ _ raised
      marks := (marks_of_slots (s := s) (t := raised) rfl).trans (reportFault_marks _ _ _ _)
      places := reported.places
      index := index
      tame := (changeStation_tame _ _ s).trans (reportFault_tame _ _ _ raised) }

theorem exec_transactionFailure {tr : Transaction} (flying : s.scan.inFlight = some tr) :
    exec .transactionFailure s = .next (visitNext (failTransaction tr.address (landed s))) := by
  show Host.Outcome.next (endTransaction _ s) = _
  rw [endTransaction_eq flying]

/-- The part of O60 about a failed transaction that loses no station. -/
theorem transactionFailure_counts {tr : Transaction} {st : StationRecord} (flying : s.scan.inFlight = some tr)
    (ordered : s.StationsOrdered) (mem : st ∈ s.scan.stations) (own : st.address = tr.address) (n : Nat)
    (count : n = min (st.failures + 1) 8) (stays : st.state = .lost ∨ n < s.settings.lossThreshold) :
    ∃ t, exec .transactionFailure s = .next t ∧
      t.scan.stations = s.stationsWith tr.address (fun x => { x with failures := n }) ∧
      t.faults = s.faultsAfter .stationNoReply 65535 (BitVec.ofNat 16 tr.address) ∧
      t.device.state = s.stateAfter .stationNoReply ∧
      (∀ v r, s.record? v = some r → t.HoldsUpToMarks v r) ∧ (s.Sound → t.SendsNext tr.address) ∧
      t.index = s.index ∧ s.SameBase t := by
  have before : failTransaction tr.address (landed s) = failedBefore tr.address (landed s) := by
    rw [← own, failTransaction_eq (s := landed s) ordered mem, if_neg]
    rintro ⟨state, reached⟩
    exact stays.elim state fun below => absurd (count ▸ reached) (Nat.not_le.2 below)
  have fails : Fails tr.address n (landed s) (failedBefore tr.address (landed s)) := by
    rw [← own, count]
    exact failedBefore_fails (s := landed s) ordered mem
  rw [exec_transactionFailure flying, before]
  generalize failedBefore tr.address (landed s) = u at fails
  have apart := visitNext_apart u
  refine ⟨_, rfl, (visitNext_stations u).trans fails.stations, apart.faults.trans fails.faults,
    apart.state.trans fails.state, (fails.marks.trans (visitNext_marks u)).holds, fun sound => ?_,
    apart.index.trans fails.index, sameBase_visitNext fails.tame⟩
  obtain ⟨_, legal, transactions, _⟩ := sound
  exact sendsNext_visitNext transactions flying (StationsLegal.rewritten (s := landed s) legal fails.places
    fails.stations (fun x _ => ⟨rfl, rfl, count ▸ Nat.min_le_right _ _, id⟩) fun _ _ _ hx hq active =>
      .inl (fails.marks.keepsActive hx hq active)) fails.round

end Sys2Proof.Machine
end

