-- ==== Sys2Proof/Proofs/LossParts.lean ====
section
/-! SUPPORT. What each block's part of a station loss leaves (R31, R57, R85, R105, R119), in the order in which the model
takes the blocks. -/

namespace Sys2Proof.Machine

variable {s t u : State} {w v : Well} {a : Nat} {ws : List Well}

/-! ### The round goes on -/

/-- Each slot that is found keeps its debounce runs, and no device event kind leaves. -/
structure RoundKeeps (s t : State) : Prop where
  runs   : ∀ v y, t.well? v = some y → ∃ x, s.well? v = some x ∧ y.runs = x.runs
  events : ∀ i, s.device.events.getLsbD i = true → t.device.events.getLsbD i = true

theorem roundKeeps_of_slots (slots : t.slots = s.slots) (device : t.device = s.device) : RoundKeeps s t :=
  ⟨fun v y hy => ⟨y, by rw [← well?_congr slots]; exact hy, rfl⟩, fun i h => by rw [device]; exact h⟩

theorem RoundKeeps.trans (a : RoundKeeps s t) (b : RoundKeeps t u) : RoundKeeps s u := by
  refine ⟨fun v z hz => ?_, fun i h => b.events i (a.events i h)⟩
  obtain ⟨y, hy, second⟩ := b.runs v z hz
  obtain ⟨x, hx, first⟩ := a.runs v y hy
  exact ⟨x, hx, second.trans first⟩

theorem levelDetection_keeps (s : State) : RoundKeeps s (levelDetection s) := by
  by_cases standby : s.device.state = .standby
  · rw [levelDetection_standby standby]
    exact roundKeeps_of_slots rfl rfl
  · obtain ⟨⟨_, rest, _⟩, gone, found⟩ := levelDetection_detects standby _ rfl
    refine ⟨fun v y hy => ?_, fun i h => by rw [rest]; exact h⟩
    cases hx : s.well? v with
    | none => rw [gone v hx] at hy; cases hy
    | some x =>
      obtain ⟨z, hz, kinds⟩ := found v x hx
      cases hy.symm.trans hz
      exact ⟨x, rfl, by rw [kinds.same]⟩

theorem finishRound_keeps (s : State) : RoundKeeps s (finishRound s) := by
  have before : RoundKeeps s (levelDetection { s with scan := { s.scan with inFlight := none, round := .idle } }) :=
    (roundKeeps_of_slots (s := s) (t := { s with scan := { s.scan with inFlight := none, round := .idle } })
      rfl rfl).trans (levelDetection_keeps _)
  refine before.trans ⟨fun v y hy => ⟨y, by rw [← well?_congr (blendRoundEnd_slots _)]; exact hy, rfl⟩, fun i h => ?_⟩
  obtain ⟨_, _, _, _, _, kinds⟩ := blendRoundEnd_formed
    (levelDetection { s with scan := { s.scan with inFlight := none, round := .idle } })
  exact (kinds.events i).2 (.inl h)

theorem visitNext_keeps (s : State) : RoundKeeps s (visitNext s) := by
  have begins (t : State) : RoundKeeps t (beginRound t) := by
    unfold beginRound
    split
    · exact finishRound_keeps t
    · exact roundKeeps_of_slots rfl rfl
  unfold visitNext
  split
  · exact roundKeeps_of_slots rfl rfl
  split
  · exact roundKeeps_of_slots rfl rfl
  dsimp only
  split
  · exact (finishRound_keeps s).trans (begins _)
  · exact finishRound_keeps s

/-! ### One step on each of several wells -/

/-- When the step on a well is seen by the read of that well alone and twice is once, each well listed is taken, however
often it is listed. -/
theorem forEach_read {α : Type} (read : State → Well → Option α) {f : Well → State → State} {g : α → α}
    (once : ∀ x, g (g x) = g x)
    (each : ∀ w s v, read (f w s) v = if v = w then (read s v).map g else read s v)
    (ws : List Well) (s : State) (v : Well) :
    read (forEach ws f s) v = if v ∈ ws then (read s v).map g else read s v := by
  unfold forEach
  induction ws generalizing s with
  | nil => rfl
  | cons w ws ih =>
    rw [List.foldl_cons, ih, each]
    by_cases own : v = w
    · subst own
      rw [if_pos rfl, if_pos (List.mem_cons_self ..)]
      split
      · rw [Option.map_map, show g ∘ g = g from funext once]
      · rfl
    · simp only [own, if_false, List.mem_cons, false_or]

/-! ### The record of a well of a lost station -/

/-- A loss leaves no active mode, so that what is lost is lost once. -/
theorem lost_lost (r : WellRecord) : r.lost.lost = r.lost := by
  unfold WellRecord.lost
  cases mode : r.mode <;> simp [Mode.active?, mode]

theorem lost_addEvent (k : WellEvent) (r : WellRecord) : (addEvent k r).lost = addEvent k r.lost := by
  unfold WellRecord.lost WellRecord.departed addEvent
  cases mode : r.mode <;> simp [Mode.active?, mode]

theorem lost_lost_station (r : WellRecord) :
    addEvent .station (addEvent .station r.lost).lost = addEvent .station r.lost := by
  rw [lost_addEvent, lost_lost]
  simp only [addEvent, BitVec.or_assoc, BitVec.or_self]

theorem record?_loseWells (ws : List Well) (s : State) (v : Well) : (forEach ws loseWell s).record? v =
    if v ∈ ws then (s.record? v).map (fun r => addEvent .station r.lost) else s.record? v := by
  refine forEach_read State.record? lost_lost_station (fun w s v => ?_) ws s v
  rw [loseWell, record?_setWellEvent, record?_writeRecord, record?_writeRecord, if_pos rfl, Option.map_map]
  by_cases own : v = w
  · rw [if_pos own, if_pos own, own]
    rfl
  · rw [if_neg own, if_neg own, if_neg own]

/-- The record of a station's well after the loss, as the requirement gives it (R31, R57). -/
theorem lost_eq (r : WellRecord) : r.lost = { r with
    vacuum := none, flow := none, temp := none, valveFeedback := none,
    mode := if r.mode = .staging then .staging else .unreachable,
    returnMode := match r.mode with
      | .staging => r.returnMode
      | .unreachable => r.returnMode
      | .auto => some .auto
      | .manual => some .manual
      | .isolated => some .isolated
      | .suspect => some .suspect
      | .retiring => some .retiring,
    excursions := if r.mode = .suspect then 0 else r.excursions,
    clean := if r.mode = .suspect then 0 else r.clean } := by
  unfold WellRecord.lost WellRecord.departed
  cases mode : r.mode <;> simp [Mode.active?, mode]

/-- What becomes of a well among the others is no matter of its loss. -/
theorem lost_of_marks {r q : WellRecord}
    (same : q = { r with
      events := q.events, queued := q.queued, sampleOutcome := q.sampleOutcome, moveState := q.moveState,
      moveOutcome := q.moveOutcome }) :
    q.lost = { r.lost with
      events := q.events, queued := q.queued, sampleOutcome := q.sampleOutcome, moveState := q.moveState,
      moveOutcome := q.moveOutcome } := by
  rw [same]
  unfold WellRecord.lost WellRecord.departed
  cases mode : r.mode <;> simp [Mode.active?, mode]

/-! ### The debounce runs -/

theorem well?_clearRuns (ws : List Well) (s : State) (v : Well) : (forEach ws clearRuns s).well? v =
    if v ∈ ws then (s.well? v).map (fun x => { x with runs := noRuns }) else s.well? v := by
  refine forEach_read State.well? (g := fun x => { x with runs := noRuns }) (fun _ => rfl) (fun w s v => ?_) ws s v
  rw [clearRuns, well?_changeSlot (f := fun x => { x with runs := noRuns }) fun _ => rfl]
  by_cases own : v = w
  · rw [if_pos own, if_pos own, own]
  · rw [if_neg own, if_neg own]

theorem record?_clearRuns (ws : List Well) (s : State) (v : Well) :
    (forEach ws clearRuns s).record? v = s.record? v :=
  forEach_same (f := clearRuns) (fun t => t.record? v) (fun w t =>
    record?_changeSlot (f := fun x => { x with runs := noRuns }) (fun _ => ⟨rfl, rfl⟩) w v t) ws s

/-! ### The grant test -/

/-- The grant test leaves a well in neither list, and its record. -/
theorem grantTest_unlisted (unlisted : ¬ s.Listed v) :
    ¬ (grantTest s).Listed v ∧ (grantTest s).record? v = s.record? v := by
  have still := (still_iff s v).2 unlisted
  have after : (grantTest s).Still v := grantLoop_still _ s rfl still
  refine ⟨(still_iff _ v).1 after, ?_⟩
  cases hr : s.record? v with
  | none => exact (grantTest_marks s).gone v hr
  | some r =>
    have read := grantLoop_record s.moves.waiting s rfl hr (fun h => by rw [still.1] at h; cases h)
    rw [show (grantLoop s.moves.waiting s).moves.holds v = false from after.1] at read
    exact read

/-! ### The queue -/

/-- The entries of these wells have left the queue; the sequencer is otherwise as it was, and no mark of a move has been
written. -/
structure EntriesRemoved (ws : List Well) (s t : State) : Prop where
  seq    : t.seq = { s.seq with queue := t.seq.queue }
  gone   : ∀ e ∈ t.seq.queue, e ∈ s.seq.queue ∧ e.well ∉ ws
  marks  : MarksOf false true s t
  moves  : t.moves = s.moves

theorem removeEntry_removed (w : Well) (s : State) : EntriesRemoved [w] s (removeEntry w s) := by
  obtain ⟨seq, _⟩ := removeEntry_left w s
  refine ⟨by rw [seq], fun e he => ?_, ?_, ?_⟩
  · rw [seq] at he
    obtain ⟨mem, other⟩ := List.mem_filter.1 he
    exact ⟨mem, by simpa using other⟩
  · unfold removeEntry
    split
    · exact MarksOf.trans (t := setQueue (withoutEntry w s.seq.queue) s) (marksOf_of_slots rfl)
        (writeSample_marksOf (fun _ => rfl) w _)
    · exact .refl s
  · unfold removeEntry
    split <;> rfl

theorem removeEntries_removed (ws : List Well) (s : State) : EntriesRemoved ws s (forEach ws removeEntry s) := by
  unfold forEach
  induction ws generalizing s with
  | nil => exact ⟨rfl, fun e he => ⟨he, by simp⟩, .refl s, rfl⟩
  | cons w ws ih =>
    have first := removeEntry_removed w s
    have rest := ih (removeEntry w s)
    rw [List.foldl_cons]
    refine ⟨by rw [rest.seq, first.seq], fun e he => ?_, first.marks.trans rest.marks, rest.moves.trans first.moves⟩
    obtain ⟨mem, out⟩ := rest.gone e he
    obtain ⟨mem, other⟩ := first.gone e mem
    exact ⟨mem, fun h => (List.mem_cons.1 h).elim (by simpa using other) out⟩

/-! ### The sequencer leaves a sample -/

theorem leaveSample_idle (below : ∀ f, s.seq.failures = some f → f.count ≠ Config.offlineCount) :
    leaveSample s = enterIdle s := by
  unfold leaveSample
  split
  · rfl
  · rename_i f failures
    rw [if_neg (below f failures)]

theorem leaveSample_offline {f : FailureRun} (failures : s.seq.failures = some f)
    (reached : f.count = Config.offlineCount) :
    leaveSample s = enterOffline f s := by
  simp only [leaveSample, failures, reached, if_true]

/-- A head is taken into SELECT, or the phase stands. -/
theorem takeHeads_phase (q : List QueueEntry) (s : State) :
    (takeHeads q s).seq.phase = s.seq.phase ∨ ∃ w, (takeHeads q s).seq.phase = .select w := by
  induction q generalizing s with
  | nil => exact .inl rfl
  | cons e q ih =>
    unfold takeHeads
    dsimp only
    split
    · have blocked : (setQueued .no e.well (writeOutcome .blocked e.well (setQueue q s))).seq.phase = s.seq.phase := by
        show (writeOutcome .blocked e.well (setQueue q s)).seq.phase = _
        rw [(writeOutcome_apart _ _ _).seq]
        rfl
      rw [← blocked]
      exact ih _
    · exact .inr ⟨e.well, rfl⟩

theorem enterIdle_phase (s : State) : ∀ k m, (enterIdle s).seq.phase ≠ .offline k m := by
  intro k m offline
  have phase : (enterIdle s).seq.phase = .idle ∨ ∃ w, (enterIdle s).seq.phase = .select w := by
    unfold enterIdle headTest
    split
    · exact takeHeads_phase _ (setPhase .idle s)
    · exact .inl rfl
  rw [offline] at phase
  rcases phase with h | ⟨_, h⟩ <;> cases h

/-- The test for a head leaves the records of the wells out of the queue, but for their events. -/
theorem takeHeads_unqueued_shows {P : WellRecord → Prop} (q : List QueueEntry) (s : State)
    (unqueued : ∀ e ∈ q, e.well ≠ v) (shows : s.Shows v P) : (takeHeads q s).Shows v P := by
  have other (f : WellRecord → WellRecord) (w : Well) (t : State) (ne : w ≠ v) (h : t.Shows v P) :
      (writeRecord f w t).Shows v P := fun q hq => by
    rw [record?_writeRecord, if_neg (Ne.symm ne)] at hq
    exact h q hq
  have outcome (w : Well) (t : State) (ne : w ≠ v) (h : t.Shows v P) : (writeOutcome .blocked w t).Shows v P :=
    fun q hq => by
      rw [writeOutcome, record?_setWellEvent, if_neg (Ne.symm ne)] at hq
      exact other _ w t ne h q hq
  induction q generalizing s with
  | nil => exact shows
  | cons e q ih =>
    have ne := unqueued e (List.mem_cons_self ..)
    unfold takeHeads
    dsimp only
    split
    · exact ih _ (fun x hx => unqueued x (List.mem_cons_of_mem _ hx))
        (other _ _ _ ne (outcome _ (setQueue q s) ne shows))
    · exact other _ _ (setPhase (.select e.well) (setQueue q s)) ne shows

theorem enterOffline_leaves {P : WellRecord → Prop} (hP : EventStable P) (f : FailureRun) (unlisted : ¬ s.Listed v)
    (shows : s.Shows v P) : (enterOffline f s).Shows v P :=
  reportFault_unlisted (s := setPhase (.offline Config.probeSeconds false) s) hP .analyserOffline _ _ unlisted rfl shows

/-- The sequencer leaves a sample: nothing but the events of a well out of the queue and the lists is written, and the
well joins neither. -/
theorem leaveSample_leaves {P : WellRecord → Prop} (hP : EventStable P) (unlisted : ¬ s.Listed v)
    (unqueued : s.Unqueued v) (shows : s.Shows v P) : (leaveSample s).Shows v P ∧ ¬ (leaveSample s).Listed v := by
  have idle : (enterIdle s).Shows v P ∧ ¬ (enterIdle s).Listed v := by
    refine ⟨?_, by rw [State.Listed, State.inLists, enterIdle, (headTest_moves (setPhase .idle s)).1]; exact unlisted⟩
    unfold enterIdle headTest
    split
    · exact takeHeads_unqueued_shows _ (setPhase .idle s) unqueued shows
    · exact shows
  unfold leaveSample
  split
  · exact idle
  · rename_i f _
    split
    · exact ⟨enterOffline_leaves hP f unlisted shows, fun listed => unlisted
        ((reportFault_lists .analyserOffline f.tag (outcomeDetail f.outcome.toOutcome)
          (setPhase (.offline Config.probeSeconds false) s) v).1 listed)⟩
    · exact idle

/-- What the entry to OFFLINE leaves of the sequencer, the fault record and DEVICE_EVENTS (R103). -/
theorem enterOffline_enters (f : FailureRun) (s : State) :
    (enterOffline f s).seq.phase = .offline 60 false ∧ (enterOffline f s).device.events.getLsbD 0 = true ∧
    (enterOffline f s).faults = s.faultsAfter .analyserOffline f.tag
      (match f.outcome with | .timeout => 2 | .fault => 3) := by
  let reported := reportFault .analyserOffline f.tag (outcomeDetail f.outcome.toOutcome)
    (setPhase (.offline Config.probeSeconds false) s)
  refine ⟨?_, ?_, ?_⟩
  · show reported.seq.phase = _
    rcases reportFault_aborts .analyserOffline f.tag (outcomeDetail f.outcome.toOutcome)
      (setPhase (.offline Config.probeSeconds false) s) with same | ⟨_, ⟨opened, _⟩, _⟩
    · exact congrArg (·.phase) same
    · cases opened
  · show (reported.device.events ||| DeviceEvent.analyser.bit).getLsbD 0 = true
    rw [BitVec.getLsbD_or, show DeviceEvent.analyser.bit.getLsbD 0 = true by decide, Bool.or_true]
  · have detail : outcomeDetail f.outcome.toOutcome = (match f.outcome with | .timeout => 2 | .fault => 3) := by
      cases f.outcome <;> rfl
    rw [← detail]
    exact reportFault_faultsAfter _ _ _ (setPhase (.offline Config.probeSeconds false) s)

theorem leaveSample_index (s : State) : (leaveSample s).index = s.index := by
  have idle : (enterIdle s).index = s.index := (headTest_moves (setPhase .idle s)).2
  unfold leaveSample
  split
  · exact idle
  · rename_i f _
    split
    · obtain ⟨_, _, index⟩ := reportFault_queue .analyserOffline f.tag (outcomeDetail f.outcome.toOutcome)
        (setPhase (.offline Config.probeSeconds false) s)
      exact index
    · exact idle

end Sys2Proof.Machine
end

