-- ==== Sys2Proof/Proofs/StationLosses.lean ====
section
/-! SUPPORT. The loss of a station (R31, R57, R85, R105, R119): its wells through the blocks in turn, and what a failed
transaction that reaches the threshold leaves. -/

namespace Sys2Proof.Machine

variable {s t u : State} {w v : Well} {a : Nat} {ws : List Well}

/-! ### What the record of a lost well shows -/

/-- A STATION event, and where the well stood in a list its move ABANDONED. -/
def WellRecord.ShowsStation (listed : Prop) (q : WellRecord) : Prop :=
  q.events.getLsbD 5 = true ∧ (listed → q.MoveAbandoned)

/-- A sample that ended LOST, out of the queue. -/
def WellRecord.SampleLost (q : WellRecord) : Prop :=
  q.sampleOutcome = .lost ∧ q.queued = .no ∧ q.events.getLsbD 7 = true

/-- All that a loss leaves of the marks of a well. -/
def WellRecord.ShowsLoss (listed current : Prop) (q : WellRecord) : Prop :=
  q.ShowsStation listed ∧ (current → q.SampleLost)

theorem showsLoss_eventStable (listed current : Prop) : EventStable (WellRecord.ShowsLoss listed current) := by
  rintro r e ⟨⟨station, move⟩, sample⟩ grows
  refine ⟨⟨grows 5 station, fun l => moveAbandoned_eventStable r e (move l) grows⟩, fun c => ?_⟩
  obtain ⟨outcome, queued, event⟩ := sample c
  exact ⟨outcome, queued, grows 7 event⟩

theorem MarksOf.showsStation {n : Bool} {listed : Prop} (marks : MarksOf false n s t)
    (shows : s.Shows v (WellRecord.ShowsStation listed)) : t.Shows v (WellRecord.ShowsStation listed) := by
  intro q hq
  obtain ⟨r, hr, marked⟩ := marks.back hq
  obtain ⟨station, move⟩ := shows r hr
  obtain ⟨state, outcome⟩ := marked.move rfl
  refine ⟨marked.grows 5 station, fun l => ?_⟩
  obtain ⟨none, abandoned, event⟩ := move l
  exact ⟨state.trans none, outcome.trans abandoned, marked.grows 4 event⟩

/-! ### The sequencer -/

/-- A sample in hand at a lost station ends LOST (R105). -/
def sampleLost (w : Well) (s : State) : State := setQueued .no w (writeOutcome .lost w s)

theorem sampleLost_marksOf (w : Well) (s : State) : MarksOf false true s (sampleLost w s) :=
  (writeOutcome_marksOf .lost w s).trans (writeSample_marksOf (fun _ => rfl) w _)

theorem sampleLost_apart (w : Well) (s : State) : Apart s (sampleLost w s) :=
  (writeOutcome_apart .lost w s).trans ⟨rfl, rfl, rfl, rfl, rfl⟩

theorem sampleLost_calm (w : Well) (s : State) : Calm s (sampleLost w s) :=
  (writeOutcome_calm .lost w s).trans (setQueued_calm .no w _)

theorem sampleLost_shows (w : Well) (s : State) : (sampleLost w s).Shows w WellRecord.SampleLost := by
  intro q hq
  rw [sampleLost, setQueued, record?_writeRecord, if_pos rfl, Option.map_eq_some_iff] at hq
  obtain ⟨r, hr, rfl⟩ := hq
  obtain ⟨outcome, event⟩ := writeOutcome_written hr
  exact ⟨outcome, rfl, event⟩

/-- A sample in hand at one of these wells. -/
def State.InHand (s : State) (ws : List Well) : Prop := ∃ w, s.seq.phase.current? = some w ∧ w ∈ ws

theorem sequencerLoses_kept (none : ¬ s.InHand ws) : sequencerLoses ws s = forEach ws removeEntry s := by
  have phase : (forEach ws removeEntry s).seq.phase = s.seq.phase := by rw [(removeEntries_removed ws s).seq]
  unfold sequencerLoses
  dsimp only
  rw [phase]
  split
  · rfl
  · rename_i w current
    rw [if_neg fun listed => none ⟨w, current, List.contains_iff_mem.1 listed⟩]

theorem sequencerLoses_lost (current : s.seq.phase.current? = some w) (mem : w ∈ ws) :
    sequencerLoses ws s = leaveSample (sampleLost w (forEach ws removeEntry s)) := by
  have phase : (forEach ws removeEntry s).seq.phase = s.seq.phase := by rw [(removeEntries_removed ws s).seq]
  simp only [sequencerLoses, phase, current, if_pos (List.contains_iff_mem.2 mem), sampleLost]

/-- A sample in hand at these wells is lost at the third failure in a row, so that the sequencer goes OFFLINE (R105). -/
def State.GoesOffline (s : State) (ws : List Well) : Prop :=
  s.InHand ws ∧ ∃ f, s.seq.failures = some f ∧ f.count = Config.offlineCount

theorem faultsAfter_congr {k : FaultKind} {n : Nat} {d : Half} (settings : t.settings = s.settings)
    (faults : t.faults = s.faults) : t.faultsAfter k n d = s.faultsAfter k n d := by
  simp only [State.faultsAfter, settings, faults]

/-- What the sequencer's part of a loss leaves (R57, R105). -/
structure SequencerLost (ws : List Well) (s t : State) : Prop where
  rooted  : Rooted s t
  marks   : Marks s t
  index   : t.index = s.index
  away    : ∀ v ∈ ws, ¬ s.Listed v → ¬ t.Listed v ∧ t.Unqueued v ∧ t.seq.phase.current? ≠ some v
  shows   : ∀ v ∈ ws, ¬ s.Listed v → ∀ listed, s.Shows v (WellRecord.ShowsStation listed) →
    t.Shows v (WellRecord.ShowsLoss listed (s.seq.phase.current? = some v))
  stays   : ¬ s.GoesOffline ws → t.faults = s.faults ∧ t.device.state = s.device.state ∧
    ((∀ k m, s.seq.phase ≠ .offline k m) → ∀ k m, t.seq.phase ≠ .offline k m)
  offline : s.GoesOffline ws → t.seq.phase = .offline 60 false ∧ t.device.events.getLsbD 0 = true ∧
    ∀ f, s.seq.failures = some f → t.faults = s.faultsAfter .analyserOffline f.tag
      (match f.outcome with | .timeout => 2 | .fault => 3)

theorem removeEntries_rooted (ws : List Well) (s : State) : Rooted s (forEach ws removeEntry s) :=
  (forEach_marks removeEntry_marks ws s).rooted (forEach_same State.places removeEntry_places ws s)
    (forEach_calm removeEntry_calm s).scan

theorem sequencerLoses_losesNone (none : ¬ s.InHand ws) : SequencerLost ws s (sequencerLoses ws s) := by
  rw [sequencerLoses_kept none]
  have removed := removeEntries_removed ws s
  have calm : Calm s (forEach ws removeEntry s) := forEach_calm removeEntry_calm s
  have phase : (forEach ws removeEntry s).seq.phase = s.seq.phase := by rw [removed.seq]
  exact
    { rooted := removeEntries_rooted ws s
      marks := removed.marks.marks
      index := calm.index
      away := fun v mem unlisted => ⟨by rw [State.Listed, State.inLists, removed.moves]; exact unlisted,
        fun e he own => (removed.gone e he).2 (own ▸ mem), fun current => none ⟨v, phase ▸ current, mem⟩⟩
      shows := fun v mem _ _ shows q hq =>
        ⟨removed.marks.showsStation shows q hq, fun current => absurd ⟨v, current, mem⟩ none⟩
      stays := fun _ => ⟨calm.faults, calm.state, by rw [phase]; exact id⟩
      offline := fun h => absurd h.1 none }

theorem sequencerLoses_losesSample (current : s.seq.phase.current? = some w) (mem : w ∈ ws) :
    SequencerLost ws s (sequencerLoses ws s) := by
  rw [sequencerLoses_lost current mem]
  have removed := removeEntries_removed ws s
  let before := sampleLost w (forEach ws removeEntry s)
  have marks : MarksOf false true s before := removed.marks.trans (sampleLost_marksOf w _)
  have calm : Calm s before := (forEach_calm removeEntry_calm s).trans (sampleLost_calm w _)
  have apart := sampleLost_apart w (forEach ws removeEntry s)
  have rooted : Rooted s before := (removeEntries_rooted ws s).trans
    ((sampleLost_marksOf w _).marks.rooted
      ((writeRecord_places _ w _).trans (writeOutcome_places .lost w _)) (sampleLost_calm w _).scan)
  have unlisted (v : Well) (h : ¬ s.Listed v) : ¬ before.Listed v := by
    rw [State.Listed, State.inLists, apart.moves, removed.moves]
    exact h
  have unqueued (v : Well) (h : v ∈ ws) : before.Unqueued v := fun e he own => by
    rw [apart.seq] at he
    exact (removed.gone e he).2 (own ▸ h)
  have failures : before.seq.failures = s.seq.failures := calm.failures
  refine
    { rooted := rooted.trans (leaveSample_rooted _)
      marks := marks.marks.trans (leaveSample_marks _)
      index := (leaveSample_index _).trans calm.index
      away := fun v mem out => ?_
      shows := fun v mem out listed shows => ?_
      stays := fun stays => ?_
      offline := fun ⟨_, f, third, reached⟩ => ?_ }
  · obtain ⟨queue, phase, _⟩ := leaveSample_unqueued (unqueued v mem)
    exact ⟨(leaveSample_leaves (P := fun _ => True) (fun _ _ _ _ => trivial) (unlisted v out) (unqueued v mem)
      fun _ _ => trivial).2, queue, phase⟩
  · refine (leaveSample_leaves (showsLoss_eventStable _ _) (unlisted v out) (unqueued v mem) fun q hq => ?_).1
    refine ⟨marks.showsStation shows q hq, fun own => ?_⟩
    obtain rfl : w = v := Option.some.inj (current.symm.trans own)
    exact sampleLost_shows w _ q hq
  · have idle : leaveSample before = enterIdle before := leaveSample_idle fun f third reached =>
      stays ⟨⟨w, current, mem⟩, f, failures ▸ third, reached⟩
    have rest := calm.trans (enterIdle_calm before)
    rw [idle]
    exact ⟨rest.faults, rest.state, fun _ => enterIdle_phase before⟩
  · rw [leaveSample_offline (s := before) (failures.trans third) reached]
    obtain ⟨phase, event, faults⟩ := enterOffline_enters f before
    refine ⟨phase, event, fun g other => ?_⟩
    cases third.symm.trans other
    exact faults.trans (faultsAfter_congr calm.settings calm.faults)

theorem sequencerLoses_loses (ws : List Well) (s : State) : SequencerLost ws s (sequencerLoses ws s) := by
  by_cases inHand : s.InHand ws
  · obtain ⟨w, current, mem⟩ := inHand
    exact sequencerLoses_losesSample current mem
  · exact sequencerLoses_losesNone inHand

/-! ### The wells of a lost station -/

/-- What the loss of these wells leaves, block by block (R31, R57, R85, R105, R119). -/
structure WellsLost (ws : List Well) (s t : State) : Prop where
  places   : t.places = s.places
  scan     : s.scan.round ≠ .idle → t.scan = s.scan
  stations : t.scan.stations = s.scan.stations
  index    : t.index = s.index
  lost     : ∀ v ∈ ws, ∀ r, s.record? v = some r → t.HoldsUpToMarks v r.lost
  others   : ∀ v, v ∉ ws → ∀ r, s.record? v = some r → t.HoldsUpToMarks v r
  away     : ∀ v ∈ ws, ¬ t.Listed v ∧ t.Unqueued v ∧ t.seq.phase.current? ≠ some v
  runs     : ∀ v ∈ ws, ∀ y, t.well? v = some y → y.runs = noRuns
  shows    : ∀ v ∈ ws, ∀ listed : Prop, (listed → s.Listed v ∨ s.Shows v WellRecord.MoveAbandoned) →
    t.Shows v (WellRecord.ShowsLoss listed (s.seq.phase.current? = some v))
  stays    : ¬ s.GoesOffline ws → t.faults = s.faults ∧ t.device.state = s.device.state ∧
    ((∀ k m, s.seq.phase ≠ .offline k m) → ∀ k m, t.seq.phase ≠ .offline k m)
  offline  : s.GoesOffline ws → t.seq.phase = .offline 60 false ∧ t.device.events.getLsbD 0 = true ∧
    ∀ f, s.seq.failures = some f → t.faults = s.faultsAfter .analyserOffline f.tag
      (match f.outcome with | .timeout => 2 | .fault => 3)

/-- A well of a lost station after the table and the move scheduler have taken the loss. -/
def movesLost (ws : List Well) (s : State) : State := grantTest (abandonMoves ws (forEach ws loseWell s))

theorem movesLost_calm (ws : List Well) (s : State) : Calm s (movesLost ws s) :=
  ((forEach_calm loseWell_calm s).trans (abandonMoves_calm ws _)).trans (grantTest_calm _)

theorem loseWell_places (w : Well) (s : State) : (loseWell w s).places = s.places :=
  (setWellEvent_places .station w _).trans (writeRecord_places _ w s)

theorem movesLost_places (ws : List Well) (s : State) : (movesLost ws s).places = s.places :=
  (grantTest_places _).trans ((abandonMoves_places ws _).trans (forEach_same State.places loseWell_places ws s))

theorem loseWell_apart (w : Well) (s : State) : Apart s (loseWell w s) :=
  (show Apart s (writeRecord WellRecord.lost w s) from ⟨rfl, rfl, rfl, rfl, rfl⟩).trans (setWellEvent_apart .station w _)

theorem movesLost_seq (ws : List Well) (s : State) : (movesLost ws s).seq = s.seq :=
  (((forEach_apart loseWell_apart ws s).seqApart.trans (abandonMoves_seqApart ws _)).trans (grantTest_seqApart _)).seq

theorem movesLost_marks (ws : List Well) (s : State) : Marks (forEach ws loseWell s) (movesLost ws s) :=
  (abandonMoves_marks ws _).trans (grantTest_marks _)

theorem abandonMoves_marksOf {n : Bool} (ws : List Well) (s : State) : MarksOf true n s (abandonMoves ws s) := by
  induction ws generalizing s with
  | nil => exact .refl s
  | cons w ws ih =>
    have first : MarksOf true n s (if s.moving w then endMove .abandoned w s else s) := by
      split
      · exact endMove_marksOf _ w s
      · exact .refl s
    exact first.trans (ih _)

/-- A loss leaves of a move ended what it shows. -/
theorem moveAbandoned_lost {r : WellRecord} (h : r.MoveAbandoned) : (addEvent .station r.lost).MoveAbandoned := by
  obtain ⟨state, outcome, event⟩ := h
  rw [lost_eq]
  exact ⟨state, outcome, by simp [addEvent, event]⟩

/-- The moves of the wells are over, and their records show it with the STATION event (R31, R119). -/
theorem movesLost_shows (mem : v ∈ ws) {listed : Prop}
    (before : listed → s.Listed v ∨ s.Shows v WellRecord.MoveAbandoned) :
    ¬ (movesLost ws s).Listed v ∧ (movesLost ws s).Shows v (WellRecord.ShowsStation listed) := by
  have read := record?_loseWells ws s v
  rw [if_pos mem] at read
  have lists : (forEach ws loseWell s).inLists = s.inLists := by
    rw [State.inLists, (forEach_apart loseWell_apart ws s).moves]
    rfl
  obtain ⟨left, ended⟩ := abandonMoves_ends ws (forEach ws loseWell s)
  have unlisted : ¬ (abandonMoves ws (forEach ws loseWell s)).Listed v := fun h => (left v h).2 mem
  obtain ⟨out, same⟩ := grantTest_unlisted unlisted
  refine ⟨out, fun q hq => ?_⟩
  rw [movesLost, same] at hq
  obtain ⟨p, hp, marked⟩ := (abandonMoves_marksOf (n := true) ws (forEach ws loseWell s)).back hq
  rw [read, Option.map_eq_some_iff] at hp
  obtain ⟨r, hr, rfl⟩ := hp
  refine ⟨marked.grows 5 (addEvent_station _), fun l => ((ended v ?_).resolve_left unlisted) q hq⟩
  refine (before l).imp (fun h => by rw [State.Listed, lists]; exact h) fun shown q hq => ?_
  rw [read, hr, Option.map_some, Option.some.injEq] at hq
  exact hq ▸ moveAbandoned_lost (shown r hr)

theorem clearRuns_apart (w : Well) (s : State) : Apart s (clearRuns w s) := ⟨rfl, rfl, rfl, rfl, rfl⟩

theorem clearRuns_places (w : Well) (s : State) : (clearRuns w s).places = s.places :=
  changeSlot_places (f := fun x => { x with runs := noRuns }) (fun _ => ⟨rfl, rfl, rfl⟩) w s

theorem loseWells_eq (ws : List Well) (s : State) :
    loseWells ws s = forEach ws clearRuns (sequencerLoses ws (movesLost ws s)) := rfl

theorem loseWells_lost (ws : List Well) (s : State) : WellsLost ws s (loseWells ws s) := by
  rw [loseWells_eq]
  have seq := movesLost_seq ws s
  have calm := movesLost_calm ws s
  have marked := movesLost_marks ws s
  have shown (v : Well) (mem : v ∈ ws) := fun listed => movesLost_shows (s := s) (listed := listed) mem
  have places := movesLost_places ws s
  generalize movesLost ws s = u at seq calm marked shown places
  have lost := sequencerLoses_loses ws u
  have marks : Marks (forEach ws loseWell s) (sequencerLoses ws u) := marked.trans lost.marks
  generalize sequencerLoses ws u = t at lost marks
  have cleared : Calm t (forEach ws clearRuns t) := forEach_calm clearRuns_calm t
  have apart : Apart t (forEach ws clearRuns t) := forEach_apart clearRuns_apart ws t
  have device : (forEach ws clearRuns t).device = t.device :=
    forEach_same (f := clearRuns) State.device (fun _ _ => rfl) ws t
  have read := record?_clearRuns ws t
  have holds {v : Well} {r : WellRecord} (h : (forEach ws loseWell s).record? v = some r) :
      (forEach ws clearRuns t).HoldsUpToMarks v r := by
    rw [State.HoldsUpToMarks, read]
    exact marks.holds v r h
  have goes : u.GoesOffline ws ↔ s.GoesOffline ws := by simp only [State.GoesOffline, State.InHand, seq]
  refine
    { places := (forEach_same State.places clearRuns_places ws t).trans (lost.rooted.places.trans places)
      scan := fun running => cleared.scan.trans ((lost.rooted.scan (by rw [calm.scan]; exact running)).trans calm.scan)
      stations := by rw [cleared.scan, lost.rooted.stations, calm.scan]
      index := cleared.index.trans (lost.index.trans calm.index)
      lost := fun v mem r hr => ?_
      others := fun v out r hr => holds (by rw [record?_loseWells, if_neg out, hr])
      away := fun v mem => ?_
      runs := fun v mem y hy => ?_
      shows := fun v mem listed before q hq => ?_
      stays := fun stays => ?_
      offline := fun offline => ?_ }
  · exact holds (r := addEvent .station r.lost) (by rw [record?_loseWells, if_pos mem, hr]; rfl)
  · obtain ⟨listed, queued, current⟩ := lost.away v mem (shown v mem False False.elim).1
    rw [State.Listed, State.inLists, State.Unqueued, apart.moves, apart.seq]
    exact ⟨listed, queued, current⟩
  · rw [well?_clearRuns, if_pos mem, Option.map_eq_some_iff] at hy
    obtain ⟨x, _, rfl⟩ := hy
    rfl
  · obtain ⟨unlisted, station⟩ := shown v mem listed before
    rw [read] at hq
    rw [← seq]
    exact lost.shows v mem unlisted listed station q hq
  · obtain ⟨faults, state, phase⟩ := lost.stays (goes.not.2 stays)
    rw [apart.faults, apart.state, apart.seq, ← seq]
    exact ⟨faults.trans calm.faults, state.trans calm.state, phase⟩
  · obtain ⟨phase, event, faults⟩ := lost.offline (goes.2 offline)
    rw [apart.faults, device, apart.seq, ← seq]
    exact ⟨phase, event, fun f h => (faults f h).trans (faultsAfter_congr calm.settings calm.faults)⟩

end Sys2Proof.Machine
end

