-- ==== Sys2Proof/Proofs/ThresholdReached.lean ====
section
/-! SUPPORT. A failed transaction that reaches LOSS_THRESHOLD (R56, R57): the two reports, and the loss of the station's
wells, before the round goes on. -/

namespace Sys2Proof.Machine

variable {s t u : State} {w v : Well} {a n : Nat}

/-! ### The wells of a station -/

theorem mem_wellsOf (ordered : s.SlotsOrdered) : v ∈ s.wellsOf a ↔ ∃ x, s.well? v = some x ∧ x.address = a := by
  simp only [State.wellsOf, List.mem_map, List.mem_filter, beq_iff_eq]
  constructor
  · rintro ⟨p, ⟨mem, own⟩, rfl⟩
    exact ⟨p.2, well?_wellOf ordered mem, own⟩
  · rintro ⟨x, hx, own⟩
    obtain ⟨mem, tag⟩ := mem_of_well? hx
    exact ⟨_, ⟨mem, own⟩, by rw [wellOf, tag]⟩

/-- The wells of a station are told by the places. -/
theorem mem_wellsOf_of_places (ordered : s.SlotsOrdered) (places : t.places = s.places) :
    v ∈ t.wellsOf a ↔ ∃ x, s.well? v = some x ∧ x.address = a := by
  rw [mem_wellsOf (slotsOrdered_of_places places ordered)]
  constructor
  · rintro ⟨y, hy, own⟩
    obtain ⟨x, hx, same⟩ := address_of_places places.symm hy
    exact ⟨x, hx, same.trans own⟩
  · rintro ⟨x, hx, own⟩
    obtain ⟨y, hy, same⟩ := address_of_places places hx
    exact ⟨y, hy, same.trans own⟩

/-! ### The reports -/

/-- What two reports leave of what a loss reads: the current well, the failure run, and the wells in the lists. -/
structure Reports (s t : State) : Prop where
  current  : t.seq.phase.current? = s.seq.phase.current?
  failures : t.seq.failures = s.seq.failures
  phase    : (∀ k m, s.seq.phase ≠ .offline k m) → ∀ k m, t.seq.phase ≠ .offline k m
  lists    : ∀ v, s.Listed v ∨ s.Shows v WellRecord.MoveAbandoned → t.Listed v ∨ t.Shows v WellRecord.MoveAbandoned

theorem Reports.trans (a : Reports s t) (b : Reports t u) : Reports s u :=
  ⟨b.current.trans a.current, b.failures.trans a.failures, b.phase ∘ a.phase, fun v h => b.lists v (a.lists v h)⟩

theorem reports_of_slots (slots : t.slots = s.slots) (seq : t.seq = s.seq) (moves : t.moves = s.moves) : Reports s t where
  current := by rw [seq]
  failures := by rw [seq]
  phase awake := by rw [seq]; exact awake
  lists v before := by
    refine before.imp (fun l => ?_) fun shows q hq => shows q (by rw [← record?_congr slots]; exact hq)
    rw [State.Listed, State.inLists, moves]
    exact l

theorem reportFault_reports (k : FaultKind) (n : Nat) (d : Half) (s : State) : Reports s (reportFault k n d s) where
  current := (reportFault_queue k n d s).2.1
  failures := reportFault_failures k n d s
  phase awake := by
    rcases reportFault_aborts k n d s with same | ⟨w, _, released, _⟩
    · rw [same]
      exact awake
    · rw [released]
      exact fun _ _ h => nomatch h
  lists v := (reportFault_lists k n d s v).2

/-- A station about to lose its wells: it is LOST, and both reports have been made. -/
def lossReported (a : Nat) (s : State) : State :=
  reportFault .stationLost noTag (addressDetail a) (setStationState .lost a (failedBefore a s))

theorem loseStation_eq (a : Nat) (s : State) :
    loseStation a (failedBefore a s) = loseWells ((lossReported a s).wellsOf a) (lossReported a s) := rfl

/-- What the failure and the loss leave before the wells are lost (R56, R57). -/
structure LossReported (a n : Nat) (s t : State) : Prop where
  stations : t.scan.stations = s.stationsWith a fun x => { x with failures := n, state := .lost }
  round    : s.scan.round ≠ .idle → t.scan.round = s.scan.round
  places   : t.places = s.places
  marks    : Marks s t
  index    : t.index = s.index
  reports  : Reports s t
  settings : t.settings = s.settings
  faults   : t.faults =
    { s with faults := s.faultsAfter .stationNoReply 65535 (BitVec.ofNat 16 a) }.faultsAfter .stationLost 65535
      (BitVec.ofNat 16 a)
  state    : s.stateAfter .stationNoReply = s.device.state → t.device.state = s.stateAfter .stationLost

theorem Fails.lossReported (fails : Fails a n s (failedBefore a s)) : LossReported a n s (lossReported a s) := by
  let marked := setStationState .lost a (failedBefore a s)
  have rooted : Rooted marked (Machine.lossReported a s) := reportFault_rooted _ _ _ _
  have settings : marked.settings = s.settings := fails.tame.settings
  have raised : Reports s (raiseStationFailures a s) := reports_of_slots rfl rfl rfl
  have failed : Reports (raiseStationFailures a s) (failedBefore a s) := reportFault_reports _ _ _ _
  have first : Reports s marked := (raised.trans failed).trans (reports_of_slots rfl rfl rfl)
  have kept := (reportFault_tame .stationLost noTag (addressDetail a) marked).settings
  refine
    { stations := ?_
      round := fun running => ?_
      places := rooted.places.trans fails.places
      marks := (fails.marks.trans (u := marked) (marks_of_slots rfl)).trans (reportFault_marks _ _ _ _)
      index := (reportFault_queue _ _ _ marked).2.2.trans fails.index
      reports := first.trans (reportFault_reports _ _ _ marked)
      settings := kept.trans settings
      faults := (reportFault_faultsAfter _ _ _ marked).trans (faultsAfter_congr settings fails.faults)
      state := fun same => ?_ }
  · rw [rooted.stations]
    show (failedBefore a s).scan.stations.map _ = _
    rw [fails.stations]
    exact stationsWith_twice (s := s) (f := fun x => { x with failures := n })
      (g := fun x => { x with state := .lost }) fun _ => rfl
  · have before : marked.scan.round = s.scan.round := fails.round running
    exact (congrArg (·.round) (rooted.scan (by rw [before]; exact running))).trans before
  · have before : marked.device.state = s.device.state := fails.state.trans same
    refine (reportFault_stateAfter _ _ _ marked).trans ?_
    simp only [State.stateAfter, settings, before]

/-! ### The wells lost -/

/-- The record of a well of the lost station, as the requirement gives it (R31, R57, R85, R105, R119). -/
theorem WellsLost.well {x : Slot} {r : State} (reported : LossReported a n s r) (lost : WellsLost (r.wellsOf a) r u)
    (ordered : s.SlotsOrdered) (hx : s.well? v = some x) (own : x.address = a) :
    (visitNext u).HoldsUpToMarks v x.record.lost ∧ (visitNext u).moves.holds v = false ∧
    (visitNext u).moves.waits v = false ∧ (∀ e ∈ (visitNext u).seq.queue, e.well ≠ v) ∧
    (visitNext u).seq.phase.current? ≠ some v ∧ ∀ y, (visitNext u).well? v = some y →
      y.record.events.getLsbD 5 = true ∧ y.runs = noRuns ∧
      (s.Listed v → y.record.moveOutcome = .abandoned ∧ y.record.events.getLsbD 4 = true) ∧
      (s.seq.phase.current? = some v → y.record.sampleOutcome = .lost ∧ y.record.queued = .no ∧
        y.record.events.getLsbD 7 = true) := by
  have mem : v ∈ r.wellsOf a := (mem_wellsOf_of_places ordered reported.places).2 ⟨x, hx, own⟩
  have apart := visitNext_apart u
  obtain ⟨unlisted, unqueued, current⟩ := lost.away v mem
  obtain ⟨holds, waits⟩ := (still_iff u v).2 unlisted
  refine ⟨?_, by rw [apart.moves]; exact holds, by rw [apart.moves]; exact waits, by rw [apart.seq]; exact unqueued,
    by rw [apart.seq]; exact current, fun y hy => ?_⟩
  · obtain ⟨q, hq, same⟩ := reported.marks.holds v x.record (congrArg (Option.map _) hx)
    obtain ⟨p, hp, last⟩ := lost.lost v mem q hq
    rw [lost_of_marks same] at last
    exact holdsUpToMarks_trans ⟨p, hp, last⟩ (visitNext_marks u)
  · obtain ⟨z, hz, runs⟩ := (visitNext_keeps u).runs v y hy
    have shows := lost.shows v mem (s.Listed v) fun l => reported.reports.lists v (.inl l)
    obtain ⟨⟨station, move⟩, sample⟩ :=
      Shows.eventsGrow (showsLoss_eventStable _ _) shows (visitNext_eventsGrow u) y.record (congrArg (Option.map _) hy)
    rw [reported.reports.current] at sample
    refine ⟨station, runs.trans (lost.runs v mem z hz), fun l => ?_, sample⟩
    obtain ⟨_, outcome, event⟩ := move l
    exact ⟨outcome, event⟩

/-- Whether the loss takes the sequencer OFFLINE is told by the state before the transaction failed (R105). -/
theorem LossReported.goesOffline (reported : LossReported a n s t) (ordered : s.SlotsOrdered) :
    t.GoesOffline (t.wellsOf a) ↔
      (∃ w x, s.seq.phase.current? = some w ∧ s.well? w = some x ∧ x.address = a) ∧
      ∃ f, s.seq.failures = some f ∧ f.count = 3 := by
  simp only [State.GoesOffline, State.InHand, reported.reports.current, reported.reports.failures,
    mem_wellsOf_of_places ordered reported.places, exists_and_left, Config.offlineCount]

/-- The records of the other stations' wells are left but for the marks. -/
theorem WellsLost.other {x : Slot} {r : State} (reported : LossReported a n s r) (lost : WellsLost (r.wellsOf a) r u)
    (ordered : s.SlotsOrdered) (hx : s.well? v = some x) (other : x.address ≠ a) : u.HoldsUpToMarks v x.record := by
  have out : v ∉ r.wellsOf a := fun mem => by
    obtain ⟨y, hy, own⟩ := (mem_wellsOf_of_places ordered reported.places).1 mem
    cases hx.symm.trans hy
    exact other own
  obtain ⟨p, hp, same⟩ := reported.marks.holds v x.record (congrArg (Option.map _) hx)
  obtain ⟨q, hq, last⟩ := lost.others v out p hp
  exact ⟨q, hq, by rw [last, same]⟩

/-- Only the wells of the station have been parked, and the station is LOST (R46, R57). -/
theorem WellsLost.stationsLegal {r : State} (reported : LossReported a n s r) (lost : WellsLost (r.wellsOf a) r u)
    (legal : s.StationsLegal) (count : n ≤ Config.maxFailures) : u.StationsLegal := by
  refine StationsLegal.rewritten legal (lost.places.trans reported.places) (lost.stations.trans reported.stations)
    (fun x _ => ⟨rfl, rfl, count, fun e => nomatch e⟩) fun v x q hx hq active => ?_
  by_cases own : x.address = a
  · exact .inr ⟨own, fun _ e => nomatch e⟩
  · obtain ⟨p, hp, same⟩ := lost.other reported legal.1 hx own
    cases hq.symm.trans hp
    rw [same]
    exact .inl active

/-- The part of O60 about a failed transaction that loses its station. -/
theorem transactionFailure_loses {tr : Transaction} {st : StationRecord} (flying : s.scan.inFlight = some tr)
    (ordered : s.StationsOrdered) (mem : st ∈ s.scan.stations) (own : st.address = tr.address) (n : Nat)
    (count : n = min (st.failures + 1) 8) (state : st.state ≠ .lost) (reached : s.settings.lossThreshold ≤ n) :
    ∃ r u, exec .transactionFailure s = .next (visitNext u) ∧ LossReported tr.address n (landed s) r ∧
      WellsLost (r.wellsOf tr.address) r u ∧ Tame (landed s) u := by
  have fails : Fails tr.address n (landed s) (failedBefore tr.address (landed s)) := by
    rw [← own, count]
    exact failedBefore_fails (s := landed s) ordered mem
  have after : failTransaction tr.address (landed s) =
      loseWells ((lossReported tr.address (landed s)).wellsOf tr.address) (lossReported tr.address (landed s)) := by
    rw [← loseStation_eq, ← own, failTransaction_eq (s := landed s) ordered mem, if_pos ⟨state, count ▸ reached⟩]
  have tame := failTransaction_tame tr.address (landed s)
  rw [exec_transactionFailure flying]
  rw [after] at tame ⊢
  exact ⟨_, _, rfl, fails.lossReported, loseWells_lost _ _, tame⟩

end Sys2Proof.Machine
end

