-- ==== Sys2Proof/Proofs/ReadingsGoOn.lean ====
section
/-! SUPPORT. READINGS that fit, as far as the station table and the round are concerned (R48, R52, R60): whatever order
the blocks take the events in, no station's failure count is changed, and the round has gone no further. -/

namespace Sys2Proof.Machine

variable {s t u : State} {w v : Well} {a : Nat}

/-! ### Going on -/

/-- Every station that stands has stood with its failure count; and with no transaction in flight in a round, the station
table stays that of the slots, and the round where it is. -/
structure Onward (s t : State) : Prop where
  failures : ∀ y ∈ t.scan.stations, ∃ x ∈ s.scan.stations, y.address = x.address ∧ y.failures = x.failures
  goes     : s.StationsLegal → s.scan.inFlight = none → s.scan.round ≠ .idle →
    t.StationsLegal ∧ t.scan.inFlight = none ∧ t.scan.round = s.scan.round

theorem Onward.refl (s : State) : Onward s s := ⟨fun y hy => ⟨y, hy, rfl, rfl⟩, fun legal none _ => ⟨legal, none, rfl⟩⟩

theorem Onward.trans (a : Onward s t) (b : Onward t u) : Onward s u := by
  refine ⟨fun z hz => ?_, fun legal none running => ?_⟩
  · obtain ⟨y, hy, own', same'⟩ := b.failures z hz
    obtain ⟨x, hx, own, same⟩ := a.failures y hy
    exact ⟨x, hx, own'.trans own, same'.trans same⟩
  · obtain ⟨legal', none', round⟩ := a.goes legal none running
    obtain ⟨legal'', none'', round'⟩ := b.goes legal' none' (by rw [round]; exact running)
    exact ⟨legal'', none'', round'.trans round⟩

/-- A parked well is at no ACTIVE station, so that where no active well has been parked the table stays that of the
slots (R46). -/
theorem Rooted.stationsLegal (rooted : Rooted s t) (legal : s.StationsLegal) : t.StationsLegal := by
  refine StationsLegal.rewritten (a := 0) (f := id) legal rooted.places ?_ (fun x hx => ?_)
    fun v x q hx hq active => .inl ?_
  · rw [rooted.stations, State.stationsWith]
    simp
  · obtain ⟨_, _, _, _, each⟩ := legal
    exact ⟨rfl, rfl, (each x hx).1, id⟩
  · obtain ⟨r, hr, kept⟩ := rooted.active v q hq
    rw [State.record?, hx] at hr
    cases hr
    exact kept active

theorem Rooted.onward (rooted : Rooted s t) : Onward s t where
  failures y hy := ⟨y, rooted.stations ▸ hy, rfl, rfl⟩
  goes legal none running := by
    have scan := rooted.scan running
    exact ⟨rooted.stationsLegal legal, by rw [scan]; exact none, by rw [scan]⟩

/-! ### Writes of a record -/

theorem writeRecord_rooted {f : WellRecord → WellRecord}
    (keeps : ∀ r, r.mode.isActive = true → (f r).mode.isActive = true)
    (w : Well) (s : State) : Rooted s (writeRecord f w s) := by
  refine ⟨writeRecord_places f w s, fun v q hq => ?_, rfl, fun _ => rfl⟩
  rw [record?_writeRecord] at hq
  split at hq
  · rename_i own
    subst own
    obtain ⟨r, hr, rfl⟩ := Option.map_eq_some_iff.1 hq
    exact ⟨r, hr, keeps r⟩
  · exact ⟨q, hq, id⟩

theorem setRuns_rooted (q : PerInput Run) (w : Well) (s : State) : Rooted s (setRuns q w s) :=
  (changeSlot_marks (f := fun x => { x with runs := q }) (fun _ => ⟨rfl, rfl⟩) w s).rooted
    (changeSlot_places (f := fun x => { x with runs := q }) (fun _ => ⟨rfl, rfl, rfl⟩) w s) rfl

theorem startPulse_rooted (w : Well) (s : State) : Rooted s (startPulse w s) :=
  (writeRecord_rooted (f := fun r => { r with purgeLeft := s.settings.purgePulse }) (fun _ => id) w s).trans
    ((changeSlot_marks (f := fun x => { x with purgeEndDue := false }) (fun _ => ⟨rfl, rfl⟩) w _).rooted
      (changeSlot_places (f := fun x => { x with purgeEndDue := false }) (fun _ => ⟨rfl, rfl, rfl⟩) w _) rfl)

theorem setEdgeEvents_rooted (detect : BitVec 16) (before after : PerInput Level) (w : Well) (s : State) :
    Rooted s (setEdgeEvents detect before after w s) := by
  refine List.foldlRecOn (motive := Rooted s) _ _ (.refl s) fun t taken i _ => ?_
  split
  · exact taken.trans ((setWellEvent_marks _ w t).rooted (setWellEvent_places _ w t) (setWellEvent_calm _ w t).scan)
  · exact taken

/-! ### The sequencer -/

theorem abortSampleOf_rooted (w : Well) (s : State) : Rooted s (abortSampleOf w s) :=
  (abortSampleOf_marks w s).rooted (abortSampleOf_places w s) (abortSampleOf_calm w s).scan

theorem headTest_rooted (s : State) : Rooted s (headTest s) :=
  (headTest_marks s).rooted (headTest_places s) (headTest_calm s).scan

theorem setQueued_rooted (q : Queued) (w : Well) (s : State) : Rooted s (setQueued q w s) :=
  writeRecord_rooted (f := fun r => { r with queued := q }) (fun _ => id) w s

theorem evict_rooted (e : QueueEntry) (s : State) : Rooted s (evict e s) :=
  rooted_after (writeRecord_rooted (f := fun r => { r with queued := .no, surveyDue := 0 }) (fun _ => id) e.well
    (setQueue (withoutEntry e.well s.seq.queue) s)) rfl rfl

theorem placeInQueue_rooted (c : SampleClass) (w : Well) (s : State) : Rooted s (placeInQueue c w s) :=
  (placeInQueue_marks c w s).rooted (placeInQueue_places c w s) rfl

theorem dueAtOnce_rooted (w : Well) (s : State) : Rooted s (dueAtOnce w s) :=
  writeRecord_rooted (f := fun r => { r with surveyDue := 0 }) (fun _ => id) w s

theorem urgentEnqueue_rooted (held : Bool) (w : Well) (s : State) : Rooted s (urgentEnqueue held w s) := by
  have test (t : State) : Rooted t (if held then t else headTest t) := by
    split
    · exact .refl t
    · exact headTest_rooted t
  unfold urgentEnqueue
  dsimp only
  split
  · exact .refl s
  split
  · exact .refl s
  split
  · exact .refl s
  · exact (placeInQueue_rooted .urgent w s).trans (test _)
  · exact dueAtOnce_rooted w s
  · split
    · exact (placeInQueue_rooted .urgent w s).trans (test _)
    · split
      · exact ((evict_rooted _ s).trans (placeInQueue_rooted .urgent w _)).trans (test _)
      · exact dueAtOnce_rooted w s

theorem capEnqueue_rooted (later : List Handed) (w : Well) (s : State) : Rooted s (capEnqueue later w s) := by
  unfold capEnqueue
  split
  · exact .refl s
  · exact urgentEnqueue_rooted _ w s

theorem takeConfirmation_rooted (valve : Bool) (w : Well) (s : State) : Rooted s (takeConfirmation valve w s) := by
  unfold takeConfirmation
  split
  · split
    · exact (setPhase_marks _ s).rooted rfl rfl
    · exact .refl s
  · split
    · exact (setQueued_rooted .no w s).trans (leaveSample_rooted _)
    · exact .refl s
  all_goals exact .refl s

/-! ### The move scheduler -/

theorem grantTest_rooted (s : State) : Rooted s (grantTest s) :=
  (grantTest_marks s).rooted (grantTest_places s) (grantTest_calm s).scan

theorem endMove_rooted (o : MoveOutcome) (w : Well) (s : State) : Rooted s (endMove o w s) :=
  (endMove_marks o w s).rooted (endMove_places o w s) (endMove_calm o w s).scan

theorem blockMove_rooted (w : Well) (s : State) : Rooted s (blockMove w s) :=
  (blockMove_marks w s).rooted (blockMove_places w s) (blockMove_calm w s).scan

/-! ### Freeing -/

theorem dropStationChannel_failures (a c : Nat) (s : State) :
    ∀ y ∈ (dropStationChannel a c s).scan.stations,
      ∃ x ∈ s.scan.stations, y.address = x.address ∧ y.failures = x.failures := by
  have changed : ∀ y ∈ (changeStation (StationRecord.dropped c) a s).scan.stations,
      ∃ x ∈ s.scan.stations, y.address = x.address ∧ y.failures = x.failures := by
    intro y hy
    obtain ⟨x, hx, rfl⟩ := List.mem_map.1 hy
    refine ⟨x, hx, ?_⟩
    split <;> exact ⟨rfl, rfl⟩
  intro y hy
  unfold dropStationChannel at hy
  dsimp only at hy
  split at hy
  · exact changed y hy
  split at hy
  · split at hy
    · exact changed y (List.mem_of_mem_filter hy)
    · split at hy
      · rw [visitNext_stations] at hy
        exact changed y (List.mem_of_mem_filter hy)
      · exact changed y (List.mem_of_mem_filter hy)
  · exact changed y hy

/-- A freeing takes the channel out of the map of its station, and with no transaction in flight the round waits (R48). -/
theorem freeWell_onward (w : Well) (s : State) : Onward s (freeWell w s) := by
  cases hx : s.well? w with
  | none => simp only [freeWell, hx]; exact .refl s
  | some x =>
    have stations := freedBefore_stations w s
    rw [freeWell_eq hx]
    refine ⟨fun y hy => ?_, fun legal none running => ?_⟩
    · rw [← stations]
      exact dropStationChannel_failures _ _ _ y hy
    · have scan : (freedBefore w s).scan = s.scan := (freedBefore_rooted w s).scan running
      obtain ⟨_, ordered, _, covered, _⟩ := id legal
      obtain ⟨st, mem, own, _⟩ := covered _ (mem_of_well? hx).1
      have drops := dropStationChannel_eq (s := freedBefore w s) (st := st)
        (by rw [State.StationsOrdered, stations]; exact ordered) (by rw [stations]; exact mem) x.channel
      rw [scan, none] at drops
      rw [← own, drops]
      by_cases all : ∀ d ∈ st.channels, d.channel = x.channel
      · rw [if_pos all]
        refine ⟨StationsLegal.dropped (m := freedBefore w s) legal hx (freedBefore_rooted w s) rfl ?_,
          (congrArg (·.inFlight) scan :).trans none, (congrArg (·.round) scan :)⟩
        rw [← own, droppedStations_none ordered mem all]
        exact congrArg (List.filter _) stations
      · rw [if_neg all]
        refine ⟨StationsLegal.dropped (m := freedBefore w s) legal hx (freedBefore_rooted w s) rfl ?_,
          (congrArg (·.inFlight) scan :).trans none, (congrArg (·.round) scan :)⟩
        push Not at all
        rw [← own, droppedStations_some ordered mem all]
        exact congrArg (List.map _) stations

theorem freeDamaged_onward (w : Well) (s : State) : Onward s (freeDamaged w s) :=
  (freeWell_onward w s).trans (reportFault_rooted _ _ _ _).onward

/-! ### The events of an arrival -/

theorem evalNeed_onward (w : Well) (s : State) : Onward s (evalNeed w s) := by
  unfold evalNeed
  split
  · exact .refl s
  split
  · exact .refl s
  split
  · exact (blockMove_rooted w s).onward
  split
  · exact .refl s
  split
  · exact freeWell_onward w s
  split
  · split
    · exact .refl s
    · exact ((leaveQuietly_marks w s).rooted (leaveQuietly_places w s) (leaveQuietly_calm w s).scan).onward
  split
  · exact ((joinWaitList_marks w s).rooted (joinWaitList_places w s) (joinWaitList_calm w s).scan).onward
  split
  · exact ((findBlocked_marks w s).rooted (findBlocked_places w s) (findBlocked_calm w s).scan).onward
  · exact .refl s

theorem checkMove_onward (w : Well) (s : State) : Onward s (checkMove w s) := by
  unfold checkMove
  split
  · exact .refl s
  split
  · split
    · exact .refl s
    · split
      · exact freeWell_onward w s
      · exact ((endMove_rooted .done w s).trans (grantTest_rooted _)).onward
  · split
    · exact freeWell_onward w s
    · exact .refl s

theorem takeFeedback_onward (baseline : Bool) (w : Well) (s : State) : Onward s (takeFeedback baseline w s) := by
  unfold takeFeedback
  cases baseline
  · exact checkMove_onward w s
  · exact (evalNeed_onward w s).trans (checkMove_onward w _)

theorem handTarget_onward (w : Well) (s : State) : Onward s (handTarget w s) := by
  unfold handTarget
  split
  · exact ((restartTimer_marks w s).rooted rfl rfl).onward
  · exact evalNeed_onward w s

/-- A well isolated is active still (R24, R27). -/
theorem modeWritten_isolated_rooted (w : Well) (s : State) : Rooted s (modeWritten .isolated w s) :=
  (writeRecord_rooted (f := WellRecord.entered .isolated s.settings.suspectInterval) (fun _ _ => rfl) w s).trans
    ((leaveSampling_marksOf (m := true) w _).marks.rooted (leaveSampling_places w _) (leaveSampling_calm w _).scan)

theorem buttonIsolate_onward (w : Well) (s : State) : Onward s (buttonIsolate w s) := by
  unfold buttonIsolate
  split
  · exact .refl s
  rename_i r hr
  split
  · by_cases same : r.mode = .isolated
    · rw [changeMode_same hr same]
      exact .refl s
    · rw [changeMode_eq hr same]
      split
      · exact (modeWritten_isolated_rooted w s).onward.trans (handTarget_onward w _)
      · exact (modeWritten_isolated_rooted w s).onward
  · exact .refl s

theorem liquidPurge_rooted (w : Well) (s : State) : Rooted s (liquidPurge w s) := by
  unfold liquidPurge
  split
  · exact .refl s
  split
  · exact startPulse_rooted w s
  · exact .refl s

theorem takeHanded_onward (later : List Handed) (w : Well) (h : Handed) (s : State) :
    Onward s (takeHanded later w h s) := by
  cases h with
  | isolate => exact buttonIsolate_onward w s
  | capAbort => exact (abortSampleOf_rooted w s).onward
  | capEnqueue => exact (capEnqueue_rooted later w s).onward
  | actuatorBlock => exact (blockMove_rooted w s).onward
  | actuatorReport => exact (reportFault_rooted _ _ _ s).onward
  | actuatorFall => exact evalNeed_onward w s
  | autoPurge => exact (liquidPurge_rooted w s).onward
  | feedback baseline => exact takeFeedback_onward baseline w s
  | confirm valve => exact (takeConfirmation_rooted valve w s).onward

theorem takeAllHanded_onward (w : Well) (hs : List Handed) (s : State) : Onward s (takeAllHanded w hs s) := by
  induction hs generalizing s with
  | nil => exact .refl s
  | cons h later ih => exact (takeHanded_onward later w h s).trans (ih _)

/-! ### The channels -/

theorem clearBaseline_onward (a c : Nat) (s : State) : Onward s (clearBaseline a c s) := by
  have cleared (x : StationRecord) : (x.channels.map fun d =>
      if d.channel = c then { d with baselinePending := false } else d).map (fun d => d.channel) =
      x.channels.map fun d => d.channel := by
    rw [List.map_map]
    refine List.map_congr_left fun d _ => ?_
    simp only [Function.comp]
    split <;> rfl
  refine ⟨fun y hy => ?_, fun legal none _ => ⟨StationsLegal.of_places legal rfl rfl (fun x hx => ?_)
    fun x hx state p hp own => ?_, none, rfl⟩⟩
  · obtain ⟨x, hx, rfl⟩ := List.mem_map.1 hy
    refine ⟨x, hx, ?_⟩
    split <;> exact ⟨rfl, rfl⟩
  · obtain ⟨_, _, _, _, each⟩ := legal
    obtain ⟨failures, _⟩ := each x hx
    split
    · exact ⟨rfl, failures, cleared x⟩
    · exact ⟨rfl, failures, rfl⟩
  · obtain ⟨_, _, _, _, each⟩ := legal
    obtain ⟨_, _, _, active⟩ := each x hx
    refine active ?_ p hp own
    split at state <;> exact state

theorem setInputs_rooted (q : PerInput Level) (w : Well) (s : State) : Rooted s (setInputs q w s) :=
  writeRecord_rooted (f := fun r => { r with inputs := some q }) (fun _ => id) w s

theorem takeBaseline_onward (a : Nat) (c : ChannelReading) (w : Well) (s : State) : Onward s (takeBaseline a c w s) :=
  ((setInputs_rooted _ w s).trans (setRuns_rooted _ w _)).onward.trans (clearBaseline_onward a c.channel _)

theorem takeLevels_rooted (c : ChannelReading) (before : PerInput Level) (x : Slot) (w : Well) (s : State) :
    Rooted s (takeLevels c before x w s) :=
  ((setInputs_rooted _ w s).trans (setRuns_rooted _ w _)).trans (setEdgeEvents_rooted _ before _ w _)

theorem takeArrival_onward (a : Nat) (p : PollChannel) (c : ChannelReading) (order : List Nat) (x : Slot) (s : State) :
    Onward s (takeArrival a p c order x s) := by
  have baseline : Onward s (takeAllHanded p.well
      (reorder order [.feedback true, .confirm p.outputs.sampleValve]) (takeBaseline a c p.well s)) :=
    (takeBaseline_onward a c p.well s).trans (takeAllHanded_onward p.well _ _)
  unfold takeArrival
  split
  · exact baseline
  · split
    · exact baseline
    · exact (takeLevels_rooted c _ x p.well s).onward.trans (takeAllHanded_onward p.well _ _)

theorem takeChannel_onward (a : Nat) (p : PollChannel) (c : ChannelReading) (order : List Nat) (s : State) :
    Onward s (takeChannel a p c order s) := by
  unfold takeChannel
  split
  · exact .refl s
  split
  · exact (writeRecord_rooted (f := WellRecord.withReadings c) (fun _ => id) p.well s).onward.trans
      (takeArrival_onward a p c order _ _)
  · exact freeDamaged_onward p.well s

theorem takeChannels_onward (a : Nat) (ps : List PollChannel) (cs : List ChannelReading) (orders : List (List Nat))
    (s : State) : Onward s (takeChannels a ps cs orders s) := by
  induction ps generalizing cs orders s with
  | nil => exact .refl s
  | cons p ps ih =>
    cases cs with
    | nil => exact .refl s
    | cons c cs => exact (takeChannel_onward a p c _ s).trans (ih cs orders.tail _)

/-! ### The reply -/

theorem exec_readings_fits {frame : LinkFrame} {tr : Transaction} {l : List PollChannel} {channels : List ChannelReading}
    (orders : List (List Nat)) (flying : s.scan.inFlight = some tr) (passes : frame.passes = true)
    (sent : tr.sent = .poll l) (same : channels.map (fun c => c.channel) = l.map (fun p => p.channel))
    (range : ∀ c ∈ channels, c.feedback ≤ 1000 ∧ ∀ x, c.temp = some x → -400 ≤ x ∧ x ≤ 1200) :
    exec (.readings ⟨tr.address, frame⟩ channels orders) s =
      .next (visitNext (takeChannels tr.address l channels orders (clearFailures tr.address (landed s)))) := by
  have inRange : channels.all ChannelReading.inRange = true := by
    refine List.all_eq_true.2 fun c hc => ?_
    obtain ⟨feedback, temp⟩ := range c hc
    rw [ChannelReading.inRange, Bool.and_eq_true, decide_eq_true_eq]
    refine ⟨feedback, ?_⟩
    cases read : c.temp with
    | none => rfl
    | some x => simpa using temp x read
  have fits : readingsFit tr.address channels tr l = true := by
    simp only [readingsFit, inRange, same, decide_true, Bool.and_self]
  show Host.Outcome.next (endTransaction _ s) = _
  rw [endTransaction_eq flying, judgeFrame, if_pos passes, judgeReadings, sent]
  simp only [fits, if_true]

/-- The part of O60 about READINGS that fit. -/
theorem readings_goOn {frame : LinkFrame} {tr : Transaction} {l : List PollChannel} {channels : List ChannelReading}
    (orders : List (List Nat)) (flying : s.scan.inFlight = some tr) (passes : frame.passes = true)
    (sent : tr.sent = .poll l) (same : channels.map (fun c => c.channel) = l.map (fun p => p.channel))
    (range : ∀ c ∈ channels, c.feedback ≤ 1000 ∧ ∀ x, c.temp = some x → -400 ≤ x ∧ x ≤ 1200) :
    ∃ t, exec (.readings ⟨tr.address, frame⟩ channels orders) s = .next t ∧
      (∀ x ∈ t.scan.stations, x.address = tr.address → x.failures = 0) ∧
      (s.Sound → t.SendsNext tr.address) ∧ s.SameBase t := by
  refine ⟨_, exec_readings_fits orders flying passes sent same range, ?_⟩
  have onward := takeChannels_onward tr.address l channels orders (clearFailures tr.address (landed s))
  have tame : Tame (landed s) (takeChannels tr.address l channels orders (clearFailures tr.address (landed s))) :=
    (changeStation_tame _ _ _).trans (takeChannels_tame _ _ _ _ _)
  generalize takeChannels tr.address l channels orders (clearFailures tr.address (landed s)) = u at onward tame
  refine ⟨fun y hy own => ?_, fun sound => ?_, sameBase_visitNext tame⟩
  · rw [visitNext_stations] at hy
    obtain ⟨x, hx, at_x, failures⟩ := onward.failures y hy
    obtain ⟨z, _, rfl⟩ := List.mem_map.1 hx
    rw [failures]
    split
    · rfl
    · rename_i other
      rw [if_neg other] at at_x
      exact absurd (at_x.symm.trans own) other
  · obtain ⟨_, legal, transactions, _⟩ := sound
    have cleared : (clearFailures tr.address (landed s)).StationsLegal :=
      StationsLegal.rewritten (s := landed s) legal rfl rfl (fun x _ => ⟨rfl, rfl, Nat.zero_le _, id⟩)
        fun _ _ _ hx hq active => .inl ((marks_of_slots (s := landed s) rfl).keepsActive hx hq active)
    obtain ⟨_, each⟩ := id transactions
    obtain ⟨running, _⟩ := each tr flying
    obtain ⟨legal', _, round⟩ := onward.goes cleared rfl (by
      show s.scan.round ≠ .idle
      rw [running]
      exact fun e => nomatch e)
    exact sendsNext_visitNext transactions flying legal' fun _ => round

end Sys2Proof.Machine
end

