-- ==== Sys2Proof/Proofs/RefusalsAndFailures.lean ====
section
/-! PROOF of RefusalsAndFailures, one case for each outcome of the transaction in flight. -/

namespace Sys2Proof.Machine

/-- Settles O60: a REFUSED that fits, READINGS that fit and a failed transaction each leave a state of their own, and the
round goes on from it. -/
theorem refusalsAndFailures : Obligations.RefusalsAndFailures := by
  intro s frame tr st flying ordered mem own
  refine ⟨fun a bad => ?_, fun l passes sent => refused_poll flying passes sent,
    fun l channels orders passes sent same range => readings_goOn orders flying passes sent same range,
    fun n count stays => transactionFailure_counts flying ordered mem own n count stays,
    fun n count state reached => ?_⟩
  · show Host.Outcome.next (endTransaction _ s) = .next (endTransaction _ s)
    rw [endTransaction_eq flying, endTransaction_eq flying, judgeRefused_fails bad]
  · obtain ⟨r, u, next, reported, lost, tame⟩ := transactionFailure_loses flying ordered mem own n count state reached
    have apart := visitNext_apart u
    have told := fun slots => reported.goesOffline (s := landed s) slots
    refine ⟨_, next, (visitNext_stations u).trans (lost.stations.trans reported.stations), fun slots v x hx at_a => ?_,
      fun slots v x hx other => ?_, fun b offline hb off slots => ⟨fun stays => ?_, fun goes => ?_⟩, fun sound => ?_,
      apart.index.trans (lost.index.trans reported.index), sameBase_visitNext tame⟩
    · have well := WellsLost.well reported lost slots hx at_a
      rw [lost_eq] at well
      exact well
    · exact holdsUpToMarks_trans (lost.other reported slots hx other) (visitNext_marks u)
    · obtain ⟨faults, state, phase⟩ := lost.stays fun goes => stays (off.2 ((told slots).1 goes))
      rw [apart.faults, apart.state, apart.seq, hb]
      exact ⟨faults.trans reported.faults, fun same => state.trans (reported.state same), phase ∘ reported.reports.phase⟩
    · obtain ⟨phase, event, faults⟩ := lost.offline ((told slots).2 (off.1 goes))
      rw [apart.faults, apart.seq, hb]
      exact ⟨phase, (visitNext_keeps u).events 0 event, fun f failures =>
        (faults f (reported.reports.failures.trans failures)).trans (faultsAfter_congr reported.settings reported.faults)⟩
    · obtain ⟨_, legal, transactions, _⟩ := sound
      refine sendsNext_visitNext transactions flying
        (lost.stationsLegal (s := landed s) reported legal (count ▸ Nat.min_le_right _ _)) fun running => ?_
      have before := reported.round running
      exact (congrArg (·.round) (lost.scan (by rw [before]; exact running))).trans before

end Sys2Proof.Machine
end

