-- ==== Sys2Proof/Proofs/Acknowledge.lean ====
section
/-! PROOF of AckRemovesKinds. An ACK that reaches a well is one write of its record, with the alert lines after it; an ACK
on tag 0 is the same on DEVICE_EVENTS. -/

namespace Sys2Proof.Machine

/-- An ACK on an intact record leaves its slot with the marked kinds removed, and the alert lines follow (R79, R80). -/
theorem ackWell_intact {s : State} {w : Well} {x : Slot} (mask : BitVec 8) (ordered : s.SlotsOrdered)
    (hx : s.well? w = some x) (intact : x.intact = true) : ackWell mask w s =
      (s.withSlot w { x with record := { x.record with events := x.record.events &&& ~~~mask } }).alertsTaken := by
  rw [ackWell, writeRecord_intact ordered hx intact]
  rfl

/-- Settles O34, by the record the tag names; the well's claim is not read. -/
theorem ackRemovesKinds : Obligations.AckRemovesKinds := by
  intro r s words
  refine ⟨fun w x ordered reaches => ?_, fun tag => ?_⟩
  · have ⟨_, hx, intact⟩ := reaches
    have onTag : acknowledge r = onWell false r.tag r.arg (ackWellRequest r) :=
      funext fun t => if_neg (tag_ne_zero_of_resolveWell reaches.1)
    rw [exec_ack, plainRequest_taken words, onTag, requestTaken_reaches reaches (fun e => by cases e), requestTaken,
      ackWellRequest, ackWell_intact (s := closePort (advance s)) r.mask ordered hx intact]
    rfl
  · have onDevice : acknowledge r = ackDeviceRequest r := funext fun t => if_pos tag
    rw [exec_ack, plainRequest_taken words, onDevice, requestTaken, ackDeviceRequest, tag]
    rfl

end Sys2Proof.Machine
end

