-- ==== Sys2Proof/Proofs/Touches.lean ====
section
/-! SUPPORT. Which updates an internal operation is made of, as far as WAKE is concerned (R78, R82): `Touches s t` says that
`t` comes from `s` by writes that keep EVENTS and WAKE_SET, by settings of event kinds, by removals, and by updates of the
units other than the table. Each operation has one lemma here; what follows from it is said once, by induction. -/

namespace Sys2Proof.Machine

/-- One update of the state, as far as WAKE is concerned. -/
inductive Touch : State → State → Prop
  /-- the units other than the table, with WAKE as it was and the device state as it was or SAFE -/
  | unit {s t : State} (slots : t.slots = s.slots) (settings : t.settings = s.settings)
      (wake : t.lines.wake = s.lines.wake) (state : t.device.state = s.device.state ∨ t.device.state = .safe) : Touch s t
  /-- a write of one record -/
  | write {f : WellRecord → WellRecord} {w : Well} {s : State}
      (kept : ∀ r, s.record? w = some r → (f r).events = r.events ∧ (f r).wakeSet = r.wakeSet) :
      Touch s (writeRecord f w s)
  /-- a change of one slot beside its record -/
  | slot {f : Slot → Slot} (kept : ∀ x, (f x).record = x.record ∧ (f x).tag = x.tag) (w : Well) (s : State) :
      Touch s (changeSlot f w s)
  /-- a change of every slot -/
  | every {f : Slot → Slot} (kept : ∀ x, (f x).tag = x.tag ∧ (f x).record.events = x.record.events ∧
      (f x).record.wakeSet = x.record.wakeSet) (s : State) : Touch s (changeAllSlots f s)
  /-- the setting of an event kind -/
  | event (k : WellEvent) (w : Well) (s : State) : Touch s (setWellEvent k w s)
  /-- the removal of a record -/
  | remove (w : Well) (s : State) : Touch s (removeRecord w s)

/-- From `s` to `t` by such updates. -/
abbrev Touches : State → State → Prop := Relation.ReflTransGen Touch

/-- An update of units other than the table, the settings, the lines and the device unit. -/
theorem touches_unit {s t : State} (slots : t.slots = s.slots) (settings : t.settings = s.settings)
    (lines : t.lines = s.lines) (device : t.device = s.device) : Touches s t :=
  .single (.unit slots settings (by rw [lines]) (.inl (by rw [device])))

/-- A write that keeps EVENTS and WAKE_SET of every record. -/
theorem touches_write {f : WellRecord → WellRecord} {w : Well} {s : State}
    (kept : ∀ r, (f r).events = r.events ∧ (f r).wakeSet = r.wakeSet) : Touches s (writeRecord f w s) :=
  .single (.write fun r _ => kept r)

theorem forEach_touches {f : Well → State → State} (hf : ∀ w s, Touches s (f w s)) (ws : List Well) (s : State) :
    Touches s (forEach ws f s) := by
  unfold forEach
  induction ws generalizing s with
  | nil => exact .refl
  | cons w ws ih => exact (hf w s).trans (ih _)

theorem foldl_touches {α : Type} {f : State → α → State} (hf : ∀ t a, Touches t (f t a)) (l : List α) (s : State) :
    Touches s (l.foldl f s) := by
  induction l generalizing s with
  | nil => exact .refl
  | cons a l ih => exact (hf s a).trans (ih _)

/-! ### Events and marks -/

theorem setWellEvent_touches (k : WellEvent) (w : Well) (s : State) : Touches s (setWellEvent k w s) :=
  .single (.event k w s)

theorem evalAlerts_touches (s : State) : Touches s (evalAlerts s) := .single (.unit rfl rfl rfl (.inl rfl))

theorem setDeviceEvent_touches (k : DeviceEvent) (s : State) : Touches s (setDeviceEvent k s) :=
  .single (.unit rfl rfl rfl (.inl rfl))

theorem setMoveState_touches (m : MoveState) (w : Well) (s : State) : Touches s (setMoveState m w s) :=
  touches_write (fun _ => ⟨rfl, rfl⟩)

theorem setQueued_touches (q : Queued) (w : Well) (s : State) : Touches s (setQueued q w s) :=
  touches_write (fun _ => ⟨rfl, rfl⟩)

theorem writeOutcome_touches (o : SampleOutcome) (w : Well) (s : State) : Touches s (writeOutcome o w s) :=
  (touches_write (f := fun r => { r with sampleOutcome := o }) (fun _ => ⟨rfl, rfl⟩)).trans
    (setWellEvent_touches _ _ _)

theorem dueAtOnce_touches (w : Well) (s : State) : Touches s (dueAtOnce w s) := touches_write (fun _ => ⟨rfl, rfl⟩)

theorem resetSurvey_touches (w : Well) (s : State) : Touches s (resetSurvey w s) :=
  touches_write (fun _ => ⟨rfl, rfl⟩)

theorem startPulse_touches (w : Well) (s : State) : Touches s (startPulse w s) :=
  (touches_write (f := fun r => { r with purgeLeft := s.settings.purgePulse }) (fun _ => ⟨rfl, rfl⟩)).trans
    (.single (.slot (f := fun x => { x with purgeEndDue := false }) (fun _ => ⟨rfl, rfl⟩) w _))

/-! ### Moves -/

theorem leaveLists_touches (w : Well) (s : State) : Touches s (leaveLists w s) := touches_unit rfl rfl rfl rfl

theorem restartTimer_touches (w : Well) (s : State) : Touches s (restartTimer w s) := touches_unit rfl rfl rfl rfl

theorem grantLoop_touches (ws : List Well) (s : State) : Touches s (grantLoop ws s) := by
  induction ws generalizing s with
  | nil => exact .refl
  | cons w ws ih =>
    unfold grantLoop
    split
    · have granted : Touches s (grant w ws s) :=
        .trans (b := { s with moves :=
            { holders := s.moves.holders ++ [{ well := w, timer := s.settings.moveTimeout }], waiting := ws } })
          (touches_unit rfl rfl rfl rfl) (setMoveState_touches _ _ _)
      exact granted.trans (ih _)
    · exact .refl

theorem grantTest_touches (s : State) : Touches s (grantTest s) := grantLoop_touches _ s

theorem endMove_touches (o : MoveOutcome) (w : Well) (s : State) : Touches s (endMove o w s) :=
  ((leaveLists_touches w s).trans (touches_write (f := moveEnded o) (fun _ => ⟨rfl, rfl⟩))).trans
    (setWellEvent_touches _ _ _)

theorem abandonMoves_touches (ws : List Well) (s : State) : Touches s (abandonMoves ws s) :=
  forEach_touches (fun w t => by
    split
    · exact endMove_touches _ _ _
    · exact .refl) ws s

theorem abandonAllMoves_touches (s : State) : Touches s (abandonAllMoves s) := abandonMoves_touches _ s

theorem blockMove_touches (w : Well) (s : State) : Touches s (blockMove w s) := by
  unfold blockMove
  split
  · exact (endMove_touches _ _ _).trans (grantTest_touches _)
  · split
    · exact endMove_touches _ _ _
    · exact .refl

theorem joinWaitList_touches (w : Well) (s : State) : Touches s (joinWaitList w s) :=
  .trans (b := { s with moves := { s.moves with waiting := s.moves.waiting ++ [w] } }) (touches_unit rfl rfl rfl rfl)
    ((setMoveState_touches _ _ _).trans (grantTest_touches _))

theorem leaveQuietly_touches (w : Well) (s : State) : Touches s (leaveQuietly w s) :=
  (leaveLists_touches w s).trans (setMoveState_touches _ _ _)

theorem findBlocked_touches (w : Well) (s : State) : Touches s (findBlocked w s) :=
  (touches_write (f := fun r => { r with moveOutcome := .blocked }) (fun _ => ⟨rfl, rfl⟩)).trans
    (setWellEvent_touches _ _ _)

/-! ### Samples -/

theorem setQueue_touches (q : List QueueEntry) (s : State) : Touches s (setQueue q s) := touches_unit rfl rfl rfl rfl

theorem setPhase_touches (p : Phase) (s : State) : Touches s (setPhase p s) := touches_unit rfl rfl rfl rfl

theorem setFailures_touches (f : Option FailureRun) (s : State) : Touches s (setFailures f s) :=
  touches_unit rfl rfl rfl rfl

theorem placeInQueue_touches (c : SampleClass) (w : Well) (s : State) : Touches s (placeInQueue c w s) :=
  (setQueue_touches _ s).trans (setQueued_touches _ _ _)

theorem removeEntry_touches (w : Well) (s : State) : Touches s (removeEntry w s) := by
  unfold removeEntry
  split
  · exact (setQueue_touches _ s).trans (setQueued_touches _ _ _)
  · exact .refl

theorem selectWell_touches (w : Well) (s : State) : Touches s (selectWell w s) :=
  .trans (b := { s with seq := { s.seq with phase := .select w, busyCount := 0 } }) (touches_unit rfl rfl rfl rfl)
    (setQueued_touches _ _ _)

theorem takeHeads_touches (q : List QueueEntry) (s : State) : Touches s (takeHeads q s) := by
  induction q generalizing s with
  | nil => exact .refl
  | cons e q ih =>
    unfold takeHeads
    refine (setQueue_touches q s).trans ?_
    dsimp only
    split
    · exact ((writeOutcome_touches _ _ _).trans (setQueued_touches _ _ _)).trans (ih _)
    · exact selectWell_touches _ _

theorem headTest_touches (s : State) : Touches s (headTest s) := by
  unfold headTest
  split
  · exact takeHeads_touches _ s
  · exact .refl

theorem enterIdle_touches (s : State) : Touches s (enterIdle s) := (setPhase_touches _ s).trans (headTest_touches _)

theorem abortSample_touches (s : State) : Touches s (abortSample s) := by
  have aborted (w : Well) : Touches s (writeOutcome .aborted w (setPhase (.release w) s)) :=
    (setPhase_touches _ s).trans (writeOutcome_touches _ _ _)
  unfold abortSample
  split
  · exact aborted _
  · exact aborted _
  · exact aborted _
  · exact .refl
  · exact .refl
  · exact .refl

theorem abortSampleOf_touches (w : Well) (s : State) : Touches s (abortSampleOf w s) := by
  unfold abortSampleOf
  split
  · exact abortSample_touches s
  · exact .refl

theorem leaveSampling_touches (w : Well) (s : State) : Touches s (leaveSampling w s) :=
  (removeEntry_touches w s).trans (abortSampleOf_touches w _)

theorem evict_touches (e : QueueEntry) (s : State) : Touches s (evict e s) :=
  (setQueue_touches (withoutEntry e.well s.seq.queue) s).trans (touches_write (fun _ => ⟨rfl, rfl⟩))

theorem urgentEnqueue_touches (held : Bool) (w : Well) (s : State) : Touches s (urgentEnqueue held w s) := by
  have tested (t : State) : Touches t (if held then t else headTest t) := by
    split
    · exact .refl
    · exact headTest_touches t
  have placed (t : State) : Touches t (if held then placeInQueue .urgent w t else headTest (placeInQueue .urgent w t)) :=
    (placeInQueue_touches _ w t).trans (tested _)
  unfold urgentEnqueue
  dsimp only
  split
  · exact .refl
  · split
    · exact .refl
    · split
      · exact .refl
      · exact placed s
      · exact dueAtOnce_touches w s
      · split
        · exact placed s
        · split
          · exact (evict_touches _ s).trans (placed _)
          · exact dueAtOnce_touches w s

theorem surveyWell_touches (w : Well) (s : State) : Touches s (surveyWell w s) := by
  unfold surveyWell
  split
  · exact .refl
  · split
    · exact .refl
    · split
      · split
        · exact (placeInQueue_touches _ _ _).trans (headTest_touches _)
        · exact .refl
      · exact touches_write (fun _ => ⟨rfl, rfl⟩)

theorem survey_touches (s : State) : Touches s (survey s) := by
  unfold survey
  split
  · exact .refl
  · exact forEach_touches surveyWell_touches _ s
  · exact forEach_touches surveyWell_touches _ s

/-! ### The blend unit and rounds -/

theorem formBudget_touches (s : State) : Touches s (formBudget s) := by
  unfold formBudget
  dsimp only
  split
  · exact touches_unit rfl rfl rfl rfl
  · exact .tail (touches_unit rfl rfl rfl rfl) (.unit rfl rfl rfl (.inl rfl))

theorem setPermit_touches (p : PermitState) (n : Option Nat) (s : State) : Touches s (setPermit p n s) :=
  touches_unit rfl rfl rfl rfl

theorem setPermitLines_touches (s : State) : Touches s (setPermitLines s) := touches_unit rfl rfl rfl rfl

theorem stepPermit_touches (s : State) : Touches s (stepPermit s) := by
  unfold stepPermit
  split
  · split
    · exact setPermit_touches _ _ s
    · exact .refl
  · split
    · exact .refl
    · exact setPermit_touches _ _ s
  · split
    · exact .refl
    · exact (setPermit_touches _ _ s).trans (setDeviceEvent_touches _ _)

theorem blendRoundEnd_touches (s : State) : Touches s (blendRoundEnd s) :=
  .trans (b := formBlend s) (touches_unit rfl rfl rfl rfl)
    (((formBudget_touches _).trans (stepPermit_touches _)).trans (setPermitLines_touches _))

theorem withdrawPermit_touches (s : State) : Touches s (withdrawPermit s) := by
  unfold withdrawPermit
  split
  · exact setPermitLines_touches s
  · exact (setPermit_touches _ _ s).trans (setPermitLines_touches _)
  · exact ((setPermit_touches _ _ s).trans (setDeviceEvent_touches _ _)).trans (setPermitLines_touches _)

theorem takeHoldExpiry_touches (s : State) : Touches s (takeHoldExpiry s) := by
  unfold takeHoldExpiry
  split
  · split
    · exact ((setPermit_touches _ _ s).trans (setDeviceEvent_touches _ _)).trans (setPermitLines_touches _)
    · exact (setPermit_touches _ _ s).trans (setPermitLines_touches _)
  · exact .refl
  · exact .refl

theorem detectLevels_touches (w : Well) (s : State) : Touches s (detectLevels w s) := by
  unfold detectLevels
  split
  · exact .refl
  · split
    · exact .refl
    · exact foldl_touches (fun t i => by
        split
        · exact setWellEvent_touches _ _ _
        · exact .refl) _ s

theorem levelDetection_touches (s : State) : Touches s (levelDetection s) := by
  unfold levelDetection
  split
  · exact .refl
  · exact forEach_touches detectLevels_touches _ s
  · exact forEach_touches detectLevels_touches _ s

theorem finishRound_touches (s : State) : Touches s (finishRound s) :=
  .trans (b := { s with scan := { s.scan with inFlight := none, round := .idle } }) (touches_unit rfl rfl rfl rfl)
    ((levelDetection_touches _).trans (blendRoundEnd_touches _))

theorem sendTo_touches (st : StationRecord) (s : State) : Touches s (sendTo st s) := touches_unit rfl rfl rfl rfl

theorem beginRound_touches (s : State) : Touches s (beginRound s) := by
  unfold beginRound
  split
  · exact finishRound_touches s
  · exact sendTo_touches _ s

theorem beginRoundIfIdle_touches (s : State) : Touches s (beginRoundIfIdle s) := by
  unfold beginRoundIfIdle
  split
  · exact beginRound_touches s
  · exact .refl

theorem visitNext_touches (s : State) : Touches s (visitNext s) := by
  unfold visitNext
  split
  · exact .refl
  · split
    · exact sendTo_touches _ s
    · dsimp only
      split
      · exact (finishRound_touches s).trans (beginRound_touches _)
      · exact finishRound_touches s

theorem changeStation_touches (f : StationRecord → StationRecord) (a : Nat) (s : State) :
    Touches s (changeStation f a s) := touches_unit rfl rfl rfl rfl

theorem dropStationChannel_touches (a c : Nat) (s : State) : Touches s (dropStationChannel a c s) := by
  have dropped := changeStation_touches (StationRecord.dropped c) a s
  unfold dropStationChannel
  dsimp only
  split
  · exact dropped
  · split
    · refine dropped.trans ?_
      split
      · exact touches_unit rfl rfl rfl rfl
      · split
        · refine Relation.ReflTransGen.trans ?_ (visitNext_touches _)
          exact touches_unit rfl rfl rfl rfl
        · exact touches_unit rfl rfl rfl rfl
    · exact dropped

/-! ### Faults and changes of the device state -/

theorem recordFault_touches (k : FaultKind) (n : Nat) (d : Half) (s : State) : Touches s (recordFault k n d s) :=
  touches_unit rfl rfl rfl rfl

theorem takeIf_touches {f : State → State} (b : Bool) (hf : ∀ t, Touches t (f t)) (s : State) :
    Touches s (takeIf b f s) := by
  cases b
  · exact .refl
  · exact hf s

theorem takeChange_touches (h : Handover) (s : State) : Touches s (takeChange h s) :=
  (((takeIf_touches _ abandonAllMoves_touches s).trans (takeIf_touches _ abortSample_touches _)).trans
    (takeIf_touches _ withdrawPermit_touches _)).trans (takeIf_touches _ beginRoundIfIdle_touches _)

theorem setOwed_touches (h : Handover) (s : State) : Touches s (setOwed h s) := .single (.unit rfl rfl rfl (.inl rfl))

theorem handChange_touches (h : Handover) (s : State) : Touches s (handChange h s) :=
  (setOwed_touches _ s).trans (takeChange_touches _ _)

theorem takeOwed_touches (s : State) : Touches s (takeOwed s) := (setOwed_touches _ s).trans (takeChange_touches _ _)

theorem enterSafe_touches (s : State) : Touches s (enterSafe s) := by
  have safe : Touches s (setDeviceEvent .state (setDeviceState .safe s)) :=
    .trans (b := setDeviceState .safe s) (.single (.unit rfl rfl rfl (.inr rfl))) (setDeviceEvent_touches _ _)
  unfold enterSafe
  split
  · exact .refl
  · exact safe.trans (handChange_touches _ _)
  · exact safe.trans (handChange_touches _ _)

theorem reportFault_touches (k : FaultKind) (n : Nat) (d : Half) (s : State) : Touches s (reportFault k n d s) := by
  have noted := (recordFault_touches k n d s).trans (setDeviceEvent_touches .fault _)
  unfold reportFault
  split
  · exact .refl
  · exact recordFault_touches k n d s
  · exact noted
  · exact noted.trans (enterSafe_touches _)

/-! ### One well's life -/

theorem leaveSample_touches (s : State) : Touches s (leaveSample s) := by
  unfold leaveSample
  split
  · exact enterIdle_touches s
  · split
    · exact ((setPhase_touches _ s).trans (reportFault_touches _ _ _ _)).trans (setDeviceEvent_touches _ _)
    · exact enterIdle_touches s

theorem sequencerDrops_touches (w : Well) (s : State) : Touches s (sequencerDrops w s) := by
  unfold sequencerDrops
  dsimp only
  split
  · exact (setQueue_touches _ s).trans (leaveSample_touches _)
  · exact setQueue_touches _ s

theorem schedulerDrops_touches (w : Well) (s : State) : Touches s (schedulerDrops w s) := by
  unfold schedulerDrops
  split
  · exact (leaveLists_touches w s).trans (grantTest_touches _)
  · exact leaveLists_touches w s

theorem freeWell_touches (w : Well) (s : State) : Touches s (freeWell w s) := by
  unfold freeWell
  split
  · exact .refl
  · exact (((Relation.ReflTransGen.single (.remove w s)).trans (sequencerDrops_touches w _)).trans
      (schedulerDrops_touches w _)).trans ((dropStationChannel_touches _ _ _).trans (evalAlerts_touches _))

theorem freeDamaged_touches (w : Well) (s : State) : Touches s (freeDamaged w s) :=
  (freeWell_touches w s).trans (reportFault_touches _ _ _ _)

theorem evalNeed_touches (w : Well) (s : State) : Touches s (evalNeed w s) := by
  unfold evalNeed
  split
  · exact .refl
  · split
    · exact .refl
    · split
      · exact blockMove_touches w s
      · split
        · exact .refl
        · split
          · exact freeWell_touches w s
          · split
            · split
              · exact .refl
              · exact leaveQuietly_touches w s
            · split
              · exact joinWaitList_touches w s
              · split
                · exact findBlocked_touches w s
                · exact .refl

theorem handTarget_touches (w : Well) (s : State) : Touches s (handTarget w s) := by
  unfold handTarget
  split
  · exact restartTimer_touches w s
  · exact evalNeed_touches w s

/-- A write of the found record that keeps its EVENTS and WAKE_SET, with its target handed on. -/
theorem writeAndHand_touches {f : WellRecord → WellRecord} {w : Well} {s : State}
    (kept : ∀ r, s.record? w = some r → (f r).events = r.events ∧ (f r).wakeSet = r.wakeSet) :
    Touches s (writeAndHand f w s) := by
  have written : Touches s (writeRecord f w s) := .single (.write kept)
  unfold writeAndHand
  split
  · exact .refl
  · dsimp only
    split
    · exact written
    · exact written.trans (handTarget_touches w _)

theorem departed_wake (r : WellRecord) : r.departed.events = r.events ∧ r.departed.wakeSet = r.wakeSet := by
  unfold WellRecord.departed
  split <;> exact ⟨rfl, rfl⟩

theorem changeMode_touches (m : Mode) (always : Bool) (w : Well) (s : State) : Touches s (changeMode m always w s) := by
  have entered : Touches s (writeRecord (WellRecord.entered m s.settings.suspectInterval) w s) :=
    touches_write (fun r => departed_wake r)
  have left : Touches s (if m.closes then
      leaveSampling w (writeRecord (WellRecord.entered m s.settings.suspectInterval) w s)
      else writeRecord (WellRecord.entered m s.settings.suspectInterval) w s) := by
    split
    · exact entered.trans (leaveSampling_touches w _)
    · exact entered
  unfold changeMode
  split
  · exact .refl
  · split
    · exact .refl
    · dsimp only
      split
      · exact left.trans (handTarget_touches w _)
      · exact left

theorem takeUpMode_touches (w : Well) (s : State) : Touches s (takeUpMode w s) := by
  unfold takeUpMode
  split
  · exact .refl
  · split
    · refine .trans (touches_write (fun r => ?_)) (setWellEvent_touches _ _ _)
      unfold WellRecord.returned
      split
      · exact ⟨rfl, rfl⟩
      · exact departed_wake r
    · exact .refl

theorem loseWell_touches (w : Well) (s : State) : Touches s (loseWell w s) := by
  refine .trans (touches_write (fun r => ?_)) (setWellEvent_touches _ _ _)
  unfold WellRecord.lost
  dsimp only
  split
  · exact ⟨rfl, rfl⟩
  · exact departed_wake r

theorem clearRuns_touches (w : Well) (s : State) : Touches s (clearRuns w s) :=
  .single (.slot (f := fun x => { x with runs := noRuns }) (fun _ => ⟨rfl, rfl⟩) w s)

theorem sequencerLoses_touches (ws : List Well) (s : State) : Touches s (sequencerLoses ws s) := by
  have removed := forEach_touches removeEntry_touches ws s
  unfold sequencerLoses
  dsimp only
  split
  · exact removed
  · split
    · exact ((removed.trans (writeOutcome_touches _ _ _)).trans (setQueued_touches _ _ _)).trans (leaveSample_touches _)
    · exact removed

theorem loseWells_touches (ws : List Well) (s : State) : Touches s (loseWells ws s) :=
  ((((forEach_touches loseWell_touches ws s).trans (abandonMoves_touches ws _)).trans (grantTest_touches _)).trans
    (sequencerLoses_touches ws _)).trans (forEach_touches clearRuns_touches ws _)

/-! ### Tuning -/

theorem tuneExcursion_touches (w : Well) (r : WellRecord) (s : State) : Touches s (tuneExcursion w r s) := by
  have counted : Touches s (writeRecord WellRecord.excursion w s) := touches_write (fun _ => ⟨rfl, rfl⟩)
  unfold tuneExcursion
  dsimp only
  split
  · exact (counted.trans (changeMode_touches _ _ w _)).trans (reportFault_touches _ _ _ _)
  · exact counted.trans (writeAndHand_touches fun _ _ => ⟨rfl, rfl⟩)

theorem tuneQuiet_touches (x : Sample) (w : Well) (r : WellRecord) (s : State) : Touches s (tuneQuiet x w r s) := by
  have counted : Touches s (writeRecord (fun q => { q with excursions := 0 }) w s) :=
    touches_write (fun _ => ⟨rfl, rfl⟩)
  unfold tuneQuiet
  dsimp only
  split
  · exact counted.trans (writeAndHand_touches fun _ _ => ⟨rfl, rfl⟩)
  · split
    · exact counted.trans (writeAndHand_touches fun _ _ => ⟨rfl, rfl⟩)
    · exact counted

theorem tuneSuspect_touches (x : Sample) (w : Well) (r : WellRecord) (s : State) : Touches s (tuneSuspect x w r s) := by
  unfold tuneSuspect
  split
  · split
    · exact changeMode_touches _ _ w s
    · exact touches_write (fun _ => ⟨rfl, rfl⟩)
  · exact touches_write (fun _ => ⟨rfl, rfl⟩)

theorem tuneAdjusted_touches (x : Sample) (w : Well) (r : WellRecord) (s : State) :
    Touches s (tuneAdjusted x w r s) := by
  unfold tuneAdjusted
  split
  · split
    · exact tuneExcursion_touches w r s
    · exact tuneQuiet_touches x w r s
  · exact tuneSuspect_touches x w r s
  all_goals exact .refl

theorem judge_touches (x : Sample) (w : Well) (r : WellRecord) (s : State) : Touches s (judge x w r s) := by
  have noted : Touches s (if overCeiling x r then setWellEvent .oxygen w s else s) := by
    split
    · exact setWellEvent_touches _ w s
    · exact .refl
  unfold judge
  dsimp only
  refine noted.trans ?_
  cases (if overCeiling x r then hotReading r else none) with
  | some temp => exact (changeMode_touches _ _ w _).trans (reportFault_touches _ _ _ _)
  | none =>
    dsimp only
    generalize (if overCeiling x r then setWellEvent .oxygen w s else s) = t
    split
    · exact tuneAdjusted_touches x w r _
    · exact .refl

theorem tune_touches (x : Sample) (w : Well) (s : State) : Touches s (tune x w s) := by
  unfold tune
  split
  · exact .refl
  · split
    · exact judge_touches x w _ s
    · exact .refl

end Sys2Proof.Machine
end

