-- ==== Sys2Proof/Proofs/LinkTouches.lean ====
section
/-! SUPPORT. Every operation of the two links and of the ticks is made of the updates of `Touch` (chapters 3, 4 and 5). -/

namespace Sys2Proof.Machine

/-! ### The analyser link -/

theorem endOk_touches (x : Sample) (w : Well) (s : State) : Touches s (endOk x w s) := by
  have written : Touches (setPhase (.release w) s)
      (writeRecord (WellRecord.sampled x s.settings.suspectInterval) w (setPhase (.release w) s)) :=
    touches_write fun _ => ⟨rfl, rfl⟩
  exact ((((setPhase_touches _ s).trans written).trans (setWellEvent_touches _ _ _)).trans
    (setFailures_touches _ _)).trans (tune_touches _ _ _)

theorem endFailed_touches (o : FailOutcome) (w : Well) (s : State) : Touches s (endFailed o w s) :=
  ((((setPhase_touches _ s).trans (writeOutcome_touches _ _ _)).trans (resetSurvey_touches _ _)).trans
    (setFailures_touches _ _)).trans (reportFault_touches _ _ _ _)

theorem endNotReady_touches (w : Well) (s : State) : Touches s (endNotReady w s) :=
  ((setPhase_touches _ s).trans (writeOutcome_touches _ _ _)).trans (resetSurvey_touches _ _)

theorem takeBusy_touches (w : Well) (s : State) : Touches s (takeBusy w s) := by
  have counted : Touches s (setBusyCount (s.seq.busyCount + 1) s) := touches_unit rfl rfl rfl rfl
  unfold takeBusy
  dsimp only
  split
  · exact counted.trans (endNotReady_touches _ _)
  · exact counted.trans (setPhase_touches _ _)

theorem takeValues_touches (a b c : Half) (w : Well) (s : State) : Touches s (takeValues a b c w s) := by
  unfold takeValues
  split
  · exact endOk_touches _ _ _
  · exact endFailed_touches _ _ _

theorem takeLiveProbe_touches (s : State) : Touches s (takeLiveProbe s) :=
  ((setFailures_touches _ s).trans (setDeviceEvent_touches _ _)).trans (enterIdle_touches _)

theorem takeReadReply_touches (x : AnalyserReply) (w : Well) (s : State) : Touches s (takeReadReply x w s) := by
  cases x with
  | values a b c => exact takeValues_touches a b c w s
  | busy => exact takeBusy_touches w s
  | fault => exact endFailed_touches _ w s

theorem takeProbeReply_touches (x : AnalyserReply) (n : Nat) (s : State) : Touches s (takeProbeReply x n s) := by
  cases x with
  | values => exact takeLiveProbe_touches s
  | busy => exact takeLiveProbe_touches s
  | fault => exact setPhase_touches _ s

theorem takeAnalyserFrame_touches (n : Byte) (x : AnalyserReply) (s : State) : Touches s (takeAnalyserFrame n x s) := by
  unfold takeAnalyserFrame
  split
  · split
    · exact takeReadReply_touches x _ s
    · exact takeProbeReply_touches x _ s
    all_goals exact .refl
  · exact .refl

theorem sendMeasure_touches (w : Well) (s : State) : Touches s (sendMeasure w s) := touches_unit rfl rfl rfl rfl

theorem afterPurgeTimer_touches (s : State) : Touches s (afterPurgeTimer s) := by
  unfold afterPurgeTimer
  split
  · split
    · exact sendMeasure_touches _ s
    · exact .refl
  all_goals exact .refl

theorem afterBusyWait_touches (s : State) : Touches s (afterBusyWait s) := by
  unfold afterBusyWait
  split
  · split
    · exact sendMeasure_touches _ s
    · exact .refl
  all_goals exact .refl

theorem afterProbeTimer_touches (s : State) : Touches s (afterProbeTimer s) := by
  unfold afterProbeTimer
  split
  · split
    · exact touches_unit rfl rfl rfl rfl
    · exact .refl
  all_goals exact .refl

theorem afterAnalyserTimer_touches (s : State) : Touches s (afterAnalyserTimer s) := by
  unfold afterAnalyserTimer
  split
  · split
    · exact endFailed_touches _ _ s
    · exact .refl
  all_goals exact .refl

/-! ### Transactions -/

theorem endTimeout_touches (w : Well) (s : State) : Touches s (endTimeout w s) :=
  ((endMove_touches _ _ s).trans (reportFault_touches _ _ _ _)).trans (grantTest_touches _)

theorem endTransaction_touches {act : Transaction → State → State} (h : ∀ t s, Touches s (act t s)) (s : State) :
    Touches s (endTransaction act s) := by
  unfold endTransaction
  split
  · exact .refl
  · rename_i t _
    have ended : Touches s { s with scan := { s.scan with inFlight := none } } := touches_unit rfl rfl rfl rfl
    exact (ended.trans (h t _)).trans (visitNext_touches _)

theorem failTransaction_touches (a : Nat) (s : State) : Touches s (failTransaction a s) := by
  have raised := changeStation_touches (fun x => { x with failures := min (x.failures + 1) Config.maxFailures }) a s
  unfold failTransaction
  dsimp only
  split
  · exact raised
  · split
    · exact ((raised.trans (reportFault_touches _ _ _ _)).trans (changeStation_touches _ _ _)).trans
        ((reportFault_touches _ _ _ _).trans (loseWells_touches _ _))
    · exact raised.trans (reportFault_touches _ _ _ _)

theorem judgeFrame_touches {frame : LinkFrame} {judge : Transaction → State → State}
    (h : ∀ t s, Touches s (judge t s)) (t : Transaction) (s : State) : Touches s (judgeFrame frame judge t s) := by
  unfold judgeFrame
  split
  · exact h t s
  · exact failTransaction_touches _ s

theorem judgeAccept_touches (a : Nat) (t : Transaction) (s : State) : Touches s (judgeAccept a t s) := by
  unfold judgeAccept
  split
  · split
    · exact (changeStation_touches _ _ s).trans (forEach_touches takeUpMode_touches _ _)
    · exact failTransaction_touches _ s
  · exact failTransaction_touches _ s

theorem refusePoll_touches (a : Nat) (s : State) : Touches s (refusePoll a s) := by
  have refused := ((changeStation_touches (fun x => { x with failures := 0 }) a s).trans
    (changeStation_touches (fun x => { x with state := .setupDue }) a _)).trans
    (reportFault_touches .stationRefused noTag (addressDetail a) _)
  unfold refusePoll
  dsimp only
  split
  · exact refused.trans (abortSample_touches _)
  · exact refused

theorem judgeRefused_touches (a : Nat) (t : Transaction) (s : State) : Touches s (judgeRefused a t s) := by
  unfold judgeRefused
  split
  · split
    · exact refusePoll_touches a s
    · exact failTransaction_touches _ s
  · exact failTransaction_touches _ s

/-! ### Arrivals -/

theorem buttonIsolate_touches (w : Well) (s : State) : Touches s (buttonIsolate w s) := by
  unfold buttonIsolate
  split
  · exact .refl
  · split
    · exact changeMode_touches _ _ w s
    · exact .refl

theorem capEnqueue_touches (later : List Handed) (w : Well) (s : State) : Touches s (capEnqueue later w s) := by
  unfold capEnqueue
  split
  · exact .refl
  · exact urgentEnqueue_touches _ w s

theorem checkMove_touches (w : Well) (s : State) : Touches s (checkMove w s) := by
  unfold checkMove
  split
  · exact .refl
  · split
    · split
      · exact .refl
      · split
        · exact freeWell_touches w s
        · exact (endMove_touches _ w s).trans (grantTest_touches _)
    · split
      · exact freeWell_touches w s
      · exact .refl

theorem takeFeedback_touches (b : Bool) (w : Well) (s : State) : Touches s (takeFeedback b w s) := by
  unfold takeFeedback
  split
  · exact (evalNeed_touches w s).trans (checkMove_touches w _)
  · exact checkMove_touches w s

theorem takeConfirmation_touches (v : Bool) (w : Well) (s : State) : Touches s (takeConfirmation v w s) := by
  unfold takeConfirmation
  split
  · split
    · exact setPhase_touches _ s
    · exact .refl
  · split
    · exact (setQueued_touches _ _ s).trans (leaveSample_touches _)
    · exact .refl
  all_goals exact .refl

theorem liquidPurge_touches (w : Well) (s : State) : Touches s (liquidPurge w s) := by
  unfold liquidPurge
  split
  · exact .refl
  · split
    · exact startPulse_touches w s
    · exact .refl

theorem takeHanded_touches (later : List Handed) (w : Well) (h : Handed) (s : State) :
    Touches s (takeHanded later w h s) := by
  cases h with
  | isolate => exact buttonIsolate_touches w s
  | capAbort => exact abortSampleOf_touches w s
  | capEnqueue => exact capEnqueue_touches later w s
  | actuatorBlock => exact blockMove_touches w s
  | actuatorReport => exact reportFault_touches _ _ _ s
  | actuatorFall => exact evalNeed_touches w s
  | autoPurge => exact liquidPurge_touches w s
  | feedback baseline => exact takeFeedback_touches baseline w s
  | confirm valve => exact takeConfirmation_touches valve w s

theorem takeAllHanded_touches (w : Well) (hs : List Handed) (s : State) : Touches s (takeAllHanded w hs s) := by
  induction hs generalizing s with
  | nil => exact .refl
  | cons h later ih => exact (takeHanded_touches later w h s).trans (ih _)

theorem setInputs_touches (p : PerInput Level) (w : Well) (s : State) : Touches s (setInputs p w s) :=
  touches_write fun _ => ⟨rfl, rfl⟩

theorem setRuns_touches (q : PerInput Run) (w : Well) (s : State) : Touches s (setRuns q w s) :=
  .single (.slot (f := fun x => { x with runs := q }) (fun _ => ⟨rfl, rfl⟩) w s)

theorem takeBaseline_touches (a : Nat) (c : ChannelReading) (w : Well) (s : State) :
    Touches s (takeBaseline a c w s) :=
  ((setInputs_touches _ w s).trans (setRuns_touches _ w _)).trans (changeStation_touches _ _ _)

theorem takeLevels_touches (c : ChannelReading) (before : PerInput Level) (x : Slot) (w : Well) (s : State) :
    Touches s (takeLevels c before x w s) := by
  refine ((setInputs_touches _ w s).trans (setRuns_touches _ w _)).trans (foldl_touches (fun t i => ?_) _ _)
  split
  · exact setWellEvent_touches _ _ _
  · exact .refl

theorem takeArrival_touches (a : Nat) (p : PollChannel) (c : ChannelReading) (o : List Nat) (x : Slot) (s : State) :
    Touches s (takeArrival a p c o x s) := by
  unfold takeArrival
  split
  · exact (takeBaseline_touches _ _ _ s).trans (takeAllHanded_touches _ _ _)
  · split
    · exact (takeBaseline_touches _ _ _ s).trans (takeAllHanded_touches _ _ _)
    · exact (takeLevels_touches _ _ _ _ s).trans (takeAllHanded_touches _ _ _)

theorem takeChannel_touches (a : Nat) (p : PollChannel) (c : ChannelReading) (o : List Nat) (s : State) :
    Touches s (takeChannel a p c o s) := by
  have written : Touches s (writeRecord (WellRecord.withReadings c) p.well s) := touches_write fun _ => ⟨rfl, rfl⟩
  unfold takeChannel
  split
  · exact .refl
  · split
    · exact written.trans (takeArrival_touches _ _ _ _ _ _)
    · exact freeDamaged_touches _ s

theorem takeChannels_touches (a : Nat) (ps : List PollChannel) (cs : List ChannelReading) (os : List (List Nat))
    (s : State) : Touches s (takeChannels a ps cs os s) := by
  induction ps generalizing cs os s with
  | nil => exact .refl
  | cons p ps ih =>
    cases cs with
    | nil => exact .refl
    | cons c cs => exact (takeChannel_touches a p c _ s).trans (ih cs os.tail _)

theorem judgeReadings_touches (a : Nat) (cs : List ChannelReading) (os : List (List Nat)) (t : Transaction)
    (s : State) : Touches s (judgeReadings a cs os t s) := by
  unfold judgeReadings
  split
  · split
    · exact (changeStation_touches _ _ s).trans (takeChannels_touches _ _ _ _ _)
    · exact failTransaction_touches _ s
  · exact failTransaction_touches _ s

/-! ### The ticks and the SUCTION line -/

theorem ageSamples_touches (s : State) : Touches s (ageSamples s) := by
  refine .single (.every (fun x => ?_) s)
  split <;> exact ⟨rfl, rfl, rfl⟩

theorem cumulativeDraw_touches (s : State) : Touches s (cumulativeDraw s) := by
  refine .single (.every (fun x => ?_) s)
  split
  · unfold Slot.write drawMinute
    dsimp only
    split <;> exact ⟨rfl, rfl, rfl⟩
  · exact ⟨rfl, rfl, rfl⟩

theorem tickPulses_touches (s : State) : Touches s (tickPulses s) := by
  refine .single (.every (fun x => ?_) s)
  unfold tickPulse
  split <;> exact ⟨rfl, rfl, rfl⟩

theorem takeMinute_touches (s : State) : Touches s (takeMinute s) :=
  (((survey_touches s).trans (ageSamples_touches _)).trans (cumulativeDraw_touches _)).trans
    (minuteRound_either (R := Touches _) .refl (beginRoundIfIdle_touches _))

theorem countSecond_touches (s : State) : Touches s (countSecond s) := by
  unfold countSecond
  split <;> exact touches_unit rfl rfl rfl rfl

theorem secondTick_touches (late : Handover) (s : State) : Touches s
    (tickRounds (tickPulses (tickHold (tickMoves (tickSequencer (countSecond (setLate late (takeOwed s)))))))) := by
  have set : Touches (takeOwed s) (setLate late (takeOwed s)) := .single (.unit rfl rfl rfl (.inl rfl))
  have ticked (t : State) : Touches t (tickHold (tickMoves (tickSequencer t))) := touches_unit rfl rfl rfl rfl
  exact (((((takeOwed_touches s).trans set).trans (countSecond_touches _)).trans (ticked _)).trans
    (tickPulses_touches _)).trans (tickRounds_either (R := Touches _) .refl (beginRoundIfIdle_touches _))

theorem suctionFalls_touches (s : State) : Touches s (suctionFalls s) := by
  unfold suctionFalls
  split
  · exact (reportFault_touches _ _ _ s).trans (withdrawPermit_touches _)
  · exact withdrawPermit_touches s
  · exact withdrawPermit_touches s

end Sys2Proof.Machine
end

