-- ==== Sys2Proof/Proofs/Wake.lean ====
section
/-! SUPPORT. What internal operations and commands leave of WAKE (R82, R83): `WakeTold s t` says when WAKE must be asserted
from `s` to `t`, when it may be, and that it stays; `Traced s t` says besides what the next operation needs of `t`. -/

namespace Sys2Proof.Machine

variable {s t u : State}

/-- WAKE is asserted where a kind newly set wakes, is newly asserted only there, and stays asserted (R82, R83). -/
structure WakeTold (s t : State) : Prop where
  raises : s.device.state = .standby → t.device.state = .standby → s.settings.wakeEnable = true →
    (∃ w r q i, s.record? w = some r ∧ t.record? w = some q ∧ r.events.getLsbD i = false ∧
      q.events.getLsbD i = true ∧ r.wakeSet.getLsbD i = true) → t.lines.wake = true
  asserted : s.lines.wake = false → t.lines.wake = true → s.device.state = .standby ∧ s.settings.wakeEnable = true ∧
    ∃ w r i, s.record? w = some r ∧ r.wakeSet.getLsbD i = true ∧ ∀ q, t.record? w = some q → q.events.getLsbD i = true
  kept : s.lines.wake = true → t.lines.wake = true

/-- An update that leaves WAKE and sets no event kind. -/
theorem WakeTold.of_silent (wake : t.lines.wake = s.lines.wake)
    (events : ∀ w r q i, s.record? w = some r → t.record? w = some q → q.events.getLsbD i = true →
      r.events.getLsbD i = true) : WakeTold s t where
  raises := fun _ _ _ ⟨w, r, q, i, hr, hq, off, on, _⟩ => by rw [events w r q i hr hq on] at off; cases off
  asserted := fun off on => by rw [wake, off] at on; cases on
  kept := fun on => wake.trans on

theorem WakeTold.of_slots (slots : t.slots = s.slots) (wake : t.lines.wake = s.lines.wake) : WakeTold s t :=
  .of_silent wake fun w r q i hr hq on => by
    rw [record?_congr slots, hr] at hq
    cases hq
    exact on

/-- What `WakeTold` reads of its two states. -/
theorem WakeTold.congr {s' t' : State} (h : WakeTold s t) (slots : s.slots = s'.slots)
    (state : s.device.state = s'.device.state) (enable : s.settings.wakeEnable = s'.settings.wakeEnable)
    (wake : s.lines.wake = s'.lines.wake) (slots' : t'.slots = t.slots)
    (state' : t'.device.state = t.device.state) (wake' : t'.lines.wake = t.lines.wake) : WakeTold s' t' where
  raises := by
    simpa only [record?_congr slots, record?_congr slots', state, state', enable, wake'] using h.raises
  asserted := by
    simpa only [record?_congr slots, record?_congr slots', state, enable, wake, wake'] using h.asserted
  kept := by simpa only [wake, wake'] using h.kept

/-- `WakeTold`, with what carries it over a chain of operations: no record comes back, none loses a kind or changes its
WAKE_SET, and the device state is left for SAFE alone. -/
structure Traced (s t : State) : Prop extends WakeTold s t where
  ordered : t.SlotsOrdered
  settings : t.settings = s.settings
  state : t.device.state = s.device.state ∨ t.device.state = .safe
  back : ∀ w q, t.record? w = some q → ∃ r, s.record? w = some r ∧ q.wakeSet = r.wakeSet ∧
    ∀ i, r.events.getLsbD i = true → q.events.getLsbD i = true

theorem Traced.trans (a : Traced s t) (b : Traced t u) : Traced s u where
  ordered := b.ordered
  settings := b.settings.trans a.settings
  state := b.state.elim (fun same => a.state.imp same.trans same.trans) .inr
  back := fun w q hq => by
    obtain ⟨p, hp, set, grows⟩ := b.back w q hq
    obtain ⟨r, hr, set', grows'⟩ := a.back w p hp
    exact ⟨r, hr, set.trans set', fun i on => grows i (grows' i on)⟩
  raises := fun standby standby' enable ⟨w, r, q, i, hr, hq, off, on, wakes⟩ => by
    have between : t.device.state = .standby := by
      rcases b.state with same | safe
      · exact same ▸ standby'
      · rw [safe] at standby'; cases standby'
    obtain ⟨p, hp, set, _⟩ := b.back w q hq
    obtain ⟨r', hr', set', _⟩ := a.back w p hp
    rw [hr] at hr'
    cases hr'
    cases before : p.events.getLsbD i with
    | true => exact b.kept (a.raises standby between enable ⟨w, r, p, i, hr, hp, off, before, wakes⟩)
    | false =>
      exact b.raises between standby' (a.settings ▸ enable) ⟨w, p, q, i, hp, hq, before, on, set' ▸ wakes⟩
  asserted := fun off on => by
    cases between : t.lines.wake with
    | true =>
      obtain ⟨standby, enable, w, r, i, hr, wakes, stands⟩ := a.asserted off between
      refine ⟨standby, enable, w, r, i, hr, wakes, fun q hq => ?_⟩
      obtain ⟨p, hp, _, grows⟩ := b.back w q hq
      exact grows i (stands p hp)
    | false =>
      obtain ⟨standby, enable, w, p, i, hp, wakes, stands⟩ := b.asserted between on
      obtain ⟨r, hr, set, _⟩ := a.back w p hp
      refine ⟨?_, a.settings ▸ enable, w, r, i, hr, set ▸ wakes, stands⟩
      rcases a.state with same | safe
      · exact same ▸ standby
      · rw [safe] at standby; cases standby
  kept := b.kept ∘ a.kept

/-- An update that sets no event kind. -/
theorem Traced.of_silent (ordered : t.SlotsOrdered) (settings : t.settings = s.settings)
    (state : t.device.state = s.device.state ∨ t.device.state = .safe) (wake : t.lines.wake = s.lines.wake)
    (back : ∀ w q, t.record? w = some q → ∃ r, s.record? w = some r ∧ q.events = r.events ∧ q.wakeSet = r.wakeSet) :
    Traced s t where
  toWakeTold := .of_silent wake fun w r q i hr hq on => by
    obtain ⟨r', hr', same, _⟩ := back w q hq
    rw [hr] at hr'
    cases hr'
    exact same ▸ on
  ordered := ordered
  settings := settings
  state := state
  back := fun w q hq => by
    obtain ⟨r, hr, same, set⟩ := back w q hq
    exact ⟨r, hr, set, fun i on => same.symm ▸ on⟩

/-! ### The setting of an event kind -/

/-- Two sets meet when they share a member. -/
theorem meets_iff {n : Nat} (a b : BitVec n) :
    meets a b = true ↔ ∃ i, a.getLsbD i = true ∧ b.getLsbD i = true := by
  constructor
  · intro h
    by_contra none
    have : a &&& b = 0 := BitVec.eq_of_getLsbD_eq fun i _ => by
      rw [BitVec.getLsbD_and, Bool.and_eq_false_iff.2]
      · simp
      · by_contra both
        simp only [not_or, Bool.not_eq_false] at both
        exact none ⟨i, both⟩
    simp [meets, this] at h
  · rintro ⟨i, ha, hb⟩
    rw [meets, bne_iff_ne]
    intro zero
    have := congrArg (BitVec.getLsbD · i) zero
    simp [ha, hb] at this

/-- WAKE after the setting of an event kind (R82). -/
theorem setWellEvent_wake (k : WellEvent) (w : Well) (s : State) : (setWellEvent k w s).lines.wake = true ↔
    s.lines.wake = true ∨ s.device.state = .standby ∧ s.settings.wakeEnable = true ∧
      ∃ r, s.record? w = some r ∧ meets k.bit r.wakeSet = true := by
  have found : (evalAlerts (writeRecord (addEvent k) w s)).record? w = (s.record? w).map (addEvent k) := by
    rw [record?_congr (evalAlerts_slots _), record?_writeRecord, if_pos rfl]
  unfold setWellEvent wakeTest
  rw [found]
  cases s.record? w with
  | none => simp
  | some r =>
    dsimp only [Option.map_some]
    split
    · rename_i wakes
      exact ⟨fun _ => .inr ⟨wakes.1, wakes.2.1, r, rfl, wakes.2.2⟩, fun _ => rfl⟩
    · rename_i quiet
      refine ⟨.inl, ?_⟩
      rintro (on | ⟨standby, enable, r', same, wakes⟩)
      · exact on
      · cases same
        exact absurd ⟨standby, enable, wakes⟩ quiet

theorem setWellEvent_settings (k : WellEvent) (w : Well) (s : State) : (setWellEvent k w s).settings = s.settings :=
  (setWellEvent_calm k w s).settings

theorem setWellEvent_traced (k : WellEvent) (w : Well) (ordered : s.SlotsOrdered) :
    Traced s (setWellEvent k w s) where
  ordered := by
    have slots : (setWellEvent k w s).slots = (writeRecord (addEvent k) w s).slots := wakeTest_slots k w _
    exact SlotsOrdered.map _ (fun p => by by_cases e : isWell w p <;> simp [e])
      (slots.trans (writeRecord_slots s (addEvent k) w)) ordered
  settings := setWellEvent_settings k w s
  state := .inl (by rw [setWellEvent_device])
  back := fun v q hq => by
    rw [record?_setWellEvent] at hq
    split at hq
    · rename_i same
      obtain ⟨r, hr, rfl⟩ := Option.map_eq_some_iff.1 hq
      exact ⟨r, same ▸ hr, rfl, fun i on => by simp [addEvent, on]⟩
    · exact ⟨q, hq, rfl, fun _ on => on⟩
  raises := fun standby _ enable ⟨v, r, q, i, hr, hq, off, on, wakes⟩ => by
    rw [record?_setWellEvent] at hq
    split at hq
    · rename_i same
      subst same
      rw [hr] at hq
      cases hq
      have new : k.bit.getLsbD i = true := by simpa [addEvent, off] using on
      exact (setWellEvent_wake k v s).2 (.inr ⟨standby, enable, r, hr, (meets_iff _ _).2 ⟨i, new, wakes⟩⟩)
    · rw [hr] at hq
      cases hq
      rw [off] at on
      cases on
  asserted := fun off on => by
    obtain on | ⟨standby, enable, r, hr, wakes⟩ := (setWellEvent_wake k w s).1 on
    · rw [off] at on
      cases on
    · obtain ⟨i, new, set⟩ := (meets_iff _ _).1 wakes
      refine ⟨standby, enable, w, r, i, hr, set, fun q hq => ?_⟩
      rw [record?_setWellEvent, if_pos rfl, hr] at hq
      cases hq
      simp [addEvent, new]
  kept := fun on => (setWellEvent_wake k w s).2 (.inl on)

/-! ### Every update -/

/-- In an ordered table, a record read after a removal was there before it. -/
theorem record?_of_removeRecord (ordered : s.SlotsOrdered) {w v : Well} {q : WellRecord}
    (h : (removeRecord w s).record? v = some q) : s.record? v = some q := by
  obtain ⟨x, hx, rfl⟩ := record?_eq_some.1 h
  obtain ⟨mem, tag⟩ := mem_of_well? hx
  have old : (v.slot, x) ∈ s.slots := List.mem_of_mem_filter mem
  exact record?_eq_some.2 ⟨x, SlotsOrdered.well? ordered old ((isWell_iff _ _).2 ⟨rfl, tag⟩), rfl⟩

theorem Touch.traced (h : Touch s t) (ordered : s.SlotsOrdered) : Traced s t := by
  cases h with
  | unit slots settings wake state =>
    refine .of_silent (SlotsOrdered.map id (fun _ => rfl) (by rw [slots, List.map_id]) ordered) settings state wake
      fun w q hq => ?_
    rw [record?_congr slots] at hq
    exact ⟨q, hq, rfl, rfl⟩
  | @write f w _ kept =>
    refine .of_silent (SlotsOrdered.map _ (fun p => by by_cases e : isWell w p <;> simp [e])
      (writeRecord_slots s f w) ordered) rfl (.inl rfl) rfl fun v q hq => ?_
    rw [record?_writeRecord] at hq
    split at hq
    · rename_i same
      subst same
      obtain ⟨r, hr, rfl⟩ := Option.map_eq_some_iff.1 hq
      exact ⟨r, hr, kept r hr⟩
    · exact ⟨q, hq, rfl, rfl⟩
  | slot kept w =>
    refine .of_silent (SlotsOrdered.map _ (fun p => by by_cases e : isWell w p <;> simp [e])
      (changeSlot_slots s _ w) ordered) rfl (.inl rfl) rfl fun v q hq => ?_
    rw [record?_changeSlot kept] at hq
    exact ⟨q, hq, rfl, rfl⟩
  | @every f kept =>
    refine .of_silent (SlotsOrdered.map (fun p => (p.1, f p.2)) (fun _ => rfl) (changeAllSlots_slots s f) ordered) rfl
      (.inl rfl) rfl fun v q hq => ?_
    obtain ⟨x, hx, rfl⟩ := record?_eq_some.1 hq
    rw [well?_changeAllSlots fun x => (kept x).1] at hx
    obtain ⟨y, hy, rfl⟩ := Option.map_eq_some_iff.1 hx
    exact ⟨y.record, record?_eq_some.2 ⟨y, hy, rfl⟩, (kept y).2⟩
  | event k w => exact setWellEvent_traced k w ordered
  | remove w =>
    exact .of_silent (SlotsOrdered.filter _ (removeRecord_slots s w) ordered) rfl (.inl rfl) rfl
      fun v q hq => ⟨q, record?_of_removeRecord ordered hq, rfl, rfl⟩

/-- What a chain of updates leaves of WAKE. -/
theorem Touches.traced (h : Touches s t) (ordered : s.SlotsOrdered) : Traced s t := by
  induction h with
  | refl => exact .of_silent ordered rfl (.inl rfl) rfl fun _ q hq => ⟨q, hq, rfl, rfl⟩
  | tail _ last ih => exact ih.trans (last.traced ih.ordered)

end Sys2Proof.Machine
end

