-- ==== Sys2Proof/Proofs/AlertLines.lean ====
section
/-! PROOF of LinesFollowConditions. `Alarmed s t` says what a command that does not release WAKE leaves of the three lines:
every tame operation made of the updates of `Touch` has it, and the writes a request makes are treated one by one. -/

namespace Sys2Proof.Machine

variable {s t u : State}

/-- The alert lines keep following their conditions, WAKE stays released in RUN, and WAKE is told of (R80, R82, R83). -/
structure Alarmed (s t : State) : Prop extends WakeTold s t where
  alerts : s.AlertsFollow → t.AlertsFollow
  released : s.WakeReleased → t.WakeReleased

/-- What the three lines and their conditions read of a state. -/
def State.alarmView (s : State) : List (Nat × Slot) × Settings × DeviceUnit × AlertLines :=
  (s.slots, s.settings, s.device, s.lines)

theorem Alarmed.congr {s' t' : State} (h : Alarmed s t) (before : s'.alarmView = s.alarmView)
    (after : t'.alarmView = t.alarmView) : Alarmed s' t' := by
  simp only [State.alarmView, Prod.mk.injEq] at before after
  obtain ⟨slots, settings, device, lines⟩ := before
  obtain ⟨slots', settings', device', lines'⟩ := after
  refine ⟨h.toWakeTold.congr slots.symm (by rw [device]) (by rw [settings]) (by rw [lines]) slots' (by rw [device'])
    (by rw [lines']), ?_, ?_⟩
  · simpa only [State.AlertsFollow, State.alertAStands, State.alertBStands, slots, settings, device, lines, slots',
      settings', device', lines'] using h.alerts
  · simpa only [State.WakeReleased, device, lines, device', lines'] using h.released

theorem Alarmed.refl (s : State) : Alarmed s s := ⟨.of_slots rfl rfl, id, id⟩

/-- An update that leaves the table, the settings, the device unit and the lines. -/
theorem Alarmed.of_view (view : t.alarmView = s.alarmView) : Alarmed s t := (Alarmed.refl s).congr rfl view

theorem Alarmed.of_tame (ordered : s.SlotsOrdered) (tame : Tame s t) (touches : Touches s t) : Alarmed s t :=
  ⟨(touches.traced ordered).toWakeTold, tame.alerts, tame.wake⟩

theorem Alarmed.of_calm (ordered : s.SlotsOrdered) (calm : Calm s t) (touches : Touches s t) : Alarmed s t :=
  .of_tame ordered calm.tame touches

/-! ### Requests on a well -/

theorem onWell_alarmed {changing : Bool} {tag arg : Half} {act : Well → WellRecord → State → State × Reply}
    (ordered : s.SlotsOrdered) (h : ∀ w r, s.record? w = some r → Alarmed s (act w r s).1) :
    Alarmed s (onWell changing tag arg act s).1 := by
  rcases onWell_cases changing tag arg act s with e | ⟨w, e⟩ | ⟨x, e⟩ | ⟨w, x, reaches, e⟩ <;> rw [e]
  · exact .refl s
  · exact .of_tame ordered (freeDamaged_tame w s) (freeDamaged_touches w s)
  · exact .refl s
  · exact h w x.record (Reaches.record? reaches)

theorem freeWell_alarmed (ordered : s.SlotsOrdered) (w : Well) : Alarmed s (freeWell w s) :=
  .of_tame ordered (freeWell_tame w s) (freeWell_touches w s)

theorem changeMode_alarmed {w : Well} {r : WellRecord} {m : Mode} (ordered : s.SlotsOrdered) (always : Bool)
    (hr : s.record? w = some r) (entry : m.isActive = true) (active : r.mode.isActive = true) :
    Alarmed s (changeMode m always w s) :=
  .of_tame ordered (changeMode_tame entry fun q hq => by rw [hr] at hq; cases hq; exact active)
    (changeMode_touches m always w s)

theorem writeReturnMode_alarmed {w : Well} {r : WellRecord} (ordered : s.SlotsOrdered) (m : ActiveMode)
    (hr : s.record? w = some r) (parked : r.mode.isParked = true) :
    Alarmed s (writeRecord (fun q => { q with returnMode := some m }) w s) := by
  refine .of_calm ordered (writeRecord_calm (fun _ => rfl) (fun _ => ⟨rfl, rfl, rfl⟩) fun q hq => ?_)
    (touches_write fun _ => ⟨rfl, rfl⟩)
  rw [hr] at hq
  cases hq
  exact returnMode_legal m parked

theorem retireParked_alarmed {w : Well} {r : WellRecord} (ordered : s.SlotsOrdered) (hr : s.record? w = some r)
    (parked : r.mode.isParked = true) : Alarmed s (retireParked w r s) := by
  unfold retireParked
  split
  · exact .refl s
  · exact writeReturnMode_alarmed ordered .retiring hr parked

theorem retireByMode_alarmed {w : Well} {r : WellRecord} (ordered : s.SlotsOrdered) (tag : Half)
    (hr : s.record? w = some r) : Alarmed s (retireByMode tag w r s).1 := by
  unfold retireByMode
  split
  · exact .refl s
  · exact retireParked_alarmed ordered hr (by simp [*, Mode.isParked, Mode.isActive])
  · exact retireParked_alarmed ordered hr (by simp [*, Mode.isParked, Mode.isActive])
  all_goals
    split
    · exact freeWell_alarmed ordered w
    · exact changeMode_alarmed ordered true hr rfl (by simp [*, Mode.isActive])

theorem retireWell_alarmed {w : Well} {q : WellRecord} (ordered : s.SlotsOrdered) (r : Request)
    (hq : s.record? w = some q) : Alarmed s (retireWell r w q s).1 := by
  unfold retireWell
  split
  · exact freeWell_alarmed ordered w
  · split
    · exact .refl s
    · exact retireByMode_alarmed ordered r.tag hq
    · exact retireByMode_alarmed ordered r.tag hq

theorem setClaim_alarmed (ordered : s.SlotsOrdered) (c : Option Half) (w : Well) : Alarmed s (setClaim c w s) :=
  .of_calm ordered
    (writeRecord_plain (f := fun r => { r with claim := c }) (fun _ => rfl) (fun _ => ⟨rfl, rfl, rfl⟩) fun _ h => h)
    (touches_write fun _ => ⟨rfl, rfl⟩)

theorem claimWell_alarmed (ordered : s.SlotsOrdered) (r : Request) (w : Well) (q : WellRecord) :
    Alarmed s (claimWell r w q s).1 := by
  unfold claimWell
  split
  · exact setClaim_alarmed ordered _ w
  · split <;> exact .refl s

theorem releaseWell_alarmed (ordered : s.SlotsOrdered) (r : Request) (w : Well) (q : WellRecord) :
    Alarmed s (releaseWell r w q s).1 := by
  unfold releaseWell
  split
  · exact .refl s
  · split
    · exact setClaim_alarmed ordered none w
    · exact .refl s

theorem modeWell_alarmed {w : Well} {q : WellRecord} (ordered : s.SlotsOrdered) (r : Request)
    (hq : s.record? w = some q) : Alarmed s (modeWell r w q s).1 := by
  unfold modeWell
  split
  · exact .refl s
  · split
    · exact .refl s
    · split
      · exact .refl s
      · unfold takeMode setReturnMode
        split
        · rename_i parked
          dsimp only
          split
          · exact .refl s
          · exact writeReturnMode_alarmed ordered _ hq parked
        · rename_i active
          exact changeMode_alarmed ordered false hq (active_toMode _) (by simpa [Mode.isParked] using active)

theorem sampleWell_alarmed (ordered : s.SlotsOrdered) (r : Request) (w : Well) (q : WellRecord) :
    Alarmed s (sampleWell r w q s).1 := by
  have placed (c : SampleClass) : Alarmed s (headTest (placeInQueue c w s)) :=
    .of_calm ordered ((placeInQueue_calm _ w s).trans (headTest_calm _))
      ((placeInQueue_touches _ w s).trans (headTest_touches _))
  unfold sampleWell
  split
  · exact .refl s
  · exact .refl s
  · unfold sampleInRun
    split
    · exact .refl s
    · split
      · exact .refl s
      · split
        · exact .refl s
        · split
          · exact .refl s
          · split
            · exact .refl s
            · exact placed _

theorem purgeWell_alarmed (ordered : s.SlotsOrdered) (r : Request) (w : Well) (q : WellRecord) :
    Alarmed s (purgeWell r w q s).1 := by
  unfold purgeWell
  split
  · exact .refl s
  · exact .refl s
  · split
    · exact .refl s
    · exact .of_calm ordered (startPulse_calm w s) (startPulse_touches w s)

/-! ### Writes of fields -/

/-- A write of one field of a record keeps the found record's EVENTS, and its WAKE_SET or its target. -/
structure FieldWrite (r q : WellRecord) (f : WellField) : Prop where
  tag : q.tag = r.tag
  legal : r.Legal → q.Legal
  events : q.events = r.events
  wake : q.wakeSet = r.wakeSet ∨ q.valveTarget = r.valveTarget
  enables : f.isAlertEnable = false → q.enableA = r.enableA ∧ q.enableB = r.enableB
  target : f.isAlertEnable = true → q.valveTarget = r.valveTarget

theorem amendedRecord_fieldWrite {d : DeviceState} {ws : List Half} {v : Half} {r q : WellRecord} {f : WellField}
    (h : amendedRecord d ws v r f = .ok q) : FieldWrite r q f := by
  refine ⟨amendedRecord_sameTag h, amendedRecord_legal h, ?_, ?_, ?_, ?_⟩
  all_goals
    cases f <;>
      simp only [amendedRecord, amendedValveMin, amendedValveMax, amendedTarget, amendedInterval, amendedDraw,
        amendedLocation, inRange, inSet, named, Except.bind, Except.map, WellRecord.reclamped] at h <;>
      (repeat' split at h) <;> cases h <;> simp [WellField.isAlertEnable]

theorem memberRecord_fieldWrite {add : Bool} {v : Half} {r q : WellRecord} {f : WellField}
    (h : memberRecord add v r f = .ok q) : FieldWrite r q f := by
  refine ⟨memberRecord_sameTag h, fun legal => (memberRecord_legal h legal).1, ?_, ?_, ?_, ?_⟩
  all_goals
    cases f <;> simp only [memberRecord, inSet, Except.map] at h <;> (repeat' split at h) <;> cases h <;>
      simp [WellField.isAlertEnable]

/-- The written record alone, read through its write. -/
theorem writeRecord_const_silent {w : Well} {r q : WellRecord} (hr : s.record? w = some r) (events : q.events = r.events) :
    WakeTold s (writeRecord (fun _ => q) w s) := by
  refine .of_silent rfl fun v r' q' i hr' hq' on => ?_
  rw [record?_writeRecord] at hq'
  split at hq'
  · rename_i same
    subst same
    rw [hr] at hq' hr'
    cases hq'
    cases hr'
    exact events ▸ on
  · rw [hr'] at hq'
    cases hq'
    exact on

theorem writeAndHand_alarmed {w : Well} {r q : WellRecord} {f : WellField} (legal : s.RecordsLegal)
    (hr : s.record? w = some r) (field : FieldWrite r q f) (plain : f.isAlertEnable = false) :
    Alarmed s (writeAndHand (fun _ => q) w s) := by
  obtain ⟨sameA, sameB⟩ := field.enables plain
  have calm : Calm s (writeRecord (fun _ => q) w s) := by
    rw [KeepsTable.writeRecord_found legal.1]
    refine writeRecord_calm (fun p => ?_) (fun p => ?_) fun p hp => ?_
    · split
      · rename_i found
        rw [hr] at found
        cases found
        exact field.tag
      · rfl
    · split
      · rename_i found
        rw [hr] at found
        cases found
        exact ⟨field.events, sameA, sameB⟩
      · exact ⟨rfl, rfl, rfl⟩
    · rw [hr] at hp
      cases hp
      rw [if_pos hr]
      exact field.legal
  by_cases target : q.valveTarget = r.valveTarget
  · have written : writeAndHand (fun _ => q) w s = writeRecord (fun _ => q) w s := by
      rw [writeAndHand, hr]
      exact if_pos target
    rw [written]
    exact ⟨writeRecord_const_silent hr field.events, calm.alerts, calm.wake⟩
  · refine .of_tame legal.1 (writeAndHand_tame fun _ _ => calm.tame) (writeAndHand_touches fun p hp => ?_)
    rw [hr] at hp
    cases hp
    exact ⟨field.events, field.wake.resolve_right target⟩

/-- A write of an alert enable leaves WAKE, and the lines are evaluated after it (R12, R80). -/
theorem writeEnable_alarmed {w : Well} {r q : WellRecord} {f : WellField} (hr : s.record? w = some r)
    (field : FieldWrite r q f) (enable : f.isAlertEnable = true) :
    Alarmed s (evalAlerts (writeAndHand (fun _ => q) w s)) := by
  have written : writeAndHand (fun _ => q) w s = writeRecord (fun _ => q) w s := by
    rw [writeAndHand, hr]
    exact if_pos (field.target enable)
  rw [written]
  exact ⟨(writeRecord_const_silent hr field.events).congr rfl rfl rfl rfl rfl rfl rfl,
    fun _ => evalAlerts_alerts _, id⟩

theorem writeWellField_alarmed {new : Except Status WellRecord} {w : Well} {r : WellRecord} {f : WellField}
    (legal : s.RecordsLegal) (tag : Half) (hr : s.record? w = some r)
    (field : ∀ q, new = .ok q → FieldWrite r q f) : Alarmed s (writeWellField new f tag w s).1 := by
  unfold writeWellField
  split
  · exact .refl s
  · rename_i q
    unfold afterFieldWrite
    split
    · exact writeEnable_alarmed hr (field q rfl) ‹_›
    · rename_i plain
      exact writeAndHand_alarmed legal hr (field q rfl) (by simpa using plain)

theorem amendWell_alarmed {w : Well} {r : WellRecord} (legal : s.RecordsLegal) (field : Byte) (words : List Half)
    (value tag : Half) (hr : s.record? w = some r) : Alarmed s (amendWell field words value tag w r s).1 := by
  unfold amendWell
  split
  · exact writeWellField_alarmed legal tag hr fun _ => amendedRecord_fieldWrite
  · exact .refl s
  · exact .refl s

theorem memberWell_alarmed {w : Well} {q : WellRecord} (legal : s.RecordsLegal) (add : Bool) (r : Request)
    (hq : s.record? w = some q) : Alarmed s (memberWell add r w q s).1 := by
  unfold memberWell
  split
  · exact writeWellField_alarmed legal r.tag hq fun _ => memberRecord_fieldWrite
  · exact .refl s
  · exact .refl s

theorem ackWell_alarmed (mask : BitVec 8) (w : Well) (s : State) : Alarmed s (ackWell mask w s) := by
  have calm := ackWell_calm mask w s
  refine ⟨.of_silent rfl fun v r q i hr hq on => ?_, calm.alerts, calm.wake⟩
  rw [ackWell, record?_congr (evalAlerts_slots _), record?_writeRecord] at hq
  split at hq
  · rename_i same
    subst same
    rw [hr] at hq
    cases hq
    simp only [BitVec.getLsbD_and, Bool.and_eq_true] at on
    exact on.1
  · rw [hr] at hq
    cases hq
    exact on

/-! ### Writes of settings -/

/-- A write of one setting keeps WAKE_ENABLE or is its own, and keeps the device enables or is one of theirs. -/
structure SettingWrite (old new : Settings) (f : DeviceField) : Prop where
  wake : new.wakeEnable = old.wakeEnable ∨ f = .wakeEnable
  enables : new.devEnableA = old.devEnableA ∧ new.devEnableB = old.devEnableB ∨ f = .devEnableA ∨ f = .devEnableB

theorem amendedSettings_settingWrite {arg v : Half} {old new : Settings} {f : DeviceField}
    (h : amendedSettings arg v old f = .ok new) : SettingWrite old new f := by
  refine ⟨?_, ?_⟩
  all_goals
    cases f <;> simp only [amendedSettings, inRange, inSet, named, Except.map] at h <;> (repeat' split at h) <;>
      cases h <;> simp

theorem memberSettings_settingWrite {add : Bool} {v : Half} {old new : Settings} {f : DeviceField}
    (h : memberSettings add v old f = .ok new) : SettingWrite old new f := by
  refine ⟨?_, ?_⟩
  all_goals
    cases f <;> simp only [memberSettings, inSet, Except.map] at h <;> (repeat' split at h) <;> cases h <;> simp

/-- The blocks' part of a new setting, which for WAKE_ENABLE is none. -/
theorem settingTaken_cases (f : DeviceField) (s : State) :
    (f = .devEnableA ∨ f = .devEnableB) ∧ settingTaken f s = evalAlerts s ∨
    f = .moveSlots ∧ settingTaken f s = grantTest s ∨
    f ≠ .devEnableA ∧ f ≠ .devEnableB ∧ settingTaken f s = s := by
  cases f <;> simp [settingTaken]

theorem settingTaken_alarmed {new : Settings} {f : DeviceField} (ordered : s.SlotsOrdered)
    (field : SettingWrite s.settings new f) : Alarmed s (settingTaken f { s with settings := new }) := by
  have set : Alarmed s (evalAlerts { s with settings := new }) :=
    ⟨.of_slots rfl rfl, fun _ => evalAlerts_alerts _, id⟩
  have kept (same : ¬ (f = .devEnableA ∨ f = .devEnableB)) (follow : s.AlertsFollow) :
      State.AlertsFollow { s with settings := new } := by
    obtain ⟨a, b⟩ := field.enables.resolve_right same
    simpa only [State.AlertsFollow, State.alertAStands, State.alertBStands, a, b] using follow
  rcases settingTaken_cases f { s with settings := new } with ⟨_, e⟩ | ⟨slots, e⟩ | ⟨notA, notB, e⟩ <;> rw [e]
  · exact set
  · have granted : Alarmed { s with settings := new } (grantTest { s with settings := new }) :=
      .of_calm ordered (grantTest_calm _) (grantTest_touches _)
    have enable : new.wakeEnable = s.settings.wakeEnable := field.wake.resolve_right (by rw [slots]; simp)
    exact ⟨granted.toWakeTold.congr rfl rfl enable rfl rfl rfl rfl,
      fun follow => granted.alerts (kept (by rw [slots]; simp) follow), granted.released⟩
  · exact ⟨.of_slots rfl rfl, kept (by simp [notA, notB]), id⟩

theorem writeSetting_alarmed {new : Except Status Settings} {f : DeviceField} (ordered : s.SlotsOrdered) (arg tag : Half)
    (field : ∀ t, new = .ok t → SettingWrite s.settings t f) : Alarmed s (writeSetting new f arg tag s).1 := by
  unfold writeSetting
  split
  · exact .refl s
  · exact settingTaken_alarmed ordered (field _ rfl)

/-! ### Requests -/

theorem amend_alarmed (legal : s.RecordsLegal) (r : Request) (words : List Half) : Alarmed s (amend r words s).1 := by
  unfold amend
  split
  · unfold amendDevice
    split
    · exact writeSetting_alarmed legal.1 _ _ fun _ => amendedSettings_settingWrite
    · exact .refl s
    · exact .refl s
  · exact onWell_alarmed legal.1 fun w q => amendWell_alarmed legal _ _ _ _

theorem changeMembers_alarmed (legal : s.RecordsLegal) (add : Bool) (r : Request) :
    Alarmed s (changeMembers add r s).1 := by
  unfold changeMembers
  split
  · unfold memberDevice
    split
    · exact writeSetting_alarmed legal.1 _ _ fun _ => memberSettings_settingWrite
    · exact .refl s
    · exact .refl s
  · exact onWell_alarmed legal.1 fun w q => memberWell_alarmed legal add r

theorem acknowledge_alarmed (legal : s.RecordsLegal) (r : Request) : Alarmed s (acknowledge r s).1 := by
  unfold acknowledge
  split
  · have calm := ackDevice_calm r.mask s
    exact ⟨.of_slots rfl rfl, calm.alerts, calm.wake⟩
  · exact onWell_alarmed legal.1 fun w q _ => ackWell_alarmed r.mask w s

theorem lookup_alarmed (legal : s.RecordsLegal) (r : Request) : Alarmed s (lookup r s).1 := by
  unfold lookup
  split
  · exact .refl s
  · exact onWell_alarmed legal.1 fun _ _ _ => .refl s

theorem actAt_alarmed (legal : s.RecordsLegal) (kind : GroupKind) (field : Byte) (tag value arg : Half) :
    Alarmed s (actAt kind field tag value arg s).1 := by
  unfold actAt
  split
  · exact onWell_alarmed legal.1 fun _ _ _ => .refl s
  · exact onWell_alarmed legal.1 fun w q => amendWell_alarmed legal _ _ _ _

theorem openGroup_alarmed (legal : s.RecordsLegal) (kind : GroupKind) (r : Request) :
    Alarmed s (openGroup kind r s).1 :=
  (actAt_alarmed (s := setGroup (some (openedGroup kind r)) s) legal _ _ _ _ _).congr rfl rfl

theorem groupAmend_alarmed (legal : s.RecordsLegal) (r : Request) : Alarmed s (groupAmend r s).1 := by
  unfold groupAmend
  split
  · exact .refl s
  · exact openGroup_alarmed legal .amend r

theorem continueWith_alarmed (legal : s.RecordsLegal) (words : List Half) (r : Request) :
    Alarmed s (continueWith words r s).1 := by
  unfold continueWith
  split
  · exact .refl s
  · rename_i g _
    dsimp only
    split
    · exact (actAt_alarmed (s := setGroup g.stepped s) legal _ _ _ _ _).congr rfl rfl
    · exact .of_view rfl

theorem any_insertAscending {α : Type} (b : Nat × α → Bool) (k : Nat) (v : α) (l : List (Nat × α)) :
    (insertAscending k v l).any b = (b (k, v) || l.any b) := by
  rw [Bool.eq_iff_iff]
  simp only [List.any_eq_true, mem_insertAscending, Bool.or_eq_true]
  constructor
  · rintro ⟨p, rfl | old, on⟩
    · exact .inl on
    · exact .inr ⟨p, old, on⟩
  · rintro (on | ⟨p, old, on⟩)
    · exact ⟨_, .inl rfl, on⟩
    · exact ⟨p, .inr old, on⟩

/-- A new record brings no event kind and no enable, and leaves every other read (R6). -/
theorem placeRecord_alarmed {n tag address channel : Nat} {start : ActiveMode} (legal : s.RecordsLegal)
    (free : s.freeSlot? = some n) (new : s.indexed? tag = none) :
    Alarmed s (placeRecord n tag address channel start s) := by
  have slots : (placeRecord n tag address channel start s).slots =
      insertAscending n (freshSlot (freshRecord tag address channel start)) s.slots := by
    unfold placeRecord enrolStation
    split <;> rfl
  have device : (placeRecord n tag address channel start s).device = s.device := by
    unfold placeRecord enrolStation
    split <;> rfl
  have lines : (placeRecord n tag address channel start s).lines = s.lines := by
    unfold placeRecord enrolStation
    split <;> rfl
  have settings : (placeRecord n tag address channel start s).settings = s.settings := by
    unfold placeRecord enrolStation
    split <;> rfl
  have ordered := ((placeRecord_keepsTable (address := address) (channel := channel) (start := start) free new).legal
    legal).1
  refine ⟨.of_silent (by rw [lines]) fun w r q i hr hq on => ?_, fun follow => ?_, ?_⟩
  · obtain ⟨x, hx, rfl⟩ := record?_eq_some.1 hr
    obtain ⟨mem, named⟩ := mem_of_well? hx
    have mem' : (w.slot, x) ∈ (placeRecord n tag address channel start s).slots := by
      rw [slots, mem_insertAscending]
      exact .inr mem
    rw [record?_eq_some.2 ⟨x, SlotsOrdered.well? ordered mem' ((isWell_iff _ _).2 ⟨rfl, named⟩), rfl⟩] at hq
    cases hq
    exact on
  · simpa [State.AlertsFollow, State.alertAStands, State.alertBStands, slots, device, lines, settings,
      any_insertAscending, freshSlot, freshRecord, meets] using follow
  · simp only [State.WakeReleased, device, lines, imp_self]

theorem enrol_alarmed (legal : s.RecordsLegal) (r : Request) : Alarmed s (enrol r s).1 := by
  unfold enrol
  dsimp only
  split
  · exact .refl s
  · exact .refl s
  · split
    · exact .refl s
    · split
      · exact .refl s
      · split
        · exact .refl s
        · split
          · exact .refl s
          · rename_i known
            split
            · exact .refl s
            · split
              · exact .refl s
              · rename_i free
                exact placeRecord_alarmed legal free (by simpa using known)

/-- The entry to STANDBY moves the blend unit alone, which writes no record (R162). -/
theorem enterStandby_alarmed (run : s.device.state = .run) : Alarmed s (enterStandby s) := by
  have tame := handChange_tame0 standbyEntry (setDeviceState .standby s)
  have withdraws : enterStandby s = takeIf (!(setDeviceState .standby s).lateBlocks.blend) withdrawPermit
      (setOwed (s.device.owed.map₂ or (standbyEntry.map₂ and (setDeviceState .standby s).lateBlocks))
        (setDeviceState .standby s)) := rfl
  have wake : (enterStandby s).lines.wake = s.lines.wake := by
    rw [withdraws]
    unfold takeIf withdrawPermit
    split
    · split <;> rfl
    · rfl
  have state : (enterStandby s).device.state = .standby := (handChange_queue standbyEntry _).2.2.2.1
  refine ⟨⟨fun standby => ?_, fun off on => ?_, fun on => wake.trans on⟩, fun follow => ?_, fun _ run' => ?_⟩
  · rw [run] at standby
    cases standby
  · rw [wake, off] at on
    cases on
  · exact handChange_alerts (s := setDeviceState .standby s) follow
  · rw [state] at run'
    cases run'

theorem standby_alarmed (r : Request) (s : State) : Alarmed s (standby r s).1 := by
  unfold standby
  split
  · exact .refl s
  · exact .refl s
  · rename_i run
    split
    · exact .refl s
    · split
      · exact .refl s
      · exact enterStandby_alarmed run

end Sys2Proof.Machine
end

