-- ==== Sys2Proof/Proofs/Lines.lean ====
section
/-! PROOF of LinesFollowConditions, command by command: `Follows c s t` is its claim of one command, which a reset and an
accepted RESUME meet by releasing WAKE, and every other command because it is `Alarmed`. -/

namespace Sys2Proof.Machine

variable {c : Instr} {s t u : State}

/-- The claim of LinesFollowConditions about one command. -/
structure Follows (c : Instr) (s t : State) : Prop where
  lines : s.LinesFollow → t.LinesFollow
  raises : s.device.state = .standby → t.device.state = .standby → s.settings.wakeEnable = true →
    (∃ w r q i, s.record? w = some r ∧ t.record? w = some q ∧ r.events.getLsbD i = false ∧
      q.events.getLsbD i = true ∧ r.wakeSet.getLsbD i = true) → t.lines.wake = true
  asserted : s.lines.wake = false → t.lines.wake = true → s.device.state = .standby ∧ s.settings.wakeEnable = true ∧
    ∃ w r i, s.record? w = some r ∧ r.wakeSet.getLsbD i = true ∧ ∀ q, t.record? w = some q → q.events.getLsbD i = true
  releases : s.lines.wake = true → t.lines.wake = false → s.ReleasesWake c

theorem Follows.of_alarmed (h : Alarmed s t) : Follows c s t where
  lines := fun ⟨alertA, alertB, wake⟩ =>
    have ⟨alertA', alertB'⟩ := h.alerts ⟨alertA, alertB⟩
    ⟨alertA', alertB', h.released wake⟩
  raises := h.raises
  asserted := h.asserted
  releases := fun on off => by rw [h.kept on] at off; cases off

/-! ### The release of WAKE -/

/-- WAKE is released, and the part is not in STANDBY. -/
structure WakeOff (t : State) : Prop where
  off : t.lines.wake = false
  away : t.device.state ≠ .standby

theorem Follows.of_released (released : s.ReleasesWake c) (wake : WakeOff t)
    (alerts : s.AlertsFollow → t.AlertsFollow) : Follows c s t where
  lines := fun ⟨alertA, alertB, _⟩ =>
    have ⟨alertA', alertB'⟩ := alerts ⟨alertA, alertB⟩
    ⟨alertA', alertB', fun _ => wake.off⟩
  raises := fun _ standby => absurd standby wake.away
  asserted := fun _ on => by rw [wake.off] at on; cases on
  releases := fun _ _ => released

/-- A chain of operations from RUN with WAKE released leaves it so, because no wake test is made outside STANDBY (R82). -/
theorem wakeOff_of_touches (h : Touches s t) (ordered : s.SlotsOrdered) (run : s.device.state = .run)
    (off : s.lines.wake = false) : WakeOff t := by
  have traced := h.traced ordered
  refine ⟨?_, ?_⟩
  · cases on : t.lines.wake with
    | false => rfl
    | true =>
      have standby := (traced.asserted off on).1
      rw [run] at standby
      cases standby
  · rcases traced.state with same | safe
    · rw [same, run]
      decide
    · rw [safe]
      decide

theorem deviceReset_wakeOff (legal : s.RecordsLegal) (straps : Straps) : WakeOff (deviceReset straps s) :=
  wakeOff_of_touches (beginRound_touches _) ((resetBlocks_keepsTable (resetPort straps s)).legal legal).1 rfl rfl

theorem deviceReset_alerts (straps : Straps) (s : State) : (deviceReset straps s).AlertsFollow := by
  refine (beginRound_tame _).alerts ⟨?_, ?_⟩
  all_goals
    simp [resetBlocks, State.alertAStands, State.alertBStands, meets, Slot.afterReset, Slot.write, WellRecord.afterReset]

/-- The part at power-on shows no event and no line but FLARE DEMAND (R167). -/
theorem powerOn_follows (straps : Straps) (suction : Level) (s : State) : Follows (.powerOn straps suction) s
    (beginRound { State.poweredUp straps suction with pending := s.pending }) := by
  refine .of_released ⟨⟨0, 0, 0, 0, 0, 0⟩, straps, suction, .inl rfl⟩
    (wakeOff_of_touches (beginRound_touches _) ⟨.nil, fun p hp => by cases hp⟩ rfl rfl) fun _ => (beginRound_tame _).alerts ?_
  constructor <;> simp [State.poweredUp, State.reset, State.alertAStands, State.alertBStands, meets]

/-! ### RESUME -/

/-- The state from which the operations of RUN follow: what is owed has been taken, WAKE is released, and the part is in
RUN (R83, R158, R164). -/
def runEntered (s : State) : State :=
  setDeviceState .run { takeOwed s with lines := { (takeOwed s).lines with wake := false } }

theorem enterRun_eq (s : State) : enterRun s =
    headTest (forEach (grantTest (runEntered s)).wells evalNeed (grantTest (runEntered s))) := rfl

theorem enterRun_touches (s : State) : Touches (runEntered s) (enterRun s) := by
  rw [enterRun_eq]
  exact ((grantTest_touches _).trans (forEach_touches evalNeed_touches _ _)).trans (headTest_touches _)

theorem enterRun_tame (s : State) : Tame (runEntered s) (enterRun s) := by
  rw [enterRun_eq]
  exact ((grantTest_calm _).tame.trans (forEach_tame evalNeed_tame _)).trans (headTest_calm _).tame

theorem runEntered_ordered (legal : s.RecordsLegal) : (runEntered s).SlotsOrdered := ((takeOwed_tame s).legal legal).1

theorem runEntered_alerts (follow : s.AlertsFollow) : (runEntered s).AlertsFollow := (takeOwed_tame s).alerts follow

/-- An accepted RESUME releases WAKE (R83). -/
theorem resume_accepted (legal : s.RecordsLegal)
    (accepted : s.device.state = .standby ∨ s.device.state = .safe ∧ s.faults.first = none) (r : Request) :
    WakeOff (resume r s).1 ∧ (s.AlertsFollow → (resume r s).1.AlertsFollow) := by
  unfold resume
  rcases accepted with standby | ⟨safe, none⟩
  · rw [standby]
    exact ⟨wakeOff_of_touches ((enterRun_touches s).trans (beginRoundIfIdle_touches _)) (runEntered_ordered legal) rfl rfl,
      fun follow => (beginRoundIfIdle_tame _).alerts ((enterRun_tame s).alerts (runEntered_alerts follow))⟩
  · rw [safe, none]
    exact ⟨wakeOff_of_touches (enterRun_touches s) (runEntered_ordered legal) rfl rfl,
      fun follow => (enterRun_tame s).alerts (runEntered_alerts follow)⟩

/-- A RESUME that is not accepted changes nothing (R158, R164). -/
theorem resume_refused (refused : ¬ (s.device.state = .standby ∨ s.device.state = .safe ∧ s.faults.first = none))
    (r : Request) : (resume r s).1 = s := by
  unfold resume
  split
  · rfl
  · rename_i safe
    split
    · rfl
    · rename_i none
      exact absurd (.inr ⟨safe, by simpa using none⟩) refused
  · rename_i standby
    exact absurd (.inl standby) refused

/-! ### Every command -/

/-- This outcome of the command is a next state, and meets the claim. -/
def NextFollows (c : Instr) (s : State) (o : Host.Outcome State Fault Refusal) : Prop := ∃ t, o = .next t ∧ Follows c s t

theorem nextFollows_of_tame (ordered : s.SlotsOrdered) (tame : Tame s t) (touches : Touches s t) :
    NextFollows c s (.next t) := ⟨t, rfl, .of_alarmed (.of_tame ordered tame touches)⟩

/-- A request's act, on the port advanced, is alarmed; so is the request. -/
theorem takeRequest_follows {r : Request} {act : State → State × Reply} (h : Alarmed (advance s) (act (advance s)).1) :
    NextFollows c s (takeRequest r act s) := ⟨_, rfl, .of_alarmed (h.congr rfl rfl)⟩

theorem plainRequest_follows {r : Request} {act : State → State × Reply}
    (h : Alarmed (closePort (advance s)) (act (closePort (advance s))).1) : NextFollows c s (plainRequest r act s) :=
  takeRequest_follows (by
    split
    · exact h.congr rfl rfl
    · exact .of_view rfl)

/-- A request on a well is alarmed when its act is, on every record in the table. -/
theorem onWellRequest_follows {changing : Bool} {r : Request} {act : Well → WellRecord → State → State × Reply}
    (ordered : s.SlotsOrdered)
    (h : ∀ u : State, u.SlotsOrdered → ∀ w q, u.record? w = some q → Alarmed u (act w q u).1) :
    NextFollows c s (plainRequest r (onWell changing r.tag r.arg act) s) :=
  plainRequest_follows (onWell_alarmed ordered (h (closePort (advance s)) ordered))

/-- A plain request with words held is refused, and with none it acts and releases WAKE. -/
theorem plainRequest_releases {r : Request} {act : State → State × Reply}
    (released : s.port.words = [] → s.ReleasesWake c) (wake : WakeOff (act (closePort (advance s))).1)
    (alerts : s.AlertsFollow → (act (closePort (advance s))).1.AlertsFollow) : NextFollows c s (plainRequest r act s) := by
  by_cases words : s.port.words = []
  · exact ⟨_, plainRequest_taken words, .of_released (released words) ⟨wake.off, wake.away⟩ alerts⟩
  · exact ⟨_, plainRequest_words r act s words, .of_alarmed (.of_view rfl)⟩

theorem resume_follows (legal : s.RecordsLegal) (r : Request) : NextFollows (.resume r) s (exec (.resume r) s) := by
  rw [exec_resume]
  by_cases accepted : s.device.state = .standby ∨ s.device.state = .safe ∧ s.faults.first = none
  · obtain ⟨wake, alerts⟩ := resume_accepted (s := closePort (advance s)) legal accepted r
    exact plainRequest_releases
      (fun words => ⟨r, ⟨0, .linear⟩, .low, .inr (.inr ⟨words, .inr ⟨rfl, accepted⟩⟩)⟩) wake alerts
  · refine plainRequest_follows ?_
    rw [resume_refused (s := closePort (advance s)) accepted r]
    exact .refl _

/-- The second tick: what is owed is taken, then the blocks count, and last a round may begin (R1, R53, R160). -/
theorem secondTick_alarmed (ordered : s.SlotsOrdered) (late : Handover) :
    Alarmed s (tickRounds (counted late (takeOwed s))) := by
  have before := takeOwed_tame s
  have after : Tame (countSecond (setLate late (takeOwed s))) (tickRounds (counted late (takeOwed s))) :=
    ((((tickSequencer_calm _).trans (tickMoves_calm _)).tame.trans (tickHold_tame _)).trans
      (tickPulses_calm _).tame).trans (tickRounds_tame _)
  refine ⟨((secondTick_touches late s).traced ordered).toWakeTold, fun follow => after.alerts ?_,
    fun released => after.wake ?_⟩
  · have := before.alerts follow
    unfold countSecond
    split <;> exact this
  · have := before.wake released
    unfold countSecond
    split <;> exact this

/-- A change of the SUCTION line (R145). -/
theorem suctionChange_alarmed (ordered : s.SlotsOrdered) (level : Level) {f : State → State} (tame : ∀ t, Tame t (f t))
    (touches : ∀ t, Touches t (f t)) : Alarmed s (f (setDeviceEvent .suction (setSuction level s))) := by
  have set : Touches s (setSuction level s) := .single (.unit rfl rfl rfl (.inl rfl))
  have after := (setDeviceEvent_calm .suction (setSuction level s)).tame.trans (tame _)
  have chain := (set.trans (setDeviceEvent_touches .suction _)).trans (touches _)
  exact ⟨(Touches.traced chain ordered).toWakeTold,
    fun follow => after.alerts follow, fun released => after.wake released⟩

theorem execAmend_follows (legal : s.RecordsLegal) (r : Request) : NextFollows c s (execAmend r s) :=
  takeRequest_follows (by
    split
    · exact .of_view rfl
    · exact (amend_alarmed (s := closePort (advance s)) legal r _).congr rfl rfl)

theorem exec_follows (c : Instr) (legal : s.RecordsLegal) : NextFollows c s (exec c s) := by
  have ordered := legal.1
  have closed : (closePort (advance s)).RecordsLegal := legal
  cases c with
  | powerOn straps suction => exact ⟨_, rfl, powerOn_follows straps suction s⟩
  | resetLine straps =>
    have wake := deviceReset_wakeOff legal straps
    exact ⟨_, rfl, .of_released ⟨⟨0, 0, 0, 0, 0, 0⟩, straps, .low, .inr (.inl rfl)⟩ ⟨wake.off, wake.away⟩
      fun _ => deviceReset_alerts straps s⟩
  | secondTick late => exact ⟨_, rfl, .of_alarmed (secondTick_alarmed ordered late)⟩
  | minuteTick =>
    refine ⟨_, rfl, .of_alarmed ?_⟩
    split
    · exact Alarmed.congr (s := { s with time := { s.time with minuteDue := false } })
        (.of_tame ordered (takeMinute_tame _) (takeMinute_touches _)) rfl rfl
    · exact .refl s
  | purgePulseEnd tag =>
    refine ⟨_, rfl, .of_alarmed ?_⟩
    split
    · exact .refl s
    · exact .of_calm ordered (changeSlot_calm fun _ => ⟨rfl, rfl⟩)
        (.single (.slot (f := fun x => { x with purgeEndDue := false }) (fun _ => ⟨rfl, rfl⟩) _ s))
  | moveTimerExpiry tag =>
    refine ⟨_, rfl, .of_alarmed ?_⟩
    split
    · exact .refl s
    · split
      · exact .of_tame ordered (endTimeout_tame _ s) (endTimeout_touches _ s)
      · exact .refl s
  | purgeTimerExpiry => exact nextFollows_of_tame ordered (afterPurgeTimer_calm s).tame (afterPurgeTimer_touches s)
  | analyserTimerExpiry => exact nextFollows_of_tame ordered (afterAnalyserTimer_tame s) (afterAnalyserTimer_touches s)
  | busyWaitExpiry => exact nextFollows_of_tame ordered (afterBusyWait_calm s).tame (afterBusyWait_touches s)
  | probeTimerExpiry => exact nextFollows_of_tame ordered (afterProbeTimer_calm s).tame (afterProbeTimer_touches s)
  | holdTimerExpiry =>
    refine ⟨_, rfl, .of_alarmed ?_⟩
    split
    · exact .refl s
    · split
      · exact .of_tame ordered (takeHoldExpiry_tame s) (takeHoldExpiry_touches s)
      · exact .refl s
  | suctionChange level =>
    refine ⟨_, rfl, .of_alarmed ?_⟩
    split
    · exact .refl s
    · cases level with
      | low => exact suctionChange_alarmed ordered .low suctionFalls_tame suctionFalls_touches
      | high => exact suctionChange_alarmed ordered .high (fun t => (headTest_calm t).tame) headTest_touches
  | holdExchange => exact ⟨_, rfl, .of_alarmed (.of_view rfl)⟩
  | deselect cause =>
    refine ⟨_, rfl, .of_alarmed ?_⟩
    cases cause with
    | otherUnit => exact .of_view rfl
    | badCheck =>
      exact Alarmed.congr (s := deselectPort s) (.of_tame ordered (reportFault_tame _ _ _ _) (reportFault_touches _ _ _ _))
        rfl rfl
  | nop r =>
    rw [exec_nop]
    exact plainRequest_follows (.refl _)
  | enrol r => exact plainRequest_follows (enrol_alarmed closed r)
  | retire r =>
    exact onWellRequest_follows ordered fun _ h _ _ => retireWell_alarmed h r
  | lookup r => exact plainRequest_follows (lookup_alarmed closed r)
  | amend r => exact execAmend_follows legal r
  | setMembers r =>
    exact plainRequest_follows (changeMembers_alarmed closed true r)
  | clearMembers r =>
    exact plainRequest_follows (changeMembers_alarmed closed false r)
  | ack r => exact plainRequest_follows (acknowledge_alarmed closed r)
  | claim r =>
    exact onWellRequest_follows ordered fun _ h w q _ => claimWell_alarmed h r w q
  | release r =>
    exact onWellRequest_follows ordered fun _ h w q _ => releaseWell_alarmed h r w q
  | modeRequest r =>
    exact onWellRequest_follows ordered fun _ h _ _ => modeWell_alarmed h r
  | sample r =>
    exact onWellRequest_follows ordered fun _ h w q _ => sampleWell_alarmed h r w q
  | purge r =>
    exact onWellRequest_follows ordered fun _ h w q _ => purgeWell_alarmed h r w q
  | find r =>
    refine plainRequest_follows ?_
    unfold find
    split <;> exact .refl _
  | groupLook r =>
    exact plainRequest_follows (openGroup_alarmed closed .look r)
  | groupAmend r =>
    exact plainRequest_follows (groupAmend_alarmed closed r)
  | continueGroup r =>
    exact takeRequest_follows (r := r)
      (act := fun t => continueWith t.port.words r (setWords [] t))
      ((continueWith_alarmed (s := setWords [] (advance s)) legal _ r).congr rfl rfl)
  | extend r =>
    refine takeRequest_follows (r := r) ?_
    unfold extendPort
    split <;> exact .of_view rfl
  | standby r => exact plainRequest_follows (standby_alarmed r _)
  | resume r => exact resume_follows legal r
  | clearFaults r =>
    rw [exec_clearFaults]
    exact plainRequest_follows (.of_view rfl)
  | reset r straps =>
    rw [exec_reset]
    exact plainRequest_releases
      (fun words => ⟨r, straps, .low, .inr (.inr ⟨words, .inl rfl⟩)⟩)
      (deviceReset_wakeOff closed straps) fun _ => deviceReset_alerts straps _
  | accept reply =>
    exact nextFollows_of_tame ordered (endTransaction_tame (judgeFrame_tame (judgeAccept_tame reply.address)) s)
      (endTransaction_touches (judgeFrame_touches (judgeAccept_touches reply.address)) s)
  | readings reply channels orders =>
    exact nextFollows_of_tame ordered
      (endTransaction_tame (judgeFrame_tame (judgeReadings_tame reply.address channels orders)) s)
      (endTransaction_touches (judgeFrame_touches (judgeReadings_touches reply.address channels orders)) s)
  | refused reply =>
    exact nextFollows_of_tame ordered (endTransaction_tame (judgeFrame_tame (judgeRefused_tame reply.address)) s)
      (endTransaction_touches (judgeFrame_touches (judgeRefused_touches reply.address)) s)
  | transactionFailure =>
    exact nextFollows_of_tame ordered (endTransaction_tame (fun t => failTransaction_tame t.address) s)
      (endTransaction_touches (fun t => failTransaction_touches t.address) s)
  | values number ch4 co2 o2 =>
    exact nextFollows_of_tame ordered (takeAnalyserFrame_tame number _ s) (takeAnalyserFrame_touches number _ s)
  | analyserFaultReply number =>
    exact nextFollows_of_tame ordered (takeAnalyserFrame_tame number _ s) (takeAnalyserFrame_touches number _ s)
  | busy number =>
    exact nextFollows_of_tame ordered (takeAnalyserFrame_tame number _ s) (takeAnalyserFrame_touches number _ s)
  | probeReply number reply =>
    exact nextFollows_of_tame ordered (takeAnalyserFrame_tame number _ s) (takeAnalyserFrame_touches number _ s)
  | analyserFrameDiscard => exact ⟨s, rfl, .of_alarmed (.refl s)⟩
  | unknownRequest r code =>
    exact takeRequest_follows (r := r) (act := fun t => (closePort t, refuse .unknownRequest r.tag)) (.of_view rfl)
  | scanFrameDiscard => exact ⟨s, rfl, .of_alarmed (.refl s)⟩
  | probeFaultReply number =>
    exact nextFollows_of_tame ordered (takeAnalyserFrame_tame number _ s) (takeAnalyserFrame_touches number _ s)

/-- Settles O6, through what every command leaves of the three lines. -/
theorem linesFollowConditions : Obligations.LinesFollowConditions := by
  intro s t legal run
  unfold step at run
  split at run
  · cases run
    have idle : Alarmed s s := .refl s
    exact ⟨id, idle.raises, idle.asserted, fun on off => by rw [on] at off; cases off⟩
  · rename_i c rest queue
    obtain ⟨u, hu, h⟩ := exec_follows c (s := s.withPending rest) legal
    rw [hu] at run
    cases run
    exact ⟨h.lines, h.raises, h.asserted, fun on off => ⟨c, rest, queue, h.releases on off⟩⟩

end Sys2Proof.Machine
end

