-- ==== Sys2Proof/Proofs/Bystanders.lean ====
section
/-! SUPPORT. What the events of one well's arrival do beyond that well: `Beside w` lists the steps by which another well's
events can reach the well `w`, and `Handles v` says what every operation on the well `v` leaves of the part and of the
other wells, while the transaction is over and its round still runs. -/

namespace Sys2Proof.Machine

variable {s t u : State} {v w : Well}

/-! ### The place of a well in the blocks -/

/-- The transaction is over, its round still runs, and the records are legal, as while READINGS are taken. -/
structure State.Landed (s : State) : Prop where
  ended   : s.scan.inFlight = none
  running : s.scan.round ≠ .idle
  legal   : s.RecordsLegal

/-- What the blocks hold of one well: its slot, its entries in the queue, and its places in the two lists. -/
structure Seat where
  slot    : Option Slot
  entries : List QueueEntry
  holds   : Bool
  waits   : Bool

def entriesOf (w : Well) (q : List QueueEntry) : List QueueEntry := q.filter fun e => e.well == w

def State.seat (s : State) (w : Well) : Seat :=
  ⟨s.well? w, entriesOf w s.seq.queue, s.moves.holds w, s.moves.waits w⟩

theorem entriesOf_withoutEntry (other : w ≠ v) (q : List QueueEntry) :
    entriesOf w (withoutEntry v q) = entriesOf w q := by
  rw [entriesOf, withoutEntry, List.filter_filter]
  refine List.filter_congr fun e _ => ?_
  by_cases own : e.well = w
  · simp [own, other]
  · simp [own]

theorem entriesOf_placeEntry (other : w ≠ v) (c : SampleClass) (q : List QueueEntry) :
    entriesOf w (placeEntry ⟨v, c⟩ q) = entriesOf w q := by
  have skip : (v == w) = false := by simpa using Ne.symm other
  unfold placeEntry entriesOf
  cases c with
  | routine => simp [List.filter_append, skip]
  | urgent =>
    rw [List.filter_append, List.filter_cons, if_neg (by simp [skip]), ← List.filter_append,
      List.takeWhile_append_dropWhile]

theorem entriesOf_cons (other : ∀ x : QueueEntry, x = e → x.well ≠ w) (q : List QueueEntry) :
    entriesOf w (e :: q) = entriesOf w q := by
  rw [entriesOf, List.filter_cons, if_neg (by simpa using other e rfl)]
  rfl

theorem leaveLists_seat (other : w ≠ v) (s : State) : (leaveLists v s).seat w = s.seat w := by
  have holds : (leaveLists v s).moves.holds w = s.moves.holds w := by
    show (s.moves.holders.filter _).any _ = s.moves.holders.any _
    rw [List.any_filter]
    refine congrArg s.moves.holders.any (funext fun h => ?_)
    by_cases own : h.well = w
    · simp [own, other]
    · simp [own]
  have waits : (leaveLists v s).moves.waits w = s.moves.waits w := by
    show (s.moves.waiting.filter _).contains w = s.moves.waiting.contains w
    rw [Bool.eq_iff_iff]
    simp [other]
  rw [State.seat, holds, waits]
  rfl

theorem writeSlot_seat {f : Slot → Slot} (tag : ∀ x, (f x).tag = x.tag) (other : w ≠ v) (s : State) :
    (changeSlot f v s).seat w = s.seat w := by
  rw [State.seat, well?_changeSlot tag, if_neg other]
  rfl

theorem writeRecord_seat (f : WellRecord → WellRecord) (other : w ≠ v) (s : State) :
    (writeRecord f v s).seat w = s.seat w := writeSlot_seat (f := Slot.write f) (fun _ => rfl) other s

theorem seat_congr (slots : t.slots = s.slots) (seq : t.seq.queue = s.seq.queue) (moves : t.moves = s.moves) :
    t.seat w = s.seat w := by
  rw [State.seat, well?_congr slots, seq, moves]
  rfl

/-! ### Steps beside a well -/

/-- The phase of the sequencer changes with the sample of another well, and to OFFLINE at a failure count of 3 only. -/
structure PhaseElsewhere (w : Well) (s t : State) : Prop where
  before  : s.seq.phase.current? ≠ some w
  after   : t.seq.phase.current? ≠ some w
  online  : ∀ n b, s.seq.phase ≠ .offline n b
  offline : ∀ n b, t.seq.phase = .offline n b → ∃ f, s.seq.failures = some f ∧ f.count = Config.offlineCount

/-- A head is taken off the queue, its CAP being debounced high: its sample ends BLOCKED (R93). -/
def headBlocked (e : QueueEntry) (rest : List QueueEntry) (s : State) : State :=
  setQueued .no e.well (writeOutcome .blocked e.well (setQueue rest s))

/-- A head is taken off the queue into SELECT (R93). -/
def headSelected (e : QueueEntry) (rest : List QueueEntry) (s : State) : State := selectWell e.well (setQueue rest s)

/-- One step that the events of other wells can bring, as the well `w` sees it. -/
inductive Beside (w : Well) : State → State → Prop
  /-- nothing of the well changes -/
  | unseen {s t : State} (seat : t.seat w = s.seat w)
      (phase : t.seq.phase = s.seq.phase ∨ PhaseElsewhere w s t) (failures : t.seq.failures = s.seq.failures)
      (state : t.device.state = s.device.state) : Beside w s t
  /-- it is granted the slot that has come free -/
  | granted {s : State} {rest : List Well} (head : s.moves.waiting = w :: rest) : Beside w s (grant w rest s)
  /-- its ROUTINE entry gives place to an URGENT one -/
  | evicted {s : State} {e : QueueEntry} (mem : e ∈ s.seq.queue) (own : e.well = w) (cls : e.cls = .routine) :
      Beside w s (evict e s)
  /-- it is taken as head with CAP high -/
  | blocked {s : State} {e : QueueEntry} {rest : List QueueEntry} (head : s.seq.queue = e :: rest) (own : e.well = w)
      (idle : s.seq.phase = .idle) (high : s.inputHigh .cap w = true) : Beside w s (headBlocked e rest s)
  /-- it is taken as head with CAP low -/
  | selected {s : State} {e : QueueEntry} {rest : List QueueEntry} (head : s.seq.queue = e :: rest) (own : e.well = w)
      (idle : s.seq.phase = .idle) (low : s.inputHigh .cap w = false) : Beside w s (headSelected e rest s)
  /-- a fault is reported -/
  | reported {s : State} (k : FaultKind) (n : Nat) (d : Half) (landed : s.Landed) : Beside w s (reportFault k n d s)

/-! ### What every operation leaves -/

/-- The slot `y` stands where `x` stood, with its debounce runs; its check is kept or re-formed, no event kind has left
its record, and no input event kind has joined it. -/
structure SlotKept (x y : Slot) : Prop where
  address : y.address = x.address
  channel : y.channel = x.channel
  runs    : y.runs = x.runs
  intact  : x.intact = true → y.intact = true
  grows   : ∀ i, x.record.events.getLsbD i = true → y.record.events.getLsbD i = true
  inputs  : ∀ i, i < 4 → y.record.events.getLsbD i = x.record.events.getLsbD i

def SlotsKept (s t : State) : Prop := ∀ w y, t.well? w = some y → ∃ x, s.well? w = some x ∧ SlotKept x y

/-- What an operation on the well `v` leaves of the part and of the other wells. -/
structure Turned (v : Well) (s t : State) : Prop where
  landed   : t.Landed
  settings : t.settings = s.settings
  failures : t.seq.failures = s.seq.failures
  index    : ∀ e ∈ t.index, e ∈ s.index
  state    : t.device.state = s.device.state ∨
    t.device.state = .safe ∧ ∃ k, severityOf s.settings.severity k = .fatal
  reports  : ∀ k n d, s.Reported k n d → t.Reported k n d
  device   : ∀ i, s.device.events.getLsbD i = true → t.device.events.getLsbD i = true
  others   : ∀ w, w ≠ v → Relation.ReflTransGen (Beside w) s t

/-- What an operation on the well `v` that is no part of the event unit's leaves moreover. -/
structure Handled (v : Well) (s t : State) : Prop extends Turned v s t where
  stations : ∀ y ∈ t.scan.stations, ∃ x ∈ s.scan.stations, y.address = x.address ∧ ∀ c ∈ y.channels, c ∈ x.channels
  slots    : SlotsKept s t

def Handles (v : Well) (s t : State) : Prop := s.Landed → Handled v s t

theorem SlotKept.refl (x : Slot) : SlotKept x x := ⟨rfl, rfl, rfl, id, fun _ => id, fun _ _ => rfl⟩

theorem SlotKept.trans {x y z : Slot} (a : SlotKept x y) (b : SlotKept y z) : SlotKept x z :=
  ⟨b.address.trans a.address, b.channel.trans a.channel, b.runs.trans a.runs, b.intact ∘ a.intact,
    fun i h => b.grows i (a.grows i h), fun i h => (b.inputs i h).trans (a.inputs i h)⟩

theorem SlotsKept.refl (s : State) : SlotsKept s s := fun _ y hy => ⟨y, hy, .refl y⟩

theorem SlotsKept.trans (a : SlotsKept s t) (b : SlotsKept t u) : SlotsKept s u := fun w z hz => by
  obtain ⟨y, hy, second⟩ := b w z hz
  obtain ⟨x, hx, first⟩ := a w y hy
  exact ⟨x, hx, first.trans second⟩

theorem Turned.trans (a : Turned v s t) (b : Turned v t u) : Turned v s u where
  landed := b.landed
  settings := b.settings.trans a.settings
  failures := b.failures.trans a.failures
  index e he := a.index e (b.index e he)
  state := by
    rcases b.state with same | ⟨safe, fatal⟩
    · rw [same]
      exact a.state
    · exact .inr ⟨safe, by rw [← a.settings]; exact fatal⟩
  reports k n d h := b.reports k n d (a.reports k n d h)
  device i h := b.device i (a.device i h)
  others w other := (a.others w other).trans (b.others w other)

theorem Handled.trans (a : Handled v s t) (b : Handled v t u) : Handled v s u where
  toTurned := a.toTurned.trans b.toTurned
  stations z hz := by
    obtain ⟨y, hy, own', channels'⟩ := b.stations z hz
    obtain ⟨x, hx, own, channels⟩ := a.stations y hy
    exact ⟨x, hx, own'.trans own, fun c hc => channels c (channels' c hc)⟩
  slots := a.slots.trans b.slots

theorem Handles.trans (a : Handles v s t) (b : Handles v t u) : Handles v s u := fun landed =>
  (a landed).trans (b (a landed).landed)

theorem Handles.refl (s : State) : Handles v s s := fun landed =>
  ⟨⟨landed, rfl, rfl, fun _ => id, .inl rfl, fun _ _ _ => id, fun _ => id, fun _ _ => .refl⟩,
    fun y hy => ⟨y, hy, rfl, fun _ => id⟩, .refl s⟩

/-! ### Slots kept -/

theorem slotsKept_of_slots (slots : t.slots = s.slots) : SlotsKept s t := fun w y hy =>
  ⟨y, by rw [← well?_congr slots]; exact hy, .refl y⟩

theorem changeSlot_slotsKept {f : Slot → Slot} (tag : ∀ x, (f x).tag = x.tag) (keeps : ∀ x, SlotKept x (f x)) (w : Well)
    (s : State) : SlotsKept s (changeSlot f w s) := fun v y hy => by
  rw [well?_changeSlot tag] at hy
  split at hy
  · rename_i own
    subst own
    obtain ⟨x, hx, rfl⟩ := Option.map_eq_some_iff.1 hy
    exact ⟨x, hx, keeps x⟩
  · exact ⟨y, hy, .refl y⟩

theorem write_slotsKept {f : WellRecord → WellRecord} (keeps : ∀ r, (f r).events = r.events) (w : Well) (s : State) :
    SlotsKept s (writeRecord f w s) :=
  changeSlot_slotsKept (f := Slot.write f) (fun _ => rfl) (fun x => ⟨rfl, rfl, rfl, fun _ => rfl,
    fun i h => by rw [Slot.write, keeps]; exact h, fun i _ => by rw [Slot.write, keeps]⟩) w s

/-- MOVE, MODE, STATION and SAMPLE are no input event kinds. -/
theorem setWellEvent_slotsKept {k : WellEvent} (high : ∀ i, i < 4 → k.bit.getLsbD i = false) (w : Well) (s : State) :
    SlotsKept s (setWellEvent k w s) :=
  (changeSlot_slotsKept (f := Slot.write (addEvent k)) (fun _ => rfl) (fun x => ⟨rfl, rfl, rfl, fun _ => rfl,
    fun i h => by simp [Slot.write, addEvent, h], fun i h => by simp [Slot.write, addEvent, high i h]⟩) w s).trans
    (slotsKept_of_slots (wakeTest_slots k w _))

theorem move_bit_low (i : Nat) (h : i < 4) : WellEvent.move.bit.getLsbD i = false := by
  interval_cases i <;> rfl

theorem sample_bit_low (i : Nat) (h : i < 4) : WellEvent.sample.bit.getLsbD i = false := by
  interval_cases i <;> rfl

theorem endMove_slotsKept (o : MoveOutcome) (w : Well) (s : State) : SlotsKept s (endMove o w s) :=
  ((slotsKept_of_slots (s := s) (t := leaveLists w s) rfl).trans
    (write_slotsKept (f := moveEnded o) (fun _ => rfl) w _)).trans (setWellEvent_slotsKept move_bit_low w _)

theorem writeOutcome_slotsKept (o : SampleOutcome) (w : Well) (s : State) : SlotsKept s (writeOutcome o w s) :=
  (write_slotsKept (f := fun r => { r with sampleOutcome := o }) (fun _ => rfl) w s).trans
    (setWellEvent_slotsKept sample_bit_low w _)

theorem forEach_slotsKept {f : Well → State → State} (each : ∀ w s, SlotsKept s (f w s)) (ws : List Well) (s : State) :
    SlotsKept s (forEach ws f s) := by
  unfold forEach
  induction ws generalizing s with
  | nil => exact .refl s
  | cons w ws ih => exact (each w s).trans (ih _)

theorem abandonAllMoves_slotsKept (s : State) : SlotsKept s (abandonAllMoves s) :=
  forEach_slotsKept (fun w t => by
    split
    · exact endMove_slotsKept _ w t
    · exact .refl t) _ s

theorem abortSample_slotsKept (s : State) : SlotsKept s (abortSample s) := by
  have released (w : Well) : SlotsKept s (writeOutcome .aborted w (setPhase (.release w) s)) :=
    (slotsKept_of_slots (s := s) (t := setPhase (.release w) s) rfl).trans (writeOutcome_slotsKept _ _ _)
  unfold abortSample
  split
  case h_1 | h_2 | h_3 => exact released _
  case h_4 | h_5 | h_6 => exact .refl s

theorem takeIf_slotsKept {f : State → State} (b : Bool) (each : ∀ t, SlotsKept t (f t)) (s : State) :
    SlotsKept s (takeIf b f s) := by
  cases b
  · exact .refl s
  · exact each s

/-! ### A report -/

/-- The taking of a change while a round runs ends moves and a sample, and withdraws the permit. -/
theorem takeChange_running (h : Handover) (running : s.scan.round ≠ .idle) : takeChange h s =
    takeIf h.blend withdrawPermit (takeIf h.sequencer abortSample (takeIf h.moves abandonAllMoves s)) := by
  have scan : (takeIf h.blend withdrawPermit
      (takeIf h.sequencer abortSample (takeIf h.moves abandonAllMoves s))).scan = s.scan :=
    (takeIf_same State.scan _ withdrawPermit_scan _).trans (takeBefore_calm h s).scan
  have stays := beginRoundIfIdle_of_running (s := takeIf h.blend withdrawPermit
    (takeIf h.sequencer abortSample (takeIf h.moves abandonAllMoves s))) (by rw [scan]; exact running)
  unfold takeChange
  cases h.scan with
  | false => rfl
  | true => exact stays

theorem withdrawPermit_device (i : Nat) (h : s.device.events.getLsbD i = true) :
    (withdrawPermit s).device.events.getLsbD i = true := by
  unfold withdrawPermit
  split
  · exact h
  · exact h
  · show (s.device.events ||| DeviceEvent.permit.bit).getLsbD i = true
    simp [h]

theorem takeChange_turns (h : Handover) (running : s.scan.round ≠ .idle) : SlotsKept s (takeChange h s) ∧
    ∀ i, s.device.events.getLsbD i = true → (takeChange h s).device.events.getLsbD i = true := by
  have device (t : State) (i : Nat) (held : t.device.events.getLsbD i = true) :
      (takeIf h.blend withdrawPermit t).device.events.getLsbD i = true := by
    cases h.blend with
    | false => exact held
    | true => exact withdrawPermit_device i held
  rw [takeChange_running h running]
  refine ⟨((takeIf_slotsKept _ abandonAllMoves_slotsKept s).trans (takeIf_slotsKept _ abortSample_slotsKept _)).trans
    (takeIf_slotsKept _ (fun t => slotsKept_of_slots (withdrawPermit_slots t)) _), fun i held => device _ i ?_⟩
  have same : (takeIf h.sequencer abortSample (takeIf h.moves abandonAllMoves s)).device = s.device :=
    (takeIf_same State.device _ abortSample_device _).trans
      (takeIf_same State.device _ abandonAllMoves_device s)
  rw [same]
  exact held

theorem setDeviceEvent_device (k : DeviceEvent) (s : State) (i : Nat) (h : s.device.events.getLsbD i = true) :
    (setDeviceEvent k s).device.events.getLsbD i = true := by
  show (s.device.events ||| k.bit).getLsbD i = true
  simp [h]

theorem enterSafe_turns (running : s.scan.round ≠ .idle) : SlotsKept s (enterSafe s) ∧
    ∀ i, s.device.events.getLsbD i = true → (enterSafe s).device.events.getLsbD i = true := by
  have change (h : Handover) : SlotsKept s (handChange h (setDeviceEvent .state (setDeviceState .safe s))) ∧
      ∀ i, s.device.events.getLsbD i = true →
        (handChange h (setDeviceEvent .state (setDeviceState .safe s))).device.events.getLsbD i = true := by
    obtain ⟨slots, device⟩ := takeChange_turns
      (h.map₂ (fun a late => a && !late) (setDeviceEvent .state (setDeviceState .safe s)).lateBlocks)
      (s := setOwed ((setDeviceEvent .state (setDeviceState .safe s)).device.owed.map₂ or
        (h.map₂ and (setDeviceEvent .state (setDeviceState .safe s)).lateBlocks))
        (setDeviceEvent .state (setDeviceState .safe s))) running
    exact ⟨slots, fun i held => device i (setDeviceEvent_device .state (setDeviceState .safe s) i held)⟩
  unfold enterSafe
  split
  · exact ⟨.refl s, fun _ => id⟩
  · exact change _
  · exact change _

theorem reportFault_turns (k : FaultKind) (n : Nat) (d : Half) (running : s.scan.round ≠ .idle) :
    SlotsKept s (reportFault k n d s) ∧
    ∀ i, s.device.events.getLsbD i = true → (reportFault k n d s).device.events.getLsbD i = true := by
  unfold reportFault
  split
  · exact ⟨.refl s, fun _ => id⟩
  · exact ⟨.refl s, fun _ => id⟩
  · exact ⟨.refl s, setDeviceEvent_device .fault (recordFault k n d s)⟩
  · obtain ⟨slots, device⟩ := enterSafe_turns (s := setDeviceEvent .fault (recordFault k n d s)) running
    exact ⟨slots, fun i h => device i (setDeviceEvent_device .fault (recordFault k n d s) i h)⟩

/-- A report that stands goes on standing whatever is reported after it (R151). -/
theorem reported_faultsAfter {k : FaultKind} {n : Nat} {d : Half} (stands : s.Reported k n d)
    (j : FaultKind) (m : Nat) (e : Half) (faults : t.faults = s.faultsAfter j m e) : t.Reported k n d := by
  rw [State.Reported, faults, State.faultsAfter]
  rw [State.Reported] at stands
  split
  · exact stands
  · split
    · rename_i none
      rw [none] at stands
      exact .inr (stands.resolve_left (by simp))
    · rename_i f some
      rw [some] at stands
      exact stands.imp id fun h => by simp [h]

/-- The kind of each fault has the bit of its code (R151, R179). -/
theorem fault_bit (k : FaultKind) : k.bit.getLsbD k.code = true := by cases k <;> rfl

theorem reportFault_reported (k : FaultKind) (n : Nat) (d : Half) (s : State)
    (heard : severityOf s.settings.severity k ≠ .ignored) : (reportFault k n d s).Reported k n d := by
  rw [State.Reported, reportFault_faultsAfter, State.faultsAfter, if_neg heard]
  split
  · exact .inl rfl
  · exact .inr (by simp [fault_bit])

theorem reportFault_handles (k : FaultKind) (n : Nat) (d : Half) (s : State) : Handles v s (reportFault k n d s) := by
  intro landed
  have rooted := reportFault_rooted k n d s
  obtain ⟨slots, device⟩ := reportFault_turns k n d landed.running
  obtain ⟨_, _, index⟩ := reportFault_queue k n d s
  have scan := rooted.scan landed.running
  exact
    { landed := ⟨by rw [scan]; exact landed.ended, by rw [scan]; exact landed.running,
        (reportFault_tame k n d s).legal landed.legal⟩
      settings := (reportFault_tame k n d s).settings
      failures := reportFault_failures k n d s
      index := fun e he => by rw [← index]; exact he
      state := by
        by_cases fatal : severityOf s.settings.severity k = .fatal
        · exact .inr ⟨reportFault_fatal k n d s fatal, k, fatal⟩
        · exact .inl (reportFault_state k n d s fatal)
      reports := fun _ _ _ stands => reported_faultsAfter stands k n d (reportFault_faultsAfter k n d s)
      device := device
      others := fun w _ => .single (.reported k n d landed)
      stations := fun y hy => ⟨y, by rw [← scan]; exact hy, rfl, fun _ => id⟩
      slots := slots }

/-! ### Calm operations -/

/-- A calm operation, which may set a device event. -/
theorem Handles.of_calm (calm : Calm s t)
    (device : ∀ i, s.device.events.getLsbD i = true → t.device.events.getLsbD i = true) (slots : SlotsKept s t)
    (others : ∀ w, w ≠ v → Relation.ReflTransGen (Beside w) s t) : Handles v s t := fun landed =>
  { landed := ⟨by rw [calm.scan]; exact landed.ended, by rw [calm.scan]; exact landed.running, calm.legal landed.legal⟩
    settings := calm.settings
    failures := calm.failures
    index := fun e he => by rw [← calm.index]; exact he
    state := .inl calm.state
    reports := fun k n d h => by rw [State.Reported, calm.faults]; exact h
    device := device
    others := others
    stations := fun y hy => ⟨y, by rw [← calm.scan]; exact hy, rfl, fun _ => id⟩
    slots := slots }

theorem Handles.of_seat (calm : Calm s t) (device : t.device = s.device) (slots : SlotsKept s t)
    (seat : ∀ w, w ≠ v → t.seat w = s.seat w)
    (phase : ∀ w, w ≠ v → t.seq.phase = s.seq.phase ∨ PhaseElsewhere w s t) : Handles v s t :=
  .of_calm calm (fun i h => by rw [device]; exact h) slots fun w other =>
    .single (.unseen (seat w other) (phase w other) calm.failures calm.state)

/-- A write of the well's own record that keeps EVENTS. -/
theorem write_handles {f : WellRecord → WellRecord} (calm : Calm s (writeRecord f v s))
    (keeps : ∀ r, (f r).events = r.events) : Handles v s (writeRecord f v s) :=
  .of_seat calm rfl (write_slotsKept keeps v s) (fun _ other => writeRecord_seat f other s) fun _ _ => .inl rfl

theorem setWellEvent_handles {k : WellEvent} (high : ∀ i, i < 4 → k.bit.getLsbD i = false) (s : State) :
    Handles v s (setWellEvent k v s) :=
  .of_seat (setWellEvent_calm k v s) (setWellEvent_device k v s) (setWellEvent_slotsKept high v s)
    (fun _ other => (seat_congr (wakeTest_slots k v _) (congrArg (·.queue) (setWellEvent_apart k v s).seq)
      (setWellEvent_apart k v s).moves).trans (writeRecord_seat (addEvent k) other s))
    fun _ _ => .inl (congrArg (·.phase) (setWellEvent_apart k v s).seq)

/-! ### The move scheduler -/

theorem leaveLists_handles (s : State) : Handles v s (leaveLists v s) :=
  .of_seat (leaveLists_calm v s) rfl (.refl s) (fun _ other => leaveLists_seat other s) fun _ _ => .inl rfl

theorem restartTimer_handles (s : State) : Handles v s (restartTimer v s) :=
  .of_seat (restartTimer_calm v s) rfl (.refl s) (fun w _ => by
    have holds : (restartTimer v s).moves.holds w = s.moves.holds w := by
      show (s.moves.holders.map _).any _ = s.moves.holders.any _
      rw [List.any_map]
      refine congrArg s.moves.holders.any (funext fun h => ?_)
      simp only [Function.comp]
      split <;> rfl
    rw [State.seat, holds]
    rfl) fun _ _ => .inl rfl

/-- A grant of a slot to the head of the wait list, whichever well it is. -/
theorem grant_beside {x : Well} {rest : List Well} (head : s.moves.waiting = x :: rest) (w : Well) :
    Beside w s (grant x rest s) := by
  by_cases own : w = x
  · subst own
    exact .granted head
  · refine .unseen ?_ (.inl rfl) rfl rfl
    have moved : (grant x rest s).seat w = State.seat { s with moves :=
        { holders := s.moves.holders ++ [{ well := x, timer := s.settings.moveTimeout }], waiting := rest } } w :=
      writeRecord_seat _ own _
    have skip : (x == w) = false := by simpa using Ne.symm own
    have holds : (s.moves.holders ++ [(⟨x, s.settings.moveTimeout⟩ : Holder)]).any (fun h => h.well == w) =
        s.moves.holders.any fun h => h.well == w := by simp [skip]
    have waits : s.moves.waits w = rest.contains w := by
      rw [MoveScheduler.waits, head, List.contains_cons]
      simp [own]
    rw [moved, State.seat, State.seat, waits]
    exact congrArg (Seat.mk _ _ · _) holds

theorem grantLoop_beside (ws : List Well) (s : State) (waiting : s.moves.waiting = ws) (w : Well) :
    Relation.ReflTransGen (Beside w) s (grantLoop ws s) := by
  induction ws generalizing s with
  | nil => exact .refl
  | cons x ws ih =>
    unfold grantLoop
    split
    · exact .head (grant_beside waiting w) (ih _ rfl)
    · exact .refl

theorem grantLoop_slotsKept (ws : List Well) (s : State) : SlotsKept s (grantLoop ws s) := by
  induction ws generalizing s with
  | nil => exact .refl s
  | cons x ws ih =>
    unfold grantLoop
    split
    · exact SlotsKept.trans (t := grant x ws s)
        (write_slotsKept (f := fun r => { r with moveState := .moving }) (fun _ => rfl) x _) (ih _)
    · exact .refl s

theorem grantLoop_device (ws : List Well) (s : State) : (grantLoop ws s).device = s.device := by
  induction ws generalizing s with
  | nil => rfl
  | cons x ws ih =>
    unfold grantLoop
    split
    · exact (ih _).trans rfl
    · rfl

theorem grantTest_handles (s : State) : Handles v s (grantTest s) :=
  .of_calm (grantTest_calm s) (fun i h => by rw [grantTest, grantLoop_device]; exact h)
    (grantLoop_slotsKept _ s) fun w _ => grantLoop_beside _ s rfl w

theorem endMove_handles (o : MoveOutcome) (s : State) : Handles v s (endMove o v s) :=
  ((leaveLists_handles s).trans (write_handles (f := moveEnded o)
    (writeRecord_plain (fun _ => rfl) (fun _ => ⟨rfl, rfl, rfl⟩) fun _ h => h) fun _ => rfl)).trans
    (setWellEvent_handles move_bit_low _)

theorem blockMove_handles (s : State) : Handles v s (blockMove v s) := by
  unfold blockMove
  split
  · exact (endMove_handles _ s).trans (grantTest_handles _)
  · split
    · exact endMove_handles _ s
    · exact .refl s

theorem setMoveState_handles (m : MoveState) (s : State) : Handles v s (setMoveState m v s) :=
  write_handles (f := fun r => { r with moveState := m }) (setMoveState_calm m v s) fun _ => rfl

theorem joinWaitList_handles (s : State) : Handles v s (joinWaitList v s) := by
  have joins : Handles v s { s with moves := { s.moves with waiting := s.moves.waiting ++ [v] } } :=
    .of_seat (calm_of_eq rfl rfl rfl rfl rfl rfl rfl rfl rfl rfl rfl rfl id) rfl (.refl s) (fun w other => by
      have waits : (s.moves.waiting ++ [v]).contains w = s.moves.waiting.contains w := by
        rw [Bool.eq_iff_iff]
        simp [other]
      exact congrArg (Seat.mk _ _ _) waits) fun _ _ => .inl rfl
  exact (joins.trans (setMoveState_handles .waiting _)).trans (grantTest_handles _)

theorem leaveQuietly_handles (s : State) : Handles v s (leaveQuietly v s) :=
  (leaveLists_handles s).trans (setMoveState_handles .none _)

theorem findBlocked_handles (s : State) : Handles v s (findBlocked v s) :=
  (write_handles (f := fun r => { r with moveOutcome := .blocked })
    (writeRecord_plain (fun _ => rfl) (fun _ => ⟨rfl, rfl, rfl⟩) fun _ h => h) fun _ => rfl).trans
    (setWellEvent_handles move_bit_low _)

theorem startPulse_handles (s : State) : Handles v s (startPulse v s) := by
  have pulse : Handles v s (writeRecord (fun r => { r with purgeLeft := s.settings.purgePulse }) v s) :=
    write_handles (writeRecord_plain (fun _ => rfl) (fun _ => ⟨rfl, rfl, rfl⟩) fun _ h => h) fun _ => rfl
  exact pulse.trans (.of_seat (changeSlot_calm (f := fun x => { x with purgeEndDue := false }) fun _ => ⟨rfl, rfl⟩) rfl
    (changeSlot_slotsKept (f := fun x => { x with purgeEndDue := false }) (fun _ => rfl)
      (fun _ => ⟨rfl, rfl, rfl, id, fun _ => id, fun _ _ => rfl⟩) v _)
    (fun _ other => writeSlot_seat (f := fun x => { x with purgeEndDue := false }) (fun _ => rfl) other _)
    fun _ _ => .inl rfl)

end Sys2Proof.Machine
end

