-- ==== Sys2Proof/Proofs/Handlings.lean ====
section
/-! SUPPORT. `Handles` for the sequencer's operations, for a freeing, for mode changes and for every event an arrival hands
on, and the event unit's part of an arrival (chapters 1, 2, 4 and 5). -/

namespace Sys2Proof.Machine

variable {s t u : State} {v w : Well} {a : Nat}

/-! ### Heads -/

theorem entriesOf_tail {e : QueueEntry} {rest : List QueueEntry} (head : s.seq.queue = e :: rest) (other : e.well ≠ w) :
    entriesOf w rest = entriesOf w s.seq.queue := by
  rw [head, entriesOf_cons]
  rintro x rfl
  exact other

theorem headBlocked_apart (e : QueueEntry) (rest : List QueueEntry) (s : State) :
    (headBlocked e rest s).seq = { s.seq with queue := rest } ∧ (headBlocked e rest s).moves = s.moves ∧
    (headBlocked e rest s).device = s.device := by
  have apart := writeOutcome_apart .blocked e.well (setQueue rest s)
  exact ⟨apart.seq, apart.moves, setWellEvent_device _ _ _⟩

theorem writeOutcome_seat (o : SampleOutcome) {x : Well} (other : w ≠ x) (s : State) :
    (writeOutcome o x s).seat w = s.seat w := by
  have apart := setWellEvent_apart .sample x (writeRecord (fun r => { r with sampleOutcome := o }) x s)
  exact ((seat_congr (wakeTest_slots .sample x _) (congrArg (·.queue) apart.seq) apart.moves).trans
    (writeRecord_seat (addEvent .sample) other _)).trans (writeRecord_seat _ other s)

theorem setQueue_seat {q : List QueueEntry} (entries : entriesOf w q = entriesOf w s.seq.queue) :
    (setQueue q s).seat w = s.seat w := congrArg (Seat.mk (s.well? w) · _ _) entries

theorem headBlocked_beside {e : QueueEntry} {rest : List QueueEntry} (head : s.seq.queue = e :: rest)
    (idle : s.seq.phase = .idle) (high : s.inputHigh .cap e.well = true) (w : Well) :
    Beside w s (headBlocked e rest s) := by
  by_cases own : e.well = w
  · exact .blocked head own idle (own ▸ high)
  · obtain ⟨seq, _, device⟩ := headBlocked_apart e rest s
    refine .unseen ?_ (.inl (by rw [seq])) (by rw [seq]) (by rw [device])
    exact (writeRecord_seat _ (Ne.symm own) _).trans ((writeOutcome_seat .blocked (Ne.symm own) _).trans
      (setQueue_seat (entriesOf_tail head own)))

theorem headSelected_beside {e : QueueEntry} {rest : List QueueEntry} (head : s.seq.queue = e :: rest)
    (idle : s.seq.phase = .idle) (low : s.inputHigh .cap e.well = false) (w : Well) :
    Beside w s (headSelected e rest s) := by
  by_cases own : e.well = w
  · exact .selected head own idle (own ▸ low)
  · have elsewhere : PhaseElsewhere w s (headSelected e rest s) :=
      { before := by rw [idle]; exact fun h => nomatch h
        after := fun h => own (Option.some.inj h)
        online := by rw [idle]; exact fun _ _ h => nomatch h
        offline := fun _ _ h => nomatch h }
    refine .unseen ?_ (.inr elsewhere) rfl rfl
    exact (writeRecord_seat _ (Ne.symm own) _).trans (setQueue_seat (entriesOf_tail head own))

theorem headBlocked_slotsKept (e : QueueEntry) (rest : List QueueEntry) (s : State) :
    SlotsKept s (headBlocked e rest s) :=
  ((slotsKept_of_slots (s := s) (t := setQueue rest s) rfl).trans (writeOutcome_slotsKept .blocked e.well _)).trans
    (write_slotsKept (f := fun r => { r with queued := .no }) (fun _ => rfl) e.well _)

theorem headSelected_slotsKept (e : QueueEntry) (rest : List QueueEntry) (s : State) :
    SlotsKept s (headSelected e rest s) :=
  SlotsKept.trans (t := { setQueue rest s with seq := { (setQueue rest s).seq with phase := .select e.well, busyCount := 0 } })
    (slotsKept_of_slots rfl) (write_slotsKept (f := fun r => { r with queued := .sampling }) (fun _ => rfl) e.well _)

/-- Heads are taken one by one, with CAP high until one has it low (R93). -/
theorem takeHeads_cons (e : QueueEntry) (rest : List QueueEntry) (s : State) : takeHeads (e :: rest) s =
    if s.inputHigh .cap e.well then takeHeads rest (headBlocked e rest s) else headSelected e rest s := rfl

theorem takeHeads_turns (q : List QueueEntry) (s : State) (queue : s.seq.queue = q) (idle : s.seq.phase = .idle) :
    (∀ w, Relation.ReflTransGen (Beside w) s (takeHeads q s)) ∧ SlotsKept s (takeHeads q s) := by
  induction q generalizing s with
  | nil => exact ⟨fun _ => .refl, .refl s⟩
  | cons e rest ih =>
    rw [takeHeads_cons]
    split
    · rename_i high
      obtain ⟨seq, _, _⟩ := headBlocked_apart e rest s
      obtain ⟨others, slots⟩ := ih (headBlocked e rest s) (by rw [seq]) (by rw [seq]; exact idle)
      exact ⟨fun w => .head (headBlocked_beside queue idle high w) (others w),
        (headBlocked_slotsKept e rest s).trans slots⟩
    · rename_i low
      exact ⟨fun w => .single (headSelected_beside queue idle (by simpa using low) w), headSelected_slotsKept e rest s⟩

theorem headTest_handles (s : State) : Handles v s (headTest s) := by
  by_cases allowed : s.headAllowed = true
  · have idle : s.seq.phase = .idle := by
      simp only [State.headAllowed, Bool.and_eq_true, decide_eq_true_eq] at allowed
      exact allowed.1.1
    have heads : headTest s = takeHeads s.seq.queue s := if_pos allowed
    obtain ⟨others, slots⟩ := takeHeads_turns s.seq.queue s rfl idle
    rw [heads]
    exact .of_calm (takeHeads_calm _ s) (fun i h => by rw [takeHeads_device]; exact h) slots fun w _ => others w
  · have stays : headTest s = s := if_neg allowed
    rw [stays]
    exact .refl s

/-! ### The queue and the sample in hand -/

theorem setQueued_handles (q : Queued) (s : State) : Handles v s (setQueued q v s) :=
  write_handles (f := fun r => { r with queued := q }) (setQueued_calm q v s) fun _ => rfl

theorem dueAtOnce_handles (s : State) : Handles v s (dueAtOnce v s) :=
  write_handles (f := fun r => { r with surveyDue := 0 }) (dueAtOnce_calm v s) fun _ => rfl

theorem writeOutcome_handles (o : SampleOutcome) (s : State) : Handles v s (writeOutcome o v s) :=
  (write_handles (f := fun r => { r with sampleOutcome := o })
    (writeRecord_plain (fun _ => rfl) (fun _ => ⟨rfl, rfl, rfl⟩) fun _ h => h) fun _ => rfl).trans
    (setWellEvent_handles sample_bit_low _)

theorem setQueue_handles {q : List QueueEntry} (entries : ∀ w, w ≠ v → entriesOf w q = entriesOf w s.seq.queue) :
    Handles v s (setQueue q s) :=
  .of_seat (setQueue_calm q s) rfl (slotsKept_of_slots rfl) (fun w other => setQueue_seat (entries w other)) fun _ _ => .inl rfl

theorem placeInQueue_handles (c : SampleClass) (s : State) : Handles v s (placeInQueue c v s) :=
  (setQueue_handles fun _ other => (entriesOf_placeEntry other c _).trans (entriesOf_withoutEntry other _)).trans
    (setQueued_handles _ _)

theorem removeEntry_handles (s : State) : Handles v s (removeEntry v s) := by
  unfold removeEntry
  split
  · exact (setQueue_handles fun _ other => entriesOf_withoutEntry other _).trans (setQueued_handles _ _)
  · exact .refl s

/-- The phase of the current well changes to another of its phases, or to IDLE. -/
theorem setPhase_handles {p : Phase} (current : s.seq.phase.current? = some v) (own : p.current? = some v ∨ p = .idle) :
    Handles v s (setPhase p s) :=
  .of_seat (setPhase_calm p s) rfl (slotsKept_of_slots rfl) (fun _ _ => rfl) fun w other => .inr
    { before := by rw [current]; exact fun h => other (Option.some.inj h).symm
      after := by
        show p.current? ≠ some w
        rcases own with own | rfl
        · rw [own]
          exact fun h => other (Option.some.inj h).symm
        · exact fun h => nomatch h
      online := fun n b h => by rw [h] at current; cases current
      offline := fun n b h => by
        have h : p = .offline n b := h
        rcases own with own | rfl
        · rw [h] at own
          cases own
        · cases h }

theorem abortSampleOf_handles (s : State) : Handles v s (abortSampleOf v s) := by
  have released (x : Well) (current : s.seq.phase.current? = some x) (own : s.seq.phase.current? = some v) :
      Handles v s (writeOutcome .aborted x (setPhase (.release x) s)) := by
    obtain rfl : x = v := Option.some.inj (current.symm.trans own)
    exact (setPhase_handles own (.inl rfl)).trans (writeOutcome_handles .aborted _)
  unfold abortSampleOf
  split
  · rename_i own
    unfold abortSample
    split
    case h_1 | h_2 | h_3 =>
      rename_i phase
      exact released _ (by rw [phase]; rfl) own
    case h_4 | h_5 | h_6 => exact .refl s
  · exact .refl s

theorem leaveSampling_handles (s : State) : Handles v s (leaveSampling v s) :=
  (removeEntry_handles s).trans (abortSampleOf_handles _)

theorem evict_handles {e : QueueEntry} (mem : e ∈ s.seq.queue) (cls : e.cls = .routine) : Handles v s (evict e s) := by
  refine .of_calm (evict_calm e s) (fun _ => id) ?_ fun w _ => ?_
  · exact (slotsKept_of_slots (s := s) (t := setQueue (withoutEntry e.well s.seq.queue) s) rfl).trans
      (write_slotsKept (f := fun r => { r with queued := .no, surveyDue := 0 }) (fun _ => rfl) e.well _)
  · by_cases own : e.well = w
    · exact .single (.evicted mem own cls)
    · exact .single (.unseen ((writeRecord_seat _ (Ne.symm own) _).trans
        (setQueue_seat (entriesOf_withoutEntry (Ne.symm own) _))) (.inl rfl) rfl rfl)

theorem of_newestRoutine {q : List QueueEntry} {e : QueueEntry} (h : newestRoutine q = some e) :
    e ∈ q ∧ e.cls = .routine := by
  unfold newestRoutine at h
  split at h
  · cases h
  · rename_i x last
    split at h
    · rename_i cls
      cases h
      exact ⟨List.mem_of_getLast? last, cls⟩
    · cases h

theorem urgentEnqueue_handles (held : Bool) (s : State) : Handles v s (urgentEnqueue held v s) := by
  have test (t : State) : Handles v t (if held then t else headTest t) := by
    split
    · exact .refl t
    · exact headTest_handles t
  unfold urgentEnqueue
  dsimp only
  split
  · exact .refl s
  split
  · exact .refl s
  split
  · exact .refl s
  · exact (placeInQueue_handles .urgent s).trans (test _)
  · exact dueAtOnce_handles s
  · split
    · exact (placeInQueue_handles .urgent s).trans (test _)
    · split
      · rename_i newest
        obtain ⟨mem, cls⟩ := of_newestRoutine newest
        exact ((evict_handles mem cls).trans (placeInQueue_handles .urgent _)).trans (test _)
      · exact dueAtOnce_handles s

theorem capEnqueue_handles (later : List Handed) (s : State) : Handles v s (capEnqueue later v s) := by
  unfold capEnqueue
  split
  · exact .refl s
  · exact urgentEnqueue_handles _ s

theorem setDeviceEvent_handles (k : DeviceEvent) (s : State) : Handles v s (setDeviceEvent k s) :=
  .of_calm (setDeviceEvent_calm k s) (setDeviceEvent_device k s) (slotsKept_of_slots rfl) fun _ _ =>
    .single (.unseen rfl (.inl rfl) rfl rfl)

theorem enterOffline_handles {f : FailureRun} (current : s.seq.phase.current? = some v)
    (failures : s.seq.failures = some f) (reached : f.count = Config.offlineCount) : Handles v s (enterOffline f s) := by
  have offline : Handles v s (setPhase (.offline Config.probeSeconds false) s) :=
    .of_seat (setPhase_calm _ s) rfl (slotsKept_of_slots rfl) (fun _ _ => rfl) fun w other => .inr
      { before := by rw [current]; exact fun h => other (Option.some.inj h).symm
        after := fun h => nomatch h
        online := fun n b h => by rw [h] at current; cases current
        offline := fun _ _ _ => ⟨f, failures, reached⟩ }
  exact (offline.trans (reportFault_handles _ _ _ _)).trans (setDeviceEvent_handles .analyser _)

theorem leaveSample_handles (current : s.seq.phase.current? = some v) : Handles v s (leaveSample s) := by
  have idle : Handles v s (enterIdle s) := (setPhase_handles current (.inr rfl)).trans (headTest_handles _)
  unfold leaveSample
  split
  · exact idle
  · rename_i f failures
    split
    · rename_i reached
      exact enterOffline_handles current failures reached
    · exact idle

theorem takeConfirmation_handles (valve : Bool) (s : State) : Handles v s (takeConfirmation valve v s) := by
  unfold takeConfirmation
  split
  · rename_i x phase
    split
    · rename_i own
      exact setPhase_handles (by rw [phase, own.2]; rfl) (.inl rfl)
    · exact .refl s
  · rename_i x phase
    split
    · rename_i own
      exact (setQueued_handles .no s).trans (leaveSample_handles (by
        show s.seq.phase.current? = some v
        rw [phase, own.2]
        rfl))
    · exact .refl s
  all_goals exact .refl s

/-! ### Freeing -/

/-- In an ordered table the removal of a record is seen by no read of another well. -/
theorem well?_removeRecord (ordered : s.SlotsOrdered) (other : w ≠ v) :
    (removeRecord v s).well? w = s.well? w := by
  have orderedR : (removeRecord v s).SlotsOrdered := SlotsOrdered.filter _ (removeRecord_slots s v) ordered
  cases hx : s.well? w with
  | none =>
    cases hy : (removeRecord v s).well? w with
    | none => rfl
    | some y =>
      obtain ⟨mem, tag⟩ := mem_of_well? hy
      rw [SlotsOrdered.well? ordered (List.mem_of_mem_filter mem) ((isWell_iff _ _).2 ⟨rfl, tag⟩)] at hx
      cases hx
  | some x =>
    obtain ⟨mem, tag⟩ := mem_of_well? hx
    have stays : isWell v (w.slot, x) = false := by
      rw [Bool.eq_false_iff]
      intro own
      obtain ⟨slot, same⟩ := (isWell_iff _ _).1 own
      refine other ?_
      cases w
      cases v
      simp_all
    exact SlotsOrdered.well? orderedR (List.mem_filter.2 ⟨mem, by simp [stays]⟩) ((isWell_iff _ _).2 ⟨rfl, tag⟩)

theorem removeRecord_handles (s : State) : Handles v s (removeRecord v s) := fun landed =>
  { landed := ⟨landed.ended, landed.running, RecordsLegal.remove landed.legal⟩
    settings := rfl
    failures := rfl
    index := fun _ he => List.mem_of_mem_filter he
    state := .inl rfl
    reports := fun _ _ _ => id
    device := fun _ => id
    others := fun _ other => .single (.unseen
      (congrArg (Seat.mk · _ _ _) (well?_removeRecord landed.legal.1 other)) (.inl rfl) rfl rfl)
    stations := fun y hy => ⟨y, hy, rfl, fun _ => id⟩
    slots := fun w y hy => by
      obtain ⟨mem, tag⟩ := mem_of_well? hy
      exact ⟨y, SlotsOrdered.well? landed.legal.1 (List.mem_of_mem_filter mem) ((isWell_iff _ _).2 ⟨rfl, tag⟩), .refl y⟩ }

theorem sequencerDrops_handles (s : State) : Handles v s (sequencerDrops v s) := by
  have queue : Handles v s (setQueue (withoutEntry v s.seq.queue) s) :=
    setQueue_handles fun _ other => entriesOf_withoutEntry other _
  unfold sequencerDrops
  dsimp only
  split
  · rename_i current
    exact queue.trans (leaveSample_handles current)
  · exact queue

theorem schedulerDrops_handles (s : State) : Handles v s (schedulerDrops v s) := by
  unfold schedulerDrops
  split
  · exact (leaveLists_handles s).trans (grantTest_handles _)
  · exact leaveLists_handles s

/-- With no transaction in flight, the freeing of a channel changes the station table alone, and puts no channel in it
(R48). -/
theorem dropStationChannel_stations (a c : Nat) (ended : s.scan.inFlight = none) :
    dropStationChannel a c s =
      { s with scan := { s.scan with stations := (dropStationChannel a c s).scan.stations } } ∧
    ∀ y ∈ (dropStationChannel a c s).scan.stations, ∃ x ∈ s.scan.stations, y.address = x.address ∧
      ∀ d ∈ y.channels, d ∈ x.channels := by
  have changed : ∀ y ∈ (changeStation (StationRecord.dropped c) a s).scan.stations, ∃ x ∈ s.scan.stations,
      y.address = x.address ∧ ∀ d ∈ y.channels, d ∈ x.channels := by
    intro y hy
    obtain ⟨x, hx, rfl⟩ := List.mem_map.1 hy
    refine ⟨x, hx, ?_⟩
    split
    · exact ⟨rfl, fun d hd => List.mem_of_mem_filter hd⟩
    · exact ⟨rfl, fun _ => id⟩
  unfold dropStationChannel
  dsimp only
  split
  · exact ⟨rfl, changed⟩
  split
  · split
    · exact ⟨rfl, fun y hy => changed y (List.mem_of_mem_filter hy)⟩
    · rename_i tr flying
      cases ended.symm.trans flying
  · exact ⟨rfl, changed⟩

theorem dropStationChannel_handles (a c : Nat) (s : State) : Handles v s (dropStationChannel a c s) := fun landed => by
  obtain ⟨same, stations⟩ := dropStationChannel_stations a c landed.ended
  have legal := (dropStationChannel_tame a c s).legal landed.legal
  generalize dropStationChannel a c s = t at same stations legal
  rw [same] at legal stations ⊢
  exact
    { landed := ⟨landed.ended, landed.running, legal⟩
      settings := rfl
      failures := rfl
      index := fun _ => id
      state := .inl rfl
      reports := fun _ _ _ => id
      device := fun _ => id
      others := fun w _ => .single (.unseen rfl (.inl rfl) rfl rfl)
      stations := stations
      slots := slotsKept_of_slots rfl }

theorem evalAlerts_handles (s : State) : Handles v s (evalAlerts s) :=
  .of_seat (evalAlerts_calm s) rfl (slotsKept_of_slots rfl) (fun _ _ => rfl) fun _ _ => .inl rfl

theorem freeWell_handles (s : State) : Handles v s (freeWell v s) := by
  cases hx : s.well? v with
  | none =>
    rw [freeWell, hx]
    exact .refl s
  | some x =>
    rw [freeWell_eq hx]
    exact ((((removeRecord_handles s).trans (sequencerDrops_handles _)).trans (schedulerDrops_handles _)).trans
      (dropStationChannel_handles _ _ _)).trans (evalAlerts_handles _)

theorem freeDamaged_handles (s : State) : Handles v s (freeDamaged v s) :=
  (freeWell_handles s).trans (reportFault_handles _ _ _ _)

/-! ### Need, targets and isolation -/

theorem evalNeed_handles (s : State) : Handles v s (evalNeed v s) := by
  unfold evalNeed
  split
  · exact .refl s
  split
  · exact .refl s
  split
  · exact blockMove_handles s
  split
  · exact .refl s
  split
  · exact freeWell_handles s
  split
  · split
    · exact .refl s
    · exact leaveQuietly_handles s
  split
  · exact joinWaitList_handles s
  split
  · exact findBlocked_handles s
  · exact .refl s

theorem checkMove_handles (s : State) : Handles v s (checkMove v s) := by
  unfold checkMove
  split
  · exact .refl s
  split
  · split
    · exact .refl s
    · split
      · exact freeWell_handles s
      · exact (endMove_handles .done s).trans (grantTest_handles _)
  · split
    · exact freeWell_handles s
    · exact .refl s

theorem takeFeedback_handles (baseline : Bool) (s : State) : Handles v s (takeFeedback baseline v s) := by
  unfold takeFeedback
  cases baseline
  · exact checkMove_handles s
  · exact (evalNeed_handles s).trans (checkMove_handles _)

theorem handTarget_handles (s : State) : Handles v s (handTarget v s) := by
  unfold handTarget
  split
  · exact restartTimer_handles s
  · exact evalNeed_handles s

/-- The isolation of an active well writes its record, takes it out of sampling, and hands its target (R27, R36). -/
theorem buttonIsolate_handles (s : State) : Handles v s (buttonIsolate v s) := by
  unfold buttonIsolate
  split
  · exact .refl s
  rename_i r hr
  split
  · rename_i isolable
    by_cases same : r.mode = .isolated
    · rw [changeMode_same hr same]
      exact .refl s
    · have active : r.mode.isActive = true := sampled_active (Bool.and_eq_true_iff.1 isolable).1
      have written : Handles v s (modeWritten .isolated v s) :=
        (write_handles (f := WellRecord.entered .isolated s.settings.suspectInterval)
          (writeEntered_calm rfl fun q hq => by cases hr.symm.trans hq; exact active)
          fun q => (entered_sameAlarm .isolated s.settings.suspectInterval q).1).trans (leaveSampling_handles _)
      rw [changeMode_eq hr same]
      split
      · exact written.trans (handTarget_handles _)
      · exact written
  · exact .refl s

theorem liquidPurge_handles (s : State) : Handles v s (liquidPurge v s) := by
  unfold liquidPurge
  split
  · exact .refl s
  split
  · exact startPulse_handles s
  · exact .refl s

theorem takeHanded_handles (later : List Handed) (h : Handed) (s : State) : Handles v s (takeHanded later v h s) := by
  cases h with
  | isolate => exact buttonIsolate_handles s
  | capAbort => exact abortSampleOf_handles s
  | capEnqueue => exact capEnqueue_handles later s
  | actuatorBlock => exact blockMove_handles s
  | actuatorReport => exact reportFault_handles _ _ _ s
  | actuatorFall => exact evalNeed_handles s
  | autoPurge => exact liquidPurge_handles s
  | feedback baseline => exact takeFeedback_handles baseline s
  | confirm valve => exact takeConfirmation_handles valve s

theorem takeAllHanded_handles (hs : List Handed) (s : State) : Handles v s (takeAllHanded v hs s) := by
  induction hs generalizing s with
  | nil => exact .refl s
  | cons h later ih => exact (takeHanded_handles later h s).trans (ih _)

/-! ### The event unit's part -/

/-- What an operation on the well `v` leaves, the event unit's part of its arrival among them. -/
def Turns (v : Well) (s t : State) : Prop := s.Landed → Turned v s t

theorem Turns.trans (a : Turns v s t) (b : Turns v t u) : Turns v s u := fun landed =>
  (a landed).trans (b (a landed).landed)

theorem Handles.turns (h : Handles v s t) : Turns v s t := fun landed => (h landed).toTurned

theorem Turns.of_calm (calm : Calm s t) (device : t.device = s.device)
    (seat : ∀ w, w ≠ v → t.seat w = s.seat w) (phase : t.seq.phase = s.seq.phase) : Turns v s t := fun landed =>
  { landed := ⟨by rw [calm.scan]; exact landed.ended, by rw [calm.scan]; exact landed.running, calm.legal landed.legal⟩
    settings := calm.settings
    failures := calm.failures
    index := fun e he => by rw [← calm.index]; exact he
    state := .inl calm.state
    reports := fun k n d h => by rw [State.Reported, calm.faults]; exact h
    device := fun i h => by rw [device]; exact h
    others := fun w other => .single (.unseen (seat w other) (.inl phase) calm.failures calm.state) }

/-- An update of the station table. -/
theorem changeStation_turns (f : StationRecord → StationRecord) (a : Nat) (s : State) :
    Turns v s (changeStation f a s) := fun landed =>
  { landed := ⟨landed.ended, landed.running, landed.legal⟩
    settings := rfl
    failures := rfl
    index := fun _ => id
    state := .inl rfl
    reports := fun _ _ _ => id
    device := fun _ => id
    others := fun _ _ => .single (.unseen rfl (.inl rfl) rfl rfl) }

theorem write_turns {f : WellRecord → WellRecord} (calm : Calm s (writeRecord f v s)) : Turns v s (writeRecord f v s) :=
  .of_calm calm rfl (fun _ other => writeRecord_seat f other s) rfl

theorem setRuns_turns (q : PerInput Run) (s : State) : Turns v s (setRuns q v s) :=
  .of_calm (setRuns_calm q v s) rfl
    (fun _ other => writeSlot_seat (f := fun x => { x with runs := q }) (fun _ => rfl) other s) rfl

theorem setEvent_turns (k : WellEvent) (s : State) : Turns v s (setWellEvent k v s) :=
  .of_calm (setWellEvent_calm k v s) (setWellEvent_device k v s)
    (fun _ other => (seat_congr (wakeTest_slots k v _) (congrArg (·.queue) (setWellEvent_apart k v s).seq)
      (setWellEvent_apart k v s).moves).trans (writeRecord_seat (addEvent k) other s))
    (congrArg (·.phase) (setWellEvent_apart k v s).seq)

theorem Turns.refl (s : State) : Turns v s s := (Handles.refl s).turns

theorem setEdgeEvents_turns (detect : BitVec 16) (before after : PerInput Level) (s : State) :
    Turns v s (setEdgeEvents detect before after v s) := by
  refine List.foldlRecOn (motive := Turns v s) _ _ (.refl s) fun t taken i _ => ?_
  split
  · exact taken.trans (setEvent_turns _ t)
  · exact taken

theorem takeBaseline_turns (a : Nat) (c : ChannelReading) (s : State) : Turns v s (takeBaseline a c v s) :=
  ((write_turns (f := fun r => { r with inputs := some c.raw }) (setInputs_calm c.raw v s)).trans
    (setRuns_turns noRuns _)).trans (changeStation_turns _ a _)

theorem takeLevels_turns (c : ChannelReading) (before : PerInput Level) (x : Slot) (s : State) :
    Turns v s (takeLevels c before x v s) :=
  ((write_turns (f := fun r => { r with inputs := some (debounceAll x.record.debounce c.raw before x.runs).1 })
    (setInputs_calm _ v s)).trans (setRuns_turns _ _)).trans (setEdgeEvents_turns _ _ _ _)

theorem takeArrival_turns (a : Nat) (p : PollChannel) (c : ChannelReading) (order : List Nat) (x : Slot) (s : State) :
    Turns p.well s (takeArrival a p c order x s) := by
  have baseline : Turns p.well s (takeAllHanded p.well
      (reorder order [.feedback true, .confirm p.outputs.sampleValve]) (takeBaseline a c p.well s)) :=
    (takeBaseline_turns a c s).trans (takeAllHanded_handles _ _).turns
  unfold takeArrival
  split
  · exact baseline
  · split
    · exact baseline
    · exact (takeLevels_turns c _ x s).trans (takeAllHanded_handles _ _).turns

theorem takeChannel_turns (a : Nat) (p : PollChannel) (c : ChannelReading) (order : List Nat) (s : State) :
    Turns p.well s (takeChannel a p c order s) := by
  unfold takeChannel
  split
  · exact .refl s
  split
  · exact (write_turns (f := WellRecord.withReadings c)
      (writeRecord_plain (fun _ => rfl) (fun _ => ⟨rfl, rfl, rfl⟩) fun _ h => h)).trans (takeArrival_turns a p c order _ _)
  · exact (freeDamaged_handles s).turns

end Sys2Proof.Machine
end

