-- ==== Sys2Proof/Proofs/BesideKept.lean ====
section
/-! SUPPORT. What a step beside a well leaves of it: its record up to its marks, its place in the lists and in the queue,
and its sample in hand. -/

namespace Sys2Proof.Machine

variable {α : Type} {g : WellRecord → α} {s t u : State} {v w : Well}

/-! ### A reading of the record that stays -/

/-- What `g` reads of the record of the well, when it stands in `t`, it read in `s`. -/
def SameRead (g : WellRecord → α) (w : Well) (s t : State) : Prop :=
  ∀ q, t.record? w = some q → ∃ r, s.record? w = some r ∧ g q = g r

/-- The marks of a sample: QUEUED, SAMPLE_OUTCOME and the SAMPLE event. -/
def sampleMarks (r : WellRecord) : Queued × SampleOutcome × Bool := (r.queued, r.sampleOutcome, r.events.getLsbD 7)

/-- The marks of a move: MOVE_STATE and MOVE_OUTCOME. -/
def moveMarks (r : WellRecord) : MoveState × MoveOutcome := (r.moveState, r.moveOutcome)

theorem sameRead_of_record (same : t.record? w = s.record? w) : SameRead g w s t := fun q hq =>
  ⟨q, same ▸ hq, rfl⟩

theorem SameRead.refl (s : State) : SameRead g w s s := sameRead_of_record rfl

theorem SameRead.trans (a : SameRead g w s t) (b : SameRead g w t u) : SameRead g w s u := fun p hp => by
  obtain ⟨q, hq, second⟩ := b p hp
  obtain ⟨r, hr, first⟩ := a q hq
  exact ⟨r, hr, second.trans first⟩

theorem sameRead_of_slots (slots : t.slots = s.slots) : SameRead g w s t := sameRead_of_record (record?_congr slots w)

theorem sameRead_write {f : WellRecord → WellRecord} (keeps : ∀ r, g (f r) = g r) (x : Well) (s : State) :
    SameRead g w s (writeRecord f x s) := fun q hq => by
  rw [record?_writeRecord] at hq
  split at hq
  · rename_i own
    subst own
    obtain ⟨r, hr, rfl⟩ := Option.map_eq_some_iff.1 hq
    exact ⟨r, hr, keeps r⟩
  · exact ⟨q, hq, rfl⟩

theorem sameRead_event {k : WellEvent} (keeps : ∀ r, g (addEvent k r) = g r) (x : Well) (s : State) :
    SameRead g w s (setWellEvent k x s) :=
  (sameRead_write keeps x s).trans (sameRead_of_slots (wakeTest_slots k x _))

theorem SameRead.shows {P : α → Prop} (same : SameRead g w s t) (shows : s.Shows w fun r => P (g r)) :
    t.Shows w fun q => P (g q) := fun q hq => by
  obtain ⟨r, hr, e⟩ := same q hq
  rw [e]
  exact shows r hr

theorem SameRead.comp {β : Type} (f : α → β) (same : SameRead g w s t) : SameRead (fun r => f (g r)) w s t :=
  fun q hq => (same q hq).imp fun _ h => ⟨h.1, congrArg f h.2⟩

/-- A grant is seen in MOVE_STATE alone. -/
theorem grant_read {x : Well} {rest : List Well} (keeps : ∀ r : WellRecord, g { r with moveState := .moving } = g r) :
    SameRead g w s (grant x rest s) :=
  sameRead_write (f := fun r => { r with moveState := .moving }) keeps x
    { s with moves := { holders := s.moves.holders ++ [{ well := x, timer := s.settings.moveTimeout }], waiting := rest } }

/-- A well taken into SELECT is SAMPLING (R93). -/
theorem headSelected_sampling (e : QueueEntry) (rest : List QueueEntry) (s : State) :
    (headSelected e rest s).Shows e.well fun r => r.queued = .sampling := fun q hq => by
  obtain ⟨r, _, rfl⟩ := of_record?_writeRecord (f := fun r => { r with queued := .sampling })
    (s := { setQueue rest s with seq := { (setQueue rest s).seq with phase := .select e.well, busyCount := 0 } }) hq
  rfl

theorem record?_writeOutcome_other {o : SampleOutcome} {x : Well} (other : w ≠ x) (s : State) :
    (writeOutcome o x s).record? w = s.record? w := by
  rw [writeOutcome, record?_setWellEvent, if_neg other, record?_writeRecord, if_neg other]

theorem record?_endMove_other {o : MoveOutcome} {x : Well} (other : w ≠ x) (s : State) :
    (endMove o x s).record? w = s.record? w := by
  rw [endMove, record?_setWellEvent, if_neg other, record?_writeRecord, if_neg other]
  rfl

theorem endMove_sampleMarks (o : MoveOutcome) (x : Well) (s : State) : SameRead sampleMarks w s (endMove o x s) :=
  ((sameRead_of_slots (s := s) (t := leaveLists x s) rfl).trans (sameRead_write (f := moveEnded o) (fun _ => rfl) x _)).trans
    (sameRead_event (fun r => by simp [sampleMarks, addEvent, WellEvent.bit]) x _)

theorem abandonAllMoves_sampleMarks (s : State) : SameRead sampleMarks w s (abandonAllMoves s) := by
  unfold abandonAllMoves abandonMoves forEach
  refine List.foldlRecOn (motive := SameRead sampleMarks w s) _ _ (.refl s) fun t taken x _ => ?_
  dsimp only
  split
  · exact taken.trans (endMove_sampleMarks _ x t)
  · exact taken

/-- The abort of another well's sample leaves the record. -/
theorem record?_abortSample (shut : ¬ s.SampleOpen w) : (abortSample s).record? w = s.record? w := by
  cases opened : s.seq.phase.isOpen with
  | false => rw [abortSample_of_shut opened]
  | true =>
    obtain ⟨x, sample⟩ := current?_of_open opened
    rw [abortSample_of_open sample]
    have other : w ≠ x := by
      rintro rfl
      exact shut sample
    exact record?_writeOutcome_other other _

theorem abortSample_queued (s : State) : SameRead WellRecord.queued w s (abortSample s) := by
  by_cases opened : s.SampleOpen w
  · rw [abortSample_of_open opened]
    exact SameRead.trans (t := setPhase (.release w) s) (sameRead_of_slots rfl)
      ((sameRead_write (f := fun r => { r with sampleOutcome := .aborted }) (fun _ => rfl) w _).trans
        (sameRead_event (fun _ => rfl) w _))
  · exact sameRead_of_record (record?_abortSample opened)

/-! ### A report -/

/-- A report outside the entry to SAFE changes the table, the sequencer and the lists in nothing; an entry to SAFE ends
moves and a sample, and withdraws the permit, as each block takes it. -/
theorem reportFault_parts (k : FaultKind) (n : Nat) (d : Half) (running : s.scan.round ≠ .idle) :
    ∃ u : State, u.slots = s.slots ∧ u.seq = s.seq ∧ u.moves = s.moves ∧
      (reportFault k n d s = u ∨ s.device.state ≠ .safe ∧ (reportFault k n d s).device.state = .safe ∧
        ∃ moves sample permit, reportFault k n d s =
          takeIf permit withdrawPermit (takeIf sample abortSample (takeIf moves abandonAllMoves u))) := by
  have change (h : Handover) : ∃ u : State, u.slots = s.slots ∧ u.seq = s.seq ∧ u.moves = s.moves ∧
      ∃ moves sample permit,
        handChange h (setDeviceEvent .state (setDeviceState .safe (setDeviceEvent .fault (recordFault k n d s)))) =
          takeIf permit withdrawPermit (takeIf sample abortSample (takeIf moves abandonAllMoves u)) :=
    by
    let e : State := setDeviceEvent .state (setDeviceState .safe (setDeviceEvent .fault (recordFault k n d s)))
    exact ⟨setOwed (e.device.owed.map₂ or (h.map₂ and e.lateBlocks)) e, rfl, rfl, rfl, _, _, _,
      takeChange_running _ running⟩
  by_cases fatal : severityOf s.settings.severity k = .fatal
  · have safe := reportFault_fatal k n d s fatal
    have entry : reportFault k n d s = enterSafe (setDeviceEvent .fault (recordFault k n d s)) := by
      simp only [reportFault, fatal]
    unfold enterSafe at entry
    split at entry
    · exact ⟨setDeviceEvent .fault (recordFault k n d s), rfl, rfl, rfl, .inl entry⟩
    all_goals
      rename_i state
      have before : s.device.state ≠ .safe := fun h => by cases state.symm.trans h
      obtain ⟨u, slots, seq, moves, parts⟩ := change (safeEntry _)
      exact ⟨u, slots, seq, moves, .inr ⟨before, safe, by rw [entry]; exact parts⟩⟩
  · obtain ⟨slots, seq, moves⟩ : (reportFault k n d s).slots = s.slots ∧ (reportFault k n d s).seq = s.seq ∧
        (reportFault k n d s).moves = s.moves := by
      unfold reportFault
      split
      case h_4 severity => exact absurd severity fatal
      all_goals exact ⟨rfl, rfl, rfl⟩
    exact ⟨_, slots, seq, moves, .inl rfl⟩

/-- A report that leaves the device state leaves the table, the sequencer and the lists. -/
theorem reportFault_steady {k : FaultKind} {n : Nat} {d : Half} (running : s.scan.round ≠ .idle)
    (steady : (reportFault k n d s).device.state = s.device.state) : (reportFault k n d s).slots = s.slots ∧
    (reportFault k n d s).seq = s.seq ∧ (reportFault k n d s).moves = s.moves := by
  obtain ⟨u, slots, seq, moves, e | ⟨before, after, _⟩⟩ := reportFault_parts k n d running
  · rw [e]
    exact ⟨slots, seq, moves⟩
  · exact absurd (steady.symm.trans after) before

theorem takeIf_sameRead {f : State → State} (b : Bool) (each : ∀ t, SameRead g w t (f t)) (s : State) :
    SameRead g w s (takeIf b f s) := by
  cases b
  · exact .refl s
  · exact each s

theorem reportFault_queued {k : FaultKind} {n : Nat} {d : Half} (running : s.scan.round ≠ .idle) :
    SameRead WellRecord.queued w s (reportFault k n d s) := by
  obtain ⟨u, slots, _, _, e | ⟨_, _, moves, sample, permit, e⟩⟩ := reportFault_parts k n d running
  · rw [e]
    exact sameRead_of_slots slots
  · rw [e]
    exact (((sameRead_of_slots slots).trans
      (takeIf_sameRead _ (fun t => (abandonAllMoves_sampleMarks t).comp fun m => m.1) _)).trans
      (takeIf_sameRead _ abortSample_queued _)).trans
      (takeIf_sameRead _ (fun t => sameRead_of_slots (withdrawPermit_slots t)) _)

theorem reportFault_sampleMarks {k : FaultKind} {n : Nat} {d : Half} (running : s.scan.round ≠ .idle)
    (shut : ¬ s.SampleOpen w) : SameRead sampleMarks w s (reportFault k n d s) := by
  obtain ⟨u, slots, seq, _, e | ⟨_, _, moves, sample, permit, e⟩⟩ := reportFault_parts k n d running
  · rw [e]
    exact sameRead_of_slots slots
  · have seq' : (takeIf moves abandonAllMoves u).seq = s.seq :=
      (takeIf_same State.seq _ (fun t => (abandonAllMoves_seqApart t).seq) u).trans seq
    have aborted : SameRead sampleMarks w (takeIf moves abandonAllMoves u)
        (takeIf sample abortSample (takeIf moves abandonAllMoves u)) := by
      cases sample with
      | false => exact .refl _
      | true => exact sameRead_of_record (record?_abortSample (by rw [State.SampleOpen, seq']; exact shut))
    rw [e]
    exact (((sameRead_of_slots slots).trans (takeIf_sameRead _ abandonAllMoves_sampleMarks _)).trans aborted).trans
      (takeIf_sameRead _ (fun t => sameRead_of_slots (withdrawPermit_slots t)) _)

theorem abortSample_moveMarks (s : State) : SameRead moveMarks w s (abortSample s) := fun q hq => by
  obtain ⟨r, hr, marked⟩ := (abortSample_marksOf (m := false) s).back hq
  exact ⟨r, hr, by rw [moveMarks, (marked.move rfl).1, (marked.move rfl).2]; rfl⟩

theorem reportFault_moveMarks {k : FaultKind} {n : Nat} {d : Half} (running : s.scan.round ≠ .idle)
    (unlisted : ¬ s.Listed w) : SameRead moveMarks w s (reportFault k n d s) := by
  obtain ⟨u, slots, _, lists, e | ⟨_, _, moves, sample, permit, e⟩⟩ := reportFault_parts k n d running
  · rw [e]
    exact sameRead_of_slots slots
  · have out : ¬ u.Listed w := by rw [State.Listed, State.inLists, lists]; exact unlisted
    have abandoned : SameRead moveMarks w u (takeIf moves abandonAllMoves u) := by
      cases moves with
      | false => exact .refl _
      | true => exact sameRead_of_record (abandonMoves_unlisted _ out)
    rw [e]
    exact (((sameRead_of_slots slots).trans abandoned).trans (takeIf_sameRead _ abortSample_moveMarks _)).trans
      (takeIf_sameRead _ (fun t => sameRead_of_slots (withdrawPermit_slots t)) _)

/-! ### The record up to its marks -/

/-- The record `q` is `r` but for its marks, and SURVEY_DUE is as it was or 0. -/
structure Stayed (r q : WellRecord) : Prop where
  same : q = { r with surveyDue := q.surveyDue, events := q.events, queued := q.queued,
                      sampleOutcome := q.sampleOutcome, moveState := q.moveState, moveOutcome := q.moveOutcome }
  due  : q.surveyDue = r.surveyDue ∨ q.surveyDue = 0

/-- The well stands in `t` as it stood in `s`, but for its marks. -/
structure Stays (w : Well) (s t : State) : Prop where
  found : ∀ r, s.record? w = some r → ∃ q, t.record? w = some q ∧ Stayed r q
  gone  : s.well? w = none → t.well? w = none
  slot  : ∀ y, t.well? w = some y → ∃ x, s.well? w = some x ∧ SlotKept x y

theorem Stayed.refl (r : WellRecord) : Stayed r r := ⟨rfl, .inl rfl⟩

theorem Stayed.trans {p q r : WellRecord} (a : Stayed p q) (b : Stayed q r) : Stayed p r where
  same := by rw [b.same, a.same]
  due := by
    rcases b.due with due | due
    · rw [due]
      exact a.due
    · exact .inr due

theorem Stays.refl (s : State) : Stays w s s :=
  ⟨fun r hr => ⟨r, hr, .refl r⟩, id, fun y hy => ⟨y, hy, .refl y⟩⟩

theorem Stays.trans (a : Stays w s t) (b : Stays w t u) : Stays w s u where
  found r hr := by
    obtain ⟨q, hq, first⟩ := a.found r hr
    obtain ⟨p, hp, second⟩ := b.found q hq
    exact ⟨p, hp, first.trans second⟩
  gone h := b.gone (a.gone h)
  slot z hz := by
    obtain ⟨y, hy, second⟩ := b.slot z hz
    obtain ⟨x, hx, first⟩ := a.slot y hy
    exact ⟨x, hx, first.trans second⟩

theorem well?_eq_none : s.well? w = none ↔ s.record? w = none := by simp [State.record?]

theorem stays_of_well (same : t.well? w = s.well? w) : Stays w s t :=
  ⟨fun r hr => ⟨r, by rw [State.record?, same]; exact hr, .refl r⟩, fun h => same.trans h,
    fun y hy => ⟨y, same ▸ hy, .refl y⟩⟩

theorem Marks.stays (marks : Marks s t) (slots : SlotsKept s t) (w : Well) : Stays w s t where
  found r hr := by
    obtain ⟨q, hq, same⟩ := marks.holds w r hr
    have due : q.surveyDue = r.surveyDue := by rw [same]
    exact ⟨q, hq, by rw [due]; exact same, .inl due⟩
  gone h := well?_eq_none.2 (marks.gone w (well?_eq_none.1 h))
  slot y hy := slots w y hy

theorem grant_marks (x : Well) (rest : List Well) (s : State) : Marks s (grant x rest s) :=
  marks_after (setMoveState_marks .moving x _) rfl

theorem grant_slotsKept (x : Well) (rest : List Well) (s : State) : SlotsKept s (grant x rest s) :=
  write_slotsKept (f := fun r => { r with moveState := .moving }) (fun _ => rfl) x
    { s with moves := { holders := s.moves.holders ++ [{ well := x, timer := s.settings.moveTimeout }], waiting := rest } }

theorem headBlocked_marks (e : QueueEntry) (rest : List QueueEntry) (s : State) : Marks s (headBlocked e rest s) :=
  ((setQueue_marks rest s).trans (writeOutcome_marks .blocked e.well _)).trans (setQueued_marks .no e.well _)

theorem headSelected_marks (e : QueueEntry) (rest : List QueueEntry) (s : State) : Marks s (headSelected e rest s) :=
  (setQueue_marks rest s).trans (selectWell_marks e.well _)

theorem evict_stays (e : QueueEntry) (w : Well) (s : State) : Stays w s (evict e s) where
  found r hr := by
    have read : (evict e s).record? w = if w = e.well then (s.record? e.well).map _ else s.record? w :=
      record?_writeRecord _ e.well w _
    by_cases own : w = e.well
    · rw [if_pos own, ← own, hr] at read
      exact ⟨_, read, rfl, .inr rfl⟩
    · rw [if_neg own, hr] at read
      exact ⟨r, read, .refl r⟩
  gone h := by
    have read : (evict e s).well? w = if w = e.well then (s.well? e.well).map _ else s.well? w :=
      well?_writeRecord _ e.well w _
    rw [read]
    split
    · rename_i own
      rw [← own, h]
      rfl
    · exact h
  slot y hy := by
    exact write_slotsKept (f := fun r => { r with queued := .no, surveyDue := 0 }) (fun _ => rfl) e.well
      (setQueue (withoutEntry e.well s.seq.queue) s) w y hy

theorem Beside.stays (h : Beside w s t) : Stays w s t := by
  cases h with
  | unseen seat _ _ _ => exact stays_of_well (congrArg Seat.slot seat)
  | granted _ => exact (grant_marks _ _ s).stays (grant_slotsKept _ _ s) w
  | evicted _ _ _ => exact evict_stays _ w s
  | blocked _ _ _ _ => exact (headBlocked_marks _ _ s).stays (headBlocked_slotsKept _ _ s) w
  | selected _ _ _ _ => exact (headSelected_marks _ _ s).stays (headSelected_slotsKept _ _ s) w
  | reported k n d landed => exact (reportFault_marks k n d s).stays (reportFault_turns k n d landed.running).1 w

theorem beside_stays (h : Relation.ReflTransGen (Beside w) s t) : Stays w s t := by
  induction h with
  | refl => exact .refl s
  | tail _ last ih => exact ih.trans last.stays

/-! ### The device state -/

theorem Beside.state (h : Beside w s t) : t.device.state = s.device.state ∨ t.device.state = .safe := by
  cases h with
  | unseen _ _ _ state => exact .inl state
  | granted _ => exact .inl rfl
  | evicted _ _ _ => exact .inl rfl
  | @blocked e rest _ _ _ _ =>
    obtain ⟨_, _, device⟩ := headBlocked_apart e rest s
    exact .inl (by rw [device])
  | selected _ _ _ _ => exact .inl rfl
  | reported k n d landed =>
    exact (reportFault_handles (v := w) k n d s landed).state.imp id And.left

/-- An invariant of the steps that leave the device state holds at the end of a chain that leaves it. -/
theorem beside_steady {P : State → Prop}
    (step : ∀ s t, Beside w s t → t.device.state = s.device.state → P s → P t)
    (chain : Relation.ReflTransGen (Beside w) s t) (before : P s) (steady : t.device.state = s.device.state) : P t := by
  have all : (t.device.state = s.device.state ∨ t.device.state = .safe) ∧ (t.device.state = s.device.state → P t) := by
    clear steady
    induction chain with
    | refl => exact ⟨.inl rfl, fun _ => before⟩
    | @tail u t _ last ih =>
      obtain ⟨reached, holds⟩ := ih
      refine ⟨?_, fun same => ?_⟩
      · rcases last.state with kept | safe
        · rw [kept]
          exact reached
        · exact .inr safe
      · have middle : u.device.state = s.device.state := by
          rcases reached with kept | safe
          · exact kept
          · rcases last.state with kept | last_safe
            · exact kept.symm.trans same
            · exact safe.trans (last_safe.symm.trans same)
        exact step u t last (same.trans middle.symm) (holds middle)
  exact all.2 steady

/-- An invariant of the steps holds at the end of a chain. -/
theorem beside_holds {P : State → Prop} (step : ∀ s t, Beside w s t → P s → P t)
    (chain : Relation.ReflTransGen (Beside w) s t) (before : P s) : P t := by
  induction chain with
  | refl => exact before
  | tail _ last ih => exact step _ _ last ih

/-! ### The lists -/

theorem grant_inLists {x : Well} {rest : List Well} (head : s.moves.waiting = x :: rest) :
    (grant x rest s).inLists = s.inLists := by
  show (s.moves.holders ++ [_]).map _ ++ rest = s.moves.holders.map _ ++ s.moves.waiting
  rw [head, List.map_append, List.append_assoc]
  rfl

theorem listed_iff (s : State) (w : Well) : s.Listed w ↔ s.moves.holds w = true ∨ s.moves.waits w = true := by
  rw [← moving_iff, State.moving, Bool.or_eq_true]

theorem record_of_seat (seat : t.seat w = s.seat w) : t.record? w = s.record? w := by
  rw [State.record?, show t.well? w = s.well? w from congrArg Seat.slot seat, State.record?]

theorem listed_of_seat (seat : t.seat w = s.seat w) : t.Listed w ↔ s.Listed w := by
  rw [listed_iff, listed_iff, show t.moves.holds w = s.moves.holds w from congrArg Seat.holds seat,
    show t.moves.waits w = s.moves.waits w from congrArg Seat.waits seat]

theorem listed_of_moves (moves : t.moves = s.moves) : t.Listed w ↔ s.Listed w := by
  rw [State.Listed, State.Listed, State.inLists, State.inLists, moves]

theorem Beside.unlisted (h : Beside w s t) (out : ¬ s.Listed w) : ¬ t.Listed w ∧ SameRead moveMarks w s t := by
  cases h with
  | unseen seat _ _ _ =>
    exact ⟨fun h => out ((listed_of_seat seat).1 h),
      sameRead_of_record (record_of_seat seat)⟩
  | granted head => exact absurd ((listed_iff s w).2 (.inr (by simp [MoveScheduler.waits, head]))) out
  | @evicted e _ _ _ =>
    exact ⟨out, sameRead_write (f := fun r => { r with queued := .no, surveyDue := 0 }) (fun _ => rfl) e.well
      (setQueue (withoutEntry e.well s.seq.queue) s)⟩
  | @blocked e rest _ _ _ _ =>
    obtain ⟨_, moves, _⟩ := headBlocked_apart e rest s
    refine ⟨fun h => out ((listed_of_moves moves).1 h), ?_⟩
    exact SameRead.trans (t := setQueue rest s) (sameRead_of_slots rfl)
      (((sameRead_write (f := fun r => { r with sampleOutcome := .blocked }) (fun _ => rfl) e.well _).trans
        (sameRead_event (fun _ => rfl) e.well _)).trans
        (sameRead_write (f := fun r => { r with queued := .no }) (fun _ => rfl) e.well _))
  | @selected e rest _ _ _ _ =>
    exact ⟨out, sameRead_write (f := fun r => { r with queued := .sampling }) (fun _ => rfl) e.well
      { setQueue rest s with seq := { (setQueue rest s).seq with phase := .select e.well, busyCount := 0 } }⟩
  | reported k n d landed =>
    exact ⟨fun h => out ((reportFault_lists k n d s w).1 h), reportFault_moveMarks landed.running out⟩

/-- A step that leaves the device state takes no well out of the lists, and no holder's slot. -/
theorem Beside.listed (h : Beside w s t) (steady : t.device.state = s.device.state) :
    (s.Listed w → t.Listed w) ∧ (s.moves.holds w = true → t.moves.holds w = true) := by
  have of_moves (moves : t.moves = s.moves) :
      (s.Listed w → t.Listed w) ∧ (s.moves.holds w = true → t.moves.holds w = true) :=
    ⟨(listed_of_moves moves).2, fun h => by rw [moves]; exact h⟩
  cases h with
  | unseen seat _ _ _ =>
    exact ⟨(listed_of_seat seat).2, fun h => (congrArg Seat.holds seat).trans h⟩
  | @granted rest head =>
    refine ⟨fun h => by rw [State.Listed, grant_inLists head]; exact h, fun h => ?_⟩
    show (s.moves.holders ++ [_]).any _ = true
    rw [List.any_append, show s.moves.holders.any _ = true from h, Bool.true_or]
  | evicted _ _ _ => exact of_moves rfl
  | @blocked e rest _ _ _ _ => exact of_moves (headBlocked_apart e rest s).2.1
  | selected _ _ _ _ => exact of_moves rfl
  | reported k n d landed => exact of_moves (reportFault_steady landed.running steady).2.2

/-! ### The queue and the sample in hand -/

theorem unqueued_iff (s : State) (w : Well) : s.Unqueued w ↔ entriesOf w s.seq.queue = [] := by
  simp [State.Unqueued, entriesOf, List.filter_eq_nil_iff]

theorem unqueued_of_seat (seat : t.seat w = s.seat w) : t.Unqueued w ↔ s.Unqueued w := by
  rw [unqueued_iff, unqueued_iff, show entriesOf w t.seq.queue = entriesOf w s.seq.queue from congrArg Seat.entries seat]

/-- What a step beside a well out of the queue whose sample is not open leaves of it. -/
structure Shut (w : Well) (s t : State) : Prop where
  unqueued : t.Unqueued w
  shut     : ¬ t.SampleOpen w
  marks    : SameRead sampleMarks w s t
  current  : s.seq.phase.current? = some w → t.seq.phase = s.seq.phase
  away     : s.seq.phase.current? ≠ some w → t.seq.phase.current? ≠ some w

theorem Beside.shut (h : Beside w s t) (unqueued : s.Unqueued w) (shut : ¬ s.SampleOpen w) : Shut w s t := by
  have head_out {e : QueueEntry} {rest : List QueueEntry} (head : s.seq.queue = e :: rest) (own : e.well = w) : False :=
    unqueued e (by rw [head]; exact List.mem_cons_self ..) own
  cases h with
  | unseen seat phase _ _ =>
    refine ⟨(unqueued_of_seat seat).2 unqueued, ?_, sameRead_of_record (record_of_seat seat), fun current => ?_,
      fun away => ?_⟩
    · rcases phase with same | elsewhere
      · rw [State.SampleOpen, same]
        exact shut
      · exact fun opened => elsewhere.after opened.2
    · exact phase.resolve_right fun elsewhere => elsewhere.before current
    · rcases phase with same | elsewhere
      · rw [same]
        exact away
      · exact elsewhere.after
  | @granted rest head =>
    exact ⟨unqueued, shut, grant_read fun _ => rfl,
      fun _ => rfl, id⟩
  | evicted mem own _ => exact absurd own (unqueued _ mem)
  | blocked head own _ _ => exact (head_out head own).elim
  | selected head own _ _ => exact (head_out head own).elim
  | reported k n d landed =>
    obtain ⟨queue, current, _⟩ := reportFault_queue k n d s
    have phase : s.seq.phase.current? = some w → (reportFault k n d s).seq.phase = s.seq.phase := fun held => by
      rcases reportFault_aborts k n d s with same | ⟨x, opened, _⟩
      · rw [same]
      · obtain rfl : x = w := Option.some.inj (opened.2.symm.trans held)
        exact absurd opened shut
    refine ⟨by rw [State.Unqueued, queue]; exact unqueued, fun opened => ?_,
      reportFault_sampleMarks landed.running shut, phase, fun away => by rw [current]; exact away⟩
    have held := current.symm.trans opened.2
    exact shut ⟨by rw [← phase held]; exact opened.1, held⟩

/-- An open sample stays in its phase, or has been aborted by an entry to SAFE (R156). -/
theorem Beside.opened (h : Beside w s t) (unqueued : s.Unqueued w) (opened : s.SampleOpen w) : t.Unqueued w ∧
    SameRead WellRecord.queued w s t ∧
    (t.seq.phase = s.seq.phase ∨ t.seq.phase = .release w ∧ t.Shows w WellRecord.SampleAborted) := by
  have head_out {e : QueueEntry} {rest : List QueueEntry} (head : s.seq.queue = e :: rest) (own : e.well = w) : False :=
    unqueued e (by rw [head]; exact List.mem_cons_self ..) own
  cases h with
  | unseen seat phase _ _ =>
    exact ⟨(unqueued_of_seat seat).2 unqueued, sameRead_of_record (record_of_seat seat),
      .inl (phase.resolve_right fun elsewhere => elsewhere.before opened.2)⟩
  | @granted rest head =>
    exact ⟨unqueued, grant_read fun _ => rfl,
      .inl rfl⟩
  | evicted mem own _ => exact absurd own (unqueued _ mem)
  | blocked head own _ _ => exact (head_out head own).elim
  | selected head own _ _ => exact (head_out head own).elim
  | reported k n d landed =>
    obtain ⟨queue, _, _⟩ := reportFault_queue k n d s
    refine ⟨by rw [State.Unqueued, queue]; exact unqueued, reportFault_queued landed.running, ?_⟩
    rcases reportFault_aborts k n d s with same | ⟨x, sample, released, shown⟩
    · exact .inl (by rw [same])
    · obtain rfl : x = w := Option.some.inj (sample.2.symm.trans opened.2)
      exact .inr ⟨by rw [released], shown⟩

theorem Beside.opened_steady (h : Beside w s t) (unqueued : s.Unqueued w) (opened : s.SampleOpen w)
    (steady : t.device.state = s.device.state) : t.seq.phase = s.seq.phase := by
  cases h with
  | unseen _ phase _ _ => exact phase.resolve_right fun elsewhere => elsewhere.before opened.2
  | granted _ => rfl
  | evicted _ _ _ => rfl
  | blocked head own _ _ => exact absurd own (unqueued _ (by rw [head]; exact List.mem_cons_self ..))
  | selected head own _ _ => exact absurd own (unqueued _ (by rw [head]; exact List.mem_cons_self ..))
  | reported k n d landed => rw [(reportFault_steady landed.running steady).2.1]

/-! ### OFFLINE -/

theorem Beside.failures (h : Beside w s t) : t.seq.failures = s.seq.failures := by
  cases h with
  | unseen _ _ failures _ => exact failures
  | granted _ => rfl
  | evicted _ _ _ => rfl
  | @blocked e rest _ _ _ _ => rw [(headBlocked_apart e rest s).1]
  | selected _ _ _ _ => rfl
  | reported k n d _ => exact reportFault_failures k n d s

theorem Beside.offline (h : Beside w s t) {n : Nat} {b : Bool} (offline : s.seq.phase = .offline n b) :
    t.seq.phase = .offline n b := by
  cases h with
  | unseen _ phase _ _ => exact (phase.resolve_right fun elsewhere => elsewhere.online n b offline).trans offline
  | granted _ => exact offline
  | evicted _ _ _ => exact offline
  | blocked _ _ idle _ => cases idle.symm.trans offline
  | selected _ _ idle _ => cases idle.symm.trans offline
  | reported k m d _ =>
    rcases reportFault_aborts k m d s with same | ⟨x, opened, _⟩
    · rw [same]
      exact offline
    · rw [State.SampleOpen, offline] at opened
      cases opened.1

theorem Beside.online (h : Beside w s t) (below : ∀ f, s.seq.failures = some f → f.count ≠ Config.offlineCount)
    (online : ∀ n b, s.seq.phase ≠ .offline n b) : ∀ n b, t.seq.phase ≠ .offline n b := by
  intro n b reached
  cases h with
  | unseen _ phase _ _ =>
    rcases phase with same | elsewhere
    · exact online n b (same.symm.trans reached)
    · obtain ⟨f, failures, count⟩ := elsewhere.offline n b reached
      exact below f failures count
  | granted _ => exact online n b reached
  | evicted _ _ _ => exact online n b reached
  | @blocked e rest _ _ _ _ =>
    rw [(headBlocked_apart e rest s).1] at reached
    exact online n b reached
  | selected _ _ _ _ => cases reached
  | reported k m d _ =>
    rcases reportFault_aborts k m d s with same | ⟨x, _, released, _⟩
    · rw [same] at reached
      exact online n b reached
    · rw [released] at reached
      cases reached

/-! ### QUEUED says where the well stands -/

/-- The well has at most one entry, QUEUED is its class, and QUEUED of the current well is SAMPLING (R86 to R88). -/
structure QueueFits (w : Well) (s : State) : Prop where
  single  : (entriesOf w s.seq.queue).length ≤ 1
  entry   : ∀ e ∈ s.seq.queue, e.well = w → s.Shows w fun r => r.queued = e.cls.queued
  current : s.seq.phase.current? = some w → s.Shows w fun r => r.queued = .sampling

theorem mem_entriesOf {e : QueueEntry} {q : List QueueEntry} : e ∈ entriesOf w q ↔ e ∈ q ∧ e.well = w := by
  simp [entriesOf]

/-- A well in the queue is neither out of it nor sampled. -/
theorem queued_of_class (c : SampleClass) : c.queued ≠ .no ∧ c.queued ≠ .sampling := by
  cases c <;> decide

/-- The current well is out of the queue, when its record stands. -/
theorem QueueFits.unqueued (fits : QueueFits w s) (current : s.seq.phase.current? = some w) {r : WellRecord}
    (hr : s.record? w = some r) : s.Unqueued w := by
  intro e he own
  have cls : r.queued = e.cls.queued := fits.entry e he own r hr
  exact (queued_of_class e.cls).2 (cls.symm.trans (fits.current current r hr))

theorem entriesOf_head {e : QueueEntry} {rest : List QueueEntry} (head : s.seq.queue = e :: rest) (own : e.well = w) :
    entriesOf w s.seq.queue = e :: entriesOf w rest := by
  rw [head, entriesOf, List.filter_cons, if_pos (by simp [own])]
  rfl

/-- Once the entry of a well has been taken off as head, the well has none. -/
theorem QueueFits.tail (fits : QueueFits w s) {e : QueueEntry} {rest : List QueueEntry}
    (head : s.seq.queue = e :: rest) (own : e.well = w) : entriesOf w rest = [] := by
  have single := fits.single
  rw [entriesOf_head head own, List.length_cons] at single
  exact List.eq_nil_of_length_eq_zero (by omega)

/-- A well without an entry fits, when QUEUED of the current well is SAMPLING. -/
theorem queueFits_of_unqueued (out : entriesOf w s.seq.queue = [])
    (current : s.seq.phase.current? = some w → s.Shows w fun r => r.queued = .sampling) : QueueFits w s :=
  ⟨by rw [out]; exact Nat.zero_le _, fun e he own => absurd own ((unqueued_iff s w).2 out e he), current⟩

theorem QueueFits.of_same (fits : QueueFits w s) (entries : entriesOf w t.seq.queue = entriesOf w s.seq.queue)
    (current : t.seq.phase.current? = some w → s.seq.phase.current? = some w)
    (queued : SameRead WellRecord.queued w s t) : QueueFits w t where
  single := by rw [entries]; exact fits.single
  entry e he own := by
    have mem : e ∈ entriesOf w s.seq.queue := entries ▸ mem_entriesOf.2 ⟨he, own⟩
    exact queued.shows (P := fun c => c = e.cls.queued) (fits.entry e (mem_entriesOf.1 mem).1 own)
  current h := queued.shows (P := fun c => c = .sampling) (fits.current (current h))

theorem Beside.fits (h : Beside w s t) (fits : QueueFits w s) : QueueFits w t := by
  cases h with
  | unseen seat phase _ _ =>
    refine fits.of_same (congrArg Seat.entries seat) (fun current => ?_) (sameRead_of_record (record_of_seat seat))
    rcases phase with same | elsewhere
    · rw [← same]
      exact current
    · exact absurd current elsewhere.after
  | @granted rest head =>
    exact fits.of_same rfl id (grant_read fun _ => rfl)
  | @evicted e mem own cls =>
    refine queueFits_of_unqueued ((unqueued_iff _ w).1 (own ▸ withoutEntry_unqueued e.well s.seq.queue)) fun current q hq => ?_
    obtain ⟨r, hr, _⟩ := of_record?_writeRecord (s := setQueue (withoutEntry e.well s.seq.queue) s) (own ▸ hq)
    exact absurd own (fits.unqueued current (own ▸ hr : s.record? w = some r) e mem)
  | @blocked e rest head own idle high =>
    obtain ⟨seq, _, _⟩ := headBlocked_apart e rest s
    exact queueFits_of_unqueued (by rw [seq]; exact fits.tail head own) fun current => by
      rw [seq] at current
      cases (congrArg Phase.current? idle).symm.trans current
  | @selected e rest head own idle low =>
    exact queueFits_of_unqueued (fits.tail head own) fun _ => own ▸ headSelected_sampling e rest s
  | reported k n d landed =>
    obtain ⟨queue, current, _⟩ := reportFault_queue k n d s
    exact fits.of_same (by rw [queue]) (fun h => current.symm.trans h) (reportFault_queued landed.running)

/-! ### A well that a CAP fall has put forward -/

/-- The well is sampled, or waits as URGENT with CAP low, or its survey is due at once (R92). -/
def Sought (w : Well) (s : State) : Prop :=
  s.seq.phase.current? = some w ∧ s.Unqueued w ∧ (s.Shows w fun r => r.queued = .sampling) ∨
  s.seq.phase.current? ≠ some w ∧ (∀ e ∈ s.seq.queue, e.well = w → e.cls = .urgent) ∧
    (entriesOf w s.seq.queue).length ≤ 1 ∧ (s.Shows w fun r => r.queued = .urgent ∧ r.inputHigh .cap = false) ∨
  s.Shows w fun r => r.surveyDue = 0

theorem Sought.of_same (sought : Sought w s) (entries : entriesOf w t.seq.queue = entriesOf w s.seq.queue)
    (current : t.seq.phase.current? = some w ↔ s.seq.phase.current? = some w)
    (read : SameRead (fun r => (r.queued, r.inputs, r.surveyDue)) w s t) : Sought w t := by
  rcases sought with ⟨held, out, shows⟩ | ⟨away, urgent, single, shows⟩ | due
  · exact .inl ⟨current.2 held, (unqueued_iff t w).2 (entries.trans ((unqueued_iff s w).1 out)),
      read.shows (P := fun x => x.1 = .sampling) shows⟩
  · refine .inr (.inl ⟨fun h => away (current.1 h), fun e he own => ?_, by rw [entries]; exact single, ?_⟩)
    · exact urgent e (mem_entriesOf.1 (entries ▸ mem_entriesOf.2 ⟨he, own⟩)).1 own
    · intro q hq
      obtain ⟨r, hr, e⟩ := read q hq
      simp only [Prod.mk.injEq] at e
      obtain ⟨queued, inputs, _⟩ := e
      obtain ⟨class_, low⟩ := shows r hr
      exact ⟨queued.trans class_, by rw [WellRecord.inputHigh, inputs]; exact low⟩
  · exact .inr (.inr (read.shows (P := fun x => x.2.2 = 0) due))

theorem Stays.read (stays : Stays w s t) (queued : SameRead WellRecord.queued w s t)
    (due : ∀ r q, s.record? w = some r → t.record? w = some q → q.surveyDue = r.surveyDue) :
    SameRead (fun r => (r.queued, r.inputs, r.surveyDue)) w s t := fun q hq => by
  obtain ⟨r, hr, same⟩ := queued q hq
  obtain ⟨p, hp, stayed⟩ := stays.found r hr
  cases hq.symm.trans hp
  have inputs : q.inputs = r.inputs := by rw [stayed.same]
  exact ⟨r, hr, by simp only [same, due r q hr hq, inputs]⟩

theorem Beside.sought (h : Beside w s t) (sought : Sought w s) : Sought w t := by
  have due_stays (due : s.Shows w fun r => r.surveyDue = 0) : t.Shows w fun r => r.surveyDue = 0 := fun q hq => by
    cases hr : s.record? w with
    | none => rw [well?_eq_none.1 (h.stays.gone (well?_eq_none.2 hr))] at hq; cases hq
    | some r =>
      obtain ⟨p, hp, stayed⟩ := h.stays.found r hr
      cases hq.symm.trans hp
      exact stayed.due.elim (fun e => e.trans (due r hr)) id
  cases h with
  | unseen seat phase _ _ =>
    refine sought.of_same (congrArg Seat.entries seat) ?_ (sameRead_of_record (record_of_seat seat))
    rcases phase with same | elsewhere
    · rw [same]
    · exact ⟨fun h => absurd h elsewhere.after, fun h => absurd h elsewhere.before⟩
  | @granted rest head =>
    exact sought.of_same rfl Iff.rfl (grant_read fun _ => rfl)
  | @evicted e mem own cls =>
    rcases sought with ⟨_, out, _⟩ | ⟨_, urgent, _⟩ | due
    · exact absurd own (out e mem)
    · rw [urgent e mem own] at cls
      cases cls
    · exact .inr (.inr (due_stays due))
  | @blocked e rest head own idle high =>
    rcases sought with ⟨held, _⟩ | ⟨_, _, _, shows⟩ | due
    · cases (congrArg Phase.current? idle).symm.trans held
    · cases hr : s.record? w with
      | none => simp [State.inputHigh, hr] at high
      | some r =>
        have low := (shows r hr).2
        simp [State.inputHigh, hr, low] at high
    · exact .inr (.inr (due_stays due))
  | @selected e rest head own idle low =>
    rcases sought with ⟨held, _⟩ | ⟨_, _, single, _⟩ | due
    · cases (congrArg Phase.current? idle).symm.trans held
    · rw [entriesOf_head head own, List.length_cons] at single
      have none : entriesOf w rest = [] := List.eq_nil_of_length_eq_zero (by omega)
      exact .inl ⟨congrArg some own, (unqueued_iff _ w).2 none,
        own ▸ headSelected_sampling e rest s⟩
    · exact .inr (.inr (due_stays due))
  | reported k n d landed =>
    obtain ⟨queue, current, _⟩ := reportFault_queue k n d s
    have stays := (reportFault_marks k n d s).stays (reportFault_turns k n d landed.running).1 w
    refine sought.of_same (by rw [queue]) (by rw [current]) (stays.read (reportFault_queued landed.running) ?_)
    intro r q hr hq
    obtain ⟨p, hp, same⟩ := (reportFault_marks k n d s).holds w r hr
    cases hq.symm.trans hp
    rw [same]

end Sys2Proof.Machine
end

