-- ==== Sys2Proof/Proofs/ArrivalCourse.lean ====
section
/-! SUPPORT. The events of one arrival, taken in any order: what of the well's record they leave while some of them are
still to be taken, and what a need evaluation and a completion check make of it (R36, R40, R72, R111, R115, R121). -/

namespace Sys2Proof.Machine

variable {s t u : State} {v : Arrival} {w : Well} {later : List Handed} {iso pulse : Bool} {q r : WellRecord}

/-! ### The events handed on -/

/-- The events that the arrival hands to the blocks; a baseline changes no level, so that it hands the last two (R69,
R72). -/
def Arrival.handed (v : Arrival) : List Handed :=
  changeActions v.before v.after ++ [.feedback v.baseline, .confirm v.valve]

theorem sublist_if {α : Type} (b : Bool) (l : List α) : (if b then l else []).Sublist l := by
  cases b
  · exact List.nil_sublist l
  · exact .refl l

/-- No event is handed on twice. -/
theorem handed_nodup (v : Arrival) : v.handed.Nodup := by
  have within : v.handed.Sublist ([Handed.isolate] ++ [Handed.capAbort] ++ [Handed.capEnqueue] ++
      [Handed.actuatorBlock, Handed.actuatorReport] ++ [Handed.actuatorFall] ++ [Handed.autoPurge] ++
      [Handed.feedback v.baseline, Handed.confirm v.valve]) :=
    (((((((sublist_if _ _).append (sublist_if _ _)).append (sublist_if _ _)).append (sublist_if _ _)).append
      (sublist_if _ _)).append (sublist_if _ _)).append (.refl _))
  exact within.nodup (by simp)

theorem reorder_perm {α : Type} (picks : List Nat) (l : List α) : (reorder picks l).Perm l := by
  induction picks generalizing l with
  | nil => exact .refl l
  | cons k ks ih =>
    unfold reorder
    split
    · exact .refl l
    · rename_i a found
      obtain ⟨below, rfl⟩ := List.getElem?_eq_some_iff.1 found
      exact ((ih _).cons _).trans (List.getElem_cons_eraseIdx_perm below)

theorem rose_iff (before after : PerInput Level) (i : Input) :
    rose before after i = true ↔ inputValue before i = .low ∧ inputValue after i = .high := by simp [rose]

theorem fell_iff (before after : PerInput Level) (i : Input) :
    fell before after i = true ↔ inputValue before i = .high ∧ inputValue after i = .low := by simp [fell]

theorem isolate_handed : .isolate ∈ v.handed ↔ v.Rose PerInput.button := by
  simp [Arrival.handed, changeActions, rose_iff, inputValue]

theorem capAbort_handed : .capAbort ∈ v.handed ↔ v.Rose PerInput.cap := by
  simp [Arrival.handed, changeActions, rose_iff, inputValue]

theorem capEnqueue_handed : .capEnqueue ∈ v.handed ↔ v.Fell PerInput.cap := by
  simp [Arrival.handed, changeActions, fell_iff, inputValue]

theorem actuatorBlock_handed : .actuatorBlock ∈ v.handed ↔ v.Rose PerInput.actuator := by
  simp [Arrival.handed, changeActions, rose_iff, inputValue]

theorem actuatorReport_handed : .actuatorReport ∈ v.handed ↔ v.Rose PerInput.actuator := by
  simp [Arrival.handed, changeActions, rose_iff, inputValue]

theorem actuatorFall_handed : .actuatorFall ∈ v.handed ↔ v.Fell PerInput.actuator := by
  simp [Arrival.handed, changeActions, fell_iff, inputValue]

theorem autoPurge_handed : .autoPurge ∈ v.handed ↔ v.Rose PerInput.liquid := by
  simp [Arrival.handed, changeActions, rose_iff, inputValue]

theorem feedback_handed {b : Bool} : .feedback b ∈ v.handed ↔ b = v.baseline := by
  simp [Arrival.handed, changeActions]

theorem confirm_handed {b : Bool} : .confirm b ∈ v.handed ↔ b = v.valve := by
  simp [Arrival.handed, changeActions]

/-! ### A well that has been freed -/

/-- The well is in no record, in no entry, in no list, and not in the sample in hand (R20). -/
structure Gone (w : Well) (s : State) : Prop where
  record   : s.record? w = none
  unqueued : s.Unqueued w
  away     : s.seq.phase.current? ≠ some w
  unlisted : ¬ s.Listed w

theorem freeWell_leaves (hq : s.record? w = some q) : Gone w (freeWell w s) := by
  obtain ⟨x, hx, _⟩ := Option.map_eq_some_iff.1 hq
  obtain ⟨record, _, still, unqueued, away⟩ := freeWell_gone hx
  exact ⟨record, unqueued, away, (still_iff _ w).1 still⟩

/-- A report finds nothing of a freed well, and brings nothing of it back. -/
theorem Gone.reported {k : FaultKind} {n : Nat} {d : Half} (gone : Gone w s) : Gone w (reportFault k n d s) := by
  obtain ⟨queue, current, _⟩ := reportFault_queue k n d s
  exact
    { record := (reportFault_marks k n d s).gone w gone.record
      unqueued := by rw [State.Unqueued, queue]; exact gone.unqueued
      away := by rw [current]; exact gone.away
      unlisted := fun h => gone.unlisted ((reportFault_lists k n d s w).1 h) }

theorem moving_false (unlisted : ¬ s.Listed w) : s.moves.holds w = false ∧ s.moves.waits w = false :=
  (still_iff s w).2 unlisted

theorem takeConfirmation_away (valve : Bool) (away : s.seq.phase.current? ≠ some w) : takeConfirmation valve w s = s := by
  unfold takeConfirmation
  split
  · rename_i x phase
    rw [phase] at away
    exact if_neg fun h => away (congrArg some h.2)
  · rename_i x phase
    rw [phase] at away
    exact if_neg fun h => away (congrArg some h.2)
  all_goals rfl

/-- The events of a freed well are passed over, but for the report (R13, R149). -/
theorem takeHanded_gone (gone : Gone w s) (h : Handed) : takeHanded later w h s = s ∨
    takeHanded later w h s = reportFault .actuatorFault w.tag 0 s := by
  obtain ⟨holds, waits⟩ := moving_false gone.unlisted
  cases h with
  | isolate => exact .inl (by simp only [takeHanded, buttonIsolate, gone.record])
  | capAbort => exact .inl (if_neg gone.away)
  | capEnqueue => exact .inl (by simp only [takeHanded, capEnqueue, gone.record])
  | actuatorBlock => exact .inl (by simp [takeHanded, blockMove, holds, waits])
  | actuatorReport => exact .inr rfl
  | actuatorFall => exact .inl (by simp only [takeHanded, evalNeed, gone.record])
  | autoPurge => exact .inl (by simp only [takeHanded, liquidPurge, gone.record])
  | feedback b =>
    have need : (if b = true then evalNeed w s else s) = s := by
      split
      · simp only [evalNeed, gone.record]
      · rfl
    exact .inl (by simp only [takeHanded, takeFeedback, need, checkMove, gone.record])
  | confirm b => exact .inl (takeConfirmation_away b gone.away)

/-! ### What an evaluation and a check leave of the record -/

/-- A need evaluation frees a closed RETIRING well, or changes no record but in its marks (R40, R111). -/
theorem evalNeed_parts (hq : s.record? w = some q) :
    (q.mode = .retiring ∧ q.closed s.settings.moveBand = true ∧ Gone w (evalNeed w s)) ∨ Marks s (evalNeed w s) := by
  unfold evalNeed
  rw [hq]
  dsimp only
  split
  · exact .inr (.refl s)
  split
  · exact .inr (blockMove_marks w s)
  split
  · exact .inr (.refl s)
  split
  · rename_i closed
    exact .inl ⟨closed.1, closed.2, freeWell_leaves hq⟩
  split
  · split
    · exact .inr (.refl s)
    · exact .inr (leaveQuietly_marks w s)
  split
  · exact .inr (joinWaitList_marks w s)
  split
  · exact .inr (findBlocked_marks w s)
  · exact .inr (.refl s)

theorem closed_of_inBand {band : Nat} (target : q.valveTarget = 0) (inBand : ¬ q.outOfBand band = true) :
    q.closed band = true := by
  unfold WellRecord.outOfBand WellRecord.closed at *
  cases feedback : q.valveFeedback with
  | none => simp [feedback] at inBand
  | some f =>
    rw [feedback, target] at inBand
    simpa [apart] using inBand

/-- A completion check frees a closed RETIRING well, or changes no record but in its marks (R40, R115). -/
theorem checkMove_parts (hq : s.record? w = some q) (legal : q.Legal) :
    (q.mode = .retiring ∧ q.closed s.settings.moveBand = true ∧ Gone w (checkMove w s)) ∨ Marks s (checkMove w s) := by
  obtain ⟨_, _, _, ⟨_, _, target⟩, _⟩ := legal
  unfold checkMove
  rw [hq]
  dsimp only
  split
  · split
    · exact .inr (.refl s)
    · rename_i inBand
      split
      · rename_i retiring
        exact .inl ⟨retiring, closed_of_inBand (target (.inr retiring)) inBand, freeWell_leaves hq⟩
      · exact .inr ((endMove_marks .done w s).trans (grantTest_marks _))
  · split
    · rename_i closed
      exact .inl ⟨closed.2.1, closed.2.2, freeWell_leaves hq⟩
    · exact .inr (.refl s)

/-! ### The record while the events are taken -/

/-- The record as the arrival has written it: the well isolated or not yet, the pulse started or not yet; SURVEY_DUE and
the marks are those of `q` (R28, R36, R60, R70, R121). -/
def Arrival.taken (v : Arrival) (iso pulse : Bool) (purgePulse : Nat) (q : WellRecord) : WellRecord :=
  { v.slot.record.withReadings v.reading with
    inputs := some v.after,
    mode := if iso then .isolated else v.slot.record.mode,
    valveTarget := if iso then 0 else v.slot.record.valveTarget,
    excursions := if iso = true ∧ v.slot.record.mode = .suspect then 0 else v.slot.record.excursions,
    clean := if iso = true ∧ v.slot.record.mode = .suspect then 0 else v.slot.record.clean,
    purgeLeft := if pulse then purgePulse else v.slot.record.purgeLeft,
    surveyDue := q.surveyDue, events := q.events, queued := q.queued, sampleOutcome := q.sampleOutcome,
    moveState := q.moveState, moveOutcome := q.moveOutcome }

/-- The record of the well is the one taken, isolated and pulsed as the flags say. -/
structure Arrival.Holds (v : Arrival) (iso pulse : Bool) (purgePulse : Nat) (q : WellRecord) : Prop where
  same : q = v.taken iso pulse purgePulse q
  due  : q.surveyDue = v.slot.record.surveyDue ∨ q.surveyDue = 0

/-- An arrival that starts a purge pulse (R121). -/
abbrev Arrival.Pulses (v : Arrival) : Prop := v.Rose PerInput.liquid ∧ v.slot.record.options.getLsbD 0 = true

/-- The record while `later` are still to be taken: the isolation and the pulse are made, or still to come. -/
structure Arrival.Underway (v : Arrival) (later : List Handed) (purgePulse : Nat) (q : WellRecord) : Prop where
  record : ∃ iso pulse, v.Holds iso pulse purgePulse q ∧
    (iso = true ↔ v.Isolates ∧ .isolate ∉ later) ∧ (pulse = true ↔ v.Pulses ∧ .autoPurge ∉ later)

/-- The course of an arrival at a legal record of `s`, with `later` still to be taken. -/
structure Course (v : Arrival) (s : State) (later : List Handed) (u : State) : Prop where
  landed   : u.Landed
  settings : u.settings = s.settings
  handed   : ∀ h ∈ later, h ∈ v.handed
  nodup    : later.Nodup
  legal    : v.slot.record.Legal
  record   : ∀ q, u.record? v.well = some q → v.Underway later s.settings.purgePulse q
  gone     : u.record? v.well = none → v.ShowsClosed s.settings.moveBand ∧ Gone v.well u

theorem Arrival.Holds.stayed {purgePulse : Nat} (holds : v.Holds iso pulse purgePulse r) (stayed : Stayed r q) :
    v.Holds iso pulse purgePulse q where
  same := by
    rw [stayed.same, holds.same]
    rfl
  due := by
    rcases stayed.due with due | due
    · rw [due]
      exact holds.due
    · exact .inr due

theorem legal_of_record (legal : s.RecordsLegal) (hq : s.record? w = some q) : q.Legal := by
  obtain ⟨x, hx, rfl⟩ := Option.map_eq_some_iff.1 hq
  exact legal.2 _ (mem_of_well? hx).1

theorem Arrival.Isolates.sampled (isolates : v.Isolates) : v.slot.record.mode.isSampled = true := by
  obtain ⟨_, mode, _⟩ := isolates
  rcases mode with h | h | h <;> rw [h] <;> rfl

/-- While the well is not isolated yet, its record answers as the arrival says (R36). -/
theorem Arrival.Holds.isolable {purgePulse : Nat} (holds : v.Holds false pulse purgePulse q) (isolates : v.Isolates) :
    q.isolable = true := by
  have mode : q.mode = v.slot.record.mode := by rw [holds.same]; rfl
  have options : q.options = v.slot.record.options := by rw [holds.same]; rfl
  rw [WellRecord.isolable, WellRecord.hasOption, mode, options, Bool.and_eq_true]
  exact ⟨Arrival.Isolates.sampled isolates, isolates.2.2⟩

/-- An isolation in the arrival of a well that stands isolable isolates it. -/
theorem Arrival.Holds.isolates {purgePulse : Nat} (holds : v.Holds false pulse purgePulse q)
    (rose : v.Rose PerInput.button) (isolable : q.isolable = true) : v.Isolates := by
  have mode : q.mode = v.slot.record.mode := by rw [holds.same]; rfl
  have options : q.options = v.slot.record.options := by rw [holds.same]; rfl
  rw [WellRecord.isolable, WellRecord.hasOption, mode, options, Bool.and_eq_true] at isolable
  obtain ⟨sampled, option⟩ := isolable
  refine ⟨rose, ?_, option⟩
  unfold Arrival.Sampled
  cases h : v.slot.record.mode <;> simp [h, Mode.isSampled] at sampled ⊢

/-- Before the isolation is taken, the record is isolable exactly when the arrival isolates the well. -/
theorem Arrival.Underway.isolable_iff {purgePulse : Nat} (record : v.Underway (.isolate :: later) purgePulse q)
    (rose : v.Rose PerInput.button) : q.isolable = true ↔ v.Isolates := by
  obtain ⟨⟨iso, pulse, holds, done, _⟩⟩ := record
  cases iso with
  | true => exact absurd (List.mem_cons_self ..) (done.1 rfl).2
  | false => exact ⟨holds.isolates rose, holds.isolable⟩

/-- Taking an event that leaves the record but for its marks, neither an isolation nor a pulse that acts. -/
theorem Arrival.Underway.next {purgePulse : Nat} {h : Handed} (record : v.Underway (h :: later) purgePulse r)
    (isolation : h = .isolate → ¬ v.Isolates) (pulse : h = .autoPurge → ¬ v.Pulses) (stayed : Stayed r q) :
    v.Underway later purgePulse q := by
  obtain ⟨⟨iso, pulsed, holds, done, started⟩⟩ := record
  refine ⟨iso, pulsed, holds.stayed stayed, done.trans (and_congr_right fun isolates => ?_),
    started.trans (and_congr_right fun pulses => ?_)⟩
  · rw [List.mem_cons, or_iff_right fun own => isolation own.symm isolates]
  · rw [List.mem_cons, or_iff_right fun own => pulse own.symm pulses]

/-- The isolation writes the record, and all else it does is marked (R25, R28, R36). -/
theorem Arrival.Underway.isolated {purgePulse lim : Nat} (record : v.Underway (.isolate :: later) purgePulse r)
    (isolates : v.Isolates) (last : .isolate ∉ later)
    (marked : q = { r.entered .isolated lim with
      events := q.events, queued := q.queued, sampleOutcome := q.sampleOutcome, moveState := q.moveState,
      moveOutcome := q.moveOutcome }) : v.Underway later purgePulse q := by
  obtain ⟨⟨iso, pulsed, holds, done, started⟩⟩ := record
  cases iso with
  | true => exact absurd (List.mem_cons_self ..) (done.1 rfl).2
  | false =>
    have due : q.surveyDue = r.surveyDue := by rw [marked, entered_eq _ _ (by decide)]
    have taken : v.Holds true pulsed purgePulse q := by
      refine ⟨?_, by rw [due]; exact holds.due⟩
      rw [marked, entered_eq _ _ (by decide), holds.same]
      simp [Arrival.taken, WellRecord.withReadings, entryTarget]
    exact ⟨true, pulsed, taken, ⟨fun _ => ⟨isolates, last⟩, fun _ => rfl⟩, by rw [started]; simp⟩

/-- The pulse writes PURGE_LEFT alone (R121). -/
theorem Arrival.Underway.pulsed {purgePulse : Nat} (record : v.Underway (.autoPurge :: later) purgePulse r)
    (pulses : v.Pulses) (last : .autoPurge ∉ later) : v.Underway later purgePulse { r with purgeLeft := purgePulse } := by
  obtain ⟨⟨iso, pulsed, holds, done, _⟩⟩ := record
  have taken : v.Holds iso true purgePulse { r with purgeLeft := purgePulse } := by
    refine ⟨?_, holds.due⟩
    conv_lhs => rw [holds.same]
    rfl
  exact ⟨iso, true, taken, by rw [done]; simp, ⟨fun _ => ⟨pulses, last⟩, fun _ => rfl⟩⟩

theorem record?_startPulse (hq : s.record? w = some q) :
    (startPulse w s).record? w = some { q with purgeLeft := s.settings.purgePulse } := by
  have read : (writeRecord (fun r => { r with purgeLeft := s.settings.purgePulse }) w s).record? w =
      some { q with purgeLeft := s.settings.purgePulse } := by
    rw [record?_writeRecord, if_pos rfl, hq]
    rfl
  obtain ⟨x, hx, own⟩ := Option.map_eq_some_iff.1 read
  rw [startPulse, State.record?, well?_changeSlot (f := fun x => { x with purgeEndDue := false }) (fun _ => rfl),
    if_pos rfl, hx, ← own]
  rfl

theorem placeInQueue_stays (c : SampleClass) (s : State) : Stays w s (placeInQueue c w s) :=
  (placeInQueue_marks c w s).stays ((slotsKept_of_slots (s := s)
    (t := setQueue (placeEntry ⟨w, c⟩ (withoutEntry w s.seq.queue)) s) rfl).trans
    (write_slotsKept (f := fun r => { r with queued := c.queued }) (fun _ => rfl) w _)) w

theorem headTest_stays (s : State) (landed : s.Landed) : Stays w s (headTest s) :=
  (headTest_marks s).stays (headTest_handles (v := w) s landed).slots w

theorem dueAtOnce_stays (s : State) : Stays w s (dueAtOnce w s) where
  found r hr := ⟨{ r with surveyDue := 0 }, by rw [dueAtOnce, record?_writeRecord, if_pos rfl, hr]; rfl, rfl, .inr rfl⟩
  gone h := by rw [dueAtOnce, well?_writeRecord, if_pos rfl, h]; rfl
  slot := write_slotsKept (f := fun r => { r with surveyDue := 0 }) (fun _ => rfl) w s w

theorem urgentEnqueue_stays (held : Bool) (s : State) (landed : s.Landed) : Stays w s (urgentEnqueue held w s) := by
  have test (t : State) (landed : t.Landed) : Stays w t (if held then t else headTest t) := by
    split
    · exact .refl t
    · exact headTest_stays t landed
  have placed (t : State) (landed : t.Landed) :
      Stays w t (if held then placeInQueue .urgent w t else headTest (placeInQueue .urgent w t)) :=
    (placeInQueue_stays .urgent t).trans (test _ (placeInQueue_handles (v := w) .urgent t landed).landed)
  unfold urgentEnqueue
  dsimp only
  split
  · exact .refl s
  split
  · exact .refl s
  split
  · exact .refl s
  · exact placed s landed
  · exact dueAtOnce_stays s
  · split
    · exact placed s landed
    · split
      · rename_i newest
        obtain ⟨mem, cls⟩ := of_newestRoutine newest
        exact (evict_stays _ w s).trans (placed _ (evict_handles (v := w) mem cls landed).landed)
      · exact dueAtOnce_stays s

/-- The events that neither isolate the well nor start its pulse leave the record but for its marks, or free the well. -/
theorem takeHanded_stays {h : Handed} (hq : s.record? w = some q) (legal : q.Legal) (landed : s.Landed)
    (plain : h ≠ .isolate ∧ h ≠ .autoPurge) :
    (q.mode = .retiring ∧ q.closed s.settings.moveBand = true ∧ Gone w (takeHanded later w h s)) ∨
      Stays w s (takeHanded later w h s) := by
  have kept (marks : Marks s (takeHanded later w h s)) : Stays w s (takeHanded later w h s) :=
    marks.stays (takeHanded_handles (v := w) later h s landed).slots w
  cases h with
  | isolate => exact absurd rfl plain.1
  | autoPurge => exact absurd rfl plain.2
  | capAbort => exact .inr (kept (abortSampleOf_marks w s))
  | capEnqueue =>
    simp only [takeHanded, capEnqueue, hq]
    exact .inr (urgentEnqueue_stays _ s landed)
  | actuatorBlock => exact .inr (kept (blockMove_marks w s))
  | actuatorReport => exact .inr (kept (reportFault_marks _ _ _ s))
  | actuatorFall => exact (evalNeed_parts hq).imp id kept
  | confirm valve =>
    refine .inr (kept ?_)
    show Marks s (takeConfirmation valve w s)
    unfold takeConfirmation
    split
    · split
      · exact setPhase_marks _ s
      · exact .refl s
    · split
      · exact (setQueued_marks .no w s).trans (leaveSample_marks _)
      · exact .refl s
    all_goals exact .refl s
  | feedback baseline =>
    have check {t : State} {p : WellRecord} (hp : t.record? w = some p) (legal : p.Legal) (same : p.mode = q.mode)
        (seen : p.closed t.settings.moveBand = q.closed s.settings.moveBand) (marks : Marks s t)
        (e : takeHanded later w (.feedback baseline) s = checkMove w t) :
        (q.mode = .retiring ∧ q.closed s.settings.moveBand = true ∧ Gone w (takeHanded later w (.feedback baseline) s)) ∨
          Stays w s (takeHanded later w (.feedback baseline) s) := by
      rcases checkMove_parts hp legal with ⟨mode, closed, gone⟩ | checked
      · exact .inl ⟨same.symm.trans mode, seen.symm.trans closed, by rw [e]; exact gone⟩
      · exact .inr (kept (by rw [e]; exact marks.trans checked))
    cases baseline with
    | false => exact check hq legal rfl rfl (.refl s) rfl
    | true =>
      rcases evalNeed_parts hq with ⟨mode, closed, gone⟩ | marks
      · refine .inl ⟨mode, closed, ?_⟩
        have e : takeHanded later w (.feedback true) s = evalNeed w s := by
          show checkMove w (evalNeed w s) = evalNeed w s
          rw [checkMove, gone.record]
        rw [e]
        exact gone
      · obtain ⟨p, hp, same⟩ := marks.holds w q hq
        have needed := evalNeed_handles (v := w) s landed
        refine check hp (legal_of_record needed.landed.legal hp) (by rw [same]) ?_ marks rfl
        rw [needed.settings, WellRecord.closed, WellRecord.closed, same]

theorem Course.next {h : Handed} (course : Course v s (h :: later) u)
    (record : ∀ q, (takeHanded later v.well h u).record? v.well = some q → v.Underway later s.settings.purgePulse q)
    (gone : (takeHanded later v.well h u).record? v.well = none →
      v.ShowsClosed s.settings.moveBand ∧ Gone v.well (takeHanded later v.well h u)) :
    Course v s later (takeHanded later v.well h u) :=
  have handled := takeHanded_handles (v := v.well) later h u course.landed
  ⟨handled.landed, handled.settings.trans course.settings, fun h mem => course.handed h (List.mem_cons_of_mem _ mem),
    course.nodup.of_cons, course.legal, record, gone⟩

theorem Course.found {h : Handed} (course : Course v s (h :: later) u)
    (hq : (takeHanded later v.well h u).record? v.well = some q) (took : v.Underway later s.settings.purgePulse q) :
    Course v s later (takeHanded later v.well h u) :=
  course.next (fun p hp => by cases hq.symm.trans hp; exact took) fun none => by cases hq.symm.trans none

theorem Course.step_gone {h : Handed} (course : Course v s (h :: later) u) (none : u.record? v.well = none) :
    Course v s later (takeHanded later v.well h u) := by
  obtain ⟨closed, out⟩ := course.gone none
  have left : Gone v.well (takeHanded later v.well h u) := by
    rcases takeHanded_gone (later := later) out h with e | e
    · rw [e]
      exact out
    · rw [e]
      exact out.reported
  exact course.next (fun q hq => by cases left.record.symm.trans hq) fun _ => ⟨closed, left⟩

/-- An event is taken once. -/
theorem Course.last {h : Handed} (course : Course v s (h :: later) u) : h ∉ later := (List.nodup_cons.1 course.nodup).1

/-- What the isolation does, when the arrival isolates the well and when it does not (R36). -/
theorem Course.isolate_eq (course : Course v s (.isolate :: later) u) (hq : u.record? v.well = some q) :
    (v.Isolates ∧ q.mode.isSampled = true ∧
      takeHanded later v.well .isolate u = changeMode .isolated false v.well u) ∨
    (¬ v.Isolates ∧ takeHanded later v.well .isolate u = u) := by
  have isolable := (course.record q hq).isolable_iff (isolate_handed.1 (course.handed _ (List.mem_cons_self ..)))
  by_cases able : q.isolable = true
  · exact .inl ⟨isolable.1 able, (Bool.and_eq_true_iff.1 able).1, by simp only [takeHanded, buttonIsolate, hq, able, if_true]⟩
  · exact .inr ⟨fun isolates => able (isolable.2 isolates), by
      simp only [takeHanded, buttonIsolate, hq, able, Bool.false_eq_true, if_false]⟩

theorem Course.step_isolate (course : Course v s (.isolate :: later) u) (hq : u.record? v.well = some q) :
    Course v s later (takeHanded later v.well .isolate u) := by
  have underway := course.record q hq
  rcases course.isolate_eq hq with ⟨isolates, sampled, e⟩ | ⟨stays, e⟩
  · have other : q.mode ≠ .isolated := fun e => by rw [e] at sampled; cases sampled
    obtain ⟨p, hp, marked⟩ := (changeMode_entered (always := false) hq (sampled_active sampled) rfl other
      fun e => nomatch e).holds
    exact course.found (by rw [e]; exact hp) (underway.isolated isolates course.last marked)
  · exact course.found (by rw [e]; exact hq) (underway.next (fun _ => stays) (fun e => nomatch e) (.refl q))

theorem Course.step_pulse (course : Course v s (.autoPurge :: later) u) (hq : u.record? v.well = some q) :
    Course v s later (takeHanded later v.well .autoPurge u) := by
  have underway := course.record q hq
  have rose := autoPurge_handed.1 (course.handed _ (List.mem_cons_self ..))
  have options : q.hasOption .autoPurge = v.slot.record.options.getLsbD 0 := by
    obtain ⟨⟨iso, pulse, holds, _⟩⟩ := underway
    rw [WellRecord.hasOption, show q.options = v.slot.record.options by rw [holds.same]; rfl]
    rfl
  cases option : v.slot.record.options.getLsbD 0 with
  | true =>
    have e : takeHanded later v.well .autoPurge u = startPulse v.well u := by
      simp only [takeHanded, liquidPurge, hq, options, option, if_true]
    refine course.found (by rw [e]; exact record?_startPulse hq) ?_
    rw [course.settings]
    exact underway.pulsed ⟨rose, option⟩ course.last
  | false =>
    have e : takeHanded later v.well .autoPurge u = u := by
      simp only [takeHanded, liquidPurge, hq, options, option, Bool.false_eq_true, if_false]
    refine course.found (by rw [e]; exact hq) (underway.next (fun e => nomatch e) (fun _ pulses => ?_) (.refl q))
    cases option.symm.trans pulses.2

theorem Course.step_plain {h : Handed} (course : Course v s (h :: later) u) (hq : u.record? v.well = some q)
    (plain : h ≠ .isolate ∧ h ≠ .autoPurge) : Course v s later (takeHanded later v.well h u) := by
  have underway := course.record q hq
  rcases takeHanded_stays (later := later) hq (legal_of_record course.landed.legal hq) course.landed plain with
    ⟨mode, closed, left⟩ | stays
  · refine course.next (fun p hp => by cases left.record.symm.trans hp) fun _ => ⟨?_, left⟩
    obtain ⟨⟨iso, pulse, holds, _⟩⟩ := underway
    have feedback : q.valveFeedback = some v.reading.feedback := by rw [holds.same]; rfl
    have kept : q.mode = if iso then .isolated else v.slot.record.mode := by rw [holds.same]; rfl
    rw [course.settings, WellRecord.closed, feedback] at closed
    cases iso with
    | true => cases kept.symm.trans mode
    | false => exact ⟨kept.symm.trans mode, by simpa using closed⟩
  · obtain ⟨p, hp, stayed⟩ := stays.found q hq
    exact course.found hp (underway.next (fun e => absurd e plain.1) (fun e => absurd e plain.2) stayed)

/-- What one event makes of the course of an arrival. -/
theorem Course.step {h : Handed} (course : Course v s (h :: later) u) :
    Course v s later (takeHanded later v.well h u) := by
  cases hq : u.record? v.well with
  | none => exact course.step_gone hq
  | some q =>
    by_cases isolate : h = .isolate
    · subst isolate
      exact course.step_isolate hq
    · by_cases pulse : h = .autoPurge
      · subst pulse
        exact course.step_pulse hq
      · exact course.step_plain hq ⟨isolate, pulse⟩

/-- A property of the course that every event keeps holds when all have been taken. -/
theorem takeAllHanded_induct {P : List Handed → State → Prop}
    (step : ∀ h later u, Course v s (h :: later) u → P (h :: later) u → P later (takeHanded later v.well h u))
    (all : List Handed) (course : Course v s all u) (before : P all u) :
    Course v s [] (takeAllHanded v.well all u) ∧ P [] (takeAllHanded v.well all u) := by
  induction all generalizing u with
  | nil => exact ⟨course, before⟩
  | cons h later ih => exact ih course.step (step h later u course before)

end Sys2Proof.Machine
end

