-- ==== Sys2Proof/Proofs/NeedAndChecks.lean ====
section
/-! SUPPORT. What a need evaluation and a completion check do to the well they are made for, case by case of R40, R111 and
R115, as far as its place in the lists and its move outcome go. -/

namespace Sys2Proof.Machine

variable {s t u : State} {w : Well} {q r : WellRecord} {o : MoveOutcome} {band : Nat}

/-! ### Endings -/

/-- The last move of the well has ended with this outcome, and the MOVE event of it stands. -/
abbrev WellRecord.MoveEnded (o : MoveOutcome) (r : WellRecord) : Prop := r.moveOutcome = o ∧ r.events.getLsbD 4 = true

/-- A well in neither list, whose last move has ended with this outcome. -/
structure Ended (o : MoveOutcome) (w : Well) (s : State) : Prop where
  unlisted : ¬ s.Listed w
  shows    : s.Shows w (WellRecord.MoveEnded o)

theorem Gone.ended (gone : Gone w s) : Ended o w s :=
  ⟨gone.unlisted, fun q hq => by cases gone.record.symm.trans hq⟩

theorem Beside.ended (h : Beside w s t) (ended : Ended o w s) : Ended o w t := by
  obtain ⟨unlisted, marks⟩ := h.unlisted ended.unlisted
  refine ⟨unlisted, fun q hq => ?_⟩
  obtain ⟨r, hr, same⟩ := marks q hq
  obtain ⟨outcome, event⟩ := ended.shows r hr
  obtain ⟨y, hy, rfl⟩ := Option.map_eq_some_iff.1 hq
  obtain ⟨x, hx, kept⟩ := h.stays.slot y hy
  have own : r = x.record := by
    have read : s.record? w = some x.record := by rw [State.record?, hx]; rfl
    exact Option.some.inj (hr.symm.trans read)
  rw [own] at event
  exact ⟨(congrArg Prod.snd same).trans outcome, kept.grows 4 event⟩

theorem endMove_ended (o : MoveOutcome) (w : Well) (s : State) : Ended o w (endMove o w s) := by
  refine ⟨?_, fun q hq => ?_⟩
  · rw [State.Listed, endMove_inLists, List.mem_filter]
    simp
  · rw [endMove, record?_setWellEvent, if_pos rfl, record?_writeRecord, if_pos rfl, Option.map_map,
      Option.map_eq_some_iff] at hq
    obtain ⟨r, _, rfl⟩ := hq
    exact ⟨rfl, by simp [addEvent, WellEvent.bit]⟩

theorem grantTest_ended (ended : Ended o w s) : Ended o w (grantTest s) :=
  beside_holds (fun _ _ step => step.ended) (grantLoop_beside _ s rfl w) ended

theorem blockMove_listed (listed : s.Listed w) : Ended .blocked w (blockMove w s) := by
  unfold blockMove
  split
  · exact grantTest_ended (endMove_ended _ w s)
  · rename_i holds
    rw [if_pos (((listed_iff s w).1 listed).resolve_left holds)]
    exact endMove_ended _ w s

theorem blockMove_unlisted (unlisted : ¬ s.Listed w) : blockMove w s = s := by
  obtain ⟨holds, waits⟩ := moving_false unlisted
  simp [blockMove, holds, waits]

theorem findBlocked_moves (w : Well) (s : State) : (findBlocked w s).moves = s.moves :=
  (setWellEvent_apart .move w _).moves

theorem findBlocked_ended (unlisted : ¬ s.Listed w) : Ended .blocked w (findBlocked w s) := by
  refine ⟨fun h => unlisted ((listed_of_moves (findBlocked_moves w s)).1 h), fun q hq => ?_⟩
  rw [findBlocked, record?_setWellEvent, if_pos rfl, record?_writeRecord, if_pos rfl, Option.map_map,
    Option.map_eq_some_iff] at hq
  obtain ⟨r, _, rfl⟩ := hq
  exact ⟨rfl, by simp [addEvent, WellEvent.bit]⟩

theorem leaveQuietly_unlisted (w : Well) (s : State) : ¬ (leaveQuietly w s).Listed w :=
  (still_iff _ w).1 (leaveLists_still w s)

theorem joinWaitList_listed (hq : s.record? w = some q) (unlisted : ¬ s.Listed w) : (joinWaitList w s).Listed w := by
  obtain ⟨joined, _⟩ := joinWaitList_joined hq (moving_false unlisted).1
  obtain ⟨lists, _⟩ := joined
  rw [State.Listed, lists]
  simp

/-! ### A need evaluation, case by case -/

/-- Listed with ACTUATOR high: the move ends BLOCKED. -/
theorem evalNeed_blocks (hq : s.record? w = some q) (active : q.mode.isActive = true)
    (high : q.inputHigh .actuator = true) (listed : s.Listed w) : Ended .blocked w (evalNeed w s) := by
  have e : evalNeed w s = blockMove w s := by
    simp only [evalNeed, hq, active, Bool.true_eq_false, if_false, (moving_iff s w).2 listed, high, and_self, if_true]
  rw [e]
  exact blockMove_listed listed

/-- A holder with ACTUATOR low is left as it stands. -/
theorem evalNeed_holder (hq : s.record? w = some q) (low : q.inputHigh .actuator = false)
    (holds : s.moves.holds w = true) : evalNeed w s = s := by
  simp only [evalNeed, hq, low, Bool.false_eq_true, and_false, if_false, holds, if_true]
  split <;> rfl

/-- A closed RETIRING well that holds no slot, and does not wait with ACTUATOR high, is freed. -/
theorem evalNeed_frees (hq : s.record? w = some q) (retiring : q.mode = .retiring)
    (closed : q.closed s.settings.moveBand = true) (holds : s.moves.holds w = false)
    (unblocked : q.inputHigh .actuator = true → ¬ s.Listed w) : Gone w (evalNeed w s) := by
  have active : q.mode.isActive = true := by rw [retiring]; rfl
  have still : ¬ (s.moving w = true ∧ q.inputHigh .actuator = true) :=
    fun h => unblocked h.2 ((moving_iff s w).1 h.1)
  have e : evalNeed w s = freeWell w s := by
    unfold evalNeed
    simp only [hq]
    rw [if_neg (by simp [active]), if_neg still, if_neg (by simp [holds]), if_pos ⟨retiring, closed⟩]
  rw [e]
  exact freeWell_leaves hq

/-- A listed well with ACTUATOR low and out of band keeps its place. -/
theorem evalNeed_waits (hq : s.record? w = some q) (low : q.inputHigh .actuator = false)
    (off : q.outOfBand s.settings.moveBand = true)
    (unclosed : q.mode = .retiring → q.closed s.settings.moveBand = false) (listed : s.Listed w) : evalNeed w s = s := by
  cases active : q.mode.isActive with
  | false => simp only [evalNeed, hq, active, if_true]
  | true =>
    have needs : q.needsMove s.settings.moveBand = true := by simp [WellRecord.needsMove, active, low, off]
    rw [evalNeed_eq hq active unclosed, if_neg (by simp [low])]
    split
    · rfl
    · rename_i holds
      simp only [((listed_iff s w).1 listed).resolve_left holds, if_true]

/-- A well that needs a move joins. -/
theorem evalNeed_joins (hq : s.record? w = some q) (active : q.mode.isActive = true)
    (low : q.inputHigh .actuator = false) (off : q.outOfBand s.settings.moveBand = true)
    (unclosed : q.mode = .retiring → q.closed s.settings.moveBand = false) (unlisted : ¬ s.Listed w) :
    (evalNeed w s).Listed w := by
  obtain ⟨holds, waits⟩ := moving_false unlisted
  have e : evalNeed w s = joinWaitList w s := by
    rw [evalNeed_eq hq active unclosed, if_neg (by simp [low])]
    simp [holds, waits, WellRecord.needsMove, active, low, off]
  rw [e]
  exact joinWaitList_listed hq unlisted

/-- With ACTUATOR low and out of band a listed well stays listed and an active one is listed. -/
theorem evalNeed_lists (hq : s.record? w = some q) (low : q.inputHigh .actuator = false)
    (off : q.outOfBand s.settings.moveBand = true)
    (unclosed : q.mode = .retiring → q.closed s.settings.moveBand = false)
    (before : s.Listed w ∨ q.mode.isActive = true) : (evalNeed w s).Listed w := by
  by_cases listed : s.Listed w
  · rw [evalNeed_waits hq low off unclosed listed]
    exact listed
  · exact evalNeed_joins hq (before.resolve_left listed) low off unclosed listed

/-- A waiting well in band leaves, quietly or freed. -/
theorem evalNeed_leaves (hq : s.record? w = some q) (active : q.mode.isActive = true)
    (low : q.inputHigh .actuator = false) (on : q.outOfBand s.settings.moveBand = false)
    (holds : s.moves.holds w = false) : ¬ (evalNeed w s).Listed w := by
  by_cases closed : q.mode = .retiring ∧ q.closed s.settings.moveBand = true
  · exact (evalNeed_frees hq closed.1 closed.2 holds (by simp [low])).unlisted
  · have unclosed : q.mode = .retiring → q.closed s.settings.moveBand = false := fun retiring =>
      Bool.eq_false_iff.2 fun shut => closed ⟨retiring, shut⟩
    have rows := evalNeed_eq hq active unclosed
    have content : q.needsMove s.settings.moveBand = false := by simp [WellRecord.needsMove, on]
    cases waits : s.moves.waits w with
    | true =>
      have e : evalNeed w s = leaveQuietly w s := by simp [rows, low, holds, waits, content]
      rw [e]
      exact leaveQuietly_unlisted w s
    | false =>
      have e : evalNeed w s = s := by simp [rows, low, holds, waits, content]
      rw [e]
      exact (still_iff s w).1 ⟨holds, waits⟩

/-- A well in neither list that is in band is freed or left as it stands. -/
theorem evalNeed_content (on : ∀ q, s.record? w = some q → q.outOfBand s.settings.moveBand = false)
    (unlisted : ¬ s.Listed w) : evalNeed w s = s ∨ Gone w (evalNeed w s) := by
  obtain ⟨holds, waits⟩ := moving_false unlisted
  have still : s.moving w = false := by simp [State.moving, holds, waits]
  unfold evalNeed
  split
  · exact .inl rfl
  rename_i q hq
  simp only [still, holds, waits, Bool.false_eq_true, false_and, if_false]
  split
  · exact .inl rfl
  split
  · exact .inr (freeWell_leaves hq)
  · simp [WellRecord.needsMove, on q hq]

/-- A well in neither list with ACTUATOR high is freed, found BLOCKED, or left as it stands. -/
theorem evalNeed_high (high : ∀ q, s.record? w = some q → q.inputHigh .actuator = true) (unlisted : ¬ s.Listed w) :
    evalNeed w s = s ∨ Gone w (evalNeed w s) ∨ evalNeed w s = findBlocked w s := by
  obtain ⟨holds, waits⟩ := moving_false unlisted
  have still : s.moving w = false := by simp [State.moving, holds, waits]
  unfold evalNeed
  split
  · exact .inl rfl
  rename_i q hq
  simp only [still, holds, waits, Bool.false_eq_true, false_and, if_false]
  split
  · exact .inl rfl
  split
  · exact .inr (.inl (freeWell_leaves hq))
  · rw [if_neg (by simp [WellRecord.needsMove, high q hq])]
    split
    · exact .inr (.inr rfl)
    · exact .inl rfl

/-- An active well in neither list with ACTUATOR high, out of band, is found BLOCKED. -/
theorem evalNeed_finds (hq : s.record? w = some q) (active : q.mode.isActive = true)
    (high : q.inputHigh .actuator = true) (off : q.outOfBand s.settings.moveBand = true)
    (unclosed : q.mode = .retiring → q.closed s.settings.moveBand = false) (unlisted : ¬ s.Listed w) :
    Ended .blocked w (evalNeed w s) := by
  obtain ⟨holds, waits⟩ := moving_false unlisted
  have still : s.moving w = false := by simp [State.moving, holds, waits]
  have e : evalNeed w s = findBlocked w s := by
    simp [evalNeed_eq hq active unclosed, still, holds, waits, WellRecord.needsMove, high, off]
  rw [e]
  exact findBlocked_ended unlisted

/-- With ACTUATOR high no evaluation brings a well into the lists. -/
theorem evalNeed_unlisted (high : ∀ q, s.record? w = some q → q.inputHigh .actuator = true) (unlisted : ¬ s.Listed w) :
    ¬ (evalNeed w s).Listed w := by
  rcases evalNeed_high high unlisted with e | gone | e
  · rw [e]
    exact unlisted
  · exact gone.unlisted
  · rw [e]
    exact fun h => unlisted ((listed_of_moves (findBlocked_moves w s)).1 h)

theorem evalNeed_ended (high : ∀ q, s.record? w = some q → q.inputHigh .actuator = true)
    (ended : Ended .blocked w s) : Ended .blocked w (evalNeed w s) := by
  rcases evalNeed_high high ended.unlisted with e | gone | e
  · rw [e]
    exact ended
  · exact gone.ended
  · rw [e]
    exact findBlocked_ended ended.unlisted

/-! ### A completion check, case by case -/

/-- A well in neither list is not checked. -/
theorem checkMove_unlisted (unlisted : ¬ s.Listed w) : checkMove w s = s := by
  obtain ⟨holds, waits⟩ := moving_false unlisted
  unfold checkMove
  split
  · rfl
  · simp [holds, waits]

/-- A well out of band that is not a closed RETIRING one is left as it stands. -/
theorem checkMove_off (hq : s.record? w = some q) (off : q.outOfBand s.settings.moveBand = true)
    (unclosed : q.mode = .retiring → q.closed s.settings.moveBand = false) : checkMove w s = s := by
  have stays : ¬ (s.moves.waits w = true ∧ q.mode = .retiring ∧ q.closed s.settings.moveBand = true) := by
    rintro ⟨_, retiring, closed⟩
    cases (unclosed retiring).symm.trans closed
  unfold checkMove
  simp only [hq, off, stays, if_true, if_false, ite_self]

/-- A holder in band completes its move, or is freed. -/
theorem checkMove_done (hq : s.record? w = some q) (on : q.outOfBand s.settings.moveBand = false)
    (holds : s.moves.holds w = true) : Ended .done w (checkMove w s) := by
  unfold checkMove
  simp only [hq, holds, on, Bool.false_eq_true, if_true, if_false]
  split
  · exact (freeWell_leaves hq).ended
  · exact grantTest_ended (endMove_ended .done w s)

/-- A listed RETIRING well seen closed is freed. -/
theorem checkMove_frees (hq : s.record? w = some q) (retiring : q.mode = .retiring)
    (closed : q.closed s.settings.moveBand = true) (on : q.outOfBand s.settings.moveBand = false)
    (listed : s.Listed w) : Gone w (checkMove w s) := by
  have e : checkMove w s = freeWell w s := by
    unfold checkMove
    simp only [hq, retiring, closed, on, Bool.false_eq_true, if_true, if_false, and_true]
    split
    · rfl
    · rename_i holds
      rw [if_pos (((listed_iff s w).1 listed).resolve_left holds)]
  rw [e]
  exact freeWell_leaves hq

/-- A well without a slot is freed or left as it stands. -/
theorem checkMove_waiter (holds : s.moves.holds w = false) : checkMove w s = s ∨ Gone w (checkMove w s) := by
  unfold checkMove
  split
  · exact .inl rfl
  rename_i q hq
  simp only [holds, Bool.false_eq_true, if_false]
  split
  · exact .inr (freeWell_leaves hq)
  · exact .inl rfl

end Sys2Proof.Machine
end

