-- ==== Sys2Proof/Proofs/ArrivalMoves.lean ====
section
/-! SUPPORT. What the moves of a well become over an arrival. `Leads v s steady P Q` says that a property `P` of the events
still to be taken is kept through the reply, from the first channel to the last, and leaves `Q`; the clauses of `MovesAfter`
are such properties, whatever the order of the events (R40, R61, R62, R111, R115, R116, R118). -/

namespace Sys2Proof.Machine

variable {s t u : State} {v : Arrival} {w : Well} {later : List Handed} {q r : WellRecord} {band : Nat}

/-! ### A property kept through the reply -/

/-- All the events of the arrival are still to be taken. -/
abbrev Arrival.Full (v : Arrival) (later : List Handed) : Prop := ∀ h ∈ v.handed, h ∈ later

/-- What the blocks mark in the record, the input event kinds aside, is as it was. -/
structure Rest (r q : WellRecord) : Prop where
  queued      : q.queued = r.queued
  outcome     : q.sampleOutcome = r.sampleOutcome
  moveOutcome : q.moveOutcome = r.moveOutcome
  surveyDue   : q.surveyDue = r.surveyDue
  event       : ∀ i, 4 ≤ i → q.events.getLsbD i = r.events.getLsbD i

/-- The blocks are at rest, as while the event unit takes its part, and when a round ends. -/
structure Rested (w : Well) (s t : State) : Prop where
  seq     : t.seq = s.seq
  moves   : t.moves = s.moves
  state   : t.device.state = s.device.state
  device  : ∀ i, s.device.events.getLsbD i = true → t.device.events.getLsbD i = true
  reports : ∀ k n d, s.Reported k n d → t.Reported k n d
  read    : ∀ q, t.record? w = some q → ∃ r, s.record? w = some r ∧ Rest r q

/-- `P` is kept by the other channels while all events or none are to come, by the event unit's part, and by every event
taken; at the end it gives `Q`. With `steady` the steps are those that leave the device state. -/
structure Leads (v : Arrival) (s : State) (steady : Bool) (P : List Handed → State → Prop) (Q : State → Prop) :
    Prop where
  turned  : ∀ x later t u, v.Full later ∨ later = [] → x ≠ v.well → Turned x t u →
    (steady = true → u.device.state = t.device.state) → P later t → P later u
  written : ∀ later t u, v.Full later → Rested v.well t u → P later t → P later u
  step    : ∀ h later u, Course v s (h :: later) u →
    (steady = true → (takeHanded later v.well h u).device.state = u.device.state) →
    P (h :: later) u → P later (takeHanded later v.well h u)
  ends    : ∀ t u, Rested v.well t u → P [] t → Q u

/-! ### Moves left as they are -/

/-- The place of the well and the outcome of its last move are as they were, and its MOVE event stands where it stood. -/
structure MoveSame (w : Well) (s t : State) : Prop where
  holds : t.moves.holds w = s.moves.holds w
  waits : t.moves.waits w = s.moves.waits w
  marks : ∀ q, t.record? w = some q → ∃ r, s.record? w = some r ∧ q.moveOutcome = r.moveOutcome ∧
    (r.events.getLsbD 4 = true → q.events.getLsbD 4 = true)

theorem MoveSame.listed (same : MoveSame w s t) : t.Listed w ↔ s.Listed w := by
  rw [listed_iff, listed_iff, same.holds, same.waits]

theorem MoveSame.ended {o : MoveOutcome} (same : MoveSame w s t) (ended : Ended o w s) : Ended o w t := by
  refine ⟨fun h => ended.unlisted (same.listed.1 h), fun q hq => ?_⟩
  obtain ⟨r, hr, outcome, event⟩ := same.marks q hq
  obtain ⟨own, stands⟩ := ended.shows r hr
  exact ⟨outcome.trans own, event stands⟩

theorem MoveSame.freed (same : MoveSame w s t) (freed : s.record? w = none) : t.record? w = none := by
  cases hq : t.record? w with
  | none => rfl
  | some q =>
    obtain ⟨r, hr, _⟩ := same.marks q hq
    cases freed.symm.trans hr

theorem Rested.moveSame (rested : Rested w s t) : MoveSame w s t where
  holds := by rw [rested.moves]
  waits := by rw [rested.moves]
  marks q hq := by
    obtain ⟨r, hr, rest⟩ := rested.read q hq
    exact ⟨r, hr, rest.moveOutcome, fun h => (rest.event 4 (by decide)).trans h⟩

theorem SlotsKept.event (kept : SlotsKept s t) (hr : s.record? w = some r) (hq : t.record? w = some q) (i : Nat)
    (h : r.events.getLsbD i = true) : q.events.getLsbD i = true := by
  obtain ⟨y, hy, rfl⟩ := Option.map_eq_some_iff.1 hq
  obtain ⟨x, hx, slot⟩ := kept w y hy
  have own : r = x.record := by
    have read : s.record? w = some x.record := by rw [State.record?, hx]; rfl
    exact Option.some.inj (hr.symm.trans read)
  exact slot.grows i (own ▸ h)

theorem moveSame_of (moves : t.moves = s.moves) (marks : SameRead moveMarks w s t) (kept : SlotsKept s t) :
    MoveSame w s t where
  holds := by rw [moves]
  waits := by rw [moves]
  marks q hq := by
    obtain ⟨r, hr, same⟩ := marks q hq
    exact ⟨r, hr, congrArg Prod.snd same, kept.event hr hq 4⟩

theorem takeHeads_moveMarks (es : List QueueEntry) (s : State) : SameRead moveMarks w s (takeHeads es s) := by
  induction es generalizing s with
  | nil => exact .refl s
  | cons e rest ih =>
    rw [takeHeads_cons]
    split
    · refine SameRead.trans (t := headBlocked e rest s) ?_ (ih _)
      exact SameRead.trans (t := setQueue rest s) (sameRead_of_slots rfl)
        (((sameRead_write (f := fun r => { r with sampleOutcome := .blocked }) (fun _ => rfl) e.well _).trans
          (sameRead_event (fun _ => rfl) e.well _)).trans
          (sameRead_write (f := fun r => { r with queued := .no }) (fun _ => rfl) e.well _))
    · exact sameRead_write (f := fun r => { r with queued := .sampling }) (fun _ => rfl) e.well
        { setQueue rest s with seq := { (setQueue rest s).seq with phase := .select e.well, busyCount := 0 } }

theorem headTest_moveMarks (s : State) : SameRead moveMarks w s (headTest s) := by
  unfold headTest
  split
  · exact takeHeads_moveMarks _ s
  · exact .refl s

theorem urgentEnqueue_moveMarks (held : Bool) (s : State) : SameRead moveMarks w s (urgentEnqueue held w s) := by
  have test (t : State) : SameRead moveMarks w t (if held then t else headTest t) := by
    split
    · exact .refl t
    · exact headTest_moveMarks t
  have placed (t : State) : SameRead moveMarks w t (placeInQueue .urgent w t) :=
    SameRead.trans (t := setQueue (placeEntry ⟨w, .urgent⟩ (withoutEntry w t.seq.queue)) t) (sameRead_of_slots rfl)
      (sameRead_write (f := fun r => { r with queued := .urgent }) (fun _ => rfl) w _)
  have evicted (e : QueueEntry) : SameRead moveMarks w s (evict e s) :=
    sameRead_write (f := fun r => { r with queued := .no, surveyDue := 0 }) (fun _ => rfl) e.well
      (setQueue (withoutEntry e.well s.seq.queue) s)
  have due : SameRead moveMarks w s (dueAtOnce w s) :=
    sameRead_write (f := fun r => { r with surveyDue := 0 }) (fun _ => rfl) w s
  unfold urgentEnqueue
  dsimp only
  split
  · exact .refl s
  split
  · exact .refl s
  split
  · exact .refl s
  · exact (placed s).trans (test _)
  · exact due
  · split
    · exact (placed s).trans (test _)
    · split
      · exact ((evicted _).trans (placed _)).trans (test _)
      · exact due

theorem urgentEnqueue_moves (held : Bool) (s : State) : (urgentEnqueue held w s).moves = s.moves := by
  have test (t : State) : (if held then t else headTest t).moves = t.moves := by
    split
    · rfl
    · exact (headTest_moves t).1
  unfold urgentEnqueue
  dsimp only
  split
  · rfl
  split
  · rfl
  split
  · rfl
  · exact test _
  · rfl
  · split
    · exact test _
    · split
      · exact test (placeInQueue .urgent w (evict _ s))
      · rfl

theorem leaveSample_moves (running : s.scan.round ≠ .idle) (steady : (leaveSample s).device.state = s.device.state) :
    (leaveSample s).moves = s.moves ∧ SameRead moveMarks w s (leaveSample s) := by
  have idle : (enterIdle s).moves = s.moves ∧ SameRead moveMarks w s (enterIdle s) :=
    ⟨(headTest_moves _).1, SameRead.trans (t := setPhase .idle s) (sameRead_of_slots rfl) (headTest_moveMarks _)⟩
  unfold leaveSample at *
  split at steady
  · exact idle
  · rename_i f _
    split at steady
    · rename_i reached
      obtain ⟨slots, _, moves⟩ := reportFault_steady (s := setPhase (.offline Config.probeSeconds false) s)
        (k := .analyserOffline) (n := f.tag) (d := outcomeDetail f.outcome.toOutcome) running steady
      rw [if_pos reached]
      exact ⟨moves, sameRead_of_slots slots⟩
    · rename_i other
      rw [if_neg other]
      exact idle

/-- The events that the move scheduler is not handed. -/
def Handed.quiet : Handed → Bool
  | .capAbort | .capEnqueue | .actuatorReport | .autoPurge | .confirm _ => true
  | .isolate | .actuatorBlock | .actuatorFall | .feedback _ => false

theorem takeConfirmation_moves {valve : Bool} (landed : s.Landed)
    (steady : (takeConfirmation valve w s).device.state = s.device.state) :
    (takeConfirmation valve w s).moves = s.moves ∧ SameRead moveMarks w s (takeConfirmation valve w s) := by
  unfold takeConfirmation at *
  split at steady
  · split
    · exact ⟨rfl, sameRead_of_slots rfl⟩
    · exact ⟨rfl, .refl s⟩
  · split at steady
    · rename_i own
      rw [if_pos own]
      obtain ⟨moves, marks⟩ := leaveSample_moves (w := w) (s := setQueued .no w s) landed.running steady
      exact ⟨moves, (sameRead_write (f := fun r => { r with queued := .no }) (fun _ => rfl) w s).trans marks⟩
    · rename_i other
      rw [if_neg other]
      exact ⟨rfl, .refl s⟩
  all_goals exact ⟨rfl, .refl s⟩

theorem takeHanded_quiet {h : Handed} (quiet : h.quiet = true) (landed : s.Landed)
    (steady : (takeHanded later w h s).device.state = s.device.state) : MoveSame w s (takeHanded later w h s) := by
  have kept := (takeHanded_handles (v := w) later h s landed).slots
  cases h with
  | isolate | actuatorBlock | actuatorFall | feedback b => cases quiet
  | capAbort =>
    refine moveSame_of ?_ ?_ kept
    · simp only [takeHanded, abortSampleOf]
      split
      · exact (abortSample_moves s).1
      · rfl
    · simp only [takeHanded, abortSampleOf]
      split
      · exact abortSample_moveMarks s
      · exact .refl s
  | capEnqueue =>
    simp only [takeHanded, capEnqueue] at kept ⊢
    split
    · exact ⟨rfl, rfl, fun q hq => ⟨q, hq, rfl, id⟩⟩
    · rename_i hq
      rw [hq] at kept
      exact moveSame_of (urgentEnqueue_moves _ s) (urgentEnqueue_moveMarks _ s) kept
  | actuatorReport =>
    obtain ⟨slots, _, moves⟩ := reportFault_steady landed.running steady
    exact moveSame_of moves (sameRead_of_slots slots) kept
  | autoPurge =>
    have e : takeHanded later w .autoPurge s = s ∨ takeHanded later w .autoPurge s = startPulse w s := by
      simp only [takeHanded, liquidPurge]
      split
      · exact .inl rfl
      · split
        · exact .inr rfl
        · exact .inl rfl
    rcases e with e | e
    · rw [e]
      exact ⟨rfl, rfl, fun q hq => ⟨q, hq, rfl, id⟩⟩
    · refine moveSame_of (by rw [e]; rfl) (fun q hq => ?_) kept
      cases hr : s.record? w with
      | none =>
        have left : (startPulse w s).record? w = none := by
          rw [startPulse, State.record?, well?_changeSlot (f := fun x => { x with purgeEndDue := false }) (fun _ => rfl),
            if_pos rfl, well?_writeRecord, if_pos rfl, well?_eq_none.2 hr]
          rfl
        rw [e, left] at hq
        cases hq
      | some r =>
        rw [e, record?_startPulse hr] at hq
        cases hq
        exact ⟨r, rfl, rfl⟩
  | confirm valve =>
    obtain ⟨moves, marks⟩ := takeConfirmation_moves landed steady
    exact moveSame_of moves marks kept

end Sys2Proof.Machine
end

