-- ==== Sys2Proof/Proofs/MoveClaims.lean ====
section
/-! SUPPORT. The clauses of `MovesAfter`, each as a property of the events still to be taken that every event keeps. -/

namespace Sys2Proof.Machine

variable {s t u m : State} {v : Arrival} {w : Well} {later : List Handed} {p q r : WellRecord} {band : Nat}

/-! ### What the move scheduler reads of the record -/

/-- The new feedback is out of band of the target as it stands with `later` to be taken. -/
def Arrival.OffNow (v : Arrival) (band : Nat) (later : List Handed) : Prop :=
  (v.Isolates ∧ .isolate ∉ later → band < v.reading.feedback) ∧ (¬ (v.Isolates ∧ .isolate ∉ later) → v.Off band)

/-- The record answers the move scheduler as the arrival says. -/
structure Arrival.Sees (v : Arrival) (band : Nat) (later : List Handed) (q : WellRecord) : Prop where
  high   : q.inputHigh .actuator = true ↔ v.after.actuator = .high
  off    : q.outOfBand band = true ↔ v.OffNow band later
  closed : q.mode = .retiring ∧ q.closed band = true ↔ v.ShowsClosed band
  active : q.mode.isActive = v.slot.record.mode.isActive
  shut   : q.outOfBand band = true → q.mode = .retiring → q.closed band = false

theorem Arrival.Sees.low {l : Level} (sees : v.Sees band later q) (level : v.after.actuator = l) (low : l = .low) :
    q.inputHigh .actuator = false := by
  rw [Bool.eq_false_iff]
  intro high
  cases low.symm.trans (level.symm.trans (sees.high.1 high))

theorem outOfBand_feedback {f : Nat} (feedback : q.valveFeedback = some f) :
    q.outOfBand band = true ↔ q.valveTarget + band < f ∨ f + band < q.valveTarget := by
  rw [outOfBand_iff, WellRecord.OffTarget, feedback]
  simp

theorem Arrival.Underway.sees {purgePulse : Nat} (record : v.Underway later purgePulse q) (legal : q.Legal) (band : Nat) :
    v.Sees band later q := by
  obtain ⟨_, _, _, ⟨_, _, closes⟩, _⟩ := legal
  obtain ⟨⟨iso, pulse, holds, done, _⟩⟩ := record
  have feedback : q.valveFeedback = some v.reading.feedback := by rw [holds.same]; rfl
  have inputs : q.inputs = some v.after := by rw [holds.same]; rfl
  have mode : q.mode = if iso then .isolated else v.slot.record.mode := by rw [holds.same]; rfl
  have target : q.valveTarget = if iso then 0 else v.slot.record.valveTarget := by rw [holds.same]; rfl
  have off := outOfBand_feedback (band := band) feedback
  refine ⟨?_, ?_, ?_, ?_, fun out retiring => ?_⟩
  · simp [WellRecord.inputHigh, inputs, inputValue]
  · rw [off, target, Arrival.OffNow, ← done]
    cases iso <;> simp
  · rw [WellRecord.closed, feedback, decide_eq_true_iff, mode]
    cases iso with
    | false => exact Iff.rfl
    | true =>
      have sampled := Arrival.Isolates.sampled (done.1 rfl).1
      refine ⟨fun h => (nomatch h.1), fun shows => ?_⟩
      rw [shows.1] at sampled
      cases sampled
  · rw [mode]
    cases iso with
    | false => rfl
    | true => exact (sampled_active (Arrival.Isolates.sampled (done.1 rfl).1)).symm
  · have zero := closes (.inr retiring)
    rw [WellRecord.closed, feedback]
    have out := off.1 out
    simp only [decide_eq_false_iff_not]
    omega

theorem Course.sees (course : Course v s later u) (hq : u.record? v.well = some q) :
    v.Sees u.settings.moveBand later q := by
  exact (course.record q hq).sees (legal_of_record course.landed.legal hq) _

/-- The move scheduler reads nothing of a record that its marks change. -/
theorem Arrival.Sees.marked (sees : v.Sees band later r) (same : q = { r with
    events := q.events, queued := q.queued, sampleOutcome := q.sampleOutcome, moveState := q.moveState,
    moveOutcome := q.moveOutcome }) : v.Sees band later q := by
  have inputs : q.inputs = r.inputs := by rw [same]
  have mode : q.mode = r.mode := by rw [same]
  have feedback : q.valveFeedback = r.valveFeedback := by rw [same]
  have target : q.valveTarget = r.valveTarget := by rw [same]
  have out : q.outOfBand band = r.outOfBand band := by rw [WellRecord.outOfBand, WellRecord.outOfBand, feedback, target]
  have closed : q.closed band = r.closed band := by rw [WellRecord.closed, WellRecord.closed, feedback]
  exact
    { high := by rw [WellRecord.inputHigh, inputs]; exact sees.high
      off := by rw [out]; exact sees.off
      closed := by rw [mode, closed]; exact sees.closed
      active := by rw [mode]; exact sees.active
      shut := by rw [out, mode, closed]; exact sees.shut }

/-! ### New feedback, in two parts -/

theorem takeFeedback_true (w : Well) (s : State) : takeFeedback true w s = checkMove w (evalNeed w s) := rfl

theorem takeFeedback_false (w : Well) (s : State) : takeFeedback false w s = checkMove w s := rfl

/-- New feedback is an evaluation at a baseline, and then a check. -/
theorem feedback_parts {P Q : State → Prop} (course : Course v s later u) (hq : u.record? v.well = some q)
    (gone : v.ShowsClosed s.settings.moveBand → ∀ u, Gone v.well u → Q u) (need : v.baseline = true → P (evalNeed v.well u))
    (plain : v.baseline = false → P u)
    (check : ∀ m p, m.record? v.well = some p → m.settings = s.settings → v.Sees m.settings.moveBand later p → P m →
      Q (checkMove v.well m)) : Q (takeFeedback v.baseline v.well u) := by
  cases b : v.baseline with
  | false =>
    rw [takeFeedback_false]
    exact check u q hq course.settings (course.sees hq) (plain b)
  | true =>
    rw [takeFeedback_true]
    rcases evalNeed_parts hq with ⟨retiring, closed, left⟩ | marks
    · rw [checkMove_unlisted left.unlisted]
      exact gone (by rw [← course.settings]; exact (course.sees hq).closed.1 ⟨retiring, closed⟩) _ left
    · obtain ⟨p, hp, same⟩ := marks.holds v.well q hq
      have settings := (evalNeed_handles (v := v.well) u course.landed).settings
      exact check _ p hp (settings.trans course.settings) (by rw [settings]; exact (course.sees hq).marked same) (need b)

/-! ### An isolation -/

/-- The isolation of a well leaves its place, or evaluates its need with the record as entered (R25, R111, R116). -/
theorem isolation_moves (hq : s.record? w = some q) (sampled : q.mode.isSampled = true) :
    (MoveSame w s (changeMode .isolated false w s) ∧ (q.valveTarget = 0 ∨ s.moves.holds w = true)) ∨
    (s.moves.holds w = false ∧ ∃ m p, MoveSame w s m ∧ m.record? w = some p ∧ p.mode = .isolated ∧
      p.inputs = q.inputs ∧ p.valveFeedback = q.valveFeedback ∧ p.valveTarget = 0 ∧ m.settings = s.settings ∧
      changeMode .isolated false w s = evalNeed w m) := by
  have other : q.mode ≠ .isolated := fun e => by rw [e] at sampled; cases sampled
  have target : (q.entered .isolated s.settings.suspectInterval).valveTarget = 0 := rfl
  have written : (writeRecord (WellRecord.entered .isolated s.settings.suspectInterval) w s).record? w =
      some (q.entered .isolated s.settings.suspectInterval) := by rw [record?_writeRecord, if_pos rfl, hq]; rfl
  obtain ⟨p, hp, marked⟩ := (modeWritten_marksOf .isolated w s).found written
  obtain ⟨inputs, feedback, _, outcome⟩ := entered_kept .isolated s.settings.suspectInterval q
  obtain ⟨alarm, _⟩ := entered_sameAlarm .isolated s.settings.suspectInterval q
  have moves := modeWritten_moves .isolated w s
  have left : MoveSame w s (modeWritten .isolated w s) :=
    { holds := by rw [moves]
      waits := by rw [moves]
      marks := fun p' hp' => by
        cases hp.symm.trans hp'
        exact ⟨q, hq, (marked.move rfl).2.trans outcome, fun h => marked.grows 4 (by rw [alarm]; exact h)⟩ }
  rw [changeMode_eq hq other]
  simp only [Bool.false_eq_true, false_or, target]
  split
  · rename_i moved
    cases holds : s.moves.holds w with
    | true =>
      refine .inl ⟨?_, .inr rfl⟩
      have held : (modeWritten .isolated w s).moves.holds w = true := left.holds.trans holds
      rw [handTarget, if_pos held]
      have restarted : (restartTimer w (modeWritten .isolated w s)).moves.holds w =
          (modeWritten .isolated w s).moves.holds w := by
        show (List.map _ _).any _ = List.any _ _
        rw [List.any_map]
        refine congrArg _ (funext fun h => ?_)
        simp only [Function.comp]
        split <;> rfl
      exact ⟨restarted.trans left.holds, left.waits, left.marks⟩
    | false =>
      have out : ¬ (modeWritten .isolated w s).moves.holds w = true := by rw [left.holds, holds]; decide
      refine .inr ⟨rfl, _, p, left, hp, by rw [marked.same]; rfl, by rw [marked.same]; exact inputs,
        by rw [marked.same]; exact feedback, by rw [marked.same]; rfl, (modeWritten_calm hq (sampled_active sampled) rfl).settings, ?_⟩
      rw [handTarget, if_neg out]
  · rename_i same
    exact .inl ⟨left, .inl (by omega)⟩

/-! ### A property of the moves -/

/-- `P` reads the place of the well and its move marks alone, and every event that reaches the move scheduler keeps it. -/
structure MoveClaim (v : Arrival) (s : State) (P : List Handed → State → Prop) : Prop where
  gone     : ∀ later u, v.ShowsClosed s.settings.moveBand → Gone v.well u → P later u
  same     : ∀ later t u, MoveSame v.well t u → P later t → P later u
  beside   : ∀ later t u, v.Full later ∨ later = [] → Beside v.well t u → u.device.state = t.device.state →
    P later t → P later u
  passed   : ∀ h later u, h.quiet = true ∨ h = .isolate ∧ ¬ v.Isolates → P (h :: later) u → P later u
  isolate  : ∀ later u q, Course v s (.isolate :: later) u → u.record? v.well = some q → v.Isolates →
    P (.isolate :: later) u → P later (changeMode .isolated false v.well u)
  block    : ∀ later u, v.after.actuator = .high → P (.actuatorBlock :: later) u → P later (blockMove v.well u)
  need     : ∀ later u q, Course v s (.actuatorFall :: later) u → u.record? v.well = some q → v.after.actuator = .low →
    P (.actuatorFall :: later) u → P later (evalNeed v.well u)
  feedback : ∀ later u q, Course v s (.feedback v.baseline :: later) u → u.record? v.well = some q →
    P (.feedback v.baseline :: later) u → P later (takeFeedback v.baseline v.well u)

theorem MoveClaim.leads {P : List Handed → State → Prop} (claim : MoveClaim v s P) : Leads v s true P (P []) where
  turned x later t u stage other turned steady before :=
    beside_steady (P := P later) (fun t u step same held => claim.beside later t u stage step same held)
      (turned.others v.well other.symm) before (steady rfl)
  written later t u _ rested before := claim.same later t u rested.moveSame before
  step h later u course steady before := by
    cases hq : u.record? v.well with
    | none =>
      have next := course.step
      obtain ⟨closed, left⟩ := course.gone hq
      have out : Gone v.well (takeHanded later v.well h u) := by
        rcases takeHanded_gone (later := later) left h with e | e
        · rw [e]
          exact left
        · rw [e]
          exact left.reported
      exact claim.gone later _ closed out
    | some q =>
      have mem := course.handed h (List.mem_cons_self ..)
      cases h with
      | capAbort | capEnqueue | actuatorReport | autoPurge | confirm b =>
        exact claim.same later u _ (takeHanded_quiet rfl course.landed (steady rfl))
          (claim.passed _ later u (.inl rfl) before)
      | isolate =>
        rcases course.isolate_eq hq with ⟨isolates, _, e⟩ | ⟨stays, e⟩
        · rw [e]
          exact claim.isolate later u q course hq isolates before
        · rw [e]
          exact claim.passed _ later u (.inr ⟨rfl, stays⟩) before
      | actuatorBlock => exact claim.block later u (actuatorBlock_handed.1 mem).2 before
      | actuatorFall => exact claim.need later u q course hq (actuatorFall_handed.1 mem).2 before
      | feedback b =>
        obtain rfl := feedback_handed.1 mem
        exact claim.feedback later u q course hq before
  ends t u rested before := claim.same [] t u rested.moveSame before

end Sys2Proof.Machine
end

