-- ==== Sys2Proof/Proofs/MovesSettled.lean ====
section
/-! SUPPORT. What the move scheduler leaves of an arrival that leaves the device state: the clauses of `MovesAfter`. -/

namespace Sys2Proof.Machine

variable {s t u : State} {v : Arrival} {w : Well} {later : List Handed} {q : WellRecord}

/-! ### Common steps -/

theorem mem_passed {h e : Handed} (other : h ≠ e) (mem : e ∈ h :: later) : e ∈ later :=
  (List.mem_cons.1 mem).resolve_left fun own => other own.symm

/-- An event passed over is none that the move scheduler is handed. -/
theorem passed_other {h e : Handed} {isolates : Prop} (passed : h.quiet = true ∨ h = .isolate ∧ ¬ isolates)
    (loud : e.quiet = false) (other : e ≠ .isolate) : h ≠ e := by
  rintro rfl
  rcases passed with quiet | ⟨own, _⟩
  · cases loud.symm.trans quiet
  · exact other own

theorem shows_of_found {P : WellRecord → Prop} (hq : s.record? w = some q) (holds : P q) : s.Shows w P :=
  fun p hp => by cases hq.symm.trans hp; exact holds

theorem Arrival.ShowsClosed.unsampled {band : Nat} (shows : v.ShowsClosed band) : ¬ v.Isolates := fun isolates => by
  have sampled := isolates.sampled
  rw [shows.1] at sampled
  cases sampled

/-- A legal RETIRING record out of band is not seen closed. -/
theorem Arrival.ShowsClosed.on {band : Nat} (shows : v.ShowsClosed band) (legal : v.slot.record.Legal) : ¬ v.Off band := by
  obtain ⟨_, _, _, ⟨_, _, closes⟩, _⟩ := legal
  have zero := closes (.inr shows.1)
  have low := shows.2
  intro off
  simp only [Arrival.Off, zero] at off
  omega

/-- Without an isolation the target stands as it was. -/
theorem offNow_iff {band : Nat} (stays : ¬ v.Isolates) : v.OffNow band later ↔ v.Off band := by
  simp [Arrival.OffNow, stays]

theorem Arrival.Sees.on {band : Nat} (sees : v.Sees band later q) (stays : ¬ v.Isolates) (on : ¬ v.Off band) :
    q.outOfBand band = false :=
  Bool.eq_false_iff.2 fun out => on ((offNow_iff stays).1 (sees.off.1 out))

theorem offNow_of_closed {band : Nat} (shows : v.ShowsClosed band) (off : v.OffNow band later) : v.Off band :=
  (offNow_iff shows.unsampled).1 off

theorem offNow_isolated {band : Nat} (now : v.Isolates ∧ .isolate ∉ later) :
    v.OffNow band later ↔ band < v.reading.feedback :=
  ⟨fun off => off.1 now, fun off => ⟨fun _ => off, fun other => absurd now other⟩⟩

theorem raised_unlowered {f : PerInput Level → Level} (rose : v.Rose f) (low : f v.after = .low) : False := by
  cases low.symm.trans rose.2

/-- What an isolation of the arrival does to the well's place: nothing, or a need evaluation with the record as entered. -/
theorem Course.isolation (course : Course v s (.isolate :: later) u) (hq : u.record? v.well = some q)
    (isolates : v.Isolates) :
    (MoveSame v.well u (changeMode .isolated false v.well u) ∧
      (v.slot.record.valveTarget = 0 ∨ u.moves.holds v.well = true)) ∨
    (u.moves.holds v.well = false ∧ ∃ m p, MoveSame v.well u m ∧ m.record? v.well = some p ∧
      m.settings = s.settings ∧ v.Sees m.settings.moveBand later p ∧ changeMode .isolated false v.well u = evalNeed v.well m) := by
  have underway := course.record q hq
  have sampled := (Bool.and_eq_true_iff.1 ((underway.isolable_iff isolates.1).2 isolates)).1
  have sees := course.sees hq
  have feedback : q.valveFeedback = some v.reading.feedback := by
    obtain ⟨⟨iso, pulse, holds, _⟩⟩ := underway
    rw [holds.same]
    rfl
  rcases isolation_moves hq sampled with ⟨same, target⟩ | ⟨holds, m, p, same, hp, mode, inputs, carried, target, settings, e⟩
  · refine .inl ⟨same, target.imp (fun zero => ?_) id⟩
    obtain ⟨⟨iso, pulse, holds, done, _⟩⟩ := underway
    cases iso with
    | true => exact absurd (List.mem_cons_self ..) (done.1 rfl).2
    | false => rw [← zero, holds.same]; rfl
  · refine .inr ⟨holds, m, p, same, hp, settings.trans course.settings, ?_, e⟩
    have now : v.Isolates ∧ .isolate ∉ later := ⟨isolates, course.last⟩
    refine ⟨?_, ?_, ?_, ?_, fun _ retiring => by cases mode.symm.trans retiring⟩
    · rw [WellRecord.inputHigh, inputs]
      exact sees.high
    · rw [outOfBand_feedback (carried.trans feedback), target, offNow_isolated now]
      omega
    · rw [mode]
      exact ⟨fun h => (nomatch h.1), fun shows => absurd isolates shows.unsampled⟩
    · rw [mode]
      exact (sampled_active (Arrival.Isolates.sampled isolates)).symm

/-! ### ACTUATOR high: out of the lists -/

/-- The well is out of the lists, or what takes it out is still to come. -/
def Unlisting (v : Arrival) (later : List Handed) (u : State) : Prop :=
  .actuatorBlock ∈ later ∨ (.feedback true ∈ later ∧ v.slot.record.mode.isActive = true) ∨ ¬ u.Listed v.well

theorem unlisting_claim (high : v.after.actuator = .high) : MoveClaim v s (Unlisting v) where
  gone _ _ _ left := .inr (.inr left.unlisted)
  same _ _ _ same before := before.imp id (Or.imp id fun out h => out (same.listed.1 h))
  beside _ _ _ _ step _ before := before.imp id (Or.imp id fun out => (step.unlisted out).1)
  passed h later u passed before :=
    before.imp (mem_passed (passed_other passed rfl (by decide)))
      (Or.imp (And.imp_left (mem_passed (passed_other passed rfl (by decide)))) id)
  isolate later u q course hq isolates before := by
    refine before.imp (mem_passed (by decide)) (Or.imp (And.imp_left (mem_passed (by decide))) fun out => ?_)
    rcases course.isolation hq isolates with ⟨same, _⟩ | ⟨_, m, p, same, hp, _, sees, e⟩
    · exact fun h => out (same.listed.1 h)
    · rw [e]
      exact evalNeed_unlisted (shows_of_found hp (sees.high.2 high)) fun h => out (same.listed.1 h)
  block later u _ _ := by
    refine .inr (.inr ?_)
    by_cases listed : u.Listed v.well
    · exact (blockMove_listed listed).unlisted
    · rw [blockMove_unlisted listed]
      exact listed
  need _ _ _ _ _ low _ := by cases high.symm.trans low
  feedback later u q course hq before := by
    have up := (course.sees hq).high.2 high
    have unlisted : ¬ u.Listed v.well → ¬ (takeFeedback v.baseline v.well u).Listed v.well := fun out =>
      feedback_parts (P := fun u => ¬ u.Listed v.well) (Q := fun u => ¬ u.Listed v.well) course hq (fun _ _ left => left.unlisted)
        (fun _ => evalNeed_unlisted (shows_of_found hq up) out) (fun _ => out)
        fun m p _ _ _ out => by rw [checkMove_unlisted out]; exact out
    rcases before with mem | ⟨mem, active⟩ | out
    · exact .inl (mem_passed (by simp) mem)
    · refine .inr ?_
      by_cases baseline : v.baseline = true
      · refine .inr ?_
        by_cases listed : u.Listed v.well
        · have ended := evalNeed_blocks hq ((course.sees hq).active.trans active) up listed
          rw [baseline, takeFeedback_true, checkMove_unlisted ended.unlisted]
          exact ended.unlisted
        · exact unlisted listed
      · exact .inl ⟨mem_passed (by simpa using baseline) mem, active⟩
    · exact .inr (.inr (unlisted out))

/-! ### ACTUATOR high: the move ends BLOCKED -/

/-- The well is listed and out of band, or its move has ended BLOCKED. -/
def Blocking (v : Arrival) (_ : List Handed) (u : State) : Prop := u.Listed v.well ∨ Ended .blocked v.well u

theorem beside_listed_or_ended {o : MoveOutcome} (step : Beside w s t) (steady : t.device.state = s.device.state)
    (before : s.Listed w ∨ Ended o w s) : t.Listed w ∨ Ended o w t :=
  before.imp (step.listed steady).1 step.ended

theorem blocking_claim (high : v.after.actuator = .high) (off : v.Off s.settings.moveBand)
    (isolated : v.Isolates → s.settings.moveBand < v.reading.feedback) : MoveClaim v s (Blocking v) where
  gone _ _ _ left := .inr left.ended
  same _ _ _ same before := before.imp same.listed.2 same.ended
  beside _ _ _ _ step steady before := beside_listed_or_ended step steady before
  passed _ _ _ _ before := before
  isolate later u q course hq isolates before := by
    rcases course.isolation hq isolates with ⟨same, _⟩ | ⟨_, m, p, same, hp, _, sees, e⟩
    · exact before.imp same.listed.2 same.ended
    · rw [e]
      refine .inr ?_
      have up := sees.high.2 high
      rcases before with listed | ended
      · exact evalNeed_blocks hp (sees.active.trans (sampled_active (Arrival.Isolates.sampled isolates))) up
          (same.listed.2 listed)
      · exact evalNeed_ended (shows_of_found hp up) (same.ended ended)
  block later u _ before := by
    refine .inr ?_
    rcases before with listed | ended
    · exact blockMove_listed listed
    · rw [blockMove_unlisted ended.unlisted]
      exact ended
  need _ _ _ _ _ low _ := by cases high.symm.trans low
  feedback later u q course hq before := by
    have sees := course.sees hq
    have up := sees.high.2 high
    refine feedback_parts (P := Blocking v later) (Q := Blocking v later) course hq
      (fun _ _ left => .inr left.ended) (fun _ => ?_) (fun _ => before) fun m p hp settings sees before => ?_
    · rcases before with listed | ended
      · cases active : q.mode.isActive with
        | true => exact .inr (evalNeed_blocks hq active up listed)
        | false =>
          have e : evalNeed v.well u = u := by simp only [evalNeed, hq, active, if_true]
          rw [e]
          exact .inl listed
      · exact .inr (evalNeed_ended (shows_of_found hq up) ended)
    · rcases before with listed | ended
      · have out : p.outOfBand m.settings.moveBand = true :=
          sees.off.2 (by rw [settings]; exact ⟨fun now => isolated now.1, fun _ => off⟩)
        rw [checkMove_off hp out (sees.shut out)]
        exact .inl listed
      · rw [checkMove_unlisted ended.unlisted]
        exact .inr ended

/-! ### ACTUATOR high at a baseline -/

/-- The baseline that finds the well listed or out of band is still to come, or its move has ended BLOCKED. -/
def Finding (v : Arrival) (band : Nat) (later : List Handed) (u : State) : Prop :=
  .feedback true ∈ later ∧ (u.Listed v.well ∨ v.Off band) ∨ Ended .blocked v.well u

theorem finding_claim (high : v.after.actuator = .high) (baseline : v.baseline = true)
    (calm : v.before = v.after) (active : v.slot.record.mode.isActive = true) :
    MoveClaim v s (Finding v s.settings.moveBand) where
  gone _ _ _ left := .inr left.ended
  same _ _ _ same before := before.imp (And.imp_right (Or.imp same.listed.2 id)) same.ended
  beside _ _ _ _ step steady before := before.imp (And.imp_right (Or.imp (step.listed steady).1 id)) step.ended
  passed h later u passed before := before.imp (And.imp_left (mem_passed (passed_other passed rfl (by decide)))) id
  isolate _ _ _ _ _ isolates _ := by
    obtain ⟨⟨low, up⟩, _⟩ := isolates
    rw [calm] at low
    cases low.symm.trans up
  block later u _ before := by
    by_cases listed : u.Listed v.well
    · exact .inr (blockMove_listed listed)
    · rw [blockMove_unlisted listed]
      exact before.imp (And.imp_left (mem_passed (by decide))) id
  need _ _ _ _ _ low _ := by cases high.symm.trans low
  feedback later u q course hq before := by
    have sees := course.sees hq
    have up := sees.high.2 high
    have own := sees.active.trans active
    have stays : ¬ v.Isolates := fun isolates => by
      obtain ⟨⟨low, up⟩, _⟩ := isolates
      rw [calm] at low
      cases low.symm.trans up
    have ended : Ended .blocked v.well (evalNeed v.well u) := by
      by_cases listed : u.Listed v.well
      · exact evalNeed_blocks hq own up listed
      · rcases before with ⟨_, reason⟩ | ended
        · have out : q.outOfBand u.settings.moveBand = true :=
            sees.off.2 ((offNow_iff stays).2 (by rw [course.settings]; exact reason.resolve_left listed))
          exact evalNeed_finds hq own up out (sees.shut out) listed
        · exact evalNeed_ended (shows_of_found hq up) ended
    rw [baseline, takeFeedback_true, checkMove_unlisted ended.unlisted]
    exact .inr ended

/-! ### A well in neither list keeps its outcome -/

/-- The well is in neither list, and the outcome of its last move is that of its slot before. -/
def Keeping (v : Arrival) (_ : List Handed) (u : State) : Prop :=
  ¬ u.Listed v.well ∧ u.Shows v.well fun q => q.moveOutcome = v.slot.record.moveOutcome

theorem keeping_claim (high : v.after.actuator = .high) (plain : v.baseline = false) (stays : ¬ v.Isolates) :
    MoveClaim v s (Keeping v) where
  gone _ _ _ left := ⟨left.unlisted, fun q hq => by cases left.record.symm.trans hq⟩
  same _ _ _ same before := ⟨fun h => before.1 (same.listed.1 h), fun q hq => by
    obtain ⟨r, hr, outcome, _⟩ := same.marks q hq
    exact outcome.trans (before.2 r hr)⟩
  beside _ _ _ _ step _ before := by
    obtain ⟨out, marks⟩ := step.unlisted before.1
    exact ⟨out, marks.shows (P := fun x => x.2 = v.slot.record.moveOutcome) before.2⟩
  passed _ _ _ _ before := before
  isolate _ _ _ _ _ isolates _ := absurd isolates stays
  block later u _ before := by
    rw [blockMove_unlisted before.1]
    exact before
  need _ _ _ _ _ low _ := by cases high.symm.trans low
  feedback later u q _ _ before := by
    rw [plain, takeFeedback_false, checkMove_unlisted before.1]
    exact before

/-! ### ACTUATOR low and out of band: in the lists -/

/-- The well is listed, or what lists it is still to come: an isolation, or an evaluation of its need. -/
def Listing (v : Arrival) (later : List Handed) (u : State) : Prop :=
  (v.Isolates ∧ .isolate ∈ later) ∨
  (¬ v.Isolates ∧ v.slot.record.mode.isActive = true ∧ (.actuatorFall ∈ later ∨ v.baseline = true ∧ .feedback true ∈ later)) ∨
  (u.Listed v.well ∧ (v.Isolates → .isolate ∉ later))

theorem listing_claim (low : v.after.actuator = .low) (legal : v.slot.record.Legal)
    (off : ¬ v.Isolates → v.Off s.settings.moveBand)
    (isolated : v.Isolates → s.settings.moveBand < v.reading.feedback ∧ v.slot.record.valveTarget ≠ 0) :
    MoveClaim v s (Listing v) := by
  have now {later : List Handed} (done : v.Isolates → .isolate ∉ later) : v.OffNow s.settings.moveBand later :=
    ⟨fun h => (isolated h.1).1, fun h => off fun isolates => h ⟨isolates, done isolates⟩⟩
  exact {
    gone := fun _ _ shows _ => absurd (off shows.unsampled) (shows.on legal)
    same := fun _ _ _ same before => before.imp id (Or.imp id (And.imp_left same.listed.2))
    beside := fun _ _ _ _ step steady before => before.imp id (Or.imp id (And.imp_left (step.listed steady).1))
    passed := fun h later u passed before => by
      rcases before with ⟨isolates, mem⟩ | ⟨stays, active, mem⟩ | ⟨listed, done⟩
      · rcases passed with quiet | ⟨_, stays⟩
        · exact .inl ⟨isolates, mem_passed (by rintro rfl; cases quiet) mem⟩
        · exact absurd isolates stays
      · exact .inr (.inl ⟨stays, active, mem.imp (mem_passed (passed_other passed rfl (by decide)))
          (And.imp_right (mem_passed (passed_other passed rfl (by decide))))⟩)
      · exact .inr (.inr ⟨listed, fun isolates mem => done isolates (List.mem_cons_of_mem _ mem)⟩)
    isolate := fun later u q course hq isolates before => by
      refine .inr (.inr ⟨?_, fun _ => course.last⟩)
      rcases course.isolation hq isolates with ⟨same, target⟩ | ⟨_, m, p, same, hp, settings, sees, e⟩
      · exact same.listed.2 ((listed_iff u v.well).2 (.inl (target.resolve_left (isolated isolates).2)))
      · have out : p.outOfBand m.settings.moveBand = true :=
          sees.off.2 (by rw [settings]; exact now fun _ => course.last)
        rw [e]
        exact evalNeed_lists hp (sees.low low rfl) out (sees.shut out)
          (.inr (sees.active.trans (sampled_active (Arrival.Isolates.sampled isolates))))
    block := fun _ _ high _ => by cases low.symm.trans high
    need := fun later u q course hq _ before => by
      have sees := course.sees hq
      rcases before with ⟨isolates, mem⟩ | ⟨stays, active, _⟩ | ⟨listed, done⟩
      · exact .inl ⟨isolates, mem_passed (by decide) mem⟩
      · have out : q.outOfBand u.settings.moveBand = true :=
          sees.off.2 (by rw [course.settings]; exact now fun isolates => absurd isolates stays)
        exact .inr (.inr ⟨evalNeed_lists hq (sees.low low rfl) out (sees.shut out) (.inr (sees.active.trans active)),
          fun isolates => absurd isolates stays⟩)
      · have out : q.outOfBand u.settings.moveBand = true := sees.off.2 (by rw [course.settings]; exact now done)
        exact .inr (.inr ⟨evalNeed_lists hq (sees.low low rfl) out (sees.shut out) (.inl listed),
          fun isolates mem => done isolates (List.mem_cons_of_mem _ mem)⟩)
    feedback := fun later u q course hq before => by
      have sees := course.sees hq
      have listed (done : v.Isolates → .isolate ∉ Handed.feedback v.baseline :: later)
          (before : u.Listed v.well ∨ v.baseline = true ∧ v.slot.record.mode.isActive = true) :
          (takeFeedback v.baseline v.well u).Listed v.well := by
        have off := now done
        refine feedback_parts (P := fun u => u.Listed v.well) (Q := fun u => u.Listed v.well) course hq
          (fun shows _ _ => absurd (offNow_of_closed shows off) (shows.on legal)) (fun _ => ?_) (fun plain => ?_)
          fun m p hp settings sees listed => ?_
        · have out : q.outOfBand u.settings.moveBand = true := sees.off.2 (by rw [course.settings]; exact off)
          exact evalNeed_lists hq (sees.low low rfl) out (sees.shut out)
            (before.imp id fun own => sees.active.trans own.2)
        · exact before.resolve_right fun own => by cases plain.symm.trans own.1
        · have out : p.outOfBand m.settings.moveBand = true := sees.off.2 (by rw [settings]; exact off)
          rw [checkMove_off hp out (sees.shut out)]
          exact listed
      rcases before with ⟨isolates, mem⟩ | ⟨stays, active, mem⟩ | ⟨before, done⟩
      · exact .inl ⟨isolates, mem_passed (by simp) mem⟩
      · by_cases baseline : v.baseline = true
        · exact .inr (.inr ⟨listed (fun isolates => absurd isolates stays) (.inr ⟨baseline, active⟩),
            fun isolates => absurd isolates stays⟩)
        · exact .inr (.inl ⟨stays, active, .inl (mem_passed (by simp) (mem.resolve_right fun own => baseline own.1))⟩)
      · exact .inr (.inr ⟨listed done (.inl before), fun isolates mem => done isolates (List.mem_cons_of_mem _ mem)⟩) }

/-! ### ACTUATOR low and in band: the move completes -/

/-- The well holds a slot with the feedback still to come, or its move has ended DONE. -/
def Completing (v : Arrival) (later : List Handed) (u : State) : Prop :=
  (u.moves.holds v.well = true ∧ .feedback v.baseline ∈ later) ∨ Ended .done v.well u

theorem evalNeed_done (on : ∀ q, s.record? w = some q → q.outOfBand s.settings.moveBand = false)
    (ended : Ended .done w s) : Ended .done w (evalNeed w s) := by
  rcases evalNeed_content on ended.unlisted with e | left
  · rw [e]
    exact ended
  · exact left.ended

theorem completing_claim (low : v.after.actuator = .low) (stays : ¬ v.Isolates) (on : ¬ v.Off s.settings.moveBand) :
    MoveClaim v s (Completing v) where
  gone _ _ _ left := .inr left.ended
  same _ _ _ same before := before.imp (And.imp_left fun h => same.holds.trans h) same.ended
  beside _ _ _ _ step steady before := before.imp (And.imp_left (step.listed steady).2) step.ended
  passed h later u passed before := before.imp (And.imp_right (mem_passed (passed_other passed rfl (by simp)))) id
  isolate _ _ _ _ _ isolates _ := absurd isolates stays
  block _ _ high _ := by cases low.symm.trans high
  need later u q course hq _ before := by
    have sees := course.sees hq
    rcases before with ⟨holds, mem⟩ | ended
    · rw [evalNeed_holder hq (sees.low low rfl) holds]
      exact .inl ⟨holds, mem_passed (by simp) mem⟩
    · exact .inr (evalNeed_done (shows_of_found hq (sees.on stays (by rw [course.settings]; exact on))) ended)
  feedback later u q course hq before := by
    have sees := course.sees hq
    refine .inr (feedback_parts (P := fun u => u.moves.holds v.well = true ∨ Ended .done v.well u)
      (Q := Ended .done v.well) course hq (fun _ _ left => left.ended) (fun _ => ?_) (fun _ => before.imp And.left id)
      fun m p hp settings sees before => ?_)
    · rcases before with ⟨holds, _⟩ | ended
      · rw [evalNeed_holder hq (sees.low low rfl) holds]
        exact .inl holds
      · exact .inr (evalNeed_done (shows_of_found hq (sees.on stays (by rw [course.settings]; exact on))) ended)
    · rcases before with holds | ended
      · exact checkMove_done hp (sees.on stays (by rw [settings]; exact on)) holds
      · rw [checkMove_unlisted ended.unlisted]
        exact ended

/-! ### A RETIRING well seen closed -/

/-- The record is freed, or what frees it is still to come. -/
def Freeing (v : Arrival) (later : List Handed) (u : State) : Prop :=
  u.record? v.well = none ∨ (u.Listed v.well ∧ v.after.actuator = .low ∧ .feedback v.baseline ∈ later) ∨
  (¬ u.Listed v.well ∧ (.actuatorFall ∈ later ∨ v.baseline = true ∧ .feedback true ∈ later))

theorem level_low {l : Level} (other : l ≠ .high) : l = .low := by
  cases l
  · rfl
  · exact absurd rfl other

theorem freeing_claim (shows : v.ShowsClosed s.settings.moveBand) (legal : v.slot.record.Legal) :
    MoveClaim v s (Freeing v) where
  gone _ _ _ left := .inl left.record
  same _ _ _ same before := before.imp same.freed
    (Or.imp (And.imp_left same.listed.2) (And.imp_left fun out h => out (same.listed.1 h)))
  beside _ _ _ _ step steady before := before.imp (fun none => well?_eq_none.1 (step.stays.gone (well?_eq_none.2 none)))
    (Or.imp (And.imp_left (step.listed steady).1) (And.imp_left fun out => (step.unlisted out).1))
  passed h later u passed before := before.imp id (Or.imp
    (And.imp_right (And.imp_right (mem_passed (passed_other passed rfl (by simp)))))
    (And.imp_right (Or.imp (mem_passed (passed_other passed rfl (by simp)))
      (And.imp_right (mem_passed (passed_other passed rfl (by simp)))))))
  isolate _ _ _ _ _ isolates _ := absurd isolates shows.unsampled
  block later u high before := by
    rcases before with none | ⟨_, low, _⟩ | ⟨out, mem⟩
    · exact .inl ((blockMove_marks v.well u).gone v.well none)
    · cases low.symm.trans high
    · rw [blockMove_unlisted out]
      exact .inr (.inr ⟨out, mem.imp (mem_passed (by simp)) (And.imp_right (mem_passed (by simp)))⟩)
  need later u q course hq low before := by
    have sees := course.sees hq
    obtain ⟨retiring, closed⟩ := sees.closed.2 (by rw [course.settings]; exact shows)
    rcases before with none | ⟨listed, low, mem⟩ | ⟨out, _⟩
    · cases none.symm.trans hq
    · cases holds : u.moves.holds v.well with
      | true =>
        rw [evalNeed_holder hq (sees.low low rfl) holds]
        exact .inr (.inl ⟨listed, low, mem_passed (by simp) mem⟩)
      | false => exact .inl (evalNeed_frees hq retiring closed holds (by simp [sees.low low rfl])).record
    · exact .inl (evalNeed_frees hq retiring closed (moving_false out).1 fun _ => out).record
  feedback later u q course hq before := by
    have sees := course.sees hq
    obtain ⟨retiring, closed⟩ := sees.closed.2 (by rw [course.settings]; exact shows)
    rcases before with none | ⟨listed, low, mem⟩ | ⟨out, mem⟩
    · cases none.symm.trans hq
    · refine .inl (feedback_parts (P := fun u => u.Listed v.well ∨ Gone v.well u) (Q := fun u => u.record? v.well = none)
        course hq (fun _ _ left => left.record) (fun _ => ?_) (fun _ => .inl listed) fun m p hp settings sees before => ?_)
      · cases holds : u.moves.holds v.well with
        | true =>
          rw [evalNeed_holder hq (sees.low low rfl) holds]
          exact .inl listed
        | false => exact .inr (evalNeed_frees hq retiring closed holds (by simp [sees.low low rfl]))
      · rcases before with listed | left
        · obtain ⟨retiring, closed⟩ := sees.closed.2 (by rw [settings]; exact shows)
          exact (checkMove_frees hp retiring closed
            (sees.on shows.unsampled (by rw [settings]; exact shows.on legal)) listed).record
        · cases left.record.symm.trans hp
    · by_cases baseline : v.baseline = true
      · have left := evalNeed_frees hq retiring closed (moving_false out).1 fun _ => out
        rw [baseline, takeFeedback_true, checkMove_unlisted left.unlisted]
        exact .inl left.record
      · rw [Bool.not_eq_true] at baseline
        rw [baseline, takeFeedback_false, checkMove_unlisted out]
        refine .inr (.inr ⟨out, .inl ?_⟩)
        rcases mem with mem | ⟨own, _⟩
        · exact mem_passed (by simp) mem
        · cases baseline.symm.trans own

/-! ### ACTUATOR low and in band: out of the lists -/

/-- The well is out of the lists, or what takes it out is still to come: the check of a holder, the evaluation of another. -/
def Leaving (v : Arrival) (later : List Handed) (u : State) : Prop :=
  ¬ u.Listed v.well ∨ (u.moves.holds v.well = true ∧ .feedback v.baseline ∈ later) ∨
  (u.moves.holds v.well = false ∧ (.actuatorFall ∈ later ∨ v.baseline = true ∧ .feedback true ∈ later))

theorem leaving_claim (low : v.after.actuator = .low) (stays : ¬ v.Isolates) (on : ¬ v.Off s.settings.moveBand)
    (active : v.slot.record.mode.isActive = true) : MoveClaim v s (Leaving v) where
  gone _ _ _ left := .inl left.unlisted
  same _ _ _ same before := before.imp (fun out h => out (same.listed.1 h))
    (Or.imp (And.imp_left fun h => same.holds.trans h) (And.imp_left fun h => same.holds.trans h))
  beside later t u stage step steady before := by
    rcases before with out | ⟨holds, mem⟩ | ⟨holds, mem⟩
    · exact .inl (step.unlisted out).1
    · exact .inr (.inl ⟨(step.listed steady).2 holds, mem⟩)
    · cases held : u.moves.holds v.well with
      | false => exact .inr (.inr ⟨held, mem⟩)
      | true =>
        rcases stage with full | none
        · exact .inr (.inl ⟨held, full _ (feedback_handed.2 rfl)⟩)
        · rw [none] at mem
          simp at mem
  passed h later u passed before := before.imp id (Or.imp
    (And.imp_right (mem_passed (passed_other passed rfl (by simp))))
    (And.imp_right (Or.imp (mem_passed (passed_other passed rfl (by simp)))
      (And.imp_right (mem_passed (passed_other passed rfl (by simp)))))))
  isolate _ _ _ _ _ isolates _ := absurd isolates stays
  block _ _ high _ := by cases low.symm.trans high
  need later u q course hq _ before := by
    have sees := course.sees hq
    have content := sees.on stays (by rw [course.settings]; exact on)
    rcases before with out | ⟨holds, mem⟩ | ⟨holds, _⟩
    · rcases evalNeed_content (shows_of_found hq content) out with e | left
      · rw [e]
        exact .inl out
      · exact .inl left.unlisted
    · rw [evalNeed_holder hq (sees.low low rfl) holds]
      exact .inr (.inl ⟨holds, mem_passed (by simp) mem⟩)
    · exact .inl (evalNeed_leaves hq (sees.active.trans active) (sees.low low rfl) content holds)
  feedback later u q course hq before := by
    have sees := course.sees hq
    have content := sees.on stays (by rw [course.settings]; exact on)
    have settled (before : ¬ u.Listed v.well ∨ u.moves.holds v.well = true ∨ v.baseline = true) :
        ¬ (takeFeedback v.baseline v.well u).Listed v.well := by
      refine feedback_parts (P := fun u => ¬ u.Listed v.well ∨ u.moves.holds v.well = true)
        (Q := fun u => ¬ u.Listed v.well) course hq (fun _ _ left => left.unlisted) (fun _ => ?_) (fun plain => ?_)
        fun m p hp settings sees before => ?_
      · cases holds : u.moves.holds v.well with
        | true =>
          rw [evalNeed_holder hq (sees.low low rfl) holds]
          exact .inr holds
        | false => exact .inl (evalNeed_leaves hq (sees.active.trans active) (sees.low low rfl) content holds)
      · exact before.imp id fun h => h.resolve_right fun own => by cases plain.symm.trans own
      · rcases before with out | holds
        · rw [checkMove_unlisted out]
          exact out
        · exact (checkMove_done hp (sees.on stays (by rw [settings]; exact on)) holds).unlisted
    rcases before with out | ⟨holds, _⟩ | ⟨holds, mem⟩
    · exact .inl (settled (.inl out))
    · exact .inl (settled (.inr (.inl holds)))
    · by_cases baseline : v.baseline = true
      · exact .inl (settled (.inr (.inr baseline)))
      · rw [Bool.not_eq_true] at baseline
        have fall : .actuatorFall ∈ later := by
          rcases mem with mem | ⟨own, _⟩
          · exact mem_passed (by simp) mem
          · cases baseline.symm.trans own
        rw [baseline, takeFeedback_false]
        rcases checkMove_waiter (s := u) holds with e | left
        · rw [e]
          exact .inr (.inr ⟨holds, .inl fall⟩)
        · exact .inl left.unlisted

/-! ### The clauses together -/

/-- What every property of the moves that holds before gives after is what the move scheduler leaves of the arrival. -/
theorem movesAfter_of (stands : s.well? v.well = some v.slot) (legal : v.slot.record.Legal)
    (calm : v.baseline = true → v.before = v.after)
    (settle : ∀ P, MoveClaim v s P → (∀ later, v.Full later → P later s) → P [] t) : s.MovesAfter t v := by
  have record : s.record? v.well = some v.slot.record := by rw [State.record?, stands]; rfl
  intro off band
  rw [band]
  have falls (trigger : v.baseline = true ∨ v.Fell PerInput.actuator) {later : List Handed} (full : v.Full later) :
      .actuatorFall ∈ later ∨ v.baseline = true ∧ .feedback true ∈ later := by
    rcases trigger with baseline | fell
    · exact .inr ⟨baseline, full _ (feedback_handed.2 baseline.symm)⟩
    · exact .inl (full _ (actuatorFall_handed.2 fell))
  refine ⟨fun rose => ⟨?_, fun q hq => ⟨fun listed out isolated => ?_, fun unlisted stays => ?_⟩⟩,
    fun low stays => ⟨fun listed out => ?_, fun holds on => ?_, fun reached shows => ?_, fun trigger active => ⟨?_, ?_⟩⟩,
    fun high baseline active => ⟨?_, fun reason => ?_, fun unlisted shows => ?_⟩, fun isolates low target above => ?_⟩
  · have after := settle _ (unlisting_claim rose.2) fun later full => .inl (full _ (actuatorBlock_handed.2 rose))
    simpa [Unlisting] using after
  · have after := settle _ (blocking_claim rose.2 out isolated) fun _ _ => .inl listed
    have unlisted := settle _ (unlisting_claim rose.2) fun later full => .inl (full _ (actuatorBlock_handed.2 rose))
    rcases after with listed | ended
    · simp [Unlisting, listed] at unlisted
    · exact ended.shows q hq
  · have plain : v.baseline = false := Bool.eq_false_iff.2 fun baseline => by
      have same := rose.1
      rw [calm baseline] at same
      cases same.symm.trans rose.2
    exact (settle _ (keeping_claim rose.2 plain stays) fun _ _ => ⟨unlisted, shows_of_found record rfl⟩).2 q hq
  · have after := settle _ (listing_claim low legal (fun _ => out) fun isolates => absurd isolates stays) fun _ _ =>
      .inr (.inr ⟨listed, fun isolates => absurd isolates stays⟩)
    simpa [Listing] using after
  · have after := settle _ (completing_claim low stays on) fun _ full => .inl ⟨holds, full _ (feedback_handed.2 rfl)⟩
    have ended : Ended .done v.well t := by simpa [Completing] using after
    exact ⟨ended.unlisted, ended.shows⟩
  · have after := settle _ (freeing_claim shows legal) fun _ full => by
      by_cases listed : s.Listed v.well
      · exact .inr (.inl ⟨listed, low, full _ (feedback_handed.2 rfl)⟩)
      · exact .inr (.inr ⟨listed, falls (reached.resolve_left listed) full⟩)
    exact well?_eq_none.2 (by simpa [Freeing] using after)
  · intro listed
    by_contra on
    have after := settle _ (leaving_claim low stays on active) fun _ full => by
      cases holds : s.moves.holds v.well with
      | true => exact .inr (.inl ⟨holds, full _ (feedback_handed.2 rfl)⟩)
      | false => exact .inr (.inr ⟨holds, falls trigger full⟩)
    exact absurd listed (by simpa [Leaving] using after)
  · intro out
    have after := settle _ (listing_claim low legal (fun _ => out) fun isolates => absurd isolates stays) fun _ full =>
      .inr (.inl ⟨stays, active, falls trigger full⟩)
    simpa [Listing] using after
  · have after := settle _ (unlisting_claim high) fun _ full =>
      .inr (.inl ⟨full _ (feedback_handed.2 baseline.symm), active⟩)
    simpa [Unlisting] using after
  · have after := settle _ (finding_claim high baseline (calm baseline) active) fun _ full =>
      .inl ⟨full _ (feedback_handed.2 baseline.symm), reason⟩
    have ended : Ended .blocked v.well t := by simpa [Finding] using after
    exact ended.shows
  · have after := settle _ (freeing_claim shows legal) fun _ full =>
      .inr (.inr ⟨unlisted, falls (.inl baseline) full⟩)
    exact well?_eq_none.2 (by simpa [Freeing] using after)
  · have after := settle _ (listing_claim low legal (fun stays => absurd isolates stays) fun _ => ⟨above, target⟩)
      fun _ full => .inl ⟨isolates, full _ (isolate_handed.2 isolates.1)⟩
    simpa [Listing] using after

end Sys2Proof.Machine
end

