-- ==== Sys2Proof/Proofs/SampleTurns.lean ====
section
/-! SUPPORT. What each event of an arrival does to the sequencer and to the sample marks of its well (R27, R73, R92, R95,
R102 to R105). -/

namespace Sys2Proof.Machine

variable {s t u : State} {v w : Well} {later : List Handed} {p q r : WellRecord}

/-! ### Events that pass the sequencer by -/

/-- What the sequencer reads of a record: its sample marks, INPUTS and SURVEY_DUE. -/
def sampleRead (r : WellRecord) : (Queued × SampleOutcome × Bool) × Option (PerInput Level) × Nat :=
  (sampleMarks r, r.inputs, r.surveyDue)

/-- The sequencer is as it was, and all it reads of the well's record. -/
structure Aside (w : Well) (s t : State) : Prop where
  seq  : t.seq = s.seq
  read : SameRead sampleRead w s t

theorem Aside.refl (s : State) : Aside w s s := ⟨rfl, .refl s⟩

theorem Aside.trans (a : Aside w s t) (b : Aside w t u) : Aside w s u := ⟨b.seq.trans a.seq, a.read.trans b.read⟩

theorem Aside.marks (h : Aside w s t) : SameRead sampleMarks w s t := h.read.comp Prod.fst

theorem Aside.queued (h : Aside w s t) : SameRead WellRecord.queued w s t := h.marks.comp Prod.fst

theorem aside_write {f : WellRecord → WellRecord} (keeps : ∀ r, sampleRead (f r) = sampleRead r) (s : State) :
    Aside w s (writeRecord f w s) := ⟨rfl, sameRead_write keeps w s⟩

theorem aside_moveEvent (s : State) : Aside w s (setWellEvent .move w s) :=
  ⟨(setWellEvent_apart .move w s).seq,
    sameRead_event (fun r => by simp [sampleRead, sampleMarks, addEvent, WellEvent.bit]) w s⟩

theorem aside_lists (m : MoveScheduler) (s : State) : Aside w s { s with moves := m } := ⟨rfl, sameRead_of_slots rfl⟩

theorem grantLoop_aside (ws : List Well) (s : State) : Aside w s (grantLoop ws s) := by
  induction ws generalizing s with
  | nil => exact .refl s
  | cons x ws ih =>
    unfold grantLoop
    split
    · exact Aside.trans (t := grant x ws s) ⟨rfl, grant_read fun _ => rfl⟩ (ih _)
    · exact .refl s

theorem grantTest_aside (s : State) : Aside w s (grantTest s) := grantLoop_aside _ s

theorem endMove_aside (o : MoveOutcome) (s : State) : Aside w s (endMove o w s) :=
  ((aside_lists _ s).trans (aside_write (f := moveEnded o) (fun _ => rfl) _)).trans (aside_moveEvent _)

theorem blockMove_aside (s : State) : Aside w s (blockMove w s) := by
  unfold blockMove
  split
  · exact (endMove_aside _ s).trans (grantTest_aside _)
  · split
    · exact endMove_aside _ s
    · exact .refl s

/-- The well is freed, after an operation that passes the sequencer by. -/
def Frees (w : Well) (s t : State) : Prop :=
  ∃ m q, Aside w s m ∧ Handles w s m ∧ m.record? w = some q ∧ t = freeWell w m

theorem Frees.gone (frees : Frees w s t) : Gone w t := by
  obtain ⟨m, q, _, _, hq, e⟩ := frees
  rw [e]
  exact freeWell_leaves hq

theorem freeWell_frees (hq : s.record? w = some q) : Frees w s (freeWell w s) := ⟨s, q, .refl s, .refl s, hq, rfl⟩

/-- A need evaluation passes the sequencer by, unless it frees the well. -/
theorem evalNeed_aside (s : State) : Frees w s (evalNeed w s) ∨ Aside w s (evalNeed w s) := by
  unfold evalNeed
  split
  · exact .inr (.refl s)
  rename_i q hq
  split
  · exact .inr (.refl s)
  split
  · exact .inr (blockMove_aside s)
  split
  · exact .inr (.refl s)
  split
  · exact .inl (freeWell_frees hq)
  split
  · split
    · exact .inr (.refl s)
    · exact .inr ((aside_lists _ s).trans (aside_write (f := fun r => { r with moveState := .none }) (fun _ => rfl) _))
  split
  · exact .inr (((aside_lists _ s).trans
      (aside_write (f := fun r => { r with moveState := .waiting }) (fun _ => rfl) _)).trans (grantTest_aside _))
  split
  · exact .inr ((aside_write (f := fun r => { r with moveOutcome := .blocked }) (fun _ => rfl) s).trans (aside_moveEvent _))
  · exact .inr (.refl s)

theorem checkMove_aside (s : State) : Frees w s (checkMove w s) ∨ Aside w s (checkMove w s) := by
  unfold checkMove
  split
  · exact .inr (.refl s)
  rename_i q hq
  split
  · split
    · exact .inr (.refl s)
    · split
      · exact .inl (freeWell_frees hq)
      · exact .inr ((endMove_aside .done s).trans (grantTest_aside _))
  · split
    · exact .inl (freeWell_frees hq)
    · exact .inr (.refl s)

theorem takeFeedback_aside (baseline : Bool) (s : State) :
    Frees w s (takeFeedback baseline w s) ∨ Aside w s (takeFeedback baseline w s) := by
  cases baseline with
  | false => exact checkMove_aside s
  | true =>
    rw [takeFeedback_true]
    rcases evalNeed_aside (w := w) s with frees | first
    · rw [checkMove_unlisted frees.gone.unlisted]
      exact .inl frees
    · refine (checkMove_aside _).imp (fun ⟨m, q, aside, handles, hq, e⟩ => ?_) first.trans
      exact ⟨m, q, first.trans aside, (evalNeed_handles s).trans handles, hq, e⟩

theorem liquidPurge_aside (s : State) : Aside w s (liquidPurge w s) := by
  unfold liquidPurge
  split
  · exact .refl s
  rename_i q hq
  split
  · refine ⟨rfl, fun p hp => ⟨q, hq, ?_⟩⟩
    rw [record?_startPulse hq] at hp
    cases hp
    rfl
  · exact .refl s

/-- The events that the sequencer is not handed. -/
def Handed.moving : Handed → Bool
  | .actuatorBlock | .actuatorFall | .feedback _ | .autoPurge => true
  | .isolate | .capAbort | .capEnqueue | .actuatorReport | .confirm _ => false

theorem takeHanded_aside {h : Handed} (moving : h.moving = true) (s : State) :
    Frees w s (takeHanded later w h s) ∨ Aside w s (takeHanded later w h s) := by
  cases h with
  | isolate | capAbort | capEnqueue | actuatorReport | confirm b => cases moving
  | actuatorBlock => exact .inr (blockMove_aside s)
  | actuatorFall => exact evalNeed_aside s
  | autoPurge => exact .inr (liquidPurge_aside s)
  | feedback b => exact takeFeedback_aside b s

/-! ### Chains beside a well whose sample is shut -/

theorem shut_chain (chain : Relation.ReflTransGen (Beside w) s t) (unqueued : s.Unqueued w) (shut : ¬ s.SampleOpen w) :
    t.Unqueued w ∧ ¬ t.SampleOpen w ∧ SameRead sampleMarks w s t ∧
    (s.seq.phase.current? = some w → t.seq.phase = s.seq.phase) ∧
    (s.seq.phase.current? ≠ some w → t.seq.phase.current? ≠ some w) := by
  induction chain with
  | refl => exact ⟨unqueued, shut, .refl s, fun _ => rfl, id⟩
  | tail _ last ih =>
    obtain ⟨out, closed, marks, current, away⟩ := ih
    have step := last.shut out closed
    refine ⟨step.unqueued, step.shut, marks.trans step.marks, fun held => ?_, fun other => step.away (away other)⟩
    rw [step.current (by rw [current held]; exact held), current held]

theorem headTest_beside (s : State) (w : Well) : Relation.ReflTransGen (Beside w) s (headTest s) := by
  by_cases allowed : s.headAllowed = true
  · have idle : s.seq.phase = .idle := by
      simp only [State.headAllowed, Bool.and_eq_true, decide_eq_true_eq] at allowed
      exact allowed.1.1
    have heads : headTest s = takeHeads s.seq.queue s := if_pos allowed
    rw [heads]
    exact (takeHeads_turns s.seq.queue s rfl idle).1 w
  · have stays : headTest s = s := if_neg allowed
    rw [stays]

/-- The sequencer leaves a sample for IDLE or OFFLINE, and what follows are steps beside every well. -/
theorem leaveSample_beside (landed : s.Landed) (w : Well) :
    ∃ p : Phase, p.current? = none ∧ Relation.ReflTransGen (Beside w) (setPhase p s) (leaveSample s) := by
  have idle : ∃ p : Phase, p.current? = none ∧ Relation.ReflTransGen (Beside w) (setPhase p s) (enterIdle s) :=
    ⟨.idle, rfl, headTest_beside _ w⟩
  unfold leaveSample
  split
  · exact idle
  · rename_i f _
    split
    · refine ⟨.offline Config.probeSeconds false, rfl, .tail (.single (.reported .analyserOffline f.tag
        (outcomeDetail f.outcome.toOutcome) ⟨landed.ended, landed.running, landed.legal⟩)) ?_⟩
      exact .unseen rfl (.inl rfl) rfl rfl
    · exact idle

/-- The sequencer leaves the sample of a well out of the queue: nothing more happens to it. -/
theorem leaveSample_out (landed : s.Landed) (unqueued : s.Unqueued w) : (leaveSample s).Unqueued w ∧
    (leaveSample s).seq.phase.current? ≠ some w ∧ SameRead sampleMarks w s (leaveSample s) := by
  obtain ⟨p, none, chain⟩ := leaveSample_beside landed w
  have away : (setPhase p s).seq.phase.current? ≠ some w := by
    show p.current? ≠ some w
    rw [none]
    exact fun h => nomatch h
  obtain ⟨out, _, marks, _, left⟩ := shut_chain chain unqueued fun opened => away opened.2
  exact ⟨out, left away, (sameRead_of_slots (s := s) (t := setPhase p s) rfl).trans marks⟩

/-! ### The confirmation -/

theorem takeConfirmation_cases (valve : Bool) (w : Well) (s : State) : takeConfirmation valve w s = s ∨
    (valve = true ∧ s.seq.phase = .select w ∧
      takeConfirmation valve w s = setPhase (.purge w s.settings.purgeTime) s) ∨
    (valve = false ∧ s.seq.phase = .release w ∧ takeConfirmation valve w s = leaveSample (setQueued .no w s)) := by
  unfold takeConfirmation
  split
  · rename_i x phase
    split
    · rename_i own
      exact .inr (.inl ⟨own.1, by rw [phase, own.2], rfl⟩)
    · exact .inl rfl
  · rename_i x phase
    split
    · rename_i own
      exact .inr (.inr ⟨own.1, by rw [phase, own.2], rfl⟩)
    · exact .inl rfl
  all_goals exact .inl rfl

/-- A valve confirmed off ends the sample of a well out of the queue. -/
theorem confirmed_off (landed : s.Landed) (unqueued : s.Unqueued w) :
    (leaveSample (setQueued .no w s)).Unqueued w ∧ (leaveSample (setQueued .no w s)).seq.phase.current? ≠ some w ∧
    SameRead (fun r => (r.sampleOutcome, r.events.getLsbD 7)) w s (leaveSample (setQueued .no w s)) ∧
    (leaveSample (setQueued .no w s)).Shows w fun r => r.queued = .no := by
  have set := setQueued_handles (v := w) .no s landed
  obtain ⟨out, away, marks⟩ := leaveSample_out (s := setQueued .no w s) set.landed unqueued
  have written : SameRead (fun r => (r.sampleOutcome, r.events.getLsbD 7)) w s (setQueued .no w s) :=
    sameRead_write (f := fun r => { r with queued := .no }) (fun _ => rfl) w s
  have queued : (setQueued .no w s).Shows w fun r => r.queued = .no := fun q hq => by
    obtain ⟨r, _, rfl⟩ := of_record?_writeRecord (f := fun r => { r with queued := .no }) hq
    rfl
  exact ⟨out, away, written.trans (marks.comp Prod.snd),
    (SameRead.comp (g := sampleMarks) Prod.fst marks).shows (P := fun c => c = Queued.no) queued⟩

/-! ### An abort -/

theorem abortSampleOf_shut (shut : ¬ s.SampleOpen w) : abortSampleOf w s = s := by
  unfold abortSampleOf
  split
  · rename_i current
    exact abortSample_of_shut (Bool.eq_false_iff.2 fun opened => shut ⟨opened, current⟩)
  · rfl

theorem abortSampleOf_open (opened : s.SampleOpen w) :
    (abortSampleOf w s).seq = { s.seq with phase := .release w } ∧ (abortSampleOf w s).Shows w WellRecord.SampleAborted ∧
    SameRead WellRecord.queued w s (abortSampleOf w s) := by
  have e : abortSampleOf w s = abortSample s := if_pos opened.2
  obtain ⟨seq, aborted⟩ := abortSample_aborted opened
  rw [e]
  exact ⟨seq, aborted.2, abortSample_queued s⟩

theorem abortSampleOf_queue (w : Well) (s : State) : (abortSampleOf w s).seq.queue = s.seq.queue := by
  by_cases opened : s.SampleOpen w
  · rw [(abortSampleOf_open opened).1]
  · rw [abortSampleOf_shut opened]

/-! ### An isolation -/

theorem removeEntry_unqueued (unqueued : s.Unqueued w) : removeEntry w s = s := by
  unfold removeEntry
  rw [if_neg]
  intro entry
  obtain ⟨e, he, own⟩ := List.any_eq_true.1 entry
  exact unqueued e he (by simpa using own)

theorem removeEntry_marks_kept (s : State) :
    SameRead (fun r => (r.sampleOutcome, r.events.getLsbD 7)) w s (removeEntry w s) := by
  unfold removeEntry
  split
  · exact SameRead.trans (t := setQueue (withoutEntry w s.seq.queue) s) (sameRead_of_slots rfl)
      (sameRead_write (f := fun r => { r with queued := .no }) (fun _ => rfl) w _)
  · exact .refl s

theorem removeEntry_phase (s : State) : (removeEntry w s).seq.phase = s.seq.phase := by rw [(removeEntry_left w s).1]

/-- What an isolation leaves of the sequencer and of the sample marks. -/
structure Isolated (w : Well) (s t : State) : Prop where
  left     : s.SamplingLeft t w
  unqueued : t.Unqueued w
  queued   : s.Unqueued w → SameRead WellRecord.queued w s t
  marks    : ¬ s.SampleOpen w → SameRead (fun r => (r.sampleOutcome, r.events.getLsbD 7)) w s t

theorem leaveSampling_isolated (s : State) : Isolated w s (leaveSampling w s) where
  left := leaveSampling_left w s
  unqueued := leaveSampling_unqueued w s
  queued unqueued := by
    rw [leaveSampling, removeEntry_unqueued unqueued]
    by_cases opened : s.SampleOpen w
    · exact (abortSampleOf_open opened).2.2
    · rw [abortSampleOf_shut opened]
      exact .refl s
  marks shut := by
    have still : ¬ (removeEntry w s).SampleOpen w := by rw [State.SampleOpen, removeEntry_phase]; exact shut
    rw [leaveSampling, abortSampleOf_shut still]
    exact removeEntry_marks_kept s

theorem Isolated.before (h : Isolated w t u) (aside : Aside w s t) : Isolated w s u where
  left := by
    have left := h.left
    rw [State.SamplingLeft, State.SampleOpen, aside.seq] at left
    exact left
  unqueued := h.unqueued
  queued unqueued := aside.queued.trans (h.queued (by rw [State.Unqueued, aside.seq]; exact unqueued))
  marks shut := (aside.marks.comp Prod.snd).trans (h.marks (by rw [State.SampleOpen, aside.seq]; exact shut))

theorem Isolated.then (h : Isolated w s t) (aside : Aside w t u) : Isolated w s u where
  left := by
    obtain ⟨rest, queued, aborted, shut⟩ := h.left
    rw [State.SamplingLeft, aside.seq]
    refine ⟨rest, fun e => aside.queued.shows (P := fun c => c = Queued.no) (queued e), fun opened => ?_, shut⟩
    obtain ⟨released, shows⟩ := aborted opened
    exact ⟨by rw [aside.seq]; exact released,
      aside.marks.shows (P := fun m : Queued × SampleOutcome × Bool => m.2.1 = .aborted ∧ m.2.2 = true) shows⟩
  unqueued := by rw [State.Unqueued, aside.seq]; exact h.unqueued
  queued unqueued := (h.queued unqueued).trans aside.queued
  marks shut := (h.marks shut).trans (aside.marks.comp Prod.snd)

theorem isolation_samples (hq : s.record? w = some q) (sampled : q.mode.isSampled = true) :
    Isolated w s (changeMode .isolated false w s) := by
  have other : q.mode ≠ .isolated := fun e => by rw [e] at sampled; cases sampled
  obtain ⟨p, hp, _⟩ := (changeMode_entered (always := false) hq (sampled_active sampled) rfl other
    fun e => nomatch e).holds
  have written : Aside w s (writeRecord (WellRecord.entered .isolated s.settings.suspectInterval) w s) :=
    aside_write (fun r => by rw [entered_eq _ _ (by decide)]; rfl) s
  have left : Isolated w s (modeWritten .isolated w s) := (leaveSampling_isolated _).before written
  rw [changeMode_eq hq other] at hp ⊢
  split
  · rename_i given
    rw [if_pos given] at hp
    refine left.then ?_
    unfold handTarget at hp ⊢
    split
    · exact ⟨rfl, sameRead_of_slots rfl⟩
    · rename_i out
      rw [if_neg out] at hp
      exact (evalNeed_aside _).resolve_left fun frees => by cases frees.gone.record.symm.trans hp
  · exact left

/-! ### A CAP fall -/

/-- A well with an entry, or one whose enqueue has left no trace in the queue and none in QUEUED. -/
structure HeldEnqueue (w : Well) (s t : State) : Prop where
  phase : t.seq.phase = s.seq.phase
  marks : SameRead (fun r => (r.sampleOutcome, r.events.getLsbD 7)) w s t
  entry : s.Unqueued w → (∃ e ∈ t.seq.queue, e.well = w) ∨ t.Unqueued w ∧ SameRead WellRecord.queued w s t
  stays : (∃ e ∈ s.seq.queue, e.well = w) → ∃ e ∈ t.seq.queue, e.well = w

theorem placeEntry_mem (e : QueueEntry) (l : List QueueEntry) : e ∈ placeEntry e l := by
  unfold placeEntry
  split <;> simp

theorem placeInQueue_entry (c : SampleClass) (w : Well) (s : State) :
    ∃ e ∈ (placeInQueue c w s).seq.queue, e.well = w := ⟨⟨w, c⟩, placeEntry_mem _ _, rfl⟩

theorem evict_marks (e : QueueEntry) (s : State) :
    SameRead (fun r => (r.sampleOutcome, r.events.getLsbD 7)) w s (evict e s) :=
  sameRead_write (f := fun r => { r with queued := .no, surveyDue := 0 }) (fun _ => rfl) e.well
    (setQueue (withoutEntry e.well s.seq.queue) s)

/-- An enqueue that takes no head changes the queue alone, and QUEUED and SURVEY_DUE (R73, R92). -/
theorem urgentEnqueue_held (w : Well) (s : State) : HeldEnqueue w s (urgentEnqueue true w s) := by
  have none : HeldEnqueue w s s := ⟨rfl, .refl s, fun out => .inr ⟨out, .refl s⟩, id⟩
  have placed (t : State) (phase : t.seq.phase = s.seq.phase)
      (marks : SameRead (fun r => (r.sampleOutcome, r.events.getLsbD 7)) w s t) :
      HeldEnqueue w s (placeInQueue .urgent w t) :=
    { phase := phase
      marks := marks.trans (SameRead.trans (t := setQueue (placeEntry ⟨w, .urgent⟩ (withoutEntry w t.seq.queue)) t)
        (sameRead_of_slots rfl) (sameRead_write (f := fun r => { r with queued := .urgent }) (fun _ => rfl) w _))
      entry := fun _ => .inl (placeInQueue_entry .urgent w t)
      stays := fun _ => placeInQueue_entry .urgent w t }
  have due : HeldEnqueue w s (dueAtOnce w s) :=
    { phase := rfl
      marks := sameRead_write (f := fun r => { r with surveyDue := 0 }) (fun _ => rfl) w s
      entry := fun out => .inr ⟨out, sameRead_write (f := fun r => { r with surveyDue := 0 }) (fun _ => rfl) w s⟩
      stays := id }
  unfold urgentEnqueue
  dsimp only [if_true]
  split
  · exact none
  split
  · exact none
  split
  · exact none
  · exact placed s rfl (.refl s)
  · exact due
  · split
    · exact placed s rfl (.refl s)
    · split
      · exact placed _ rfl (evict_marks _ s)
      · exact due

/-- A CAP fall with the isolation still to come takes no head. -/
theorem capEnqueue_held (hq : s.record? w = some q) (isolable : q.isolable = true) (coming : .isolate ∈ later) :
    HeldEnqueue w s (capEnqueue later w s) := by
  have e : capEnqueue later w s = urgentEnqueue true w s := by
    simp [capEnqueue, hq, isolable, coming]
  rw [e]
  exact urgentEnqueue_held w s

/-- A well that is not in a sampled mode is passed over. -/
theorem capEnqueue_unsampled (unsampled : ∀ q, s.record? w = some q → q.mode.isSampled = false) :
    capEnqueue later w s = s := by
  unfold capEnqueue
  split
  · rfl
  · rename_i q hq
    simp [urgentEnqueue, hq, unsampled q hq]

/-- The well that is sampled has its next survey made due at most. -/
theorem capEnqueue_sampling (sampling : s.Shows w fun r => r.queued = .sampling) :
    capEnqueue later w s = s ∨ capEnqueue later w s = dueAtOnce w s := by
  unfold capEnqueue
  split
  · exact .inl rfl
  rename_i q hq
  simp only [urgentEnqueue, hq, sampling q hq]
  split
  · exact .inl rfl
  · exact .inr rfl

theorem dueAtOnce_marks (s : State) : SameRead sampleMarks w s (dueAtOnce w s) :=
  sameRead_write (f := fun r => { r with surveyDue := 0 }) (fun _ => rfl) w s

theorem capEnqueue_sampled (sampling : s.Shows w fun r => r.queued = .sampling) :
    (capEnqueue later w s).seq = s.seq ∧ SameRead sampleMarks w s (capEnqueue later w s) := by
  rcases capEnqueue_sampling (later := later) sampling with e | e
  · rw [e]
    exact ⟨rfl, .refl s⟩
  · rw [e]
    exact ⟨rfl, dueAtOnce_marks s⟩

end Sys2Proof.Machine
end

