-- ==== Sys2Proof/Proofs/SampleClaims.lean ====
section
/-! SUPPORT. The clauses of `SamplesAfter`, each as a property of the events still to be taken that every event keeps. -/

namespace Sys2Proof.Machine

variable {s t u : State} {v : Arrival} {w : Well} {later : List Handed} {q r : WellRecord} {steady : Bool}
  {P : List Handed → State → Prop} {Q : State → Prop}

/-! ### A property of the samples -/

/-- `P` reads the sequencer and the sample marks of the well alone, and every event that reaches the sequencer keeps it. -/
structure SampleClaim (v : Arrival) (s : State) (steady : Bool) (P : List Handed → State → Prop) (Q : State → Prop) :
    Prop where
  gone    : ∀ later u, ¬ v.Full later → Gone v.well u → P later u
  beside  : ∀ later t u, v.Full later ∨ later = [] → Beside v.well t u →
    (steady = true → u.device.state = t.device.state) → P later t → P later u
  written : ∀ later t u, v.Full later → Rested v.well t u → P later t → P later u
  aside   : ∀ h later t u, ¬ v.Full later → h.moving = true → Aside v.well t u → P (h :: later) t → P later u
  report  : ∀ later t u, ¬ v.Full later → t.Landed → u = reportFault .actuatorFault v.well.tag 0 t →
    (steady = true → u.device.state = t.device.state) → P (.actuatorReport :: later) t → P later u
  idle    : ∀ later u, ¬ v.Full later → ¬ v.Isolates → P (.isolate :: later) u → P later u
  isolate : ∀ later t u, ¬ v.Full later → v.Isolates → Isolated v.well t u → P (.isolate :: later) t → P later u
  abort   : ∀ later u, ¬ v.Full later → v.Rose PerInput.cap → P (.capAbort :: later) u → P later (abortSampleOf v.well u)
  enqueue : ∀ later u q, ¬ v.Full later → Course v s (.capEnqueue :: later) u → u.record? v.well = some q →
    v.Fell PerInput.cap → P (.capEnqueue :: later) u → P later (capEnqueue later v.well u)
  confirm : ∀ later u q, ¬ v.Full later → Course v s (.confirm v.valve :: later) u → u.record? v.well = some q →
    P (.confirm v.valve :: later) u → P later (takeConfirmation v.valve v.well u)
  ends    : ∀ t u, Rested v.well t u → P [] t → Q u

/-- Once an event has been taken, not all are still to come. -/
theorem Course.started {h : Handed} (course : Course v s (h :: later) u) : ¬ v.Full later := fun full =>
  course.last (full h (course.handed h (List.mem_cons_self ..)))

theorem SampleClaim.leads (claim : SampleClaim v s steady P Q) : Leads v s steady P Q where
  turned x later t u stage other turned same before := by
    have chain := turned.others v.well other.symm
    cases steady with
    | false => exact beside_holds (fun t u step => claim.beside later t u stage step fun e => nomatch e) chain before
    | true =>
      exact beside_steady (P := P later) (fun t u step kept => claim.beside later t u stage step fun _ => kept) chain
        before (same rfl)
  written := claim.written
  step h later u course same before := by
    have started := course.started
    cases hq : u.record? v.well with
    | none =>
      have left := (course.gone hq).2
      have out : Gone v.well (takeHanded later v.well h u) := by
        rcases takeHanded_gone (later := later) left h with e | e
        · rw [e]
          exact left
        · rw [e]
          exact left.reported
      exact claim.gone later _ started out
    | some q =>
      have mem := course.handed h (List.mem_cons_self ..)
      have aside (moving : h.moving = true) : P later (takeHanded later v.well h u) := by
        rcases takeHanded_aside (later := later) moving u with frees | aside
        · exact claim.gone later _ started frees.gone
        · exact claim.aside h later u _ started moving aside before
      cases h with
      | actuatorBlock | actuatorFall | autoPurge | feedback b => exact aside rfl
      | capAbort => exact claim.abort later u started (capAbort_handed.1 mem) before
      | capEnqueue => exact claim.enqueue later u q started course hq (capEnqueue_handed.1 mem) before
      | actuatorReport => exact claim.report later u _ started course.landed rfl same before
      | isolate =>
        rcases course.isolate_eq hq with ⟨isolates, sampled, e⟩ | ⟨stays, e⟩
        · rw [e]
          exact claim.isolate later u _ started isolates (isolation_samples hq sampled) before
        · rw [e]
          exact claim.idle later u started stays before
      | confirm b =>
        obtain rfl := confirm_handed.1 mem
        exact claim.confirm later u q started course hq before
  ends := claim.ends

/-! ### Common steps -/

theorem Course.isolable_of (course : Course v s later u) (hq : u.record? v.well = some q) (isolates : v.Isolates)
    (coming : .isolate ∈ later) : q.isolable = true := by
  obtain ⟨⟨iso, pulse, holds, done, _⟩⟩ := course.record q hq
  cases iso with
  | true => exact absurd coming (done.1 rfl).2
  | false => exact holds.isolable isolates

theorem Course.unsampled_of (course : Course v s later u) (isolates : v.Isolates) (taken : .isolate ∉ later) :
    ∀ q, u.record? v.well = some q → q.mode.isSampled = false := fun q hq => by
  obtain ⟨⟨iso, pulse, holds, done, _⟩⟩ := course.record q hq
  obtain rfl := done.2 ⟨isolates, taken⟩
  rw [holds.same]
  rfl

theorem shut_of_release (phase : s.seq.phase = .release w) : ¬ s.SampleOpen w := fun opened => by
  have h := opened.1
  rw [phase] at h
  cases h

theorem current_of_release (phase : s.seq.phase = .release w) : s.seq.phase.current? = some w := by rw [phase]; rfl

theorem shut_of_away (away : s.seq.phase.current? ≠ some w) : ¬ s.SampleOpen w := fun opened => away opened.2

theorem Gone.shows {P : WellRecord → Prop} (gone : Gone w s) : s.Shows w P := fun q hq => by
  cases gone.record.symm.trans hq

theorem rested_read {α : Type} {g : WellRecord → α} (rested : Rested w s t) (keeps : ∀ r q, Rest r q → g q = g r) :
    SameRead g w s t := fun q hq => by
  obtain ⟨r, hr, rest⟩ := rested.read q hq
  exact ⟨r, hr, keeps r q rest⟩

theorem Rested.marks (rested : Rested w s t) : SameRead sampleMarks w s t :=
  rested_read rested fun r q rest => by rw [sampleMarks, sampleMarks, rest.queued, rest.outcome, rest.event 7 (by decide)]

/-- The sequencer stands, and the sample marks. -/
theorem Rested.aside (rested : Rested w s t) : t.seq = s.seq ∧ SameRead sampleMarks w s t := ⟨rested.seq, rested.marks⟩

theorem SameRead.queuedIs {c : Queued} (marks : SameRead sampleMarks w s t) (shows : s.Shows w fun r => r.queued = c) :
    t.Shows w fun r => r.queued = c :=
  marks.shows (P := fun m : Queued × SampleOutcome × Bool => m.1 = c) shows

theorem SameRead.aborted (marks : SameRead (fun r : WellRecord => (r.sampleOutcome, r.events.getLsbD 7)) w s t)
    (shows : s.Shows w WellRecord.SampleAborted) : t.Shows w WellRecord.SampleAborted :=
  marks.shows (P := fun m : SampleOutcome × Bool => m.1 = .aborted ∧ m.2 = true) shows

theorem SameRead.outcome (marks : SameRead sampleMarks w s t) :
    SameRead (fun r : WellRecord => (r.sampleOutcome, r.events.getLsbD 7)) w s t := marks.comp Prod.snd

theorem reportFault_landed {k : FaultKind} {n : Nat} {d : Half} (landed : s.Landed) : Beside w s (reportFault k n d s) :=
  .reported k n d landed

/-! ### A sample in hand is aborted -/

/-- The sample of the well is open with its end still to come, or has been aborted. -/
def Aborting (v : Arrival) (later : List Handed) (u : State) : Prop :=
  (u.SampleOpen v.well ∧ u.Unqueued v.well ∧ (u.Shows v.well fun r => r.queued = .sampling) ∧
    (.capAbort ∈ later ∨ v.Isolates ∧ .isolate ∈ later)) ∨
  (u.seq.phase = .release v.well ∧ u.Unqueued v.well ∧ (u.Shows v.well fun r => r.queued = .sampling) ∧
    u.Shows v.well WellRecord.SampleAborted) ∨
  (¬ v.Full later ∧ u.seq.phase.current? ≠ some v.well ∧ u.Shows v.well WellRecord.SampleAborted ∧
    (u.Unqueued v.well ∨ v.Isolates ∧ .isolate ∈ later))

/-- An event that leaves the sequencer and the sample marks, and is no end of the sample. -/
theorem Aborting.next {h : Handed} (before : Aborting v (h :: later) t) (started : ¬ v.Full later)
    (abort : h ≠ .capAbort) (isolate : h = .isolate → ¬ v.Isolates) (seq : u.seq = t.seq)
    (marks : SameRead sampleMarks v.well t u) : Aborting v later u := by
  have coming (mem : v.Isolates ∧ .isolate ∈ h :: later) : v.Isolates ∧ .isolate ∈ later :=
    ⟨mem.1, mem_passed (fun own => isolate own mem.1) mem.2⟩
  rcases before with ⟨opened, out, sampling, cause⟩ | ⟨release, out, sampling, aborted⟩ | ⟨_, away, aborted, out⟩
  · refine .inl ⟨by rw [State.SampleOpen, seq]; exact opened, by rw [State.Unqueued, seq]; exact out,
      marks.queuedIs sampling, cause.imp (mem_passed abort) coming⟩
  · exact .inr (.inl ⟨by rw [seq]; exact release, by rw [State.Unqueued, seq]; exact out, marks.queuedIs sampling,
      marks.outcome.aborted aborted⟩)
  · exact .inr (.inr ⟨started, by rw [seq]; exact away, marks.outcome.aborted aborted,
      out.imp (fun out => by rw [State.Unqueued, seq]; exact out) coming⟩)

/-- A step beside the well, when all events or none are to come. -/
theorem Aborting.step (before : Aborting v later t) (stage : v.Full later ∨ later = []) (step : Beside v.well t u) :
    Aborting v later u := by
  rcases before with ⟨opened, out, sampling, cause⟩ | ⟨release, out, sampling, aborted⟩ | ⟨started, away, aborted, out⟩
  · obtain ⟨unqueued, queued, phase⟩ := step.opened out opened
    have sampling := queued.shows (P := fun c : Queued => c = .sampling) sampling
    rcases phase with same | ⟨released, aborted⟩
    · exact .inl ⟨by rw [State.SampleOpen, same]; exact opened, unqueued, sampling, cause⟩
    · exact .inr (.inl ⟨released, unqueued, sampling, aborted⟩)
  · have shut := step.shut out (shut_of_release release)
    exact .inr (.inl ⟨(shut.current (current_of_release release)).trans release, shut.unqueued,
      shut.marks.queuedIs sampling, shut.marks.outcome.aborted aborted⟩)
  · have none : later = [] := stage.resolve_left started
    subst none
    have out : t.Unqueued v.well := out.resolve_right fun coming => by simp at coming
    have shut := step.shut out (shut_of_away away)
    exact .inr (.inr ⟨started, shut.away away, shut.marks.outcome.aborted aborted, .inl shut.unqueued⟩)

theorem aborting_claim (cause : v.Rose PerInput.cap ∨ v.Isolates) : SampleClaim v s false (Aborting v)
    fun t => (t.seq.phase.current? = some v.well → t.seq.phase = .release v.well) ∧
      t.Shows v.well WellRecord.SampleAborted where
  gone later u started left := .inr (.inr ⟨started, left.away, left.shows, .inl left.unqueued⟩)
  beside later t u stage step _ before := before.step stage step
  written later t u full rested before := by
    obtain ⟨seq, marks⟩ := rested.aside
    rcases before with ⟨opened, out, sampling, cause⟩ | ⟨release, out, sampling, aborted⟩ | ⟨started, _⟩
    · exact .inl ⟨by rw [State.SampleOpen, seq]; exact opened, by rw [State.Unqueued, seq]; exact out,
        marks.queuedIs sampling, cause⟩
    · exact .inr (.inl ⟨by rw [seq]; exact release, by rw [State.Unqueued, seq]; exact out, marks.queuedIs sampling,
        marks.outcome.aborted aborted⟩)
    · exact absurd full started
  aside h later t u started moving aside before := before.next started (by rintro rfl; cases moving)
    (by rintro rfl; cases moving) aside.seq aside.marks
  report later t u started landed e _ before := by
    have step : Beside v.well t u := by rw [e]; exact .reported _ _ _ landed
    obtain ⟨queue, current, _⟩ := reportFault_queue .actuatorFault v.well.tag 0 t
    rcases before with ⟨opened, out, sampling, cause⟩ | ⟨release, out, sampling, aborted⟩ | ⟨_, away, aborted, out⟩
    · obtain ⟨unqueued, queued, phase⟩ := step.opened out opened
      have sampling := queued.shows (P := fun c : Queued => c = .sampling) sampling
      rcases phase with same | ⟨released, aborted⟩
      · exact .inl ⟨by rw [State.SampleOpen, same]; exact opened, unqueued, sampling,
          cause.imp (mem_passed (by decide)) (And.imp_right (mem_passed (by decide)))⟩
      · exact .inr (.inl ⟨released, unqueued, sampling, aborted⟩)
    · have shut := step.shut out (shut_of_release release)
      exact .inr (.inl ⟨(shut.current (current_of_release release)).trans release, shut.unqueued,
        shut.marks.queuedIs sampling, shut.marks.outcome.aborted aborted⟩)
    · subst e
      have marks := reportFault_sampleMarks (k := .actuatorFault) (n := v.well.tag) (d := 0) landed.running
        (shut_of_away away)
      exact .inr (.inr ⟨started, by rw [current]; exact away, marks.outcome.aborted aborted,
        out.imp (fun out => by rw [State.Unqueued, queue]; exact out) (And.imp_right (mem_passed (by decide)))⟩)
  idle later u started stays before := before.next started (by decide) (fun _ => stays) rfl (.refl u)
  isolate later t u started isolates isolated before := by
    obtain ⟨seq, queued, aborted, shut⟩ := isolated.left
    rcases before with ⟨opened, out, sampling, _⟩ | ⟨release, out, sampling, shows⟩ | ⟨_, away, shows, _⟩
    · obtain ⟨released, shows⟩ := aborted opened
      exact .inr (.inl ⟨released, isolated.unqueued,
        (isolated.queued out).shows (P := fun c : Queued => c = .sampling) sampling, shows⟩)
    · have closed := shut_of_release release
      exact .inr (.inl ⟨(shut closed).trans release, isolated.unqueued,
        (isolated.queued out).shows (P := fun c : Queued => c = .sampling) sampling, (isolated.marks closed).aborted shows⟩)
    · have closed := shut_of_away away
      exact .inr (.inr ⟨started, by rw [shut closed]; exact away, (isolated.marks closed).aborted shows,
        .inl isolated.unqueued⟩)
  abort later u started _ before := by
    rcases before with ⟨opened, out, sampling, _⟩ | ⟨release, out, sampling, aborted⟩ | ⟨_, away, aborted, out⟩
    · obtain ⟨seq, aborted, queued⟩ := abortSampleOf_open opened
      exact .inr (.inl ⟨by rw [seq], by rw [State.Unqueued, seq]; exact out,
        queued.shows (P := fun c : Queued => c = .sampling) sampling, aborted⟩)
    · rw [abortSampleOf_shut (shut_of_release release)]
      exact .inr (.inl ⟨release, out, sampling, aborted⟩)
    · rw [abortSampleOf_shut (shut_of_away away)]
      exact .inr (.inr ⟨started, away, aborted, out.imp id (And.imp_right (mem_passed (by decide)))⟩)
  enqueue later u q started course hq fell before := by
    have isolates : v.Isolates := cause.resolve_left fun rose => by cases rose.2.symm.trans fell.2
    have sampled (sampling : u.Shows v.well fun r => r.queued = .sampling) :
        Aborting v later (capEnqueue later v.well u) := by
      obtain ⟨seq, marks⟩ := capEnqueue_sampled (later := later) sampling
      exact before.next started (by decide) (by simp) seq marks
    rcases id before with ⟨_, _, sampling, _⟩ | ⟨_, _, sampling, _⟩ | ⟨_, away, aborted, out⟩
    · exact sampled sampling
    · exact sampled sampling
    · by_cases coming : .isolate ∈ later
      · have held := capEnqueue_held hq (course.isolable_of hq isolates (List.mem_cons_of_mem _ coming)) coming
        exact .inr (.inr ⟨started, by rw [held.phase]; exact away, held.marks.aborted aborted, .inr ⟨isolates, coming⟩⟩)
      · rw [capEnqueue_unsampled (course.unsampled_of isolates (by simp [coming]))]
        exact before.next started (by decide) (by simp) rfl (.refl u)
  confirm later u q started course hq before := by
    rcases takeConfirmation_cases v.valve v.well u with e | ⟨_, select, e⟩ | ⟨_, release, e⟩
    · rw [e]
      exact before.next started (by simp) (by simp) rfl (.refl u)
    · rw [e]
      rcases before with ⟨opened, out, sampling, cause⟩ | ⟨release, _⟩ | ⟨_, away, _⟩
      · exact .inl ⟨⟨rfl, rfl⟩, out, sampling, cause.imp (mem_passed (by simp)) (And.imp_right (mem_passed (by simp)))⟩
      · cases select.symm.trans release
      · exact absurd (by rw [select]; rfl) away
    · rw [e]
      rcases before with ⟨opened, _⟩ | ⟨_, out, sampling, aborted⟩ | ⟨_, away, _⟩
      · exact absurd opened (shut_of_release release)
      · obtain ⟨unqueued, away, marks, _⟩ := confirmed_off course.landed out
        exact .inr (.inr ⟨started, away, marks.aborted aborted, .inl unqueued⟩)
      · exact absurd (current_of_release release) away
  ends t u rested before := by
    obtain ⟨seq, marks⟩ := rested.aside
    rcases before with ⟨_, _, _, cause⟩ | ⟨release, _, _, aborted⟩ | ⟨_, away, aborted, _⟩
    · simp at cause
    · exact ⟨fun _ => by rw [seq]; exact release, marks.outcome.aborted aborted⟩
    · exact ⟨fun current => absurd (by rw [← seq]; exact current) away, marks.outcome.aborted aborted⟩

end Sys2Proof.Machine
end

