-- ==== Sys2Proof/Proofs/SamplesSettled.lean ====
section
/-! SUPPORT. The queue at an isolation, the end of a RELEASE, the start of a purge, and a CAP fall: the other clauses of
`SamplesAfter` but for OFFLINE (R27, R36, R73, R92, R95, R102). -/

namespace Sys2Proof.Machine

variable {s t u : State} {v : Arrival} {w : Well} {later : List Handed} {q r : WellRecord}

/-! ### Out of the queue -/

theorem Beside.unqueued (step : Beside w s t) (out : s.Unqueued w) : t.Unqueued w := by
  by_cases opened : s.SampleOpen w
  · exact (step.opened out opened).1
  · exact (step.shut out opened).unqueued

theorem Rested.unqueued (rested : Rested w s t) (out : s.Unqueued w) : t.Unqueued w := by
  rw [State.Unqueued, rested.seq]
  exact out

theorem reportFault_unqueued {k : FaultKind} {n : Nat} {d : Half} (out : s.Unqueued w) :
    (reportFault k n d s).Unqueued w := by
  rw [State.Unqueued, (reportFault_queue k n d s).1]
  exact out

/-- The isolation is still to come, or the well is out of the queue. -/
def Clearing (v : Arrival) (later : List Handed) (u : State) : Prop := .isolate ∈ later ∨ u.Unqueued v.well

theorem clearing_claim (isolates : v.Isolates) :
    SampleClaim v s false (Clearing v) fun t => t.Unqueued v.well where
  gone _ _ _ left := .inr left.unqueued
  beside _ _ _ _ step _ before := before.imp id step.unqueued
  written _ _ _ _ rested before := before.imp id rested.unqueued
  aside h later t u _ moving aside before := before.imp (mem_passed (by rintro rfl; cases moving)) fun out => by
    rw [State.Unqueued, aside.seq]
    exact out
  report later t u _ _ e _ before := before.imp (mem_passed (by decide)) fun out => by
    rw [e]
    exact reportFault_unqueued out
  idle _ _ _ stays _ := absurd isolates stays
  isolate _ _ _ _ _ isolated _ := .inr isolated.unqueued
  abort later u _ _ before := before.imp (mem_passed (by decide)) fun out => by
    rw [State.Unqueued, abortSampleOf_queue]
    exact out
  enqueue later u q _ course hq _ before := by
    by_cases coming : .isolate ∈ later
    · exact .inl coming
    · rw [capEnqueue_unsampled (course.unsampled_of isolates (by simp [coming]))]
      exact before.imp (mem_passed (by decide)) id
  confirm later u q _ course _ before := before.imp (mem_passed (by simp)) fun out => by
    rcases takeConfirmation_cases v.valve v.well u with e | ⟨_, _, e⟩ | ⟨_, _, e⟩
    · rw [e]
      exact out
    · rw [e]
      exact out
    · rw [e]
      exact (confirmed_off course.landed out).1
  ends t u rested before := by
    have out : t.Unqueued v.well := by simpa [Clearing] using before
    exact rested.unqueued out

/-! ### No sample of a well that was not queued -/

/-- The well is not current, its sample marks stand, and it is out of the queue, or has the entry that the isolation still
to come removes. -/
def Abstaining (v : Arrival) (later : List Handed) (u : State) : Prop :=
  u.seq.phase.current? ≠ some v.well ∧
  (u.Shows v.well fun r => (r.sampleOutcome, r.events.getLsbD 7) =
    (v.slot.record.sampleOutcome, v.slot.record.events.getLsbD 7)) ∧
  ((u.Unqueued v.well ∧ u.Shows v.well fun r => r.queued = .no) ∨
    (¬ v.Full later ∧ .isolate ∈ later ∧ ∃ e ∈ u.seq.queue, e.well = v.well))

theorem Abstaining.next {h : Handed} (before : Abstaining v (h :: later) t) (started : ¬ v.Full later)
    (other : h ≠ .isolate) (queue : u.seq.queue = t.seq.queue) (current : u.seq.phase.current? = t.seq.phase.current?)
    (marks : SameRead sampleMarks v.well t u) : Abstaining v later u := by
  obtain ⟨away, same, place⟩ := before
  refine ⟨by rw [current]; exact away, marks.outcome.shows (P := fun m => m = _) same, ?_⟩
  refine place.imp (And.imp (fun out => ?_) marks.queuedIs) fun ⟨_, coming, entry⟩ => ⟨started, mem_passed other coming, ?_⟩
  · rw [State.Unqueued, queue]
    exact out
  · rw [queue]
    exact entry

theorem abstaining_claim (isolates : v.Isolates) : SampleClaim v s false (Abstaining v)
    fun t => t.seq.phase.current? ≠ some v.well ∧ t.Shows v.well fun q => q.queued = .no ∧
      q.sampleOutcome = v.slot.record.sampleOutcome ∧ q.events.getLsbD 7 = v.slot.record.events.getLsbD 7 where
  gone _ _ _ left := ⟨left.away, left.shows, .inl ⟨left.unqueued, left.shows⟩⟩
  beside later t u stage step _ before := by
    obtain ⟨away, same, place⟩ := before
    have ⟨out, queued⟩ : t.Unqueued v.well ∧ t.Shows v.well fun r => r.queued = .no :=
      place.resolve_right fun ⟨started, coming, _⟩ => by
        rw [stage.resolve_left started] at coming
        simp at coming
    have shut := step.shut out (shut_of_away away)
    exact ⟨shut.away away, shut.marks.outcome.shows (P := fun m => m = _) same,
      .inl ⟨shut.unqueued, shut.marks.queuedIs queued⟩⟩
  written later t u full rested before := by
    obtain ⟨away, same, place⟩ := before
    obtain ⟨out, queued⟩ := place.resolve_right fun ⟨started, _⟩ => started full
    exact ⟨by rw [rested.seq]; exact away, rested.marks.outcome.shows (P := fun m => m = _) same,
      .inl ⟨rested.unqueued out, rested.marks.queuedIs queued⟩⟩
  aside h later t u started moving aside before := before.next started (by rintro rfl; cases moving)
    (by rw [aside.seq]) (by rw [aside.seq]) aside.marks
  report later t u started landed e _ before := by
    subst e
    obtain ⟨queue, current, _⟩ := reportFault_queue .actuatorFault v.well.tag 0 t
    exact before.next started (by decide) queue current
      (reportFault_sampleMarks landed.running (shut_of_away before.1))
  idle _ _ _ stays _ := absurd isolates stays
  isolate later t u _ _ isolated before := by
    obtain ⟨away, same, place⟩ := before
    obtain ⟨_, removed, _, shut⟩ := isolated.left
    have closed := shut_of_away away
    refine ⟨by rw [shut closed]; exact away, (isolated.marks closed).shows (P := fun m => m = _) same,
      .inl ⟨isolated.unqueued, ?_⟩⟩
    rcases place with ⟨out, queued⟩ | ⟨_, _, entry⟩
    · exact (isolated.queued out).shows (P := fun c : Queued => c = .no) queued
    · exact removed entry
  abort later u started _ before := by
    rw [abortSampleOf_shut (shut_of_away before.1)]
    exact before.next started (by decide) rfl rfl (.refl u)
  enqueue later u q started course hq _ before := by
    by_cases coming : .isolate ∈ later
    · have held := capEnqueue_held hq (course.isolable_of hq isolates (List.mem_cons_of_mem _ coming)) coming
      obtain ⟨away, same, place⟩ := before
      refine ⟨by rw [held.phase]; exact away, held.marks.shows (P := fun m => m = _) same, ?_⟩
      rcases place with ⟨out, queued⟩ | ⟨_, _, entry⟩
      · rcases held.entry out with entry | ⟨out, marks⟩
        · exact .inr ⟨started, coming, entry⟩
        · exact .inl ⟨out, marks.shows (P := fun c : Queued => c = .no) queued⟩
      · exact .inr ⟨started, coming, held.stays entry⟩
    · rw [capEnqueue_unsampled (course.unsampled_of isolates (by simp [coming]))]
      exact before.next started (by decide) rfl rfl (.refl u)
  confirm later u q started course _ before := by
    rw [takeConfirmation_away _ before.1]
    exact before.next started (by simp) rfl rfl (.refl u)
  ends t u rested before := by
    obtain ⟨away, same, place⟩ := before
    obtain ⟨_, queued⟩ := place.resolve_right fun ⟨_, coming, _⟩ => by simp at coming
    refine ⟨by rw [rested.seq]; exact away, fun q hq => ⟨rested.marks.queuedIs queued q hq, ?_⟩⟩
    have marks := rested.marks.outcome.shows (P := fun m => m = (v.slot.record.sampleOutcome,
      v.slot.record.events.getLsbD 7)) same q hq
    exact Prod.mk.inj marks

/-! ### The end of a RELEASE -/

/-- The well is out of the queue, and in RELEASE with the valve still to be confirmed off, or no longer current. -/
def Releasing (v : Arrival) (later : List Handed) (u : State) : Prop :=
  u.Unqueued v.well ∧ ((u.seq.phase = .release v.well ∧ .confirm false ∈ later) ∨
    (u.seq.phase.current? ≠ some v.well ∧ u.Shows v.well fun r => r.queued = .no))

theorem Releasing.shut (before : Releasing v later u) : ¬ u.SampleOpen v.well := by
  rcases before.2 with ⟨release, _⟩ | ⟨away, _⟩
  · exact shut_of_release release
  · exact shut_of_away away

/-- What leaves the phase of a well out of the queue, and QUEUED, leaves its RELEASE. -/
theorem Releasing.next {h : Handed} (before : Releasing v (h :: later) t) (other : h ≠ .confirm false)
    (out : u.Unqueued v.well) (phase : t.seq.phase.current? = some v.well → u.seq.phase = t.seq.phase)
    (away : t.seq.phase.current? ≠ some v.well → u.seq.phase.current? ≠ some v.well)
    (queued : SameRead WellRecord.queued v.well t u) : Releasing v later u :=
  ⟨out, before.2.imp (fun ⟨release, coming⟩ =>
      ⟨(phase (current_of_release release)).trans release, mem_passed other coming⟩)
    fun ⟨gone, no⟩ => ⟨away gone, queued.shows (P := fun c : Queued => c = .no) no⟩⟩

theorem releasing_claim (off : v.valve = false) (unfallen : ¬ v.Fell PerInput.cap) : SampleClaim v s false (Releasing v)
    fun t => t.seq.phase.current? ≠ some v.well ∧ t.Shows v.well fun q => q.queued = .no where
  gone _ _ _ left := ⟨left.unqueued, .inr ⟨left.away, left.shows⟩⟩
  beside later t u _ step _ before := by
    have shut := step.shut before.1 before.shut
    exact ⟨shut.unqueued, before.2.imp
      (And.imp_left fun release => (shut.current (current_of_release release)).trans release)
      (And.imp shut.away shut.marks.queuedIs)⟩
  written later t u _ rested before := ⟨rested.unqueued before.1, before.2.imp
    (And.imp_left fun release => by rw [rested.seq]; exact release)
    (And.imp (fun away => by rw [rested.seq]; exact away) rested.marks.queuedIs)⟩
  aside h later t u _ moving aside before := before.next (by rintro rfl; cases moving)
    (by rw [State.Unqueued, aside.seq]; exact before.1) (fun _ => by rw [aside.seq]) (fun away => by rw [aside.seq]; exact away)
    aside.queued
  report later t u _ landed e _ before := by
    have step : Beside v.well t u := by rw [e]; exact .reported _ _ _ landed
    have shut := step.shut before.1 before.shut
    exact before.next (by decide) shut.unqueued shut.current shut.away (shut.marks.comp Prod.fst)
  idle _ _ _ _ before := before.next (by decide) before.1 (fun _ => rfl) id (.refl _)
  isolate later t u _ _ isolated before := by
    obtain ⟨_, _, _, stays⟩ := isolated.left
    have phase := stays before.shut
    exact before.next (by decide) isolated.unqueued (fun _ => phase) (fun away => by rw [phase]; exact away)
      (isolated.queued before.1)
  abort later u _ _ before := by
    rw [abortSampleOf_shut before.shut]
    exact before.next (by decide) before.1 (fun _ => rfl) id (.refl u)
  enqueue _ _ _ _ _ _ fell _ := absurd fell unfallen
  confirm later u q _ course _ before := by
    rcases takeConfirmation_cases v.valve v.well u with e | ⟨on, _, _⟩ | ⟨_, _, e⟩
    · rw [e]
      refine ⟨before.1, .inr ?_⟩
      rcases before.2 with ⟨release, _⟩ | gone
      · have left : takeConfirmation v.valve v.well u = leaveSample (setQueued .no v.well u) := by
          simp [takeConfirmation, release, off]
        have away := (confirmed_off course.landed before.1).2.1
        rw [← left, e] at away
        exact absurd (current_of_release release) away
      · exact gone
    · cases off.symm.trans on
    · obtain ⟨out, away, _, queued⟩ := confirmed_off course.landed before.1
      rw [e]
      exact ⟨out, .inr ⟨away, queued⟩⟩
  ends t u rested before := by
    obtain ⟨away, queued⟩ := before.2.resolve_left fun h => by simp at h
    exact ⟨by rw [rested.seq]; exact away, rested.marks.queuedIs queued⟩

/-! ### The start of a purge -/

/-- The record is freed, or the well is sampled, in SELECT with the valve still to be confirmed on, or in PURGE. -/
def Purging (v : Arrival) (time : Nat) (later : List Handed) (u : State) : Prop :=
  u.record? v.well = none ∨
  (u.Unqueued v.well ∧ (u.Shows v.well fun r => r.queued = .sampling) ∧
    ((u.seq.phase = .select v.well ∧ .confirm true ∈ later) ∨ u.seq.phase = .purge v.well time))

theorem Purging.next {h : Handed} {time : Nat} (before : Purging v time (h :: later) t) (other : h ≠ .confirm true)
    (freed : t.record? v.well = none → u.record? v.well = none) (seq : u.seq = t.seq)
    (queued : SameRead WellRecord.queued v.well t u) : Purging v time later u := by
  refine before.imp freed fun ⟨out, sampling, phase⟩ => ⟨?_, queued.shows (P := fun c : Queued => c = .sampling) sampling, ?_⟩
  · rw [State.Unqueued, seq]
    exact out
  · rw [seq]
    exact phase.imp (And.imp_right (mem_passed other)) id

theorem freed_of_read {α : Type} {g : WellRecord → α} (read : SameRead g w s t) (freed : s.record? w = none) :
    t.record? w = none := by
  cases hq : t.record? w with
  | none => rfl
  | some q =>
    obtain ⟨r, hr, _⟩ := read q hq
    cases freed.symm.trans hr

theorem purging_claim (on : v.valve = true) (unrisen : ¬ v.Rose PerInput.cap) (stays : ¬ v.Isolates) :
    SampleClaim v s true (Purging v s.settings.purgeTime)
      fun t => t.record? v.well ≠ none → t.seq.phase = .purge v.well s.settings.purgeTime where
  gone _ _ _ left := .inl left.record
  beside later t u _ step steady before := before.imp
    (fun none => well?_eq_none.1 (step.stays.gone (well?_eq_none.2 none))) fun ⟨out, sampling, phase⟩ => by
      have opened : t.SampleOpen v.well := by
        rcases phase with ⟨select, _⟩ | purge
        · exact ⟨by rw [select]; rfl, by rw [select]; rfl⟩
        · exact ⟨by rw [purge]; rfl, by rw [purge]; rfl⟩
      obtain ⟨unqueued, queued, _⟩ := step.opened out opened
      rw [step.opened_steady out opened (steady rfl)]
      exact ⟨unqueued, queued.shows (P := fun c : Queued => c = .sampling) sampling, phase⟩
  written later t u _ rested before := before.imp (freed_of_read rested.marks) fun ⟨out, sampling, phase⟩ =>
    ⟨rested.unqueued out, rested.marks.queuedIs sampling, by rw [rested.seq]; exact phase⟩
  aside h later t u _ moving aside before :=
    before.next (by rintro rfl; cases moving) (freed_of_read aside.read) aside.seq aside.queued
  report later t u _ landed e steady before := by
    subst e
    obtain ⟨slots, seq, _⟩ := reportFault_steady landed.running (steady rfl)
    exact before.next (by decide) (freed_of_read (sameRead_of_slots (g := id) slots)) seq (sameRead_of_slots slots)
  idle _ _ _ _ before := before.next (by decide) id rfl (.refl _)
  isolate _ _ _ _ isolates _ _ := absurd isolates stays
  abort _ _ _ rose _ := absurd rose unrisen
  enqueue later u q _ _ hq _ before := by
    rcases id before with none | ⟨_, sampling, _⟩
    · cases none.symm.trans hq
    · obtain ⟨seq, marks⟩ := capEnqueue_sampled (later := later) sampling
      exact before.next (by decide) (freed_of_read marks) seq (marks.comp Prod.fst)
  confirm later u q _ course hq before := by
    obtain ⟨out, sampling, phase⟩ := before.resolve_left fun none => by cases none.symm.trans hq
    rcases phase with ⟨select, _⟩ | purge
    · have e : takeConfirmation v.valve v.well u = setPhase (.purge v.well u.settings.purgeTime) u := by
        simp [takeConfirmation, select, on]
      rw [e]
      exact .inr ⟨out, sampling, .inr (by rw [← course.settings]; rfl)⟩
    · have e : takeConfirmation v.valve v.well u = u := by simp [takeConfirmation, purge]
      rw [e]
      exact .inr ⟨out, sampling, .inr purge⟩
  ends t u rested before stands := by
    obtain ⟨_, _, phase⟩ := before.resolve_left fun none => stands (freed_of_read rested.marks none)
    rw [rested.seq]
    exact phase.resolve_left fun h => by simp at h

/-! ### A CAP fall -/

/-- The well is sought, and if it is in RELEASE its next survey is due at once. -/
structure Pressing (w : Well) (s : State) : Prop where
  sought  : Sought w s
  release : s.seq.phase = .release w → s.Shows w fun r => r.surveyDue = 0

theorem Pressing.of_away (sought : Sought w s) (away : s.seq.phase.current? ≠ some w) : Pressing w s :=
  ⟨sought, fun release => absurd (current_of_release release) away⟩

theorem Beside.release (step : Beside w s t) (steady : t.device.state = s.device.state)
    (release : t.seq.phase = .release w) : s.seq.phase = .release w := by
  cases step with
  | unseen _ phase _ _ =>
    rcases phase with same | elsewhere
    · exact same.symm.trans release
    · exact absurd (current_of_release release) elsewhere.after
  | granted _ => exact release
  | evicted _ _ _ => exact release
  | @blocked e rest _ _ _ _ =>
    rw [(headBlocked_apart e rest s).1] at release
    exact release
  | selected _ _ _ _ => cases release
  | reported k n d landed =>
    rw [(reportFault_steady landed.running steady).2.1] at release
    exact release

theorem Stays.due (stays : Stays w s t) (due : s.Shows w fun r => r.surveyDue = 0) :
    t.Shows w fun r => r.surveyDue = 0 := fun q hq => by
  cases hr : s.record? w with
  | none =>
    rw [well?_eq_none.1 (stays.gone (well?_eq_none.2 hr))] at hq
    cases hq
  | some r =>
    obtain ⟨p, hp, stayed⟩ := stays.found r hr
    cases hq.symm.trans hp
    exact stayed.due.elim (fun e => e.trans (due r hr)) id

theorem Beside.pressing (step : Beside w s t) (steady : t.device.state = s.device.state) (pressing : Pressing w s) :
    Pressing w t :=
  ⟨step.sought pressing.sought, fun release => step.stays.due (pressing.release (step.release steady release))⟩

theorem headTest_pressing (pressing : Pressing w s) : Pressing w (headTest s) :=
  beside_steady (fun _ _ step steady before => step.pressing steady before) (headTest_beside s w) pressing
    (headTest_calm s).state

theorem Aside.pressing (aside : Aside w s t) (pressing : Pressing w s) : Pressing w t where
  sought := pressing.sought.of_same (by rw [aside.seq]) (by rw [aside.seq])
    (aside.read.comp fun x => (x.1.1, x.2.1, x.2.2))
  release release := (aside.read.comp fun x => x.2.2).shows (P := fun n : Nat => n = 0)
    (pressing.release (by rw [← aside.seq]; exact release))

theorem entriesOf_placed (c : SampleClass) (l : List QueueEntry) :
    entriesOf w (placeEntry ⟨w, c⟩ (withoutEntry w l)) = [⟨w, c⟩] := by
  have none : ∀ e ∈ withoutEntry w l, ¬ (e.well == w) = true := fun e he => by
    simpa using withoutEntry_unqueued w l e he
  have part {k : List QueueEntry} (sub : k.Sublist (withoutEntry w l)) : k.filter (fun e => e.well == w) = [] :=
    List.filter_eq_nil_iff.2 fun e he => none e (sub.mem he)
  unfold placeEntry entriesOf
  cases c with
  | routine => simp [List.filter_append, part (.refl _)]
  | urgent =>
    simp [List.filter_append, part (List.takeWhile_sublist _), part (List.dropWhile_sublist _)]

/-- A well that is not current, with CAP low, is sought once it has been placed. -/
theorem placeInQueue_pressing (hq : s.record? w = some q) (low : q.inputHigh .cap = false)
    (away : s.seq.phase.current? ≠ some w) : Pressing w (placeInQueue .urgent w s) := by
  have entries : entriesOf w (placeInQueue .urgent w s).seq.queue = [⟨w, .urgent⟩] := entriesOf_placed .urgent s.seq.queue
  refine .of_away (.inr (.inl ⟨away, fun e he own => ?_, by rw [entries]; exact le_refl 1, fun p hp => ?_⟩)) away
  · have mem := mem_entriesOf.2 ⟨he, own⟩
    rw [entries, List.mem_singleton] at mem
    rw [mem]
  · obtain ⟨r, hr, rfl⟩ := of_record?_writeRecord (f := fun r => { r with queued := .urgent })
      (s := setQueue (placeEntry ⟨w, .urgent⟩ (withoutEntry w s.seq.queue)) s) hp
    cases hq.symm.trans hr
    exact ⟨rfl, low⟩

theorem dueAtOnce_pressing (w : Well) (s : State) : Pressing w (dueAtOnce w s) := by
  have due : (dueAtOnce w s).Shows w fun r => r.surveyDue = 0 := fun q hq => by
    obtain ⟨r, _, rfl⟩ := of_record?_writeRecord (f := fun r => { r with surveyDue := 0 }) hq
    rfl
  exact ⟨.inr (.inr due), fun _ => due⟩

/-- An enqueue leaves a sampled well with CAP low sought (R92). -/
theorem urgentEnqueue_pressing {held : Bool} (hq : s.record? w = some q) (fits : QueueFits w s)
    (sampled : q.mode.isSampled = true) (low : q.inputHigh .cap = false) : Pressing w (urgentEnqueue held w s) := by
  have test (t : State) (pressing : Pressing w t) : Pressing w (if held then t else headTest t) := by
    split
    · exact pressing
    · exact headTest_pressing pressing
  have away (other : q.queued ≠ .sampling) : s.seq.phase.current? ≠ some w := fun current =>
    other (fits.current current q hq)
  unfold urgentEnqueue
  simp only [hq, sampled, Bool.true_eq_false, if_false]
  cases queued : q.queued with
  | urgent =>
    have out := away (by simp [queued])
    refine .of_away (.inr (.inl ⟨out, fun e he own => ?_, fits.single, shows_of_found hq ⟨queued, low⟩⟩)) out
    have cls := (fits.entry e he own q hq).symm.trans queued
    cases h : e.cls with
    | urgent => rfl
    | routine => rw [h] at cls; cases cls
  | routine => exact test _ (placeInQueue_pressing hq low (away (by simp [queued])))
  | sampling => exact dueAtOnce_pressing w s
  | no =>
    have out := away (by simp [queued])
    dsimp only
    split
    · exact test _ (placeInQueue_pressing hq low out)
    · split
      · rename_i e _
        obtain ⟨p, hp, stayed⟩ := (evict_stays e w s).found q hq
        refine test _ (placeInQueue_pressing hp ?_ out)
        rw [WellRecord.inputHigh, show p.inputs = q.inputs by rw [stayed.same]]
        exact low
      · exact dueAtOnce_pressing w s

/-- The enqueue is still to come, with QUEUED as the queue has it, or the well is sought. -/
def Seeking (v : Arrival) (later : List Handed) (u : State) : Prop :=
  (.capEnqueue ∈ later ∧ QueueFits v.well u) ∨ (.capEnqueue ∉ later ∧ Pressing v.well u)

theorem Seeking.next {h : Handed} (before : Seeking v (h :: later) t) (other : h ≠ .capEnqueue)
    (fits : QueueFits v.well t → QueueFits v.well u) (pressing : Pressing v.well t → Pressing v.well u) :
    Seeking v later u :=
  before.imp (And.imp (mem_passed other) fits) (And.imp (fun gone mem => gone (List.mem_cons_of_mem _ mem)) pressing)

theorem Aside.fits (aside : Aside w s t) (fits : QueueFits w s) : QueueFits w t :=
  fits.of_same (by rw [aside.seq]) (by rw [aside.seq]; exact id) aside.queued

theorem Gone.fits (gone : Gone w s) : QueueFits w s :=
  queueFits_of_unqueued ((unqueued_iff s w).1 gone.unqueued) fun current => absurd current gone.away

theorem seeking_claim (fell : v.Fell PerInput.cap) (sampled : v.Sampled) (stays : ¬ v.Isolates) :
    SampleClaim v s true (Seeking v)
      fun t => t.Shows v.well fun q => q.queued = .urgent ∨ q.queued = .sampling ∨ q.surveyDue = 0 where
  gone later u _ left := by
    by_cases coming : .capEnqueue ∈ later
    · exact .inl ⟨coming, left.fits⟩
    · exact .inr ⟨coming, .of_away (.inr (.inr left.shows)) left.away⟩
  beside later t u _ step steady before :=
    before.imp (And.imp_right step.fits) (And.imp_right (step.pressing (steady rfl)))
  written later t u full rested before := by
    have coming := full _ (capEnqueue_handed.2 fell)
    have fits := (before.resolve_right fun h => h.1 coming).2
    exact .inl ⟨coming, fits.of_same (by rw [rested.seq]) (by rw [rested.seq]; exact id) (rested.marks.comp Prod.fst)⟩
  aside h later t u _ moving aside before := before.next (by rintro rfl; cases moving) aside.fits aside.pressing
  report later t u _ landed e steady before := by
    subst e
    obtain ⟨slots, seq, _⟩ := reportFault_steady landed.running (steady rfl)
    have aside : Aside v.well t (reportFault .actuatorFault v.well.tag 0 t) := ⟨seq, sameRead_of_slots slots⟩
    exact before.next (by decide) aside.fits aside.pressing
  idle _ _ _ _ before := before.next (by decide) id id
  isolate _ _ _ _ isolates _ _ := absurd isolates stays
  abort _ _ _ rose _ := by cases rose.2.symm.trans fell.2
  enqueue later u q _ course hq _ before := by
    have fits := (before.resolve_right fun h => h.1 (List.mem_cons_self ..)).2
    obtain ⟨⟨iso, pulse, holds, done, _⟩⟩ := course.record q hq
    cases iso with
    | true => exact absurd (done.1 rfl).1 stays
    | false =>
      have mode : q.mode.isSampled = true := by
        rw [show q.mode = v.slot.record.mode by rw [holds.same]; rfl]
        rcases sampled with h | h | h <;> rw [h] <;> rfl
      have low : q.inputHigh .cap = false := by
        rw [WellRecord.inputHigh, show q.inputs = some v.after by rw [holds.same]; rfl]
        simp [inputValue, fell.2]
      refine .inr ⟨course.last, ?_⟩
      simp only [capEnqueue, hq]
      exact urgentEnqueue_pressing hq fits mode low
  confirm later u q _ course hq before := by
    rcases takeConfirmation_cases v.valve v.well u with e | ⟨_, select, e⟩ | ⟨_, release, e⟩
    · rw [e]
      exact before.next (by simp) id id
    · rw [e]
      have current : u.seq.phase.current? = some v.well := by rw [select]; rfl
      refine before.next (by simp) (fun fits => ?_) fun pressing => ⟨?_, fun release => by cases release⟩
      · exact fits.of_same rfl (fun _ => current) (sameRead_of_slots rfl)
      · exact pressing.sought.of_same rfl ⟨fun _ => current, fun _ => rfl⟩ (sameRead_of_slots rfl)
    · rw [e]
      have stays : Stays v.well u (leaveSample (setQueued .no v.well u)) := by
        refine Marks.stays ((setQueued_marks .no v.well u).trans (leaveSample_marks _)) ?_ v.well
        have handled := takeConfirmation_handles (v := v.well) v.valve u course.landed
        rw [e] at handled
        exact handled.slots
      refine before.next (by simp) (fun fits => ?_) fun pressing => ?_
      · obtain ⟨out, away, _⟩ := confirmed_off course.landed (fits.unqueued (current_of_release release) hq)
        exact queueFits_of_unqueued ((unqueued_iff _ _).1 out) fun current => absurd current away
      · have due := stays.due (pressing.release release)
        exact ⟨.inr (.inr due), fun _ => due⟩
  ends t u rested before q hq := by
    obtain ⟨_, pressing⟩ := before.resolve_left fun h => by simp at h
    obtain ⟨r, hr, rest⟩ := rested.read q hq
    rw [rest.queued, rest.surveyDue]
    rcases pressing.sought with ⟨_, _, sampling⟩ | ⟨_, _, _, urgent⟩ | due
    · exact .inr (.inl (sampling r hr))
    · exact .inl (urgent r hr).1
    · exact .inr (.inr (due r hr))

end Sys2Proof.Machine
end

