-- ==== Sys2Proof/Proofs/OfflineEntries.lean ====
section
/-! SUPPORT. A RELEASE that ends at a failure count of 3 enters OFFLINE, however it ends, and no other arrival does (R102,
R103, R105). -/

namespace Sys2Proof.Machine

variable {s t u m : State} {v : Arrival} {w : Well} {later : List Handed} {q r : WellRecord} {f : FailureRun}

/-! ### A freeing, as the sequencer sees it -/

/-- The sequencer after a freeing is as it has dropped the well. -/
theorem freeWell_sequencer (hq : s.record? w = some q) :
    (freeWell w s).seq = (sequencerDrops w (removeRecord w s)).seq := by
  obtain ⟨x, hx, _⟩ := Option.map_eq_some_iff.1 hq
  rw [freeWell_eq hx]
  show (dropStationChannel _ _ _).seq = _
  rw [(dropStationChannel_apart _ _ _).seq, freedBefore, (schedulerDrops_still w _).2.seq]

/-- A well that is not current is freed without the sequencer's leaving its phase. -/
theorem freeWell_phase (hq : s.record? w = some q) (away : s.seq.phase.current? ≠ some w) :
    (freeWell w s).seq.phase = s.seq.phase := by
  rw [freeWell_sequencer hq]
  have e : sequencerDrops w (removeRecord w s) = setQueue (withoutEntry w s.seq.queue) (removeRecord w s) := if_neg away
  rw [e]
  rfl

/-- The freeing of the current well has the sequencer leave its sample (R105). -/
theorem freeWell_left (landed : s.Landed) (hq : s.record? w = some q) (current : s.seq.phase.current? = some w) :
    ∃ m, m.Landed ∧ m.seq.failures = s.seq.failures ∧ m.settings = s.settings ∧
      Handled w (leaveSample m) (freeWell w s) ∧ (freeWell w s).seq = (leaveSample m).seq := by
  obtain ⟨x, hx, _⟩ := Option.map_eq_some_iff.1 hq
  let m := setQueue (withoutEntry w s.seq.queue) (removeRecord w s)
  have removed := removeRecord_handles (v := w) s landed
  have queued : Handled w (removeRecord w s) m :=
    setQueue_handles (fun _ other => entriesOf_withoutEntry other _) removed.landed
  have left : sequencerDrops w (removeRecord w s) = leaveSample m := if_pos current
  have leaves := leaveSample_handles (v := w) (s := m) current queued.landed
  refine ⟨m, queued.landed, rfl, rfl, ?_, by rw [freeWell_sequencer hq, left]⟩
  rw [freeWell_eq hx, freedBefore, left]
  exact ((schedulerDrops_handles _).trans ((dropStationChannel_handles _ _ _).trans (evalAlerts_handles _))) leaves.landed

/-! ### Not OFFLINE -/

/-- The failure count is not 3, and the sequencer is not in OFFLINE. -/
def Online (s : State) : Prop :=
  (∀ f, s.seq.failures = some f → f.count ≠ Config.offlineCount) ∧ ∀ n b, s.seq.phase ≠ .offline n b

theorem Beside.isOnline (step : Beside w s t) (online : Online s) : Online t :=
  ⟨by rw [step.failures]; exact online.1, step.online online.1 online.2⟩

theorem Online.of_phase {p : Phase} (online : Online s) (failures : t.seq.failures = s.seq.failures)
    (phase : t.seq.phase = p) (other : ∀ n b, p ≠ .offline n b) : Online t :=
  ⟨by rw [failures]; exact online.1, by rw [phase]; exact other⟩

theorem Online.of_seq (online : Online s) (seq : t.seq = s.seq) : Online t := by
  rw [Online, seq]
  exact online

theorem leaveSample_online (below : ∀ f, s.seq.failures = some f → f.count ≠ Config.offlineCount) :
    Online (leaveSample s) := by
  rw [leaveSample_idle below]
  refine ⟨?_, enterIdle_phase s⟩
  rw [show (enterIdle s).seq.failures = s.seq.failures from (enterIdle_calm s).failures]
  exact below

theorem Frees.online (frees : Frees w s t) (landed : s.Landed) (online : Online s) : Online t := by
  obtain ⟨m, q, aside, handles, hq, rfl⟩ := frees
  have online := online.of_seq aside.seq
  have landed := (handles landed).landed
  by_cases current : m.seq.phase.current? = some w
  · obtain ⟨n, _, failures, _, _, seq⟩ := freeWell_left landed hq current
    exact (leaveSample_online (by rw [failures]; exact online.1)).of_seq seq
  · exact online.of_phase (freeWell_handles (v := w) m landed).failures (freeWell_phase hq current) online.2

theorem headTest_online (online : Online s) : Online (headTest s) :=
  beside_holds (fun _ _ step => step.isOnline) (headTest_beside s ⟨0, 0⟩) online

theorem urgentEnqueue_online (held : Bool) (online : Online s) : Online (urgentEnqueue held w s) := by
  have test (t : State) (failures : t.seq.failures = s.seq.failures) (phase : t.seq.phase = s.seq.phase) :
      Online (if held then t else headTest t) := by
    have same := online.of_phase failures phase online.2
    split
    · exact same
    · exact headTest_online same
  unfold urgentEnqueue
  dsimp only
  split
  · exact online
  split
  · exact online
  split
  · exact online
  · exact test _ rfl rfl
  · exact online.of_seq rfl
  · split
    · exact test _ rfl rfl
    · split
      · exact test (placeInQueue .urgent w (evict _ s)) rfl rfl
      · exact online.of_seq rfl

theorem takeHanded_online {h : Handed} (course : Course v s (h :: later) u) (online : Online u) :
    Online (takeHanded later v.well h u) := by
  have failures := (takeHanded_handles (v := v.well) later h u course.landed).failures
  have reported : Online (reportFault .actuatorFault v.well.tag 0 u) :=
    (Beside.reported (w := v.well) _ _ _ course.landed).isOnline online
  cases hq : u.record? v.well with
  | none =>
    rcases takeHanded_gone (later := later) (course.gone hq).2 h with e | e
    · rw [e]
      exact online
    · rw [e]
      exact reported
  | some q =>
    have aside (moving : h.moving = true) : Online (takeHanded later v.well h u) := by
      rcases takeHanded_aside (later := later) moving u with frees | aside
      · exact frees.online course.landed online
      · exact online.of_seq aside.seq
    cases h with
    | actuatorBlock | actuatorFall | autoPurge | feedback b => exact aside rfl
    | actuatorReport => exact reported
    | capAbort =>
      by_cases opened : u.SampleOpen v.well
      · exact online.of_phase failures (congrArg (·.phase) (abortSampleOf_open opened).1) fun _ _ h => nomatch h
      · have e : takeHanded later v.well .capAbort u = u := abortSampleOf_shut opened
        rw [e]
        exact online
    | capEnqueue =>
      simp only [takeHanded, capEnqueue, hq]
      exact urgentEnqueue_online _ online
    | isolate =>
      rcases course.isolate_eq hq with ⟨_, sampled, e⟩ | ⟨_, e⟩
      · obtain ⟨_, _, aborted, shut⟩ := (isolation_samples hq sampled).left
        rw [e] at failures ⊢
        by_cases opened : u.SampleOpen v.well
        · exact online.of_phase failures (aborted opened).1 fun _ _ h => nomatch h
        · exact online.of_phase failures (shut opened) online.2
      · rw [e]
        exact online
    | confirm b =>
      simp only [takeHanded] at failures ⊢
      rcases takeConfirmation_cases b v.well u with e | ⟨_, _, e⟩ | ⟨_, _, e⟩
      · rw [e]
        exact online
      · rw [e]
        exact online.of_phase rfl rfl fun _ _ h => nomatch h
      · rw [e]
        exact leaveSample_online (s := setQueued .no v.well u) online.1

/-- An arrival at a failure count other than 3 never brings OFFLINE. -/
theorem online_leads : Leads v s false (fun _ => Online) fun t => ∀ n b, t.seq.phase ≠ .offline n b where
  turned _ _ _ _ _ other turned _ before :=
    beside_holds (fun _ _ step => step.isOnline) (turned.others v.well other.symm) before
  written _ _ _ _ rested before := before.of_seq rested.seq
  step _ _ _ course _ before := takeHanded_online course before
  ends _ _ rested before := (before.of_seq rested.seq).2

/-! ### Into OFFLINE -/

/-- The sequencer is in OFFLINE at its entry, with the event, and with the report when its severity is heard. -/
structure WentOffline (f : FailureRun) (heard : Prop) (s : State) : Prop where
  phase   : s.seq.phase = .offline 60 false
  event   : s.device.events.getLsbD 0 = true
  reports : heard → s.Reported .analyserOffline f.tag (match f.outcome with | .timeout => 2 | .fault => 3)

/-- The sequencer is in RELEASE for the well, after the failures of this run. -/
structure Failing (w : Well) (f : FailureRun) (s : State) : Prop where
  phase    : s.seq.phase = .release w
  failures : s.seq.failures = some f

theorem outcomeDetail_eq (f : FailureRun) :
    outcomeDetail f.outcome.toOutcome = (match f.outcome with | .timeout => 2 | .fault => 3) := by
  cases f.outcome <;> rfl

theorem leaveSample_wentOffline (failures : s.seq.failures = some f) (reached : f.count = Config.offlineCount) :
    WentOffline f (severityOf s.settings.severity .analyserOffline ≠ .ignored) (leaveSample s) := by
  obtain ⟨phase, event, _⟩ := enterOffline_enters f s
  rw [leaveSample_offline failures reached]
  refine ⟨phase, event, fun heard => ?_⟩
  rw [← outcomeDetail_eq]
  exact reportFault_reported .analyserOffline f.tag (outcomeDetail f.outcome.toOutcome)
    (setPhase (.offline Config.probeSeconds false) s) heard

theorem WentOffline.turned {heard : Prop} (off : WentOffline f heard s) (turned : Turned w s t)
    (phase : t.seq.phase = s.seq.phase) : WentOffline f heard t :=
  ⟨phase.trans off.phase, turned.device 0 off.event, fun h => turned.reports _ _ _ (off.reports h)⟩

theorem WentOffline.away {heard : Prop} (off : WentOffline f heard s) : s.seq.phase.current? ≠ some w := by
  rw [off.phase]
  exact fun h => nomatch h

/-- A freeing while the sequencer is in this RELEASE ends it into OFFLINE (R105). -/
theorem Frees.failing (frees : Frees w s t) (landed : s.Landed) (failing : Failing w f s)
    (reached : f.count = Config.offlineCount) :
    WentOffline f (severityOf s.settings.severity .analyserOffline ≠ .ignored) t := by
  obtain ⟨m, q, aside, handles, hq, rfl⟩ := frees
  have handled := handles landed
  have current : m.seq.phase.current? = some w := current_of_release (by rw [aside.seq]; exact failing.phase)
  obtain ⟨n, _, failures, settings, turned, seq⟩ := freeWell_left handled.landed hq current
  have off := leaveSample_wentOffline (s := n) (failures.trans (by rw [aside.seq]; exact failing.failures)) reached
  rw [settings, handled.settings] at off
  exact off.turned turned.toTurned (by rw [seq])

theorem Frees.phase (frees : Frees w s t) (away : s.seq.phase.current? ≠ some w) : t.seq.phase = s.seq.phase := by
  obtain ⟨m, q, aside, _, hq, rfl⟩ := frees
  rw [freeWell_phase hq (by rw [aside.seq]; exact away), aside.seq]

theorem headTest_busy (busy : s.seq.phase ≠ .idle) : headTest s = s := by
  unfold headTest
  rw [if_neg]
  simp [State.headAllowed, busy]

/-- An enqueue outside IDLE takes no head. -/
theorem urgentEnqueue_busy {held : Bool} (busy : s.seq.phase ≠ .idle) : urgentEnqueue held w s = urgentEnqueue true w s := by
  have test (t : State) (phase : t.seq.phase = s.seq.phase) : (if held then t else headTest t) = t := by
    split
    · rfl
    · exact headTest_busy (by rw [phase]; exact busy)
  unfold urgentEnqueue
  dsimp only [if_true]
  split
  · rfl
  split
  · rfl
  split
  · rfl
  · exact test _ rfl
  · rfl
  · split
    · exact test _ rfl
    · split
      · exact test (placeInQueue .urgent w (evict _ s)) rfl
      · rfl

theorem reportFault_shut {k : FaultKind} {n : Nat} {d : Half} (shut : s.seq.phase.isOpen = false) :
    (reportFault k n d s).seq = s.seq := by
  rcases reportFault_aborts k n d s with same | ⟨x, opened, _⟩
  · exact same
  · cases shut.symm.trans opened.1

/-- Outside IDLE and an open sample an event that is no confirmation leaves the phase, unless it frees the well. -/
theorem takeHanded_busy {h : Handed} (course : Course v s (h :: later) u) (hq : u.record? v.well = some q)
    (busy : u.seq.phase ≠ .idle) (shut : u.seq.phase.isOpen = false) (other : ∀ b, h ≠ .confirm b) :
    Frees v.well u (takeHanded later v.well h u) ∨ (takeHanded later v.well h u).seq.phase = u.seq.phase := by
  have closed : ¬ u.SampleOpen v.well := fun opened => by cases shut.symm.trans opened.1
  have aside (moving : h.moving = true) : Frees v.well u (takeHanded later v.well h u) ∨
      (takeHanded later v.well h u).seq.phase = u.seq.phase :=
    (takeHanded_aside (later := later) moving u).imp id fun aside => by rw [aside.seq]
  cases h with
  | actuatorBlock | actuatorFall | autoPurge | feedback b => exact aside rfl
  | confirm b => exact absurd rfl (other b)
  | actuatorReport => exact .inr (congrArg (·.phase) (reportFault_shut shut))
  | capAbort => exact .inr (congrArg (·.seq.phase) (abortSampleOf_shut closed))
  | capEnqueue =>
    simp only [takeHanded, capEnqueue, hq]
    rw [urgentEnqueue_busy busy]
    exact .inr (urgentEnqueue_held v.well u).phase
  | isolate =>
    right
    rcases course.isolate_eq hq with ⟨_, sampled, e⟩ | ⟨_, e⟩
    · rw [e]
      obtain ⟨_, _, _, stays⟩ := (isolation_samples hq sampled).left
      exact stays closed
    · rw [e]

/-- A step beside the well in RELEASE leaves it there. -/
theorem Beside.failing (step : Beside w s t) (failing : Failing w f s) : Failing w f t := by
  have release := failing.phase
  refine ⟨?_, step.failures.trans failing.failures⟩
  cases step with
  | unseen _ phase _ _ =>
    rcases phase with same | elsewhere
    · exact same.trans release
    · exact absurd (current_of_release release) elsewhere.before
  | granted _ => exact release
  | evicted _ _ _ => exact release
  | blocked _ _ idle _ => cases idle.symm.trans release
  | selected _ _ idle _ => cases idle.symm.trans release
  | reported k n d _ =>
    rw [reportFault_shut (by rw [release]; rfl)]
    exact release

/-- The RELEASE with its end still to come, or OFFLINE. -/
def GoingOffline (v : Arrival) (f : FailureRun) (heard : Prop) (later : List Handed) (u : State) : Prop :=
  (Failing v.well f u ∧ .confirm v.valve ∈ later) ∨ WentOffline f heard u

theorem goingOffline_step {h : Handed} (off : v.valve = false) (reached : f.count = Config.offlineCount)
    (course : Course v s (h :: later) u)
    (before : GoingOffline v f (severityOf s.settings.severity .analyserOffline ≠ .ignored) (h :: later) u) :
    GoingOffline v f (severityOf s.settings.severity .analyserOffline ≠ .ignored) later (takeHanded later v.well h u) := by
  have handled := takeHanded_handles (v := v.well) later h u course.landed
  rcases before with ⟨failing, mem⟩ | went
  · have release := failing.phase
    cases hq : u.record? v.well with
    | none => exact absurd (current_of_release release) (course.gone hq).2.away
    | some q =>
      by_cases own : h = .confirm v.valve
      · subst own
        have e : takeHanded later v.well (.confirm v.valve) u = leaveSample (setQueued .no v.well u) := by
          simp [takeHanded, takeConfirmation, release, off]
        rw [e, ← course.settings]
        exact .inr (leaveSample_wentOffline (s := setQueued .no v.well u) failing.failures reached)
      · have other (b : Bool) : h ≠ .confirm b := fun e => own (by
          rw [e]
          exact congrArg _ (confirm_handed.1 (e ▸ course.handed h (List.mem_cons_self ..))))
        rcases takeHanded_busy course hq (by rw [release]; exact fun h => nomatch h) (by rw [release]; rfl) other with
          frees | phase
        · rw [← course.settings]
          exact .inr (frees.failing course.landed failing reached)
        · exact .inl ⟨⟨phase.trans release, handled.failures.trans failing.failures⟩, mem_passed own mem⟩
  · refine .inr (went.turned handled.toTurned ?_)
    have shut : u.seq.phase.isOpen = false := by rw [went.phase]; rfl
    cases hq : u.record? v.well with
    | none =>
      rcases takeHanded_gone (later := later) (course.gone hq).2 h with e | e
      · rw [e]
      · rw [e, reportFault_shut shut]
    | some q =>
      by_cases own : ∃ b, h = .confirm b
      · obtain ⟨b, rfl⟩ := own
        exact congrArg (·.seq.phase) (takeConfirmation_away b went.away)
      · rcases takeHanded_busy course hq (by rw [went.phase]; exact fun h => nomatch h) shut
          fun b e => own ⟨b, e⟩ with frees | phase
        · exact frees.phase went.away
        · exact phase

theorem goingOffline_leads (off : v.valve = false) (reached : f.count = Config.offlineCount) :
    Leads v s false (GoingOffline v f (severityOf s.settings.severity .analyserOffline ≠ .ignored))
      (WentOffline f (severityOf s.settings.severity .analyserOffline ≠ .ignored)) where
  turned x later t u _ other turned _ before := by
    have chain := turned.others v.well other.symm
    refine before.imp (And.imp_left fun failing => beside_holds (fun _ _ step => step.failing) chain failing) fun went =>
      went.turned turned ?_
    rw [went.phase]
    exact beside_holds (P := fun u => u.seq.phase = .offline 60 false) (fun _ _ step => step.offline) chain went.phase
  written later t u _ rested before := before.imp
    (And.imp_left fun failing => ⟨by rw [rested.seq]; exact failing.phase, by rw [rested.seq]; exact failing.failures⟩)
    fun went => ⟨by rw [rested.seq]; exact went.phase, rested.device 0 went.event, fun h => rested.reports _ _ _ (went.reports h)⟩
  step _ _ _ course _ before := goingOffline_step off reached course before
  ends t u rested before := by
    have went := before.resolve_left fun h => by simp at h
    exact ⟨by rw [rested.seq]; exact went.phase, rested.device 0 went.event, fun h => rested.reports _ _ _ (went.reports h)⟩

/-! ### The clauses together -/

/-- What every property that holds before gives after is what the sequencer leaves of the arrival. -/
theorem samplesAfter_of (stands : s.well? v.well = some v.slot) (fits : QueueFits v.well s)
    (settle : ∀ steady P Q, Leads v s steady P Q → (steady = true → t.device.state = s.device.state) →
      (∀ later, v.Full later → P later s) → Q t) : s.SamplesAfter t v := by
  have record : s.record? v.well = some v.slot.record := by rw [State.record?, stands]; rfl
  have released (release : s.seq.phase = .release v.well) : s.Unqueued v.well :=
    fits.unqueued (current_of_release release) record
  have loose {P Q} (leads : Leads v s false P Q) (start : ∀ later, v.Full later → P later s) : Q t :=
    settle false P Q leads (fun h => nomatch h) start
  refine ⟨fun cause current opened => ?_, fun isolates => ?_, fun isolates unqueued => ?_, fun release off => ⟨fun unfallen => ?_,
    fun f failures reached => ?_, fun below => ?_⟩, fun steady => ⟨fun fell sampled stays => ?_,
    fun select on unrisen stays stands => ?_⟩⟩
  · refine loose (aborting_claim cause).leads fun later full => .inl ⟨⟨opened, current⟩, fits.unqueued current record,
      fits.current current, ?_⟩
    exact cause.imp (fun rose => full _ (capAbort_handed.2 rose))
      fun isolates => ⟨isolates, full _ (isolate_handed.2 isolates.1)⟩
  · exact loose (clearing_claim isolates).leads fun later full => .inl (full _ (isolate_handed.2 isolates.1))
  · refine loose (abstaining_claim isolates).leads fun later full => ⟨fun current => ?_, shows_of_found record rfl,
      .inl ⟨fun e he own => ?_, shows_of_found record unqueued⟩⟩
    · cases unqueued.symm.trans (fits.current current _ record)
    · have cls := unqueued.symm.trans (fits.entry e he own _ record)
      exact (queued_of_class e.cls).1 cls.symm
  · exact loose (releasing_claim off unfallen).leads fun later full =>
      ⟨released release, .inl ⟨release, off ▸ full _ (confirm_handed.2 rfl)⟩⟩
  · have went := loose (goingOffline_leads off reached) fun later full =>
      .inl ⟨⟨release, failures⟩, full _ (confirm_handed.2 rfl)⟩
    exact ⟨went.phase, went.event, went.reports⟩
  · exact loose online_leads fun _ _ => ⟨below, by rw [release]; exact fun _ _ h => nomatch h⟩
  · exact settle true _ _ (seeking_claim fell sampled stays).leads (fun _ => steady) fun later full =>
      .inl ⟨full _ (capEnqueue_handed.2 fell), fits⟩
  · have current : s.seq.phase.current? = some v.well := by rw [select]; rfl
    exact settle true _ _ (purging_claim on unrisen stays).leads (fun _ => steady) (fun later full =>
      .inr ⟨fits.unqueued current record, fits.current current, .inl ⟨select, on ▸ full _ (confirm_handed.2 rfl)⟩⟩) stands

end Sys2Proof.Machine
end

