-- ==== Sys2Proof/Proofs/RoundEnds.lean ====
section
/-! SUPPORT. What the end of a transaction leaves of the blocks and of the slots: a round that ends in the same step adds
input event kinds that level detection selects, and nothing else (R52, R53, R74). -/

namespace Sys2Proof.Machine

variable {s t u : State} {w : Well} {a : Nat}

/-- Every slot stands with event kinds added that level detection selects in it; the stations stand. -/
structure Detected (s t : State) : Prop where
  stations : t.scan.stations = s.scan.stations
  found    : ∀ w x, s.well? w = some x → ∃ y kinds, t.well? w = some y ∧ KindsAdded kinds x y ∧
    ∀ i, kinds i → s.Detects x i
  gone     : ∀ w, s.well? w = none → t.well? w = none

theorem detected_of_slots (slots : t.slots = s.slots) (stations : t.scan.stations = s.scan.stations) :
    Detected s t where
  stations := stations
  found w x hx := ⟨x, fun _ => False, by rw [well?_congr slots, hx], ⟨rfl, by simp⟩, fun _ h => h.elim⟩
  gone w hw := by rw [well?_congr slots, hw]

/-- What level detection selects in a slot depends on the stations alone, and on no event kind. -/
theorem KindsAdded.detects_back {kinds : Nat → Prop} {x y : Slot} (h : KindsAdded kinds x y)
    (stations : t.scan.stations = s.scan.stations) {i : Nat} (detects : t.Detects y i) : s.Detects x i := by
  have pending (a c : Nat) : t.baselinePending a c = s.baselinePending a c := by
    simp only [State.baselinePending, State.station?, stations]
  rw [h.same] at detects
  simpa only [State.Detects, State.levelsRead, pending] using detects

theorem Detected.trans (a : Detected s t) (b : Detected t u) : Detected s u where
  stations := b.stations.trans a.stations
  found w x hx := by
    obtain ⟨y, k, hy, first, inS⟩ := a.found w x hx
    obtain ⟨z, l, hz, second, inT⟩ := b.found w y hy
    refine ⟨z, fun i => k i ∨ l i, hz, ⟨by rw [second.same, first.same], fun i => ?_⟩, fun i h => ?_⟩
    · rw [second.events, first.events, or_assoc]
    · exact h.elim (inS i) fun h => first.detects_back a.stations (inT i h)
  gone w hw := b.gone w (a.gone w hw)

theorem levelDetection_detected (s : State) : Detected s (levelDetection s) := by
  by_cases standby : s.device.state = .standby
  · rw [levelDetection_standby standby]
    exact detected_of_slots rfl rfl
  · obtain ⟨_, gone, found⟩ := levelDetection_detects standby _ rfl
    exact ⟨by rw [(levelDetection_calm s).scan], fun w x hx => (found w x hx).imp fun y h => ⟨_, h.1, h.2, fun _ => id⟩,
      gone⟩

theorem finishRound_detected (s : State) : Detected s (finishRound s) := by
  have idle : Detected s { s with scan := { s.scan with inFlight := none, round := .idle } } :=
    detected_of_slots rfl rfl
  exact (idle.trans (levelDetection_detected _)).trans
    (detected_of_slots (blendRoundEnd_slots _) (congrArg (·.stations) (blendRoundEnd_scan _)))

theorem beginRound_detected (s : State) : Detected s (beginRound s) := by
  unfold beginRound
  split
  · exact finishRound_detected s
  · exact detected_of_slots rfl rfl

/-- Event kinds are added where the round has ended, and the slots stand where it goes on. -/
theorem visitNext_detected (round : s.scan.round = .running (some a)) : Detected s (visitNext s) ∧
    ((∀ x ∈ s.scan.stations, x.address ≤ a) ∨ (visitNext s).slots = s.slots) := by
  cases next : s.nextStation? (some a) with
  | some x =>
    rw [visitNext_above round next]
    exact ⟨detected_of_slots rfl rfl, .inr rfl⟩
  | none =>
    refine ⟨?_, .inl fun x hx => ?_⟩
    · rw [visitNext_over round next]
      split
      · exact finishRound_detected s
      · exact (finishRound_detected s).trans (beginRound_detected _)
    · rw [State.nextStation?, List.find?_eq_none] at next
      simpa using next x hx

/-- The inputs have the lowest four bits of EVENTS (R179). -/
theorem inputEvent_low {k : Input} {i : Nat} (bit : k.event.bit.getLsbD i = true) : i < 4 := by
  rw [(inputEvent_bit k i).1 bit]
  cases k <;> decide

/-- Level detection sets input event kinds alone (R74). -/
theorem State.Detects.low {x : Slot} {i : Nat} (detects : s.Detects x i) : i < 4 := by
  obtain ⟨_, _, _, _, _, bit⟩ := detects
  exact inputEvent_low bit

theorem Detected.read (detected : Detected s t) {q : WellRecord} (hq : t.record? w = some q) :
    ∃ r, s.record? w = some r ∧ Rest r q := by
  obtain ⟨y, hy, rfl⟩ := Option.map_eq_some_iff.1 hq
  cases hx : s.well? w with
  | none => rw [detected.gone w hx] at hy; cases hy
  | some x =>
    obtain ⟨z, kinds, hz, added, detects⟩ := detected.found w x hx
    cases hy.symm.trans hz
    refine ⟨x.record, by rw [State.record?, hx]; rfl, ?_⟩
    refine ⟨by rw [added.same], by rw [added.same], by rw [added.same], by rw [added.same], fun i high => ?_⟩
    rw [Bool.eq_iff_iff, added.events]
    exact or_iff_left fun h => absurd (detects i h).low (by omega)

theorem visitNext_rested (round : s.scan.round = .running (some a)) (w : Well) : Rested w s (visitNext s) where
  seq := (visitNext_apart s).seq
  moves := (visitNext_apart s).moves
  state := (visitNext_apart s).state
  device := (visitNext_keeps s).events
  reports k n d h := by rw [State.Reported, (visitNext_apart s).faults]; exact h
  read _ hq := (visitNext_detected round).1.read hq

end Sys2Proof.Machine
end

