-- ==== Sys2Proof/Proofs/ArrivalEntered.lean ====
section
/-! SUPPORT. The event unit's part of an arrival: the readings and levels written, the debounce runs, the event kinds of the
changes, and the baseline taken; then the blocks take the events of the arrival in some order (R60, R69 to R73). -/

namespace Sys2Proof.Machine

variable {s t u : State} {v : Arrival} {a : Nat} {due : Bool} {y z : Slot} {c : ChannelReading}

/-- The arrival is a baseline, and its levels are, as the channel's flag `due` says (R62, R69, R70). -/
structure Arrival.Levels (v : Arrival) (due : Bool) : Prop where
  baseline : v.baseline = true ↔ due = true ∨ v.slot.record.inputs = none
  after    : v.after = arrivedInputs due v.slot v.reading.raw
  before   : v.before = if v.baseline then v.after else v.slot.record.inputs.getD v.after

/-- The event kind of bit `i` is one that a change of the arrival sets (R71). -/
def Arrival.Kind (v : Arrival) (i : Nat) : Prop :=
  ∃ k ∈ inputsInOrder, changeSelected v.slot.record.detect v.before v.after k = true ∧ k.event.bit.getLsbD i = true

/-- The baseline of the channel is not pending. -/
def State.ClearedAt (s : State) (a channel : Nat) : Prop :=
  ∀ x ∈ s.scan.stations, x.address = a → ∀ c ∈ x.channels, c.channel = channel → c.baselinePending = false

/-- The slot `z` is `y` as the event unit leaves it. -/
structure Recorded (v : Arrival) (due : Bool) (y z : Slot) : Prop where
  place  : z.address = y.address ∧ z.channel = y.channel
  record : z.record = { y.record.withReadings v.reading with inputs := some v.after, events := z.record.events }
  events : ∀ i, z.record.events.getLsbD i = true ↔ y.record.events.getLsbD i = true ∨ v.Kind i
  runs   : z.runs = arrivedRuns due v.slot v.reading.raw

/-- The slot `y` is that of the arrival in all that the event unit reads. -/
structure SameLevels (x y : Slot) : Prop where
  inputs   : y.record.inputs = x.record.inputs
  debounce : y.record.debounce = x.record.debounce
  detect   : y.record.detect = x.record.detect
  runs     : y.runs = x.runs

/-- From `s` to `t` the event unit has taken its part of the arrival. -/
structure LevelsTaken (v : Arrival) (a : Nat) (due : Bool) (s t : State) : Prop where
  turned   : s.Landed → Turned v.well s t
  rested   : Rested v.well s t
  recorded : ∀ y, s.well? v.well = some y → ∃ z, t.well? v.well = some z ∧ Recorded v due y z
  cleared  : t.ClearedAt a v.reading.channel

/-! ### The levels -/

theorem arrived_debounced {x : Slot} {raw before : PerInput Level} (levels : x.record.inputs = some before) :
    arrivedInputs false x raw = (debounceAll x.record.debounce raw before x.runs).1 ∧
    arrivedRuns false x raw = (debounceAll x.record.debounce raw before x.runs).2 := by
  unfold arrivedInputs arrivedRuns arrivedInput
  rw [levels]
  exact ⟨rfl, rfl⟩

theorem arrived_raw {x : Slot} {raw : PerInput Level} (baseline : due = true ∨ x.record.inputs = none) :
    arrivedInputs due x raw = raw ∧ arrivedRuns due x raw = noRuns := by
  unfold arrivedInputs arrivedRuns arrivedInput
  rcases baseline with rfl | absent
  · cases x.record.inputs <;> exact ⟨rfl, rfl⟩
  · rw [absent]
    exact ⟨rfl, rfl⟩

/-- A baseline changes no level (R69). -/
theorem Arrival.Levels.calm (levels : v.Levels due) (baseline : v.baseline = true) : v.before = v.after := by
  rw [levels.before, if_pos baseline]

theorem changeActions_same (p : PerInput Level) : changeActions p p = [] := by
  have rises (i : Input) : rose p p i = false := by
    cases h : inputValue p i <;> simp [rose, h]
  have falls (i : Input) : fell p p i = false := by
    cases h : inputValue p i <;> simp [fell, h]
  simp [changeActions, rises, falls]

theorem Arrival.Levels.handed_baseline (levels : v.Levels due) (baseline : v.baseline = true) :
    v.handed = [.feedback true, .confirm v.valve] := by
  rw [Arrival.handed, levels.calm baseline, changeActions_same, baseline]
  rfl

theorem changeSelected_same (detect : BitVec 16) (p : PerInput Level) (i : Input) :
    changeSelected detect p p i = false := by
  cases h : inputValue p i <;> simp [changeSelected, rose, fell, h]

theorem Arrival.Kind.low {i : Nat} (kind : v.Kind i) : i < 4 := by
  obtain ⟨_, _, _, bit⟩ := kind
  exact inputEvent_low bit

theorem input_of_index : ∀ {j k : Input}, k.index = j.index → j = k := by
  intro j k
  cases j <;> cases k <;> decide

/-- A change that DETECT selects sets its kind (R71). -/
theorem Arrival.kind_iff {i : Nat} {f : PerInput Level → Level}
    (place : (i, f) ∈ [(0, PerInput.button), (1, PerInput.cap), (2, PerInput.actuator), (3, PerInput.liquid)]) :
    v.Kind i ↔ v.Rose f ∧ v.slot.record.detect.getLsbD (4 * i) = true ∨
      v.Fell f ∧ v.slot.record.detect.getLsbD (4 * i + 1) = true := by
  have one (k : Input) : changeSelected v.slot.record.detect v.before v.after k = true ↔
      v.Rose (inputValue · k) ∧ v.slot.record.detect.getLsbD (4 * k.index) = true ∨
      v.Fell (inputValue · k) ∧ v.slot.record.detect.getLsbD (4 * k.index + 1) = true := by
    rw [changeSelected, Bool.or_eq_true, Bool.and_eq_true, Bool.and_eq_true, rose_iff, fell_iff]
    rfl
  have only (k : Input) (here : i = k.index) : v.Kind i ↔
      changeSelected v.slot.record.detect v.before v.after k = true := by
    simp only [Arrival.Kind, inputEvent_bit, here]
    constructor
    · rintro ⟨j, _, selected, same⟩
      exact input_of_index same ▸ selected
    · exact fun selected => ⟨k, by cases k <;> simp [inputsInOrder], selected, rfl⟩
  simp only [List.mem_cons, Prod.mk.injEq, List.not_mem_nil, or_false] at place
  rcases place with ⟨rfl, rfl⟩ | ⟨rfl, rfl⟩ | ⟨rfl, rfl⟩ | ⟨rfl, rfl⟩
  · exact (only .button rfl).trans (one .button)
  · exact (only .cap rfl).trans (one .cap)
  · exact (only .actuator rfl).trans (one .actuator)
  · exact (only .liquid rfl).trans (one .liquid)

/-! ### What the event unit writes -/

/-- The readings, the levels and the runs written, before any event kind is set. -/
def levelsWritten (v : Arrival) (due : Bool) (s : State) : State :=
  setRuns (arrivedRuns due v.slot v.reading.raw) v.well
    (setInputs v.after v.well (writeRecord (WellRecord.withReadings v.reading) v.well s))

theorem well?_levelsWritten (v : Arrival) (due : Bool) (s : State) : (levelsWritten v due s).well? v.well =
    (s.well? v.well).map fun y =>
      { y with record := { y.record.withReadings v.reading with inputs := some v.after }, intact := true,
               runs := arrivedRuns due v.slot v.reading.raw } := by
  unfold levelsWritten setRuns setInputs
  rw [well?_changeSlot (f := fun x => { x with runs := arrivedRuns due v.slot v.reading.raw }) (fun _ => rfl), if_pos rfl,
    well?_writeRecord, if_pos rfl, well?_writeRecord, if_pos rfl, Option.map_map, Option.map_map]
  rfl

theorem levelsWritten_found (hy : s.well? v.well = some y) : (levelsWritten v due s).well? v.well =
    some { y with record := { y.record.withReadings v.reading with inputs := some v.after }, intact := true,
                  runs := arrivedRuns due v.slot v.reading.raw } := by
  rw [well?_levelsWritten, hy]
  rfl

theorem levelsWritten_gone (hy : s.well? v.well = none) : (levelsWritten v due s).well? v.well = none := by
  rw [well?_levelsWritten, hy]
  rfl

theorem Recorded.rest (recorded : Recorded v due y z) : Rest y.record z.record where
  queued := by rw [recorded.record]; rfl
  outcome := by rw [recorded.record]; rfl
  moveOutcome := by rw [recorded.record]; rfl
  surveyDue := by rw [recorded.record]; rfl
  event i high := by
    rw [Bool.eq_iff_iff, recorded.events]
    exact or_iff_left fun kind => absurd kind.low (by omega)

/-- What the event unit records of the well is read of it at rest. -/
theorem rested_of_recorded (apart : Apart s t) (device : ∀ i, s.device.events.getLsbD i = true →
    t.device.events.getLsbD i = true) (gone : s.well? v.well = none → t.well? v.well = none)
    (recorded : ∀ y, s.well? v.well = some y → ∃ z, t.well? v.well = some z ∧ Recorded v due y z) :
    Rested v.well s t where
  seq := apart.seq
  moves := apart.moves
  state := apart.state
  device := device
  reports k n d h := by rw [State.Reported, apart.faults]; exact h
  read q hq := by
    obtain ⟨z, hz, rfl⟩ := Option.map_eq_some_iff.1 hq
    cases hy : s.well? v.well with
    | none => rw [gone hy] at hz; cases hz
    | some y =>
      obtain ⟨x, hx, own⟩ := recorded y hy
      cases hz.symm.trans hx
      exact ⟨y.record, by rw [State.record?, hy]; rfl, own.rest⟩

theorem levelsWritten_turns (v : Arrival) (due : Bool) (s : State) : Turns v.well s (levelsWritten v due s) :=
  ((write_turns (f := WellRecord.withReadings v.reading)
    (writeRecord_plain (fun _ => rfl) (fun _ => ⟨rfl, rfl, rfl⟩) fun _ h => h)).trans
    (write_turns (f := fun r => { r with inputs := some v.after }) (setInputs_calm v.after v.well _))).trans
    (setRuns_turns _ _)

/-- A baseline takes the raw levels, ends the runs, sets no event kind, and is no longer pending (R62, R69). -/
theorem takeBaseline_entered (levels : v.Levels due) (baseline : v.baseline = true) (s : State) :
    LevelsTaken v a due s (takeBaseline a v.reading v.well (writeRecord (WellRecord.withReadings v.reading) v.well s)) := by
  obtain ⟨raw, runs⟩ := arrived_raw (raw := v.reading.raw) (levels.baseline.1 baseline)
  have written : takeBaseline a v.reading v.well (writeRecord (WellRecord.withReadings v.reading) v.well s) =
      clearBaseline a v.reading.channel (levelsWritten v due s) := by
    rw [levelsWritten, levels.after, raw, runs]
    rfl
  have none (i : Nat) : ¬ v.Kind i := by
    rintro ⟨k, _, selected, _⟩
    rw [levels.calm baseline, changeSelected_same] at selected
    cases selected
  have recorded (y : Slot) (hy : s.well? v.well = some y) : ∃ z,
      (clearBaseline a v.reading.channel (levelsWritten v due s)).well? v.well = some z ∧ Recorded v due y z :=
    ⟨_, levelsWritten_found hy, ⟨rfl, rfl⟩, rfl, fun i => (or_iff_left (none i)).symm, rfl⟩
  rw [written]
  refine ⟨(levelsWritten_turns v due s).trans (changeStation_turns _ a _),
    rested_of_recorded ⟨rfl, rfl, rfl, rfl, rfl⟩ (fun _ => id) levelsWritten_gone recorded, recorded, ?_⟩
  intro x hx own d hd channel
  obtain ⟨st, _, rfl⟩ := List.mem_map.1 hx
  split at hd
  · obtain ⟨e, _, rfl⟩ := List.mem_map.1 hd
    by_cases here : e.channel = v.reading.channel
    · rw [if_pos here]
    · rw [if_neg here] at channel
      contradiction
  · rename_i other
    rw [if_neg other] at own
    exact absurd own other

/-- Other levels are debounced, and the changes that DETECT selects set their kinds (R70, R71). -/
theorem takeLevels_entered {before : PerInput Level} (levels : v.Levels false) (same : SameLevels v.slot y)
    (stands : v.slot.record.inputs = some before) (cleared : s.ClearedAt a v.reading.channel) :
    LevelsTaken v a false s (takeLevels v.reading before y v.well
      (writeRecord (WellRecord.withReadings v.reading) v.well s)) := by
  have fresh : ¬ v.baseline = true := fun h => by
    rcases levels.baseline.1 h with h | absent
    · cases h
    · rw [stands] at absent
      cases absent
  have old : v.before = before := by rw [levels.before, if_neg fresh, stands]; rfl
  obtain ⟨inputs, runs⟩ := arrived_debounced (raw := v.reading.raw) stands
  have written : takeLevels v.reading before y v.well (writeRecord (WellRecord.withReadings v.reading) v.well s) =
      setEdgeEvents v.slot.record.detect v.before v.after v.well (levelsWritten v false s) := by
    rw [levelsWritten, levels.after, inputs, runs, old, ← same.debounce, ← same.runs, ← same.detect]
    rfl
  have kinds := setInputEvents_kinds (changeSelected v.slot.record.detect v.before v.after) v.well inputsInOrder
    (levelsWritten v false s)
  have recorded (y : Slot) (hy : s.well? v.well = some y) : ∃ z,
      (setEdgeEvents v.slot.record.detect v.before v.after v.well (levelsWritten v false s)).well? v.well = some z ∧
        Recorded v false y z := by
    obtain ⟨z, hz, added⟩ := kinds.found v.well _ (levelsWritten_found hy)
    refine ⟨z, hz, ⟨by rw [added.same], by rw [added.same]⟩, by rw [added.same], fun i => ?_, by rw [added.same]⟩
    rw [added.events]
    exact or_congr_right (and_iff_right rfl)
  have edges : Apart (levelsWritten v false s)
      (setEdgeEvents v.slot.record.detect v.before v.after v.well (levelsWritten v false s)) := by
    refine foldl_apart (fun t i => ?_) inputsInOrder _
    split
    · exact setWellEvent_apart _ _ t
    · exact .refl t
  have device : ∀ i, s.device.events.getLsbD i = true →
      (setEdgeEvents v.slot.record.detect v.before v.after v.well (levelsWritten v false s)).device.events.getLsbD i =
        true := by
    refine fun i h =>
      List.foldlRecOn (motive := fun t : State => t.device.events.getLsbD i = true) _ _ h fun t stands k _ => ?_
    split
    · rw [setWellEvent_device]
      exact stands
    · exact stands
  rw [written]
  refine ⟨(levelsWritten_turns v false s).trans (setEdgeEvents_turns _ _ _ _),
    rested_of_recorded (Apart.trans (t := levelsWritten v false s) ⟨rfl, rfl, rfl, rfl, rfl⟩ edges) device
      (fun hy => kinds.gone _ (levelsWritten_gone hy)) recorded, recorded, ?_⟩
  have stations := (setEdgeEvents_rooted v.slot.record.detect v.before v.after v.well (levelsWritten v false s)).stations
  rw [State.ClearedAt, stations]
  exact cleared

/-! ### The turn of the channel -/

theorem clearedAt_iff (s : State) (a k : Nat) : s.BaselineDue a k = false ↔ s.ClearedAt a k := by
  simp [State.ClearedAt]

/-- At its turn an intact record takes the event unit's part of its arrival, and then the events of the arrival in some
order (R60, R73). -/
theorem takeChannel_enters {p : PollChannel} {order : List Nat} (well : p.well = v.well)
    (valve : p.outputs.sampleValve = v.valve) (levels : v.Levels due) (ordered : s.StationsOrdered)
    (hy : s.well? v.well = some y) (intact : y.intact = true) (same : SameLevels v.slot y)
    (flag : v.slot.record.inputs ≠ none → s.BaselineDue a v.reading.channel = due) :
    ∃ hs t, hs.Perm v.handed ∧ takeChannel a p v.reading order s = takeAllHanded v.well hs t ∧ LevelsTaken v a due s t := by
  have turn : takeChannel a p v.reading order s =
      takeArrival a p v.reading order y (writeRecord (WellRecord.withReadings v.reading) v.well s) := by
    unfold takeChannel
    rw [well, hy]
    simp only [intact, if_true]
  have baseline (taken : v.baseline = true) : ∃ hs t, hs.Perm v.handed ∧
      takeAllHanded p.well (reorder order [.feedback true, .confirm p.outputs.sampleValve])
        (takeBaseline a v.reading p.well (writeRecord (WellRecord.withReadings v.reading) v.well s)) =
        takeAllHanded v.well hs t ∧ LevelsTaken v a due s t :=
    ⟨reorder order [.feedback true, .confirm p.outputs.sampleValve], _, by
      rw [levels.handed_baseline taken, valve]
      exact reorder_perm _ _, by rw [well], takeBaseline_entered levels taken s⟩
  rw [turn, takeArrival, same.inputs]
  cases stands : v.slot.record.inputs with
  | none => exact baseline (levels.baseline.2 (.inr stands))
  | some before =>
    have pending : (writeRecord (WellRecord.withReadings v.reading) v.well s).baselinePending a v.reading.channel = due := by
      show s.baselinePending a v.reading.channel = due
      rw [baselinePending_eq ordered]
      exact flag (by rw [stands]; exact fun h => nomatch h)
    dsimp only
    rw [pending]
    cases due with
    | true => exact baseline (levels.baseline.2 (.inl rfl))
    | false =>
      have fresh : v.baseline = false := by
        rw [Bool.eq_false_iff]
        intro h
        rcases levels.baseline.1 h with h | absent
        · cases h
        · rw [stands] at absent
          cases absent
      have handed : v.handed = changeActions before (debounceAll y.record.debounce v.reading.raw before y.runs).1 ++
          [.feedback false, .confirm p.outputs.sampleValve] := by
        rw [Arrival.handed, levels.before, fresh, stands, levels.after, (arrived_debounced stands).1, same.debounce,
          same.runs, valve]
        rfl
      refine ⟨_, _, ?_, by rw [well]; rfl, takeLevels_entered levels same stands ?_⟩
      · rw [handed]
        exact reorder_perm order _
      · exact (clearedAt_iff s a _).1 (flag (by rw [stands]; exact fun h => nomatch h))

end Sys2Proof.Machine
end

