-- ==== Sys2Proof/Proofs/ChannelTurns.lean ====
section
/-! SUPPORT. The channels of a reply take their readings one after the other: the turn of one channel stands between those of
the others, and what these leave of its well and of its baseline flag (R60, R62). -/

namespace Sys2Proof.Machine

variable {s t u : State} {w : Well} {a k : Nat} {P : PollChannel × ChannelReading → Prop} {K L : Nat → Prop}

/-! ### The order of the channels -/

/-- Channels that `P` chooses take their readings, one after the other. -/
def Taking (a : Nat) (P : PollChannel × ChannelReading → Prop) : State → State → Prop :=
  Relation.ReflTransGen fun t u => ∃ x order, P x ∧ u = takeChannel a x.1 x.2 order t

theorem Taking.mono {Q : PollChannel × ChannelReading → Prop} (h : Taking a P s t) (wider : ∀ x, P x → Q x) :
    Taking a Q s t :=
  Relation.ReflTransGen.mono (fun _ _ ⟨x, order, chosen, e⟩ => ⟨x, order, wider x chosen, e⟩) _ _ h

theorem takeChannels_taking (ps : List PollChannel) (cs : List ChannelReading) (orders : List (List Nat)) (s : State) :
    Taking a (· ∈ ps.zip cs) s (takeChannels a ps cs orders s) := by
  induction ps generalizing cs orders s with
  | nil => exact .refl
  | cons p ps ih =>
    cases cs with
    | nil => exact .refl
    | cons c cs =>
      exact .head ⟨(p, c), _, List.mem_cons_self .., rfl⟩
        ((ih cs orders.tail _).mono fun x mem => List.mem_cons_of_mem _ mem)

/-- Two channels of a reply are of two wells, at two places of the map (R46, R49). -/
abbrev ApartFrom (x y : PollChannel × ChannelReading) : Prop := x.1.well ≠ y.1.well ∧ x.2.channel ≠ y.2.channel

/-- The turn of a channel stands between those of the others; that of the first channel is the first. -/
theorem takeChannels_turn {ps : List PollChannel} {cs : List ChannelReading} {x : PollChannel × ChannelReading}
    (distinct : (ps.zip cs).Pairwise ApartFrom) (mem : x ∈ ps.zip cs) (orders : List (List Nat)) (s : State) :
    ∃ u order, Taking a (ApartFrom · x) s u ∧
      Taking a (ApartFrom · x) (takeChannel a x.1 x.2 order u) (takeChannels a ps cs orders s) ∧
      (ps.head? = some x.1 → u = s) := by
  induction ps generalizing cs orders s with
  | nil => cases mem
  | cons p ps ih =>
    cases cs with
    | nil => cases mem
    | cons c cs =>
      obtain ⟨first, rest⟩ := List.pairwise_cons.1 distinct
      rcases List.mem_cons.1 mem with rfl | mem
      · refine ⟨s, orders.headD [], .refl, ?_, fun _ => rfl⟩
        exact (takeChannels_taking ps cs orders.tail _).mono fun y hy => ⟨Ne.symm (first y hy).1, Ne.symm (first y hy).2⟩
      · obtain ⟨u, order, before, after, _⟩ := ih rest mem orders.tail (takeChannel a p c (orders.headD []) s)
        refine ⟨u, order, .head ⟨(p, c), _, first x mem, rfl⟩ before, after, fun head => ?_⟩
        exact absurd (congrArg PollChannel.well (Option.some.inj head)) (first x mem).1

/-! ### What the other channels leave -/

/-- The operations are on other wells, one after the other. -/
def OthersTurned (w : Well) : State → State → Prop := Relation.ReflTransGen fun t u => ∃ x, x ≠ w ∧ Turned x t u

/-- What the turns of other channels leave of the part and of the well. -/
structure Passed (w : Well) (s t : State) : Prop where
  landed   : t.Landed
  settings : t.settings = s.settings
  failures : t.seq.failures = s.seq.failures
  index    : ∀ e ∈ t.index, e ∈ s.index
  state    : t.device.state = s.device.state ∨
    t.device.state = .safe ∧ ∃ k, severityOf s.settings.severity k = .fatal
  reports  : ∀ k n d, s.Reported k n d → t.Reported k n d
  beside   : Relation.ReflTransGen (Beside w) s t

theorem OthersTurned.passed (turned : OthersTurned w s t) (landed : s.Landed) : Passed w s t := by
  induction turned with
  | refl => exact ⟨landed, rfl, rfl, fun _ => id, .inl rfl, fun _ _ _ => id, .refl⟩
  | tail _ last ih =>
    obtain ⟨x, other, last⟩ := last
    refine ⟨last.landed, last.settings.trans ih.settings, last.failures.trans ih.failures,
      fun e he => ih.index e (last.index e he), ?_, fun k n d h => last.reports k n d (ih.reports k n d h),
      ih.beside.trans (last.others w (Ne.symm other))⟩
    rcases last.state with same | ⟨safe, fatal⟩
    · rw [same]
      exact ih.state
    · exact .inr ⟨safe, by rw [← ih.settings]; exact fatal⟩

theorem Taking.turned (taking : Taking a P s t) (landed : s.Landed) (others : ∀ x, P x → x.1.well ≠ w) :
    OthersTurned w s t := by
  have all : t.Landed ∧ OthersTurned w s t := by
    induction taking with
    | refl => exact ⟨landed, .refl⟩
    | tail _ last ih =>
      obtain ⟨x, order, chosen, rfl⟩ := last
      have turned := takeChannel_turns a x.1 x.2 order _ ih.1
      exact ⟨turned.landed, .tail ih.2 ⟨_, others x chosen, turned⟩⟩
  exact all.2

/-- What holds of every turn and goes on from one to the next holds of the whole reply. -/
theorem Taking.related {R : State → State → Prop} (refl : ∀ s, R s s) (trans : ∀ {s t u}, R s t → R t u → R s u)
    (each : ∀ x order t, P x → t.Landed → R t (takeChannel a x.1 x.2 order t))
    (taking : Taking a P s t) (landed : s.Landed) : t.Landed ∧ R s t := by
  induction taking with
  | refl => exact ⟨landed, refl s⟩
  | tail _ last ih =>
    obtain ⟨x, order, chosen, rfl⟩ := last
    exact ⟨(takeChannel_turns a x.1 x.2 order _ ih.1).landed, trans ih.2 (each x order _ chosen ih.1)⟩

/-! ### The baseline flags -/

/-- No channel joins a map and no baseline becomes pending; those of the channels in `K` stand as they stood. -/
def Flags (K : Nat → Prop) (s t : State) : Prop :=
  ∀ y ∈ t.scan.stations, ∃ x ∈ s.scan.stations, y.address = x.address ∧
    ∀ d ∈ y.channels, ∃ c ∈ x.channels, d.channel = c.channel ∧
      (d.baselinePending = true → c.baselinePending = true) ∧
      (K d.channel → d.baselinePending = c.baselinePending)

theorem Flags.trans (first : Flags K s t) (second : Flags K t u) : Flags K s u := by
  intro z hz
  obtain ⟨y, hy, own', flags'⟩ := second z hz
  obtain ⟨x, hx, own, flags⟩ := first y hy
  refine ⟨x, hx, own'.trans own, fun e he => ?_⟩
  obtain ⟨d, hd, same', falls', kept'⟩ := flags' e he
  obtain ⟨c, hc, same, falls, kept⟩ := flags d hd
  exact ⟨c, hc, same'.trans same, falls ∘ falls', fun h => (kept' h).trans (kept (same' ▸ h))⟩

theorem flags_of_stations (stations : t.scan.stations = s.scan.stations) : Flags K s t := fun y hy =>
  ⟨y, stations ▸ hy, rfl, fun d hd => ⟨d, hd, rfl, id, fun _ => rfl⟩⟩

theorem Handled.flags {x : Well} (handled : Handled x s t) : Flags K s t := fun y hy => by
  obtain ⟨x, hx, own, channels⟩ := handled.stations y hy
  exact ⟨x, hx, own, fun d hd => ⟨d, channels d hd, rfl, id, fun _ => rfl⟩⟩

theorem clearBaseline_flags (spared : ¬ K k) (s : State) : Flags K s (clearBaseline a k s) := by
  intro y hy
  obtain ⟨x, hx, rfl⟩ := List.mem_map.1 hy
  refine ⟨x, hx, by split <;> rfl, fun d hd => ?_⟩
  split at hd
  · obtain ⟨c, hc, rfl⟩ := List.mem_map.1 hd
    refine ⟨c, hc, by split <;> rfl, fun h => ?_, fun h => ?_⟩
    · split at h
      · cases h
      · exact h
    · split
      · rename_i here
        rw [if_pos here] at h
        exact absurd (here ▸ h) spared
      · rfl
  · exact ⟨d, hd, rfl, id, fun _ => rfl⟩

/-- The turn of a channel clears no other channel's flag (R62). -/
theorem takeChannel_flags {p : PollChannel} {c : ChannelReading} (spared : ¬ K c.channel) (order : List Nat)
    (landed : s.Landed) : Flags K s (takeChannel a p c order s) := by
  have blocks (t : State) (hs : List Handed) (landed : t.Landed) : Flags K t (takeAllHanded p.well hs t) :=
    (takeAllHanded_handles (v := p.well) hs t landed).flags
  have baseline (t : State) (hs : List Handed) (landed : t.Landed) :
      Flags K t (takeAllHanded p.well hs (takeBaseline a c p.well t)) :=
    Flags.trans (t := takeBaseline a c p.well t)
      (Flags.trans (t := setRuns noRuns p.well (setInputs c.raw p.well t)) (flags_of_stations rfl)
        (clearBaseline_flags spared _))
      (blocks _ hs (takeBaseline_turns (v := p.well) a c t landed).landed)
  unfold takeChannel
  split
  · exact flags_of_stations rfl
  split
  · have written : (writeRecord (WellRecord.withReadings c) p.well s).Landed := (write_turns (v := p.well)
      (f := WellRecord.withReadings c) (s := s)
      (writeRecord_plain (fun _ => rfl) (fun _ => ⟨rfl, rfl, rfl⟩) fun _ h => h) landed).landed
    refine Flags.trans (t := writeRecord (WellRecord.withReadings c) p.well s) (flags_of_stations rfl) ?_
    unfold takeArrival
    split
    · exact baseline _ _ written
    · split
      · exact baseline _ _ written
      · exact (flags_of_stations (takeLevels_rooted c _ _ p.well _).stations).trans
          (blocks _ _ (takeLevels_turns (v := p.well) c _ _ _ written).landed)
  · exact (freeDamaged_handles (v := p.well) s landed).flags

theorem Taking.flags (taking : Taking a P s t) (landed : s.Landed) (spared : ∀ x, P x → ¬ K x.2.channel) :
    Flags K s t :=
  (taking.related (R := Flags K) (fun _ => flags_of_stations rfl) Flags.trans
    (fun x order _ chosen landed => takeChannel_flags (spared x chosen) order landed) landed).2

/-- In a legal station table a channel stands in one place, so that its flag is the one that is read. -/
theorem baselineDue_eq (legal : s.StationsLegal) {x : StationRecord} {c : StationChannel}
    (hx : x ∈ s.scan.stations) (hc : c ∈ x.channels) : s.BaselineDue x.address c.channel = c.baselinePending := by
  obtain ⟨_, ordered, _, _, each⟩ := legal
  obtain ⟨_, ascending, _⟩ := each x hx
  rw [Bool.eq_iff_iff]
  simp only [List.any_eq_true, Bool.and_eq_true, decide_eq_true_eq]
  constructor
  · rintro ⟨y, hy, own, d, hd, channel, pending⟩
    have found := station?_eq ordered hy
    rw [own, station?_eq ordered hx] at found
    cases found
    have distinct : (x.channels.map fun c => c.channel).Nodup := List.pairwise_map.2 (ascending.imp Nat.ne_of_lt)
    exact List.inj_on_of_nodup_map distinct hd hc channel ▸ pending
  · exact fun pending => ⟨x, hx, rfl, c, hc, rfl, pending⟩

theorem Flags.pending (flags : Flags K s t) (legal : s.StationsLegal) {y : StationRecord} {d : StationChannel}
    (hy : y ∈ t.scan.stations) (hd : d ∈ y.channels) (kept : K d.channel) :
    d.baselinePending = s.BaselineDue y.address d.channel := by
  obtain ⟨x, hx, own, channels⟩ := flags y hy
  obtain ⟨c, hc, same, _, equal⟩ := channels d hd
  rw [equal kept, own, same, baselineDue_eq legal hx hc]

/-- The flag at the place of a well that stands is as it was. -/
theorem Flags.baselineDue (flags : Flags K s t) (legal : s.StationsLegal) (legal' : t.StationsLegal) {y : Slot}
    (hy : t.well? w = some y) (kept : K y.channel) :
    t.BaselineDue y.address y.channel = s.BaselineDue y.address y.channel := by
  obtain ⟨_, _, _, covered, _⟩ := id legal'
  obtain ⟨x, hx, address, c, hc, channel⟩ := covered _ (mem_of_well? hy).1
  have now := baselineDue_eq legal' hx hc
  have before := flags.pending legal hx hc (by rw [channel]; exact kept)
  rw [address, channel] at now before
  rw [now, before]

/-- A flag that is clear stays clear. -/
theorem Flags.cleared (flags : Flags K s t) (cleared : s.ClearedAt a k) : t.ClearedAt a k := by
  intro y hy own d hd channel
  obtain ⟨x, hx, address, channels⟩ := flags y hy
  obtain ⟨c, hc, same, falls, _⟩ := channels d hd
  have clear := cleared x hx (address.symm.trans own) c hc (same.symm.trans channel)
  rw [Bool.eq_false_iff] at clear ⊢
  exact fun h => clear (falls h)

end Sys2Proof.Machine
end

