-- ==== Sys2Proof/Proofs/ArrivalPassage.lean ====
section
/-! SUPPORT. The passage of one arrival through the reply: the other channels, the event unit's part, the events of the
arrival, the other channels again, and the round. What is kept by each of these holds at the end (R52, R60 to R62, R73). -/

namespace Sys2Proof.Machine

variable {s t u e m z : State} {v : Arrival} {w : Well} {a : Nat} {due steady : Bool} {hs : List Handed}

/-- The transaction is over with its count returned to 0, and no channel has taken its readings (R60). -/
def begun (a : Nat) (s : State) : State := clearFailures a (landed s)

/-- The passage of the arrival: `e` before its turn, `m` with the event unit's part taken, and `z` when all channels have
taken their readings; the blocks take its events in the order `hs`. -/
structure Passage (v : Arrival) (a : Nat) (due : Bool) (s : State) (hs : List Handed) (e m z : State) : Prop where
  stands  : s.well? v.well = some v.slot
  legal   : s.RecordsLegal
  ordered : z.StationsOrdered
  levels  : v.Levels due
  begins  : (begun a s).Landed
  before  : OthersTurned v.well (begun a s) e
  entry   : LevelsTaken v a due e m
  order   : hs.Perm v.handed
  course  : Course v s hs m
  after   : OthersTurned v.well (takeAllHanded v.well hs m) z
  cleared : z.ClearedAt a v.reading.channel
  round   : z.scan.round = .running (some a)

/-! ### What is kept through the reply -/

theorem begun_rested (a : Nat) (s : State) (w : Well) : Rested w s (begun a s) :=
  ⟨rfl, rfl, rfl, fun _ => id, fun _ _ _ => id, fun q hq => ⟨q, hq, rfl, rfl, rfl, rfl, fun _ _ => rfl⟩⟩

/-- A device state that has gone nowhere but to SAFE and stands as at first stood so in between. -/
theorem state_between {p q r : DeviceState} (first : q = p ∨ q = .safe) (second : r = q ∨ r = .safe) (same : r = p) :
    q = p ∧ r = q := by
  rcases second with kept | safe
  · exact ⟨kept.symm.trans same, kept⟩
  · have before : p = .safe := same.symm.trans safe
    rcases first with stood | gone
    · exact ⟨stood, same.trans stood.symm⟩
    · exact ⟨gone.trans before.symm, safe.trans gone.symm⟩

/-- `P` where the device state has not left that of `s`. -/
def Steadily (steady : Bool) (s : State) (P : List Handed → State → Prop) (later : List Handed) (u : State) : Prop :=
  (u.device.state = s.device.state ∨ u.device.state = .safe) ∧
    ((steady = true → u.device.state = s.device.state) → P later u)

theorem Turned.state_safe {x : Well} (turned : Turned x t u) :
    u.device.state = t.device.state ∨ u.device.state = .safe := turned.state.imp_right And.left

variable {P : List Handed → State → Prop} {Q : State → Prop} {later later' : List Handed}

theorem Steadily.next (holds : Steadily steady s P later t)
    (moved : u.device.state = t.device.state ∨ u.device.state = .safe)
    (step : (steady = true → u.device.state = t.device.state) → P later t → P later' u) :
    Steadily steady s P later' u := by
  obtain ⟨reached, before⟩ := holds
  refine ⟨?_, fun same => step (fun on => (state_between reached moved (same on)).2)
    (before fun on => (state_between reached moved (same on)).1)⟩
  rcases moved with h | h
  · rw [h]
    exact reached
  · exact .inr h

theorem Leads.turned_all (leads : Leads v s steady P Q) (place : v.Full later ∨ later = [])
    (turned : OthersTurned v.well t u) (before : Steadily steady s P later t) : Steadily steady s P later u := by
  induction turned with
  | refl => exact before
  | tail _ last ih =>
    obtain ⟨x, other, last⟩ := last
    exact ih.next last.state_safe (leads.turned x later _ _ place other last)

/-- A property kept through the reply holds when the round has gone on. -/
theorem Passage.settles (passage : Passage v a due s hs e m z) (leads : Leads v s steady P Q)
    (same : steady = true → (visitNext z).device.state = s.device.state) (start : ∀ later, v.Full later → P later s) :
    Q (visitNext z) := by
  have full : v.Full hs := fun h mem => passage.order.mem_iff.2 mem
  have begins : Steadily steady s P hs (begun a s) :=
    ⟨.inl rfl, fun _ => leads.written hs s _ full (begun_rested a s v.well) (start hs full)⟩
  have before := leads.turned_all (.inl full) passage.before begins
  have entered : Steadily steady s P hs m :=
    before.next (.inl passage.entry.rested.state) fun _ => leads.written hs e m full passage.entry.rested
  obtain ⟨_, taken⟩ := takeAllHanded_induct (P := Steadily steady s P)
    (fun h later u course holds => holds.next (takeHanded_handles (v := v.well) later h u course.landed).state_safe
      (leads.step h later u course)) hs passage.course entered
  obtain ⟨_, holds⟩ := leads.turned_all (.inr rfl) passage.after taken
  have rested := visitNext_rested passage.round v.well
  exact leads.ends z _ rested (holds fun on => rested.state.symm.trans (same on))

/-! ### What the passage consists of -/

theorem begun_landed (records : s.RecordsLegal) (running : s.scan.round ≠ .idle) (a : Nat) : (begun a s).Landed :=
  ⟨rfl, running, records⟩

theorem begun_stationsLegal (legal : s.StationsLegal) (a : Nat) : (begun a s).StationsLegal :=
  StationsLegal.rewritten (s := landed s) legal rfl rfl (fun _ _ => ⟨rfl, rfl, Nat.zero_le _, id⟩)
    fun _ _ _ hx hq active => .inl ((marks_of_slots (s := landed s) rfl).keepsActive hx hq active)

theorem begun_flags {K : Nat → Prop} (a : Nat) (s : State) : Flags K s (begun a s) := fun y hy => by
  obtain ⟨x, hx, rfl⟩ := List.mem_map.1 hy
  exact ⟨x, hx, by split <;> rfl, fun d hd => ⟨d, by split at hd <;> exact hd, rfl, id, fun _ => rfl⟩⟩

theorem Taking.onward {P : PollChannel × ChannelReading → Prop} (taking : Taking a P s t) (landed : s.Landed) :
    Onward s t :=
  (taking.related (R := Onward) .refl .trans (fun x order t _ _ => takeChannel_onward a x.1 x.2 order t) landed).2

/-- The record of the well at its turn is that of the arrival but for its marks. -/
theorem Stays.sameLevels {x y : Slot} (stays : Stays w s t) (hx : s.well? w = some x) (hy : t.well? w = some y) :
    SlotKept x y ∧ Stayed x.record y.record ∧ SameLevels x y := by
  obtain ⟨x', hx', kept⟩ := stays.slot y hy
  cases hx.symm.trans hx'
  obtain ⟨q, hq, stayed⟩ := stays.found x.record (by rw [State.record?, hx]; rfl)
  rw [State.record?, hy] at hq
  cases hq
  have stayed : Stayed x.record y.record := stayed
  exact ⟨kept, stayed, by rw [stayed.same], by rw [stayed.same], by rw [stayed.same], kept.runs⟩

theorem Stays.standing {x : Slot} (stays : Stays w s t) (hx : s.well? w = some x) : ∃ y, t.well? w = some y := by
  obtain ⟨q, hq, _⟩ := stays.found x.record (by rw [State.record?, hx]; rfl)
  obtain ⟨y, hy, _⟩ := Option.map_eq_some_iff.1 hq
  exact ⟨y, hy⟩

/-- What the event unit has recorded is the record of the arrival, neither isolated nor pulsed. -/
theorem Recorded.holds {y z : Slot} (recorded : Recorded v due y z) (stayed : Stayed v.slot.record y.record)
    (purgePulse : Nat) : v.Holds false false purgePulse z.record where
  same := by
    rw [recorded.record, stayed.same]
    rfl
  due := by
    rw [recorded.rest.surveyDue]
    exact stayed.due

theorem LevelsTaken.course (taken : LevelsTaken v a due e m) {y : Slot} (hy : e.well? v.well = some y)
    (stayed : Stayed v.slot.record y.record) (landed : e.Landed) (settings : e.settings = s.settings)
    (legal : v.slot.record.Legal) (order : hs.Perm v.handed) : Course v s hs m := by
  obtain ⟨z, hz, recorded⟩ := taken.recorded y hy
  have turned := taken.turned landed
  refine ⟨turned.landed, turned.settings.trans settings, fun h mem => order.mem_iff.1 mem,
    order.nodup_iff.2 (handed_nodup v), legal, fun q hq => ?_, fun gone => ?_⟩
  · rw [State.record?, hz] at hq
    cases hq
    refine ⟨false, false, recorded.holds stayed _, ⟨fun h => (nomatch h), fun h => ?_⟩, fun h => (nomatch h), fun h => ?_⟩
    · exact absurd (order.mem_iff.2 (isolate_handed.2 h.1.1)) h.2
    · exact absurd (order.mem_iff.2 (autoPurge_handed.2 h.1.1)) h.2
  · rw [State.record?, hz] at gone
    cases gone

/-! ### The channels as sent -/

/-- The channels of a POLL in flight, each with its reading: in ascending order, of distinct wells (R49). -/
structure Polled (s : State) (a : Nat) (l : List PollChannel) (channels : List ChannelReading) : Prop where
  flying : s.scan.inFlight = some { address := a, sent := .poll l }
  same   : channels.map (fun c => c.channel) = l.map fun p => p.channel
  sound  : s.Sound

variable {l : List PollChannel} {channels : List ChannelReading} {orders : List (List Nat)}

theorem zip_channel (same : channels.map (fun c => c.channel) = l.map fun p => p.channel) :
    ∀ x ∈ l.zip channels, x.2.channel = x.1.channel := by
  induction l generalizing channels with
  | nil => exact fun x mem => nomatch mem
  | cons p l ih =>
    cases channels with
    | nil => exact fun x mem => nomatch mem
    | cons c channels =>
      obtain ⟨first, rest⟩ := List.cons.inj same
      intro x mem
      rcases List.mem_cons.1 mem with rfl | mem
      · exact first
      · exact ih rest x mem

theorem Polled.transaction (polled : Polled s a l channels) : s.scan.round = .running (some a) ∧
    l.Pairwise (fun p q => p.channel < q.channel ∧ p.well ≠ q.well) ∧
    ∀ p ∈ l, ∀ x, s.well? p.well = some x → x.address = a ∧ x.channel = p.channel ∨ x.record.inputs = none := by
  obtain ⟨_, _, ⟨_, each⟩, _⟩ := polled.sound
  obtain ⟨round, _, pairs, places⟩ := each _ polled.flying
  refine ⟨round, List.pairwise_map.1 pairs, fun p hp x hx => ?_⟩
  exact places (p.channel, p.well) (List.mem_map.2 ⟨p, hp, rfl⟩) x hx

theorem Polled.begins (polled : Polled s a l channels) : (begun a s).Landed := by
  obtain ⟨records, _⟩ := id polled.sound
  exact begun_landed records (by rw [polled.transaction.1]; exact fun h => nomatch h) a

theorem Polled.apart (polled : Polled s a l channels) : (l.zip channels).Pairwise ApartFrom := by
  obtain ⟨_, pairs, _⟩ := polled.transaction
  have length : l.length ≤ channels.length := by
    have lengths := congrArg List.length polled.same
    rw [List.length_map, List.length_map] at lengths
    omega
  rw [← List.map_fst_zip length, List.pairwise_map] at pairs
  refine pairs.imp_of_mem fun {x y} hx hy ⟨channel, well⟩ => ⟨well, ?_⟩
  rw [zip_channel polled.same x hx, zip_channel polled.same y hy]
  exact Nat.ne_of_lt channel

theorem Polled.onward (polled : Polled s a l channels) {P : PollChannel × ChannelReading → Prop}
    (taking : Taking a P (begun a s) t) : t.StationsLegal ∧ t.scan.round = .running (some a) := by
  obtain ⟨_, stations, _⟩ := id polled.sound
  obtain ⟨legal, _, round⟩ := (taking.onward polled.begins).goes (begun_stationsLegal stations a) rfl polled.begins.running
  exact ⟨legal, round.trans polled.transaction.1⟩

theorem levels_of_arrives (arrives : s.Arrives a l channels v) : v.Levels (s.BaselineDue a v.reading.channel) := by
  obtain ⟨_, _, _, baseline, after, before⟩ := arrives
  exact ⟨baseline, after, before⟩

/-- Every arrival of the reply has its passage (R60). -/
theorem passage_of_arrives (polled : Polled s a l channels) (arrives : s.Arrives a l channels v)
    (orders : List (List Nat)) : ∃ hs e m,
    Passage v a (s.BaselineDue a v.reading.channel) s hs e m (takeChannels a l channels orders (begun a s)) := by
  have levels := levels_of_arrives arrives
  obtain ⟨⟨p, mem, well, valve⟩, stands, intact, _⟩ := arrives
  obtain ⟨records, stations, _⟩ := id polled.sound
  obtain ⟨_, _, places⟩ := polled.transaction
  have channel := zip_channel polled.same _ mem
  obtain ⟨e, order, before, after, _⟩ :=
    takeChannels_turn (a := a) polled.apart mem orders (begun a s)
  have begins := polled.begins
  have others := before.turned (w := v.well) begins fun x apart => well ▸ apart.1
  have passed := others.passed begins
  have stays := beside_stays passed.beside
  have stood : (begun a s).well? v.well = some v.slot := stands
  obtain ⟨y, hy⟩ := stays.standing stood
  obtain ⟨kept, stayed, same⟩ := stays.sameLevels stood hy
  have legal := legal_of_record records (w := v.well) (q := v.slot.record) (by rw [State.record?, stands]; rfl)
  obtain ⟨legalE, _⟩ := polled.onward before
  have flag (present : v.slot.record.inputs ≠ none) :
      e.BaselineDue a v.reading.channel = s.BaselineDue a v.reading.channel := by
    obtain ⟨address, place⟩ := (places p (List.of_mem_zip mem).1 v.slot (well ▸ stands)).resolve_right present
    have flags : Flags (· = v.reading.channel) s e := (begun_flags a s).trans
      (before.flags begins fun x apart => apart.2)
    have own : y.channel = v.reading.channel := (kept.channel.trans place).trans channel.symm
    have due := flags.baselineDue stations legalE hy own
    rw [own, kept.address, address] at due
    exact due
  obtain ⟨hs, m, perm, turn, entry⟩ := takeChannel_enters (order := order) well.symm valve.symm levels legalE.2.1 hy
    (kept.intact intact) same flag
  have course : Course v s hs m := entry.course hy stayed passed.landed passed.settings legal perm
  have taken := takeAllHanded_handles (v := v.well) hs m course.landed
  rw [turn] at after
  obtain ⟨⟨_, ordered, _⟩, round⟩ := polled.onward (takeChannels_taking (a := a) l channels orders (begun a s))
  refine ⟨hs, e, m, stands, records, ordered, levels, begins, others, entry, perm, course,
    after.turned taken.landed fun x apart => well ▸ apart.1, ?_, round⟩
  have flags : Flags (· = v.reading.channel) m (takeChannels a l channels orders (begun a s)) := taken.flags.trans
    (after.flags taken.landed fun x apart => apart.2)
  exact flags.cleared entry.cleared

end Sys2Proof.Machine
end

