-- ==== Sys2Proof/Proofs/ArrivalOutcome.lean ====
section
/-! SUPPORT. What the reply leaves of an arrival: the record written, the event kinds raised, the debounce runs, the report
of ACTUATOR_FAULT, and what the move scheduler and the sequencer make of it (R40, R60 to R62, R69 to R73). -/

namespace Sys2Proof.Machine

variable {s t u e m z : State} {v : Arrival} {w : Well} {a : Nat} {due : Bool} {hs : List Handed} {q : WellRecord}

/-- All events of the arrival are taken. -/
theorem Passage.taken (passage : Passage v a due s hs e m z) : Course v s [] (takeAllHanded v.well hs m) :=
  (takeAllHanded_induct (P := fun _ _ => True) (fun _ _ _ _ _ => trivial) hs passage.course trivial).1

theorem Passage.staysAfter (passage : Passage v a due s hs e m z) :
    Stays v.well (takeAllHanded v.well hs m) z :=
  beside_stays (passage.after.passed passage.taken.landed).beside

/-- The record of the well after all channels is as the arrival has written it. -/
theorem Passage.holds (passage : Passage v a due s hs e m z) (hq : z.record? v.well = some q) :
    ∃ iso pulse, v.Holds iso pulse s.settings.purgePulse q ∧ (iso = true ↔ v.Isolates) ∧ (pulse = true ↔ v.Pulses) := by
  cases hr : (takeAllHanded v.well hs m).record? v.well with
  | none =>
    have gone := passage.staysAfter.gone (well?_eq_none.2 hr)
    rw [well?_eq_none.1 gone] at hq
    cases hq
  | some r =>
    obtain ⟨p, hp, stayed⟩ := passage.staysAfter.found r hr
    cases hq.symm.trans hp
    obtain ⟨⟨iso, pulse, holds, done, started⟩⟩ := passage.taken.record r hr
    exact ⟨iso, pulse, holds.stayed stayed, by simpa using done, by simpa using started⟩

/-- The slot of the well as its debounce runs and its input event kinds have come through. -/
theorem Passage.slot (passage : Passage v a due s hs e m z) {y : Slot} (hy : z.well? v.well = some y) :
    y.runs = arrivedRuns due v.slot v.reading.raw ∧
    ∀ i, i < 4 → (y.record.events.getLsbD i = true ↔ v.slot.record.events.getLsbD i = true ∨ v.Kind i) := by
  have passed := passage.before.passed passage.begins
  have stays := beside_stays passed.beside
  have stood : (begun a s).well? v.well = some v.slot := passage.stands
  obtain ⟨x, hx⟩ := stays.standing stood
  obtain ⟨before, _⟩ := stays.sameLevels stood hx
  obtain ⟨p, hp, recorded⟩ := passage.entry.recorded x hx
  obtain ⟨n, hn, after⟩ := passage.staysAfter.slot y hy
  obtain ⟨p', hp', taken⟩ := (takeAllHanded_handles (v := v.well) hs m passage.course.landed).slots v.well n hn
  cases hp.symm.trans hp'
  refine ⟨(after.runs.trans taken.runs).trans recorded.runs, fun i low => ?_⟩
  rw [after.inputs i low, taken.inputs i low, recorded.events, before.inputs i low]

/-! ### The record -/

/-- A well that is gone at the end was RETIRING and seen closed (R40). -/
theorem Passage.closed (passage : Passage v a due s hs e m z) (none : (visitNext z).record? v.well = none) :
    v.ShowsClosed s.settings.moveBand := by
  refine (passage.taken.gone ?_).1
  cases hr : (takeAllHanded v.well hs m).record? v.well with
  | none => rfl
  | some r =>
    obtain ⟨p, hp, _⟩ := passage.staysAfter.found r hr
    obtain ⟨y, hy, _⟩ := Option.map_eq_some_iff.1 hp
    obtain ⟨x, _, hx, _⟩ := (visitNext_detected passage.round).1.found v.well y hy
    rw [State.record?, hx] at none
    cases none

theorem Arrival.Holds.written {iso pulse : Bool} {purgePulse : Nat} (holds : v.Holds iso pulse purgePulse q)
    (isolated : iso = true ↔ v.Isolates) (pulsed : pulse = true ↔ v.Pulses) : v.Written purgePulse q := by
  refine ⟨?_, holds.due⟩
  conv_lhs => rw [holds.same]
  simp only [Arrival.taken, WellRecord.withReadings, isolated, pulsed]
  cases v.reading.vacuum <;> cases v.reading.flow <;> cases v.reading.temp <;> rfl

/-- The record stands as the arrival has written it (R60, R70). -/
theorem Passage.written (passage : Passage v a due s hs e m z) (hq : (visitNext z).record? v.well = some q) :
    v.Written s.settings.purgePulse q := by
  have marks := visitNext_marks z
  cases hr : z.record? v.well with
  | none => rw [marks.gone _ hr] at hq; cases hq
  | some r =>
    obtain ⟨iso, pulse, holds, isolated, pulsed⟩ := passage.holds hr
    obtain ⟨p, hp, same⟩ := marks.holds _ _ hr
    cases hq.symm.trans hp
    have stayed : Stayed r q := ⟨by rw [same], .inl (by rw [same])⟩
    exact (holds.stayed stayed).written isolated pulsed

/-- The debounce runs are those that the arrival leaves (R70). -/
theorem Passage.runs (passage : Passage v a due s hs e m z) {y : Slot} (hy : (visitNext z).well? v.well = some y) :
    y.runs = arrivedRuns due v.slot v.reading.raw := by
  obtain ⟨x, hx, same⟩ := (visitNext_keeps z).runs _ y hy
  rw [same, (passage.slot hx).1]

/-! ### The event kinds -/

/-- The input event kinds are those of the arrival, and those that level detection selects at the end of a round (R71, R74). -/
theorem Passage.raises (passage : Passage v a due s hs e m z) (hq : (visitNext z).record? v.well = some q) :
    v.Raises (∀ x ∈ (visitNext z).scan.stations, x.address ≤ a) q := by
  obtain ⟨y, hy, rfl⟩ := Option.map_eq_some_iff.1 hq
  obtain ⟨detected, ended⟩ := visitNext_detected passage.round
  cases hx : z.well? v.well with
  | none => rw [detected.gone _ hx] at hy; cases hy
  | some x =>
    obtain ⟨y', kinds, hy', added, detects⟩ := detected.found _ x hx
    cases hy.symm.trans hy'
    have record : z.record? v.well = some x.record := by rw [State.record?, hx]; rfl
    obtain ⟨iso, pulse, holds, _⟩ := passage.holds record
    have inputs : x.record.inputs = some v.after := by rw [holds.same]; rfl
    have detect : x.record.detect = v.slot.record.detect := by rw [holds.same]; rfl
    obtain ⟨_, own⟩ := passage.slot hx
    intro i f place
    have low : i < 4 := by
      simp only [List.mem_cons, Prod.mk.injEq, List.not_mem_nil, or_false] at place
      omega
    have first : x.record.events.getLsbD i = true ↔ v.slot.record.events.getLsbD i = true ∨
        v.Rose f ∧ v.slot.record.detect.getLsbD (4 * i) = true ∨
        v.Fell f ∧ v.slot.record.detect.getLsbD (4 * i + 1) = true := by rw [own i low, Arrival.kind_iff place]
    refine ⟨fun raised => (added.events i).2 (.inl (first.2 raised)), fun stands => ?_⟩
    rcases ended with last | same
    · rcases (added.events i).1 stands with before | kind
      · rcases first.1 before with h | h | h
        · exact .inl h
        · exact .inr (.inl h)
        · exact .inr (.inr (.inl h))
      · obtain ⟨_, _, g, p, place', levels, selected⟩ := (detects_iff passage.ordered x i).1 (detects i kind)
        cases inputs.symm.trans levels
        have fg : g = f := by
          simp only [List.mem_cons, Prod.mk.injEq, List.not_mem_nil, or_false] at place place'
          rcases place with ⟨rfl, rfl⟩ | ⟨rfl, rfl⟩ | ⟨rfl, rfl⟩ | ⟨rfl, rfl⟩ <;>
            simpa using place'
        rw [fg, detect] at selected
        refine .inr (.inr (.inr ⟨fun st hst => last st ?_, selected⟩))
        rw [← detected.stations]
        exact hst
    · rw [well?_congr same, hx] at hy
      cases hy
      rcases first.1 stands with h | h | h
      · exact .inl h
      · exact .inr (.inl h)
      · exact .inr (.inr (.inl h))

/-! ### The report -/

/-- ACTUATOR_FAULT is still to be reported, or it is reported (R72). -/
def ReportComes (v : Arrival) (later : List Handed) (u : State) : Prop :=
  .actuatorReport ∈ later ∨ u.Reported .actuatorFault v.well.tag 0

theorem report_leads (heard : s.settings.severity.actuatorFault ≠ .ignored) :
    Leads v s false (ReportComes v) (ReportComes v []) where
  turned _ _ _ _ _ _ turned _ := .imp id (turned.reports _ _ _)
  written _ _ _ _ rested := .imp id (rested.reports _ _ _)
  step h later u course _ before := by
    by_cases report : h = .actuatorReport
    · subst report
      refine .inr (reportFault_reported _ _ _ u ?_)
      rw [course.settings]
      exact heard
    · rcases before with mem | reported
      · exact .inl ((List.mem_cons.1 mem).resolve_left (Ne.symm report))
      · exact .inr ((takeHanded_handles (v := v.well) later h u course.landed).reports _ _ _ reported)
  ends _ _ rested := .imp id (rested.reports _ _ _)

theorem Passage.reports (passage : Passage v a due s hs e m z) (rose : v.Rose PerInput.actuator)
    (heard : s.settings.severity.actuatorFault ≠ .ignored) :
    (visitNext z).Reported .actuatorFault v.well.tag 0 :=
  (passage.settles (report_leads heard) (fun h => nomatch h)
    fun _ full => .inl (full _ (actuatorReport_handed.2 rose))).resolve_left fun h => nomatch h

/-! ### The blocks -/

theorem Passage.record (passage : Passage v a due s hs e m z) : s.record? v.well = some v.slot.record := by
  rw [State.record?, passage.stands]
  rfl

/-- What the move scheduler leaves of the arrival (R40, R61, R62, R72). -/
theorem Passage.movesAfter (passage : Passage v a due s hs e m z)
    (same : (visitNext z).device.state = s.device.state) : s.MovesAfter (visitNext z) v :=
  movesAfter_of passage.stands (legal_of_record passage.legal passage.record) passage.levels.calm
    fun _ claim start => passage.settles claim.leads (fun _ => same) start

/-- In a legal queue QUEUED says where each well stands (R86 to R88). -/
theorem queueFits_of_legal (legal : s.QueueLegal) (w : Well) : QueueFits w s := by
  obtain ⟨_, _, nodup, _, _, _, queued⟩ := legal
  have slot {r : WellRecord} (hr : s.record? w = some r) :
      (r.queued = .routine ↔ { well := w, cls := .routine } ∈ s.seq.queue) ∧
      (r.queued = .urgent ↔ { well := w, cls := .urgent } ∈ s.seq.queue) ∧
      (r.queued = .sampling ↔ s.seq.phase.current? = some w) := by
    obtain ⟨x, hx, rfl⟩ := Option.map_eq_some_iff.1 hr
    obtain ⟨mem, tag⟩ := mem_of_well? hx
    have place : wellOf (w.slot, x) = w := by
      cases w
      exact congrArg (Well.mk · _) tag
    have own := queued _ mem
    rw [place] at own
    exact own
  refine ⟨?_, fun e he own r hr => ?_, fun current r hr => ?_⟩
  · have once : ((entriesOf w s.seq.queue).map fun e => e.well).Nodup :=
      nodup.sublist (List.filter_sublist.map _)
    have all : ∀ x ∈ (entriesOf w s.seq.queue).map (fun e => e.well), x = w := by
      simp only [List.mem_map, forall_exists_index, and_imp]
      rintro _ e he rfl
      exact (mem_entriesOf.1 he).2
    have length := (List.nodup_iff_count_le_one.1 once) w
    rwa [List.count_eq_length.2 fun x hx => (all x hx).symm, List.length_map] at length
  · obtain ⟨routine, urgent, _⟩ := slot hr
    cases e with
    | mk x cls =>
      cases own
      cases cls with
      | routine => exact routine.2 he
      | urgent => exact urgent.2 he
  · obtain ⟨_, _, sampling⟩ := slot hr
    exact sampling.2 current

/-- What the sequencer leaves of the arrival (R72, R73, R92, R95, R102 to R104). -/
theorem Passage.samplesAfter (passage : Passage v a due s hs e m z) (queue : s.QueueLegal) :
    s.SamplesAfter (visitNext z) v :=
  samplesAfter_of passage.stands (queueFits_of_legal queue v.well) fun _ _ _ => passage.settles

end Sys2Proof.Machine
end

