-- ==== Sys2Proof/Proofs/DamagedChannels.lean ====
section
/-! SUPPORT. A damaged record among the channels of a reply: it stands damaged until its turn, when no block holds its well,
and is freed there for good (R19, R20, R60). -/

namespace Sys2Proof.Machine

variable {s t u : State} {v w x : Well} {a : Nat} {y : Slot} {l : List PollChannel} {channels : List ChannelReading}

/-! ### The slot of a well that no block holds -/

theorem well?_setWellEvent_other {k : WellEvent} (other : w ≠ x) (s : State) :
    (setWellEvent k x s).well? w = s.well? w := by
  rw [setWellEvent, well?_congr (wakeTest_slots k x _)]
  show (writeRecord (addEvent k) x s).well? w = s.well? w
  rw [well?_writeRecord, if_neg other]

theorem well?_endMove_other {o : MoveOutcome} (other : w ≠ x) (s : State) : (endMove o x s).well? w = s.well? w := by
  rw [endMove, well?_setWellEvent_other other, well?_writeRecord, if_neg other]
  rfl

theorem well?_writeOutcome_other {o : SampleOutcome} (other : w ≠ x) (s : State) :
    (writeOutcome o x s).well? w = s.well? w := by
  rw [writeOutcome, well?_setWellEvent_other other, well?_writeRecord, if_neg other]

theorem abandonMoves_well (ws : List Well) (unlisted : ¬ s.Listed w) :
    (abandonMoves ws s).well? w = s.well? w := by
  induction ws generalizing s with
  | nil => rfl
  | cons x ws ih =>
    have unfolded : abandonMoves (x :: ws) s =
        abandonMoves ws (if s.moving x then endMove .abandoned x s else s) := rfl
    rw [unfolded]
    split
    · rename_i moving
      have other : w ≠ x := fun e => unlisted (e ▸ (moving_iff s x).1 moving)
      have left : ¬ (endMove .abandoned x s).Listed w := by
        rw [State.Listed, endMove_inLists, List.mem_filter]
        exact fun h => unlisted h.1
      rw [ih left, well?_endMove_other other]
    · exact ih unlisted

theorem abortSample_well (away : s.seq.phase.current? ≠ some w) : (abortSample s).well? w = s.well? w := by
  cases opened : s.seq.phase.isOpen with
  | false => rw [abortSample_of_shut opened]
  | true =>
    obtain ⟨x, sample⟩ := current?_of_open opened
    rw [abortSample_of_open sample]
    have other : w ≠ x := by
      rintro rfl
      exact away sample.2
    exact well?_writeOutcome_other other _

/-- A report leaves the slot of a well that no block holds. -/
theorem reportFault_well {k : FaultKind} {n : Nat} {d : Half} (running : s.scan.round ≠ .idle) (unlisted : ¬ s.Listed w)
    (away : s.seq.phase.current? ≠ some w) : (reportFault k n d s).well? w = s.well? w := by
  obtain ⟨u, slots, seq, lists, e | ⟨_, _, moves, sample, permit, e⟩⟩ := reportFault_parts k n d running
  · rw [e]
    exact well?_congr slots w
  · have out : ¬ u.Listed w := by rw [State.Listed, State.inLists, lists]; exact unlisted
    have abandoned : (takeIf moves abandonAllMoves u).well? w = u.well? w := by
      cases moves with
      | false => rfl
      | true => exact abandonMoves_well _ out
    have seq' : (takeIf moves abandonAllMoves u).seq = s.seq :=
      (takeIf_same State.seq _ (fun t => (abandonAllMoves_seqApart t).seq) u).trans seq
    have aborted : (takeIf sample abortSample (takeIf moves abandonAllMoves u)).well? w =
        (takeIf moves abandonAllMoves u).well? w := by
      cases sample with
      | false => rfl
      | true => exact abortSample_well (by rw [seq']; exact away)
    have withdrawn (t : State) : (takeIf permit withdrawPermit t).well? w = t.well? w :=
      takeIf_same (fun t : State => t.well? w) _ (fun t => well?_congr (withdrawPermit_slots t) w) t
    rw [e, withdrawn, aborted, abandoned, well?_congr slots]

/-! ### A damaged record waits for its turn -/

/-- The slot `y` stands, and no block holds the well. -/
structure Idle (w : Well) (y : Slot) (s : State) : Prop where
  stands   : s.well? w = some y
  unqueued : s.Unqueued w
  away     : s.seq.phase.current? ≠ some w
  unlisted : ¬ s.Listed w

theorem Beside.idle (h : Beside w s t) (idle : Idle w y s) : Idle w y t := by
  have unheaded {e : QueueEntry} {rest : List QueueEntry} (head : s.seq.queue = e :: rest) (own : e.well = w) : False :=
    idle.unqueued e (by rw [head]; exact List.mem_cons_self ..) own
  have shut : ¬ s.SampleOpen w := fun h => idle.away h.2
  have queue := h.shut idle.unqueued shut
  refine ⟨?_, queue.unqueued, queue.away idle.away, (h.unlisted idle.unlisted).1⟩
  cases h with
  | unseen seat _ _ _ => exact (congrArg Seat.slot seat).trans idle.stands
  | granted head => exact absurd ((listed_iff s w).2 (.inr (by simp [MoveScheduler.waits, head]))) idle.unlisted
  | evicted mem own _ => exact absurd own (idle.unqueued _ mem)
  | blocked head own _ _ => exact (unheaded head own).elim
  | selected head own _ _ => exact (unheaded head own).elim
  | reported k n d landed => exact (reportFault_well landed.running idle.unlisted idle.away).trans idle.stands

/-- A record that says so is in no queue and no list (R86, R109). -/
theorem idle_of_marks (sound : s.Sound) (hy : s.well? w = some y) (queued : y.record.queued = .no)
    (moves : y.record.moveState = .none) : Idle w y s := by
  obtain ⟨_, _, _, queue, lists⟩ := sound
  have record : s.record? w = some y.record := by rw [State.record?, hy]; rfl
  have fits := queueFits_of_legal queue w
  obtain ⟨_, _, _, states⟩ := lists
  obtain ⟨mem, tag⟩ := mem_of_well? hy
  have place : wellOf (w.slot, y) = w := by
    cases w
    exact congrArg (Well.mk · _) tag
  obtain ⟨moving, waiting⟩ := states _ mem
  rw [place, moves] at moving waiting
  refine ⟨hy, fun e he own => ?_, fun current => ?_, fun listed => ?_⟩
  · have cls : y.record.queued = e.cls.queued := fits.entry e he own _ record
    exact (queued_of_class e.cls).1 (cls.symm.trans queued)
  · have sampling : y.record.queued = .sampling := fits.current current _ record
    rw [queued] at sampling
    cases sampling
  · rcases (listed_iff s w).1 listed with holds | waits
    · cases moving.2 holds
    · cases waiting.2 waits

/-! ### The freeing -/

/-- The well has been freed and RECORD_CHECK has been reported, where it is heard (R19). -/
structure Freed (w : Well) (s t : State) : Prop where
  gone     : t.well? w = none
  index    : ∀ e ∈ t.index, e ≠ (w.tag, w.slot)
  reported : s.settings.severity.recordCheck ≠ .ignored → t.Reported .recordCheck w.tag (BitVec.ofNat 16 w.slot)

theorem freed_of_damaged (hy : s.well? w = some y) : Freed w s (freeDamaged w s) := by
  obtain ⟨gone, index, reported, _⟩ := freeDamaged_freed hy
  exact ⟨well?_eq_none.2 gone, index, reported⟩

theorem Freed.passed (freed : Freed w s t) (passed : Passed w t u) : Freed w s u where
  gone := (beside_stays passed.beside).gone freed.gone
  index e he := freed.index e (passed.index e he)
  reported heard := passed.reports _ _ _ (freed.reported heard)

theorem Freed.visitNext (freed : Freed w s t) : Freed w s (visitNext t) where
  gone := well?_eq_none.2 ((visitNext_marks t).gone w (well?_eq_none.1 freed.gone))
  index e he := freed.index e (by rw [← (visitNext_apart t).index]; exact he)
  reported heard := by
    rw [State.Reported, (visitNext_apart t).faults]
    exact freed.reported heard

theorem exists_zip {p : PollChannel} (same : channels.map (fun c => c.channel) = l.map fun p => p.channel)
    (mem : p ∈ l) : ∃ c, (p, c) ∈ l.zip channels := by
  have length : l.length ≤ channels.length := by
    have lengths := congrArg List.length same
    rw [List.length_map, List.length_map] at lengths
    omega
  rw [← List.map_fst_zip length] at mem
  obtain ⟨x, zipped, rfl⟩ := List.mem_map.1 mem
  exact ⟨x.2, zipped⟩

/-- A damaged record that is the first of the reply, or that no block holds, is freed at its turn (R19, R60). -/
theorem Polled.frees (polled : Polled s a l channels) {p : PollChannel} (mem : p ∈ l) (orders : List (List Nat))
    (hy : s.well? p.well = some y) (damaged : y.intact = false)
    (reached : l.head? = some p ∨ y.record.queued = .no ∧ y.record.moveState = .none) :
    Freed p.well s (visitNext (takeChannels a l channels orders (begun a s))) := by
  obtain ⟨c, zipped⟩ := exists_zip polled.same mem
  have begins := polled.begins
  obtain ⟨e, order, before, after, first⟩ := takeChannels_turn (a := a) polled.apart zipped orders (begun a s)
  have passed := (before.turned (w := p.well) begins fun x apart => apart.1).passed begins
  have stands : e.well? p.well = some y := by
    rcases reached with head | ⟨queued, moves⟩
    · rw [first head]
      exact hy
    · have idle : Idle p.well y (begun a s) := by
        obtain ⟨_, unqueued, away, unlisted⟩ := idle_of_marks polled.sound hy queued moves
        exact ⟨hy, unqueued, away, unlisted⟩
      exact (beside_holds (P := Idle p.well y) (fun _ _ step => step.idle) passed.beside idle).stands
  have turn : takeChannel a p c order e = freeDamaged p.well e := by
    unfold takeChannel
    rw [stands]
    simp only [damaged, Bool.false_eq_true, if_false]
  rw [turn] at after
  have landed := (freeDamaged_handles (v := p.well) e passed.landed).landed
  have freed := ((freed_of_damaged stands).passed
    ((after.turned (w := p.well) landed fun x apart => apart.1).passed landed)).visitNext
  exact ⟨freed.gone, freed.index, fun heard => freed.reported (by rw [passed.settings]; exact heard)⟩

end Sys2Proof.Machine
end

