-- ==== Sys2Proof/Proofs/ReadingsAreTaken.lean ====
section
/-! PROOF of ReadingsAreTaken: READINGS that do not fit fail the transaction; those that fit give every arrival its passage,
free the damaged records that are met, and leave the other wells but for their marks. -/

namespace Sys2Proof.Machine

variable {s t u : State} {v : Arrival} {w : Well} {a : Nat} {l : List PollChannel} {channels : List ChannelReading}
  {r : WellRecord}

/-! ### READINGS that do not fit -/

theorem inRange_iff (c : ChannelReading) : ChannelReading.inRange c = true ↔
    c.feedback ≤ 1000 ∧ ∀ t, c.temp = some t → -400 ≤ t ∧ t ≤ 1200 := by
  rw [ChannelReading.inRange, Bool.and_eq_true, decide_eq_true_eq]
  refine and_congr_right fun _ => ?_
  cases c.temp <;> simp

/-- A reading out of range is in the range of no reply (R51, condition 5). -/
theorem outOfRange {c : ChannelReading} (out : 1000 < c.feedback ∨ ∃ t, c.temp = some t ∧ (t < -400 ∨ 1200 < t)) :
    ChannelReading.inRange c = false := by
  rw [Bool.eq_false_iff, Ne, inRange_iff]
  rintro ⟨feedback, temp⟩
  rcases out with high | ⟨t, read, beyond⟩
  · omega
  · have range := temp t read
    omega

/-- READINGS whose check is bad, or that do not fit the transaction, fail it (R51). -/
theorem judgeReadings_fails {frame : LinkFrame} {tr : Transaction}
    (bad : frame.passes = false ∨ (∀ l, tr.sent ≠ .poll l) ∨ tr.address ≠ a ∨
      (∀ l, tr.sent = .poll l → channels.map (fun c => c.channel) ≠ l.map fun p => p.channel) ∨
      (∃ c ∈ channels, 1000 < c.feedback ∨ ∃ t, c.temp = some t ∧ (t < -400 ∨ 1200 < t)))
    (orders : List (List Nat)) (s : State) :
    judgeFrame frame (judgeReadings a channels orders) tr s = failTransaction tr.address s := by
  unfold judgeFrame
  split
  · rename_i passes
    unfold judgeReadings
    split
    · rename_i l sent
      have unfit : readingsFit a channels tr l = false := by
        rw [readingsFit, Bool.eq_false_iff]
        simp only [Ne, Bool.and_eq_true, decide_eq_true_eq, List.all_eq_true]
        rintro ⟨⟨own, same⟩, range⟩
        rcases bad with h | h | h | h | ⟨c, hc, out⟩
        · cases passes.symm.trans h
        · exact h l sent
        · exact h own.symm
        · exact h l sent same
        · cases (range c hc).symm.trans (outOfRange out)
      simp only [unfit, Bool.false_eq_true, if_false]
    · rfl
  · rfl

theorem exec_readings_fails {frame : LinkFrame} {tr : Transaction} (flying : s.scan.inFlight = some tr)
    (bad : frame.passes = false ∨ (∀ l, tr.sent ≠ .poll l) ∨ tr.address ≠ a ∨
      (∀ l, tr.sent = .poll l → channels.map (fun c => c.channel) ≠ l.map fun p => p.channel) ∨
      (∃ c ∈ channels, 1000 < c.feedback ∨ ∃ t, c.temp = some t ∧ (t < -400 ∨ 1200 < t)))
    (orders : List (List Nat)) :
    exec (.readings ⟨a, frame⟩ channels orders) s = exec .transactionFailure s := by
  show Host.Outcome.next (endTransaction _ s) = .next (endTransaction _ s)
  rw [endTransaction_eq flying, endTransaction_eq flying, judgeReadings_fails bad]

/-! ### What the whole reply leaves -/

/-- No tag has joined the index, and the device state is as it was, or SAFE by a FATAL report. -/
structure Narrowed (s t : State) : Prop where
  settings : t.settings = s.settings
  index    : ∀ e ∈ t.index, e ∈ s.index
  state    : t.device.state = s.device.state ∨
    t.device.state = .safe ∧ ∃ k, severityOf s.settings.severity k = .fatal

theorem Narrowed.trans (first : Narrowed s t) (second : Narrowed t u) : Narrowed s u where
  settings := second.settings.trans first.settings
  index e he := first.index e (second.index e he)
  state := by
    rcases second.state with same | ⟨safe, fatal⟩
    · rw [same]
      exact first.state
    · exact .inr ⟨safe, by rw [← first.settings]; exact fatal⟩

theorem Polled.narrowed (polled : Polled s a l channels) (orders : List (List Nat)) :
    Narrowed (begun a s) (takeChannels a l channels orders (begun a s)) :=
  ((takeChannels_taking (a := a) l channels orders (begun a s)).related (R := Narrowed)
    (fun _ => ⟨rfl, fun _ => id, .inl rfl⟩) Narrowed.trans (fun x order t _ landed =>
      have turned := takeChannel_turns a x.1 x.2 order t landed
      ⟨turned.settings, turned.index, turned.state⟩) polled.begins).2

/-- A well that is none of the reply's stands but for its marks and its SURVEY_DUE (R92). -/
theorem Polled.others (polled : Polled s a l channels) (orders : List (List Nat)) (hr : s.record? w = some r)
    (other : ∀ p ∈ l, p.well ≠ w) : ∃ due, (due = r.surveyDue ∨ due = 0) ∧
      (visitNext (takeChannels a l channels orders (begun a s))).HoldsUpToMarks w { r with surveyDue := due } := by
  have taking := takeChannels_taking (a := a) l channels orders (begun a s)
  have passed := (taking.turned (w := w) polled.begins fun x mem =>
    other x.1 (List.of_mem_zip (a := x.1) (b := x.2) mem).1).passed polled.begins
  obtain ⟨q, hq, stayed⟩ := (beside_stays passed.beside).found r hr
  refine ⟨q.surveyDue, stayed.due, holdsUpToMarks_trans ⟨q, hq, ?_⟩ (visitNext_marks _)⟩
  conv_lhs => rw [stayed.same]

/-- The baselines taken are no longer pending, and those of the other channels are pending as they were (R62). -/
theorem Polled.flags (polled : Polled s a l channels) (orders : List (List Nat)) {st : StationRecord}
    {c : StationChannel} (mem : st ∈ (takeChannels a l channels orders (begun a s)).scan.stations)
    (own : st.address = a) (here : c ∈ st.channels) :
    ((∃ v, s.Arrives a l channels v ∧ v.reading.channel = c.channel) → c.baselinePending = false) ∧
      ((∀ p ∈ l, p.channel ≠ c.channel) → c.baselinePending = s.BaselineDue a c.channel) := by
  refine ⟨fun ⟨v, arrives, channel⟩ => ?_, fun other => ?_⟩
  · obtain ⟨hs, e, m, passage⟩ := passage_of_arrives polled arrives orders
    exact passage.cleared st mem own c here channel.symm
  · obtain ⟨_, stations, _⟩ := id polled.sound
    have taking := takeChannels_taking (a := a) l channels orders (begun a s)
    have flags : Flags (· = c.channel) s (takeChannels a l channels orders (begun a s)) :=
      (begun_flags a s).trans (taking.flags polled.begins fun x zipped same => by
        rw [zip_channel polled.same x zipped] at same
        exact other x.1 (List.of_mem_zip (a := x.1) (b := x.2) zipped).1 same)
    have pending := flags.pending stations mem here rfl
    rw [own] at pending
    exact pending

/-- Settles O59: an arrival passes the channels before it, the event unit, the blocks and the channels after it, and each
clause is a property that every one of these keeps, whatever the order of its events. -/
theorem readingsAreTaken : Obligations.ReadingsAreTaken := by
  intro s a channels frame orders tr flying
  refine ⟨fun bad => exec_readings_fails flying bad orders, fun l passes sent same range sound => ?_⟩
  subst sent
  have polled : Polled s a l channels := ⟨flying, same, sound⟩
  obtain ⟨t, next, failures, sends, base⟩ := readings_goOn orders flying passes rfl same range
  have taken : t = visitNext (takeChannels a l channels orders (begun a s)) := by
    rw [exec_readings_fits orders flying passes rfl same range] at next
    exact (Host.Outcome.next.inj next).symm
  have narrowed := polled.narrowed orders
  obtain ⟨_, _, _, queue, _⟩ := id sound
  refine ⟨t, next, fun v arrives => ?_, fun p mem x hx damaged reached => ?_, fun v r hr other => ?_, fun e he => ?_, ?_,
    fun st mem own => ⟨failures st mem own, fun c here => ?_⟩, sends sound, base⟩
  · obtain ⟨hs, e, m, passage⟩ := passage_of_arrives polled arrives orders
    rw [taken]
    exact ⟨passage.closed, fun q hq => ⟨passage.written hq, passage.raises hq⟩, passage.reports,
      fun y hy => passage.runs hy, passage.movesAfter, passage.samplesAfter queue⟩
  · rw [taken]
    obtain ⟨gone, index, reported⟩ := polled.frees mem orders hx damaged reached
    exact ⟨gone, index, reported⟩
  · rw [taken]
    exact polled.others orders hr other
  · rw [taken, (visitNext_apart _).index] at he
    exact narrowed.index e he
  · rw [taken, (visitNext_apart _).state]
    exact narrowed.state
  · rw [taken, visitNext_stations] at mem
    exact polled.flags orders mem own here

end Sys2Proof.Machine
end
